-- ==== Sys2Proof/Word.lean ====
section
/-! DEFINITION. The word types of the engine: a byte, and a byte sequence of a fixed length. -/

namespace Sys2Proof

/-- One byte: the only access width of the register bus (spec 20_memory R53), bit 0 least significant (00_scope R10). -/
abbrev Byte := BitVec 8

/-- A register address: "Each address occupies 6 bits" (20_memory R56). -/
abbrev RegAddr := BitVec 6

/-- Exactly `n` bytes (the `byte[n]` of 30_encoding R86): "These are types, not run-time checks" (42_card_session R131). -/
abbrev Bytes (n : Nat) := {l : List Byte // l.length = n}

end Sys2Proof
end

