-- ==== Sys2Proof/Syntax.lean ====
section
/-! DEFINITION. What the engine is asked to do: the closed enumerations of the spec (chip registers, chip commands,
operations, error kinds, formats) and the one inductive of instructions, one constructor per row of
spec/opcode_table.json. No meaning is given here. -/

namespace Sys2Proof

/-- The nineteen chip registers the engine addresses (10_state R30, R45; 90_conflicts C3). -/
inductive Reg
  | command | comIEn | comIrq | divIrq | error | status2 | fifoData | fifoLevel | control | bitFraming
  | mode | txControl | txAuto | crcResultH | crcResultL | tMode | tPrescaler | tReloadH | tReloadL
  deriving DecidableEq, Repr

/-- Every chip register once, in the order of the table of 10_state R30. -/
def Reg.all : List Reg :=
  [.command, .comIEn, .comIrq, .divIrq, .error, .status2, .fifoData, .fifoLevel, .control, .bitFraming,
   .mode, .txControl, .txAuto, .crcResultH, .crcResultL, .tMode, .tPrescaler, .tReloadH, .tReloadL]

/-- The "enumeration {Idle, CalcCrc, Transceive, Authenticate, SoftReset}" (30_encoding R74). -/
inductive ChipCommand
  | idle | calcCrc | transceive | authenticate | softReset
  deriving DecidableEq, Repr

/-- Every chip command once, in the order of 30_encoding R74. -/
def ChipCommand.all : List ChipCommand := [.idle, .calcCrc, .transceive, .authenticate, .softReset]

/-- The operations of the engine and the one pseudo-operation, in the order of their select codes (00_scope R3,
30_encoding R83). -/
inductive HostOp
  | execute | computeCrc | reset | init | request | antiCollision | selectTag | authenticate
  | readBlock | writeBlock | stopCrypto | wait | encode | decode | getBit | selectCard
  deriving DecidableEq, Repr

/-- The error kinds (60_exceptions R163, codes 1 to 10). Success (code 0) is not an error kind here. -/
inductive ErrKind
  | timeoutError | protocolError | checksumError | cardNotPresentError | authReadFailure | authFailure
  | writeNotAuthorizedError | writeFailedError | dataLengthError | abandoned
  deriving DecidableEq, Repr

/-- The "enumeration {Ok, ReadFailure, Failure}" (42_card_session R134). -/
inductive AuthStatus
  | ok | readFailure | failure
  deriving DecidableEq, Repr

/-- "four 3-bit access codes" (43_access_codec R140). The codes are held as bytes, since a request can carry a code
above 7, which is refused (R148); WellFormed says which values are in range. -/
structure BlocksAccess where
  b0 : Byte
  b1 : Byte
  b2 : Byte
  b3 : Byte
  deriving DecidableEq, Repr

/-- The channel a word comes on, which tells its format (30_encoding R70). `authFrame` and `writeData` are the two card
frames with no opcode of their own: AUTH is "recognised by being the FIFO content of CMD.Authenticate", WRITEDATA "by
position, coming straight after an acknowledged WRITE" (R80, R81). -/
inductive Format
  | hostop | bus | chipcmd | card | authFrame | writeData | ack | access | errcode
  deriving DecidableEq, Repr

/-- One constructor per row of spec/opcode_table.json, in the table's order. -/
inductive Instr
  -- HOSTOP rows (30_encoding R83, R86)
  | execute (command : ChipCommand) (outData : List Byte)
  | computeCrc (data : List Byte)
  | reset
  | init
  | request
  | antiCollision
  | selectTag (uid : Bytes 4)
  | authenticate (mode blockAddress : Byte) (key : Bytes 6) (uid : Bytes 4)
  | readBlock (blockAddress : Byte)
  | writeBlock (blockAddress : Byte) (data : Bytes 16)
  | stopCrypto
  | wait
  | encode (blocks : BlocksAccess)
  | decode (bytes : List Byte)
  | getBit (blocks : BlocksAccess) (n : Byte)
  | selectCard
  -- BUS rows: the two frames (30_encoding R71, R72) and the accesses to named registers (10_state R31 to R44)
  | busWrite (a : RegAddr) (v : Byte)
  | busRead (a : RegAddr)
  | wCommand (v : Byte)
  | wComIEn (v : Byte)
  | wComIrq (v : Byte)
  | rComIrq
  | wDivIrq (v : Byte)
  | rDivIrq
  | rError
  | wStatus2 (v : Byte)
  | rStatus2
  | wFifoData (v : Byte)
  | rFifoData
  | wFifoLevel (v : Byte)
  | rFifoLevel
  | rControl
  | wBitFraming (v : Byte)
  | rBitFraming
  | wMode (v : Byte)
  | wTxControl (v : Byte)
  | rTxControl
  | wTxAuto (v : Byte)
  | rCrcResultH
  | rCrcResultL
  | wTMode (v : Byte)
  | wTPrescaler (v : Byte)
  | wTReloadH (v : Byte)
  | wTReloadL (v : Byte)
  -- CHIPCMD rows (30_encoding R74)
  | cmdIdle
  | cmdCalcCrc
  | cmdTransceive
  | cmdAuthenticate
  | cmdSoftReset
  -- CARD rows (30_encoding R77 to R81)
  | cardReqa
  | cardAnticoll
  | cardSelect (uid : Bytes 4) (bcc : Option Byte) (crcLow crcHigh : Byte)
  | cardAuth (mode blockAddress : Byte) (key : Bytes 6) (uid : Bytes 4)
  | cardRead (blockAddress crcLow crcHigh : Byte)
  | cardWrite (blockAddress crcLow crcHigh : Byte)
  | cardWriteData (data : Bytes 16) (crcLow crcHigh : Byte)
  -- ACK and ACCESS rows (30_encoding R82, R88)
  | ack
  | access (bytes : Bytes 4)
  -- ERRCODE rows (60_exceptions R163)
  | errOk
  | errTimeoutError
  | errProtocolError
  | errChecksumError
  | errCardNotPresentError
  | errAuthReadFailure
  | errAuthFailure
  | errWriteNotAuthorizedError
  | errWriteFailedError
  | errDataLengthError
  | errAbandoned
  deriving DecidableEq, Repr

/-- The format of an instruction's words (the "format" column of the table; 30_encoding R70). -/
def Instr.format : Instr → Format
  | .execute _ _ | .computeCrc _ | .reset | .init | .request | .antiCollision | .selectTag _
  | .authenticate _ _ _ _ | .readBlock _ | .writeBlock _ _ | .stopCrypto | .wait | .encode _ | .decode _
  | .getBit _ _ | .selectCard => .hostop
  | .busWrite _ _ | .busRead _ | .wCommand _ | .wComIEn _ | .wComIrq _ | .rComIrq | .wDivIrq _ | .rDivIrq
  | .rError | .wStatus2 _ | .rStatus2 | .wFifoData _ | .rFifoData | .wFifoLevel _ | .rFifoLevel | .rControl
  | .wBitFraming _ | .rBitFraming | .wMode _ | .wTxControl _ | .rTxControl | .wTxAuto _ | .rCrcResultH
  | .rCrcResultL | .wTMode _ | .wTPrescaler _ | .wTReloadH _ | .wTReloadL _ => .bus
  | .cmdIdle | .cmdCalcCrc | .cmdTransceive | .cmdAuthenticate | .cmdSoftReset => .chipcmd
  | .cardReqa | .cardAnticoll | .cardSelect _ _ _ _ | .cardRead _ _ _ | .cardWrite _ _ _ => .card
  | .cardAuth _ _ _ _ => .authFrame
  | .cardWriteData _ _ _ => .writeData
  | .ack => .ack
  | .access _ => .access
  | .errOk | .errTimeoutError | .errProtocolError | .errChecksumError | .errCardNotPresentError
  | .errAuthReadFailure | .errAuthFailure | .errWriteNotAuthorizedError | .errWriteFailedError
  | .errDataLengthError | .errAbandoned => .errcode

end Sys2Proof
end

