-- ==== Sys2Proof/Config.lean ====
section
/-! DEFINITION. What an implementation fixes: the parameters of 00_scope R8 as one plain record, the quantities the
source itself fixes, and the free values, which are opaque constants with no body. -/

namespace Sys2Proof

/-- CRC_TIMEOUT_MODE (00_scope R8, D6). -/
inductive CrcTimeoutMode
  | typed | stale
  deriving DecidableEq, Repr

/-- AUTH_OK_SENSE (00_scope R8, D7). -/
inductive AuthOkSense
  | bitClear | bitSet
  deriving DecidableEq, Repr

/-- One move of the outside world, or one turn it gives the sequencer, while a wait is in progress (44_presence_wait R152;
10_state R28). -/
inductive Move
  /-- The environment drives IRQ_IN to a level (10_state R26). -/
  | line (level : Bool)
  /-- The interrupt agent takes one step (44_presence_wait R153). -/
  | sample
  /-- The sequencer takes one step; at the wait point, it takes a pending signal (44_presence_wait R154, R156). -/
  | go
  /-- "100 ms having passed without a signal" (44_presence_wait R156). -/
  | timeout
  /-- The host abandons the call (44_presence_wait R158). -/
  | abandon
  deriving DecidableEq, Repr, Inhabited

/-- REGADDR: the numeric address of each chip register, 10_state R30, parameter D1. -/
structure RegMap where
  command : RegAddr
  comIEn : RegAddr
  comIrq : RegAddr
  divIrq : RegAddr
  error : RegAddr
  status2 : RegAddr
  fifoData : RegAddr
  fifoLevel : RegAddr
  control : RegAddr
  bitFraming : RegAddr
  mode : RegAddr
  txControl : RegAddr
  txAuto : RegAddr
  crcResultH : RegAddr
  crcResultL : RegAddr
  tMode : RegAddr
  tPrescaler : RegAddr
  tReloadH : RegAddr
  tReloadL : RegAddr
  deriving DecidableEq, Repr

/-- CMDCODE of the four commands whose codes are open: the value written to the COMMAND register, 30_encoding R74, parameter
D2. The fifth, Transceive, is no parameter: `Config.transceiveCode`. -/
structure CmdCodes where
  idle : Byte
  calcCrc : Byte
  authenticate : Byte
  softReset : Byte
  deriving DecidableEq, Repr

/-- The named arguments of the model (00_scope R8). A value of this record is a field of State that no step writes. -/
structure Params where
  regMap : RegMap
  cmdCodes : CmdCodes
  fifoFlushReg : Reg
  fifoFlushBit : Byte
  crcTimeoutMode : CrcTimeoutMode
  authOkSense : AuthOkSense
  autoTeardown : Bool
  selectAppendBcc : Bool
  /-- AUTH_MODE_A and AUTH_MODE_B: "used by tests only", the engine does not check `mode` (D18). -/
  authModeA : Byte
  authModeB : Byte
  waitPrologue : List (Reg × Byte)
  waitEpilogue : List (Reg × Byte)
  deriving DecidableEq, Repr

/-- REGADDR[r] (10_state R30). -/
def Params.regAddr (p : Params) : Reg → RegAddr
  | .command => p.regMap.command
  | .comIEn => p.regMap.comIEn
  | .comIrq => p.regMap.comIrq
  | .divIrq => p.regMap.divIrq
  | .error => p.regMap.error
  | .status2 => p.regMap.status2
  | .fifoData => p.regMap.fifoData
  | .fifoLevel => p.regMap.fifoLevel
  | .control => p.regMap.control
  | .bitFraming => p.regMap.bitFraming
  | .mode => p.regMap.mode
  | .txControl => p.regMap.txControl
  | .txAuto => p.regMap.txAuto
  | .crcResultH => p.regMap.crcResultH
  | .crcResultL => p.regMap.crcResultL
  | .tMode => p.regMap.tMode
  | .tPrescaler => p.regMap.tPrescaler
  | .tReloadH => p.regMap.tReloadH
  | .tReloadL => p.regMap.tReloadL

/-- CMDCODE[Transceive]: "0x0C", of origin "source" and so normative (00_scope R8, 30_encoding R74). -/
def Config.transceiveCode : Byte := 0x0C#8

/-- CMDCODE[c] (30_encoding R74). -/
def Params.cmdCode (p : Params) : ChipCommand → Byte
  | .idle => p.cmdCodes.idle
  | .calcCrc => p.cmdCodes.calcCrc
  | .transceive => Config.transceiveCode
  | .authenticate => p.cmdCodes.authenticate
  | .softReset => p.cmdCodes.softReset

/-- The parameters are admissible: register addresses are distinct (D1: "a map from the nineteen register names to
distinct values in 0..63"), and so are the command codes, which a request's ChipCommand operand is read by. -/
abbrev Params.WF (p : Params) : Prop :=
  (Reg.all.map p.regAddr).Nodup ∧ (ChipCommand.all.map p.cmdCode).Nodup

namespace Config

/-- POLL_BOUND_TRX: "maximum reads of the interrupt-status register in `execute`" (00_scope R8, source). -/
def pollBoundTrx : Nat := 2000

/-- POLL_BOUND_CRC: "maximum reads of the CRC-interrupt-status register in `computeCrc`" (00_scope R8, source). -/
def pollBoundCrc : Nat := 255

/-- WAIT_TIMEOUT in milliseconds (00_scope R8). The model has no time: "no rule depends on the figure 100 ms"
(60_exceptions R180), so nothing reads this constant. -/
def waitTimeoutMs : Nat := 100

/-- FREE VALUE (log entry 1). The byte the chip returns on the `n`-th unscripted exchange: "The response byte of a
`RegRead` is chosen by the environment" under no law (20_memory R57). It has no body, so nothing can be proved of it. -/
opaque chipByte (n : Nat) : Byte

/-- FREE VALUE (log entry 2). The `n`-th unscripted move of the outside world: the level of the line, when the agent
samples it, how many timeouts pass, and abandonment are "not determined by any rule" (44_presence_wait R156, 10_state
R26). It has no body, so nothing can be proved of it. -/
opaque freeMove (n : Nat) : Move

end Config

end Sys2Proof
end

