-- ==== Sys2Proof/Machine/Defaults.lean ====
section
/-! DEFINITION. The default values of the parameters: the last columns of 00_scope R8, 10_state R30, 30_encoding R74. -/

namespace Sys2Proof.Machine

/-- The default REGADDR: the table of 10_state R30 (PRESUMED by the spec, "from general knowledge", D1; log entry 4). -/
def defaultRegMap : RegMap where
  command := 0x01#6
  comIEn := 0x02#6
  comIrq := 0x04#6
  divIrq := 0x05#6
  error := 0x06#6
  status2 := 0x08#6
  fifoData := 0x09#6
  fifoLevel := 0x0A#6
  control := 0x0C#6
  bitFraming := 0x0D#6
  mode := 0x11#6
  txControl := 0x14#6
  txAuto := 0x15#6
  crcResultH := 0x21#6
  crcResultL := 0x22#6
  tMode := 0x2A#6
  tPrescaler := 0x2B#6
  tReloadH := 0x2C#6
  tReloadL := 0x2D#6

/-- The default CMDCODE: the table of 30_encoding R74 (PRESUMED by the spec, D2; log entry 4; the source's own 0x0C of
Transceive is no default: `Config.transceiveCode`). -/
def defaultCmdCodes : CmdCodes where
  idle := 0x00#8
  calcCrc := 0x03#8
  authenticate := 0x0E#8
  softReset := 0x0F#8

/-- Every parameter at the default of 00_scope R8. -/
def defaultParams : Params where
  regMap := defaultRegMap
  cmdCodes := defaultCmdCodes
  fifoFlushReg := .fifoLevel
  fifoFlushBit := 0x80#8
  crcTimeoutMode := .typed
  authOkSense := .bitClear
  autoTeardown := true
  selectAppendBcc := false
  authModeA := 0x60#8
  authModeB := 0x61#8
  waitPrologue := []
  waitEpilogue := []

end Sys2Proof.Machine
end

