-- ==== Sys2Proof/WellFormed.lean ====
section
/-! DEFINITION. Which operands a request may carry: the checks of 60_exceptions R169 that the types do not make. -/

namespace Sys2Proof

/-- A BlocksAccess whose four codes are in 0..7 (43_access_codec R140, R148). -/
def BlocksAccess.inRange (b : BlocksAccess) : Bool :=
  decide (b.b0.toNat ≤ 7) && decide (b.b1.toNat ≤ 7) && decide (b.b2.toNat ≤ 7) && decide (b.b3.toNat ≤ 7)

/-- The exclusive or of the four bytes of a UID: `xor(uid)` of 30_encoding R79. -/
def uidXor (uid : Bytes 4) : Byte := uid.val.foldl (· ^^^ ·) 0#8

/-- The operands of `i` are ones the spec gives a meaning to, under the parameters `p`. The lengths of `uid`, `key` and
`data` and the five chip commands are types (42_card_session R131, 30_encoding R84 b); what is left is:
codes of `encode` and `getBit` in 0..7 (43_access_codec R148), `n` of `getBit` in 1..3 (R141), three or four bytes for
`decode` (R144), and the checksum byte of a SELECT frame present exactly with SELECT_APPEND_BCC and right (30_encoding R79). -/
def Instr.wf (p : Params) : Instr → Bool
  | .encode b => b.inRange
  | .getBit b n => b.inRange && decide (1 ≤ n.toNat) && decide (n.toNat ≤ 3)
  | .decode bytes => decide (bytes.length = 3) || decide (bytes.length = 4)
  | .cardSelect uid bcc _ _ => decide (bcc = if p.selectAppendBcc then some (uidXor uid) else none)
  | _ => true

end Sys2Proof
end

