-- ==== Sys2Proof/Decode.lean ====
section
/-! DEFINITION. Words to instructions and back: 30_encoding. The decoder takes a frame's format (the channel it comes on,
R70) and its bytes, and is total; it rejects by name. The encoder is written from the same tables. -/

namespace Sys2Proof

/-- Why a frame is no instruction. -/
inductive DecodeError
  /-- No byte at all. -/
  | empty
  /-- A HOSTOP select 0x10 to 0xFF: "select no operation" (30_encoding R84 a). -/
  | badSelect (b : Byte)
  /-- Operand bytes of another number than the signature has (30_encoding R86). -/
  | badLength
  /-- A ChipCommand operand or CHIPCMD byte outside the five (30_encoding R84 b). -/
  | badChipCommand (b : Byte)
  /-- A BUS frame with bit 0 of byte 0 set (30_encoding R73, R84 c). -/
  | busBitZeroSet
  /-- A BUS read frame with a non-zero byte 1 (30_encoding R84 c). -/
  | busReadValue
  /-- A CARD frame whose first bytes select no card command (30_encoding R77 to R81). -/
  | badCardFrame
  /-- A response that is not the acknowledgement nibble (30_encoding R82). -/
  | notAck
  /-- A result code outside the table of 60_exceptions R163. -/
  | badErrCode (b : Byte)
  deriving DecidableEq, Repr

/-- The operations in the order of their select codes (30_encoding R83). -/
def HostOp.all : List HostOp :=
  [.execute, .computeCrc, .reset, .init, .request, .antiCollision, .selectTag, .authenticate,
   .readBlock, .writeBlock, .stopCrypto, .wait, .encode, .decode, .getBit, .selectCard]

/-- The select code of an operation (30_encoding R83). -/
def HostOp.code : HostOp → Byte
  | .execute => 0x00#8
  | .computeCrc => 0x01#8
  | .reset => 0x02#8
  | .init => 0x03#8
  | .request => 0x04#8
  | .antiCollision => 0x05#8
  | .selectTag => 0x06#8
  | .authenticate => 0x07#8
  | .readBlock => 0x08#8
  | .writeBlock => 0x09#8
  | .stopCrypto => 0x0A#8
  | .wait => 0x0B#8
  | .encode => 0x0C#8
  | .decode => 0x0D#8
  | .getBit => 0x0E#8
  | .selectCard => 0x0F#8

/-- The code of an error kind (60_exceptions R163). -/
def ErrKind.code : ErrKind → Byte
  | .timeoutError => 1#8
  | .protocolError => 2#8
  | .checksumError => 3#8
  | .cardNotPresentError => 4#8
  | .authReadFailure => 5#8
  | .authFailure => 6#8
  | .writeNotAuthorizedError => 7#8
  | .writeFailedError => 8#8
  | .dataLengthError => 9#8
  | .abandoned => 10#8

/-- Byte 0 of a BUS frame without its direction bit: `(a << 1) & 0x7E` (20_memory R51, R56). -/
def addrByte (a : RegAddr) : Byte := (a.setWidth 8 <<< 1) &&& 0x7E#8

/-- Byte 0 of a write frame (20_memory R51, 30_encoding R71). -/
def writeByte0 (a : RegAddr) : Byte := addrByte a

/-- Byte 0 of a read frame (20_memory R52, 30_encoding R72). -/
def readByte0 (a : RegAddr) : Byte := addrByte a ||| 0x80#8

/-- The address field `b0[6:1]` of a BUS frame (30_encoding R73). -/
def busAddr (b0 : Byte) : RegAddr := b0.extractLsb' 1 6

/-- The registers with a `W.` row of their own in the opcode table. -/
def writeRows : List Reg :=
  [.command, .comIEn, .comIrq, .divIrq, .status2, .fifoData, .fifoLevel, .bitFraming, .mode, .txControl, .txAuto,
   .tMode, .tPrescaler, .tReloadH, .tReloadL]

/-- The registers with an `R.` row of their own in the opcode table. -/
def readRows : List Reg :=
  [.comIrq, .divIrq, .error, .status2, .fifoData, .fifoLevel, .control, .bitFraming, .txControl, .crcResultH,
   .crcResultL]

/-- The register at an address that has a `W.` row, if there is one. -/
def namedWrite (p : Params) (a : RegAddr) : Option Reg := writeRows.find? (fun r => p.regAddr r == a)

/-- The register at an address that has an `R.` row, if there is one. -/
def namedRead (p : Params) (a : RegAddr) : Option Reg := readRows.find? (fun r => p.regAddr r == a)

/-- The `W.<register>` instruction; a register with no such row is written by the plain BUS.write. -/
def writeInstr (p : Params) (r : Reg) (v : Byte) : Instr :=
  match r with
  | .command => .wCommand v
  | .comIEn => .wComIEn v
  | .comIrq => .wComIrq v
  | .divIrq => .wDivIrq v
  | .status2 => .wStatus2 v
  | .fifoData => .wFifoData v
  | .fifoLevel => .wFifoLevel v
  | .bitFraming => .wBitFraming v
  | .mode => .wMode v
  | .txControl => .wTxControl v
  | .txAuto => .wTxAuto v
  | .tMode => .wTMode v
  | .tPrescaler => .wTPrescaler v
  | .tReloadH => .wTReloadH v
  | .tReloadL => .wTReloadL v
  | .error => .busWrite (p.regAddr .error) v
  | .control => .busWrite (p.regAddr .control) v
  | .crcResultH => .busWrite (p.regAddr .crcResultH) v
  | .crcResultL => .busWrite (p.regAddr .crcResultL) v

/-- The `R.<register>` instruction; a register with no such row is read by the plain BUS.read. -/
def readInstr (p : Params) (r : Reg) : Instr :=
  match r with
  | .comIrq => .rComIrq
  | .divIrq => .rDivIrq
  | .error => .rError
  | .status2 => .rStatus2
  | .fifoData => .rFifoData
  | .fifoLevel => .rFifoLevel
  | .control => .rControl
  | .bitFraming => .rBitFraming
  | .txControl => .rTxControl
  | .crcResultH => .rCrcResultH
  | .crcResultL => .rCrcResultL
  | .command => .busRead (p.regAddr .command)
  | .comIEn => .busRead (p.regAddr .comIEn)
  | .mode => .busRead (p.regAddr .mode)
  | .txAuto => .busRead (p.regAddr .txAuto)
  | .tMode => .busRead (p.regAddr .tMode)
  | .tPrescaler => .busRead (p.regAddr .tPrescaler)
  | .tReloadH => .busRead (p.regAddr .tReloadH)
  | .tReloadL => .busRead (p.regAddr .tReloadL)

/-- The bytes `l` as exactly `n` bytes, or none. -/
def exactBytes (n : Nat) (l : List Byte) : Option (Bytes n) :=
  if h : l.length = n then some ⟨l, h⟩ else none

/-- A decoded operand group, or the length error. -/
def orLength (i : Option Instr) : Except DecodeError Instr :=
  match i with
  | some i => .ok i
  | none => .error .badLength

/-- The chip command with the code `b` (30_encoding R74). -/
def chipCommandOf (p : Params) (b : Byte) : Option ChipCommand :=
  ChipCommand.all.find? (fun c => p.cmdCode c == b)

/-- The operand group of an operation that has none. -/
def noOperands (i : Instr) (ops : List Byte) : Except DecodeError Instr :=
  if ops.isEmpty then .ok i else .error .badLength

/-- The operands of `execute`: the command, then the bytes to send (30_encoding R86). DESIGN CHOICE (log entry 15): the
ChipCommand operand, a name in R86 that no request of the spec gives a byte, is read as the byte CMDCODE gives it (R74). -/
def decodeExecute (p : Params) : List Byte → Except DecodeError Instr
  | c :: outData =>
    match chipCommandOf p c with
    | some command => .ok (.execute command outData)
    | none => .error (.badChipCommand c)
  | [] => .error .badLength

/-- The operands of `authenticate`: mode, block address, key, UID (30_encoding R86). -/
def decodeAuthOperands (make : Byte → Byte → Bytes 6 → Bytes 4 → Instr) : List Byte → Except DecodeError Instr
  | mode :: block :: rest =>
    orLength ((exactBytes 6 (rest.take 6)).bind fun key =>
      (exactBytes 4 (rest.drop 6)).map fun uid => make mode block key uid)
  | _ => .error .badLength

/-- The operand of `readBlock` (30_encoding R86). -/
def decodeReadBlock : List Byte → Except DecodeError Instr
  | [block] => .ok (.readBlock block)
  | _ => .error .badLength

/-- The operands of `writeBlock` (30_encoding R86). -/
def decodeWriteBlock : List Byte → Except DecodeError Instr
  | block :: data => orLength ((exactBytes 16 data).map (.writeBlock block))
  | [] => .error .badLength

/-- The operand of `encode` (30_encoding R86). -/
def decodeEncode : List Byte → Except DecodeError Instr
  | [b0, b1, b2, b3] => .ok (.encode ⟨b0, b1, b2, b3⟩)
  | _ => .error .badLength

/-- The operand of `decode`: three or four bytes (30_encoding R86). -/
def decodeDecode (ops : List Byte) : Except DecodeError Instr :=
  if ops.length = 3 ∨ ops.length = 4 then .ok (.decode ops) else .error .badLength

/-- The operands of `getBit` (30_encoding R86). DESIGN CHOICE (log entry 15): `n`, a number 1..3 in R86 that no request of the
spec gives a byte, is read as one byte. -/
def decodeGetBit : List Byte → Except DecodeError Instr
  | [b0, b1, b2, b3, n] => .ok (.getBit ⟨b0, b1, b2, b3⟩ n)
  | _ => .error .badLength

/-- The operands of an operation, in signature order (30_encoding R83, R86). -/
def decodeOperands (p : Params) (op : HostOp) (ops : List Byte) : Except DecodeError Instr :=
  match op with
  | .execute => decodeExecute p ops
  | .computeCrc => .ok (.computeCrc ops)
  | .reset => noOperands .reset ops
  | .init => noOperands .init ops
  | .request => noOperands .request ops
  | .antiCollision => noOperands .antiCollision ops
  | .selectTag => orLength ((exactBytes 4 ops).map .selectTag)
  | .authenticate => decodeAuthOperands .authenticate ops
  | .readBlock => decodeReadBlock ops
  | .writeBlock => decodeWriteBlock ops
  | .stopCrypto => noOperands .stopCrypto ops
  | .wait => noOperands .wait ops
  | .encode => decodeEncode ops
  | .decode => decodeDecode ops
  | .getBit => decodeGetBit ops
  | .selectCard => noOperands .selectCard ops

/-- A host request: the select byte, then the operands (30_encoding R83, R84 a). -/
def decodeHostOp (p : Params) : List Byte → Except DecodeError Instr
  | [] => .error .empty
  | sel :: ops =>
    match HostOp.all.find? (fun o => o.code == sel) with
    | some op => decodeOperands p op ops
    | none => .error (.badSelect sel)

/-- A BUS frame, two bytes (30_encoding R71 to R73, R84 c). A frame to an address whose access has a row of its own
decodes to that row. -/
def decodeBus (p : Params) : List Byte → Except DecodeError Instr
  | [b0, b1] =>
    if b0.getLsbD 0 then .error .busBitZeroSet
    else if b0.getLsbD 7 then
      if b1 = 0#8 then
        match namedRead p (busAddr b0) with
        | some r => .ok (readInstr p r)
        | none => .ok (.busRead (busAddr b0))
      else .error .busReadValue
    else
      match namedWrite p (busAddr b0) with
      | some r => .ok (writeInstr p r b1)
      | none => .ok (.busWrite (busAddr b0) b1)
  | [] => .error .empty
  | _ => .error .badLength

/-- A chip command byte (30_encoding R74). -/
def decodeChipCmd (p : Params) : List Byte → Except DecodeError Instr
  | [b] =>
    match chipCommandOf p b with
    | some .idle => .ok .cmdIdle
    | some .calcCrc => .ok .cmdCalcCrc
    | some .transceive => .ok .cmdTransceive
    | some .authenticate => .ok .cmdAuthenticate
    | some .softReset => .ok .cmdSoftReset
    | none => .error (.badChipCommand b)
  | [] => .error .empty
  | _ => .error .badLength

/-- A card frame with an opcode (30_encoding R77 to R79, R81): REQA, ANTICOLL, SELECT (8 bytes, or 9 with the checksum
byte), READ, WRITE. -/
def decodeCard : List Byte → Except DecodeError Instr
  | [] => .error .empty
  | [0x26#8] => .ok .cardReqa
  | [0x93#8, 0x20#8] => .ok .cardAnticoll
  | [0x93#8, 0x70#8, u0, u1, u2, u3, lo, hi] => .ok (.cardSelect ⟨[u0, u1, u2, u3], rfl⟩ none lo hi)
  | [0x93#8, 0x70#8, u0, u1, u2, u3, bcc, lo, hi] => .ok (.cardSelect ⟨[u0, u1, u2, u3], rfl⟩ (some bcc) lo hi)
  | [0x30#8, b, lo, hi] => .ok (.cardRead b lo hi)
  | [0xA0#8, b, lo, hi] => .ok (.cardWrite b lo hi)
  | _ => .error .badCardFrame

/-- The FIFO content of the Authenticate command, 12 bytes (30_encoding R80). -/
def decodeAuthFrame (l : List Byte) : Except DecodeError Instr := decodeAuthOperands .cardAuth l

/-- The payload of the second phase of a write, 18 bytes (30_encoding R81). -/
def decodeWriteData (l : List Byte) : Except DecodeError Instr :=
  match l.drop 16 with
  | [lo, hi] => orLength ((exactBytes 16 (l.take 16)).map fun d => .cardWriteData d lo hi)
  | _ => .error .badLength

/-- The acknowledgement: the low nibble 0x0A of one byte (30_encoding R82). -/
def decodeAck : List Byte → Except DecodeError Instr
  | [b] => if b &&& 0x0F#8 = 0x0A#8 then .ok .ack else .error .notAck
  | [] => .error .empty
  | _ => .error .badLength

/-- The four bytes of encoded access conditions (30_encoding R88). -/
def decodeAccess (l : List Byte) : Except DecodeError Instr := orLength ((exactBytes 4 l).map .access)

/-- The result code rows of the table, with their codes (60_exceptions R163). -/
def errRows : List (Byte × Instr) :=
  [(0#8, .errOk), (ErrKind.timeoutError.code, .errTimeoutError), (ErrKind.protocolError.code, .errProtocolError),
   (ErrKind.checksumError.code, .errChecksumError), (ErrKind.cardNotPresentError.code, .errCardNotPresentError),
   (ErrKind.authReadFailure.code, .errAuthReadFailure), (ErrKind.authFailure.code, .errAuthFailure),
   (ErrKind.writeNotAuthorizedError.code, .errWriteNotAuthorizedError),
   (ErrKind.writeFailedError.code, .errWriteFailedError), (ErrKind.dataLengthError.code, .errDataLengthError),
   (ErrKind.abandoned.code, .errAbandoned)]

/-- A result code (60_exceptions R163). -/
def decodeErrCode : List Byte → Except DecodeError Instr
  | [b] =>
    match errRows.find? (fun r => r.1 == b) with
    | some r => .ok r.2
    | none => .error (.badErrCode b)
  | [] => .error .empty
  | _ => .error .badLength

/-- The instruction a frame of a format stands for (30_encoding). Total: every byte list decodes or is rejected by name. -/
def decodeFrame (p : Params) (f : Format) (l : List Byte) : Except DecodeError Instr :=
  match f with
  | .hostop => decodeHostOp p l
  | .bus => decodeBus p l
  | .chipcmd => decodeChipCmd p l
  | .card => decodeCard l
  | .authFrame => decodeAuthFrame l
  | .writeData => decodeWriteData l
  | .ack => decodeAck l
  | .access => decodeAccess l
  | .errcode => decodeErrCode l

/-! ## The encoder -/

/-- A BUS write frame (30_encoding R71). -/
def writeFrame (a : RegAddr) (v : Byte) : List Byte := [writeByte0 a, v]

/-- A BUS read frame (30_encoding R72). -/
def readFrame (a : RegAddr) : List Byte := [readByte0 a, 0x00#8]

/-- The bytes of an instruction (30_encoding; the select and operand bytes of a request as in 95_test_vectors section 7, and
the ChipCommand of `execute` and the `n` of `getBit` as log entry 15 has them). -/
def encode (p : Params) : Instr → List Byte
  | .execute command outData => HostOp.execute.code :: p.cmdCode command :: outData
  | .computeCrc data => HostOp.computeCrc.code :: data
  | .reset => [HostOp.reset.code]
  | .init => [HostOp.init.code]
  | .request => [HostOp.request.code]
  | .antiCollision => [HostOp.antiCollision.code]
  | .selectTag uid => HostOp.selectTag.code :: uid.val
  | .authenticate mode block key uid => HostOp.authenticate.code :: mode :: block :: (key.val ++ uid.val)
  | .readBlock block => [HostOp.readBlock.code, block]
  | .writeBlock block data => HostOp.writeBlock.code :: block :: data.val
  | .stopCrypto => [HostOp.stopCrypto.code]
  | .wait => [HostOp.wait.code]
  | .encode b => [HostOp.encode.code, b.b0, b.b1, b.b2, b.b3]
  | .decode bytes => HostOp.decode.code :: bytes
  | .getBit b n => [HostOp.getBit.code, b.b0, b.b1, b.b2, b.b3, n]
  | .selectCard => [HostOp.selectCard.code]
  | .busWrite a v => writeFrame a v
  | .busRead a => readFrame a
  | .wCommand v => writeFrame (p.regAddr .command) v
  | .wComIEn v => writeFrame (p.regAddr .comIEn) v
  | .wComIrq v => writeFrame (p.regAddr .comIrq) v
  | .rComIrq => readFrame (p.regAddr .comIrq)
  | .wDivIrq v => writeFrame (p.regAddr .divIrq) v
  | .rDivIrq => readFrame (p.regAddr .divIrq)
  | .rError => readFrame (p.regAddr .error)
  | .wStatus2 v => writeFrame (p.regAddr .status2) v
  | .rStatus2 => readFrame (p.regAddr .status2)
  | .wFifoData v => writeFrame (p.regAddr .fifoData) v
  | .rFifoData => readFrame (p.regAddr .fifoData)
  | .wFifoLevel v => writeFrame (p.regAddr .fifoLevel) v
  | .rFifoLevel => readFrame (p.regAddr .fifoLevel)
  | .rControl => readFrame (p.regAddr .control)
  | .wBitFraming v => writeFrame (p.regAddr .bitFraming) v
  | .rBitFraming => readFrame (p.regAddr .bitFraming)
  | .wMode v => writeFrame (p.regAddr .mode) v
  | .wTxControl v => writeFrame (p.regAddr .txControl) v
  | .rTxControl => readFrame (p.regAddr .txControl)
  | .wTxAuto v => writeFrame (p.regAddr .txAuto) v
  | .rCrcResultH => readFrame (p.regAddr .crcResultH)
  | .rCrcResultL => readFrame (p.regAddr .crcResultL)
  | .wTMode v => writeFrame (p.regAddr .tMode) v
  | .wTPrescaler v => writeFrame (p.regAddr .tPrescaler) v
  | .wTReloadH v => writeFrame (p.regAddr .tReloadH) v
  | .wTReloadL v => writeFrame (p.regAddr .tReloadL) v
  | .cmdIdle => [p.cmdCode .idle]
  | .cmdCalcCrc => [p.cmdCode .calcCrc]
  | .cmdTransceive => [p.cmdCode .transceive]
  | .cmdAuthenticate => [p.cmdCode .authenticate]
  | .cmdSoftReset => [p.cmdCode .softReset]
  | .cardReqa => [0x26#8]
  | .cardAnticoll => [0x93#8, 0x20#8]
  | .cardSelect uid bcc lo hi => [0x93#8, 0x70#8] ++ uid.val ++ bcc.toList ++ [lo, hi]
  | .cardAuth mode block key uid => mode :: block :: (key.val ++ uid.val)
  | .cardRead block lo hi => [0x30#8, block, lo, hi]
  | .cardWrite block lo hi => [0xA0#8, block, lo, hi]
  | .cardWriteData d lo hi => d.val ++ [lo, hi]
  | .ack => [0x0A#8]
  | .access bytes => bytes.val
  | .errOk => [0#8]
  | .errTimeoutError => [ErrKind.timeoutError.code]
  | .errProtocolError => [ErrKind.protocolError.code]
  | .errChecksumError => [ErrKind.checksumError.code]
  | .errCardNotPresentError => [ErrKind.cardNotPresentError.code]
  | .errAuthReadFailure => [ErrKind.authReadFailure.code]
  | .errAuthFailure => [ErrKind.authFailure.code]
  | .errWriteNotAuthorizedError => [ErrKind.writeNotAuthorizedError.code]
  | .errWriteFailedError => [ErrKind.writeFailedError.code]
  | .errDataLengthError => [ErrKind.dataLengthError.code]
  | .errAbandoned => [ErrKind.abandoned.code]

/-- The words of `i` are not those of another row: a plain BUS frame to an address whose access has a row of its own is
encoded as that row. -/
def Instr.ownWords (p : Params) : Instr → Bool
  | .busWrite a _ => (namedWrite p a).isNone
  | .busRead a => (namedRead p a).isNone
  | _ => true

/-! ## Words numbered as the opcode table numbers them -/

/-- `w` as `n` bytes, the most significant first: the table writes byte 0 of a frame leftmost (BUS rows: "byte 0 is bits
15:8"; ACCESS row: "byte 0 leftmost"). -/
def wordBytes (n w : Nat) : List Byte :=
  (List.range n).map fun k => BitVec.ofNat 8 (w >>> (8 * (n - 1 - k)))

/-- How many operand bytes the shortest request of an operation has after its select byte (30_encoding R86). -/
def operandBytes : HostOp → Nat
  | .execute => 1
  | .selectTag => 4
  | .authenticate => 12
  | .readBlock => 1
  | .writeBlock => 17
  | .encode => 4
  | .decode => 3
  | .getBit => 5
  | _ => 0

/-- A one-byte table word on its channel: a HOSTOP select with zero operands, or else the one-byte card frame. The CHIPCMD,
ACK, WRITEDATA and ERRCODE rows share these words and are told from a select by their channel only (log entry 6). -/
def tableByte (b : Byte) : Format × List Byte :=
  match HostOp.all.find? (fun o => o.code == b) with
  | some op => (.hostop, b :: List.replicate (operandBytes op) 0#8)
  | none => if b = 0x26#8 then (.card, [b]) else (.hostop, [b])

/-- A two-byte table word on its channel: the first two bytes of a card frame completed with zeros, unless it is a BUS
frame to a register with a row of its own (log entry 6). -/
def tablePair (b0 b1 : Byte) : Format × List Byte :=
  if b0 = 0x93#8 ∧ b1 = 0x20#8 then (.card, [b0, b1])
  else if b0 = 0x93#8 ∧ b1 = 0x70#8 then (.card, [b0, b1] ++ List.replicate 6 0#8)
  else if b0 = 0x30#8 ∨ b0 = 0xA0#8 then (.card, [b0, b1, 0#8, 0#8])
  else (.bus, [b0, b1])

/-- The channel and the bytes of a word numbered as the opcode table numbers it. -/
def tableFrame (nbits w : Nat) : Option (Format × List Byte) :=
  match nbits / 8, wordBytes (nbits / 8) w with
  | 1, [b] => some (tableByte b)
  | 2, [b0, b1] => some (tablePair b0 b1)
  | 4, bytes => some (.access, bytes)
  | _, _ => none

/-- The instruction the decoder reads from a word numbered as the opcode table numbers it, with zero operand bytes beyond it,
at the default parameters. -/
def decodeTableWord (nbits w : Nat) : Option Instr :=
  match tableFrame nbits w with
  | some (f, l) =>
    match decodeFrame Machine.defaultParams f l with
    | .ok i => some i
    | .error _ => none
  | none => none

end Sys2Proof
end

