-- ==== Sys2Proof/Machine/State.lean ====
section
/-! DEFINITION. The state of the engine as plain data: every register, flag and line of 10_state.md, the bus trace, the
result presented to the host, the parameters, and the model's own script of what the outside does; the reasons a step can
stop; and the state after power-on (R48). -/

namespace Sys2Proof.Machine

/-- PSTATE (10_state R14, R19). The sector of `Authenticated(s)` is the register SECTOR. -/
inductive PState
  | idle | requested | collided | identified | selected | authenticated
  deriving DecidableEq, Repr

/-- CFG (10_state R14). -/
inductive Cfg
  | needsReset | needsInit | ready
  deriving DecidableEq, Repr

/-- The engine's position inside an operation (10_state R20). ITER is 0..2000, 11 bits, and never wraps (R21). -/
structure Pc where
  op : Option HostOp
  phase : Nat
  iter : Nat
  deriving DecidableEq, Repr

/-- How a wait ended (44_presence_wait R154, lines 7 and 10). -/
inductive WaitOut
  | done | abandoned
  deriving DecidableEq, Repr

/-- The working registers (10_state R15): "They exist only inside one operation and hold no value at an operation
boundary"; `none` is the spec's own "no value" (R16). `waitOut` is the result the wait carries through its exit lines. -/
structure Work where
  tx : Option (List Byte)
  en : Option Byte
  wt : Option Byte
  stat : Option Byte
  matched : Option Bool
  errv : Option Byte
  n : Option Nat
  lastBits : Option (BitVec 3)
  rx : Option (List Byte)
  vbits : Option Nat
  /-- CRCRES[0], the low byte: each of the two bytes is written by its own read (41_crc R105 lines 10, 11). -/
  crcRes0 : Option Byte
  /-- CRCRES[1], the high byte. -/
  crcRes1 : Option Byte
  blocks : Option Byte
  t : Option Byte
  waitOut : Option WaitOut
  deriving DecidableEq, Repr

/-- One bus transaction: the two bytes sent and "the chip's returned byte1" (10_state R27, 20_memory R50). -/
structure Xfer where
  b0 : Byte
  b1 : Byte
  r : Byte
  deriving DecidableEq, Repr

/-- "TransceiveResult `{ data, validBits }`" (00_scope section 6); `validBits` has no value for a command other than
Transceive (40_transceiver R101). -/
structure Transceived where
  data : List Byte
  validBits : Option Nat
  deriving DecidableEq, Repr

/-- What the engine hands the host at the end of an operation (10_state R17, 60_exceptions R187): a value of the
operation's result type (30_encoding R86), or one error kind, never both (00_scope R12). -/
inductive Result
  | done
  | error (e : ErrKind)
  | transceived (r : Transceived)
  | crc (low high : Byte)
  | uid (u : Bytes 4)
  | blocks (b : Byte)
  | auth (a : AuthStatus)
  | block (data : List Byte)
  | nibble (v : BitVec 4)
  | encoded (b0 b1 b2 b3 : Byte)
  | decoded (b : BlocksAccess) (consistent : Bool)
  /-- The value a register read frame returned (20_memory R52). -/
  | regValue (v : Byte)
  /-- Whether a response is the acknowledgement (30_encoding R82). -/
  | acked (ok : Bool)
  deriving DecidableEq, Repr

/-- What the outside world does next (10_state R28): the host requests an operation, by its select and operand bytes, or a
move of the interrupt path is made. The outside has no other move: the host "may not touch the bus, the GPIO lines or any
engine register directly" (60_exceptions R185, R186). -/
inductive Input
  | request (bytes : List Byte)
  | move (m : Move)
  deriving DecidableEq, Repr

/-- The operation the sequencer is running step by step: the operation with its operands, which the host "presents ...
together" (10_state R17), and what each of its steps so far has returned, oldest first: the byte the chip returned in a bus
transaction, as the trace has it, and none for an internal step. A program looks at the bytes of its reads and discards those
of its writes (20_memory R51). Inside `selectCard` it is the operation of the sequence being run. -/
structure Job where
  instr : Instr
  took : List (Option Byte)
  deriving DecidableEq, Repr

/-- The state of the engine. The first block is the spec's; the second is the model's own record of the operation in progress
and of what the outside answers and does. -/
structure State where
  pstate : PState
  sector : Option (BitVec 6)
  authd : Bool
  uid : Option (Bytes 4)
  key : Option (Bytes 6)
  cfg : Cfg
  pc : Pc
  work : Work
  watch : Bool
  signal : Bool
  irqPrev : Bool
  irqIn : Bool
  rstOut : Bool
  trace : List Xfer
  result : Option Result
  params : Params
  /-- MODEL'S OWN: the operation in progress with its operands, and what it has taken from the bus (log entry 3); none while
  the engine is idle, and while an operation is run whole. -/
  job : Option Job
  /-- MODEL'S OWN: a row of the opcode table placed for running by itself; no step places one (log entry 11). -/
  placed : Option (Format × List Byte)
  /-- MODEL'S OWN: the scripted answers to register reads, oldest first; when empty, a read takes a free value. -/
  answers : List Byte
  /-- MODEL'S OWN: what the outside does next, oldest first; when empty, it makes free moves. -/
  inputs : List Input
  /-- MODEL'S OWN: how many free values have been drawn. -/
  freeIx : Nat
  deriving DecidableEq, Repr

/-- A register that can be found without a value. -/
inductive NoValue
  | sector
  deriving DecidableEq, Repr

/-- Why the machine stops with a fault. -/
inductive Fault
  /-- Raised by the meanings of readBlock and writeBlock when PSTATE is Authenticated and SECTOR holds no value: "A rule
  that would read a register with no value has no meaning ... a model should make such a read a fault of the model and not
  a zero" (10_state R16). No run reaches it (R14: SECTOR "has a value only while PSTATE = Authenticated"). Safe. -/
  | noValue (r : NoValue)
  deriving DecidableEq, Repr

/-- Why an instruction has no meaning. "A refusal is not an error kind and has no code" (60_exceptions R169). -/
inductive Refusal
  /-- Raised by an arm of exec that has no meaning yet. Safe: nothing is claimed of it. -/
  | notModelled (mnemonic : String)
  /-- Raised by every meaning when an operation is in progress: "While `OP` is not `none` the engine accepts no other
  operation" (10_state R22, 70_reset_and_hazards R200). Safe. -/
  | busy
  /-- Raised by a meaning whose operand the spec refuses: "an operand of the wrong shape, an access code above 7"
  (60_exceptions R169, 43_access_codec R148). Safe. -/
  | malformed
  /-- Raised by the meaning of a CardSession operation whose precondition is false (42_card_session R114, 60_exceptions
  R169: "the engine performs no bus transaction, changes no state and presents no result"). Safe. -/
  | precondition (op : HostOp)
  /-- Raised by step on a frame that decodes to no instruction (30_encoding R84, 60_exceptions R169). Safe. -/
  | undecodable (e : DecodeError)
  deriving DecidableEq, Repr

/-- "`OP = none` exactly when the engine is idle" (10_state R22): the position `(none, 0, 0)`. -/
def Pc.idle : Pc := ⟨none, 0, 0⟩

/-- No working register holds a value (10_state R48). -/
def Work.empty : Work := ⟨none, none, none, none, none, none, none, none, none, none, none, none, none, none, none⟩

/-- The engine after power-on: the table of 10_state R48. IRQ_IN is high, the line being pulled up (R24, R194; log entry
12); nothing has been presented (log entry 13); the parameters are the defaults of 00_scope R8 (log entry 4); no operation
is in progress and no row is placed (log entries 3 and 11); the script of the outside is empty (log entries 1 and 2). -/
def State.reset : State where
  pstate := .idle
  sector := none
  authd := false
  uid := none
  key := none
  cfg := .needsReset
  pc := Pc.idle
  work := Work.empty
  watch := false
  signal := false
  irqPrev := true
  irqIn := true
  rstOut := true
  trace := []
  result := none
  params := defaultParams
  job := none
  placed := none
  answers := []
  inputs := []
  freeIx := 0

end Sys2Proof.Machine
end

