-- ==== Sys2Proof/Machine/Flags.lean ====
section
/-! DEFINITION. The tests of bits the chip answers with, each from the rule that names the mask (10_state R31 to R42,
30_encoding R75, R76). The engine has no condition codes of its own (10_state R25). -/

namespace Sys2Proof.Machine

/-- The interrupt-enable and completion-wait masks of a command (40_transceiver R91). -/
def masks : ChipCommand → Byte × Byte
  | .authenticate => (0x12#8, 0x10#8)
  | .transceive => (0x77#8, 0x30#8)
  | .idle => (0x00#8, 0x00#8)
  | .calcCrc => (0x00#8, 0x00#8)
  | .softReset => (0x00#8, 0x00#8)

/-- The timer flag, COMIRQ bit 0x01 (10_state R33): it "always terminates the wait" (40_transceiver R95). -/
def timerFlag : Byte := 0x01#8

/-- The stop mask of the `execute` poll: `waitMask | 0x01` (40_transceiver R95). -/
def stopMask (c : ChipCommand) : Byte := (masks c).2 ||| timerFlag

/-- The value written to COMIEN: `enableMask | 0x80` (10_state R32). -/
def comIEnValue (c : ChipCommand) : Byte := (masks c).1 ||| 0x80#8

/-- The master bit of COMIRQ (10_state R33). -/
def masterBit : Byte := 0x80#8

/-- The start-send bit of BITFRAMING (10_state R37). -/
def startSendBit : Byte := 0x80#8

/-- The CRC-ready bit of DIVIRQ (10_state R39). -/
def crcReadyBit : Byte := 0x04#8

/-- The crypto-on bit of STATUS2 (10_state R40). -/
def cryptoOnBit : Byte := 0x08#8

/-- The RF-on bits of TXCONTROL (10_state R41). -/
def rfOnBits : Byte := 0x03#8

/-- ERR_MASK: "buffer-overflow, CRC-error, parity-error, protocol-error (mask 0x1B)" (10_state R38). -/
def errMask : Byte := 0x1B#8

/-- Some bit of `mask` is set in `v`. -/
def anySet (v mask : Byte) : Bool := v &&& mask != 0#8

/-- "status-2 register bit 0x08: set → `Failure`, clear → `Ok`" with AUTH_OK_SENSE = bit_clear, the other way round with
bit_set (42_card_session R133; 90_conflicts C2). -/
def authFailed (p : Params) (t : Byte) : Bool :=
  match p.authOkSense with
  | .bitClear => anySet t cryptoOnBit
  | .bitSet => !anySet t cryptoOnBit

/-- LASTBITS: "low 3 bits = valid-bits-in-last-byte" of CONTROL (10_state R36). -/
def lastBitsOf (control : Byte) : BitVec 3 := control.setWidth 3

/-- "`validBits = lastBits!=0 ? (n-1)*8+lastBits : n*8`" (40_transceiver R99). -/
def validBitsOf (n : Nat) (lastBits : BitVec 3) : Nat :=
  if lastBits = 0#3 then n * 8 else (n - 1) * 8 + lastBits.toNat

/-- `acked(x) = (x.validBits = 4) and ((x.data[0] & 0x0F) = 0x0A)` (42_card_session R123; 30_encoding R82). A result with
no byte, which no Transceive has, is not an acknowledgement. -/
def ackedBy (x : Transceived) : Bool :=
  x.validBits == some 4 &&
    match x.data with
    | d :: _ => d &&& 0x0F#8 == 0x0A#8
    | [] => false

end Sys2Proof.Machine
end

