-- ==== Sys2Proof/Machine/Operands.lean ====
section
/-! DEFINITION. The operand forms: the frames the engine builds (30_encoding R77 to R81), the received-count clamp, the
block address functions (42_card_session R127), and the values of the access codec (43_access_codec). All are pure. -/

namespace Sys2Proof.Machine

/-- `clamp(v, lo, hi)` (00_scope R11). -/
def clamp (v lo hi : Nat) : Nat := if v < lo then lo else if hi < v then hi else v

/-- RX_CLAMP_LO and RX_CLAMP_HI of 00_scope R8: the received count N (40_transceiver R98). The whole byte read is the
count (10_state R35, D34). -/
def receivedCount (level : Byte) : Nat := clamp level.toNat 1 16

/-- `xor(s)`: "exclusive or of all bytes of the sequence"; `xor([]) = 0` (00_scope R11). -/
def xorBytes (s : List Byte) : Byte := s.foldl (· ^^^ ·) 0#8

/-- `REQA` (30_encoding R77). -/
def reqaFrame : List Byte := [0x26#8]

/-- `ANTICOLL` (30_encoding R78). -/
def anticollFrame : List Byte := [0x93#8, 0x20#8]

/-- `SELECT` without its CRC: `[0x93, 0x70] ++ uid`, with the checksum byte if SELECT_APPEND_BCC (30_encoding R79). -/
def selectFrame (p : Params) (uid : Bytes 4) : List Byte :=
  [0x93#8, 0x70#8] ++ uid.val ++ (if p.selectAppendBcc then [xorBytes uid.val] else [])

/-- `AUTH`: `[mode, blockAddress] ++ key ++ uid` (30_encoding R80). -/
def authFrame (mode block : Byte) (key : Bytes 6) (uid : Bytes 4) : List Byte := [mode, block] ++ key.val ++ uid.val

/-- `READ` without its CRC (30_encoding R81). -/
def readFrameBytes (block : Byte) : List Byte := [0x30#8, block]

/-- `WRITE` without its CRC (30_encoding R81). -/
def writeFrameBytes (block : Byte) : List Byte := [0xA0#8, block]

/-- `f ++ c`, the CRC low byte first (42_card_session R128, 20_memory R58 c). -/
def withCrc (f : List Byte) (c : Byte × Byte) : List Byte := f ++ [c.1, c.2]

/-- The UID of an accepted anti-collision response: "response length is exactly 5 and `xor(bytes[0..3]) == bytes[4]`"
(42_card_session R119); the checksum byte is dropped. -/
def acceptedUid : List Byte → Option (Bytes 4)
  | [a, b, c, d, x] => if x = xorBytes [a, b, c, d] then some ⟨[a, b, c, d], rfl⟩ else none
  | _ => none

/-- `sectorOf(blockAddress) = blockAddress div 4` (42_card_session R127), 6 bits (10_state R14). -/
def sectorOf (block : Byte) : BitVec 6 := block.extractLsb' 2 6

/-- `indexOf(blockAddress) = blockAddress mod 4` (42_card_session R127). -/
def indexOf (block : Byte) : Nat := block.toNat % 4

/-- `dataBlockAddress(sector, blockInSector) = sector*4 + (blockInSector mod 3)` (42_card_session R127). -/
def dataBlockAddress (sector blockInSector : Nat) : Nat := sector * 4 + blockInSector % 3

/-- `trailerAddress(sector) = sector*4 + 3` (42_card_session R127). -/
def trailerAddress (sector : Nat) : Nat := sector * 4 + 3

/-! ## The access codec -/

/-- Bit `k` of a byte as a number with that bit at position `pos` of a nibble. -/
def bitAt (v : Byte) (k pos : Nat) : BitVec 4 := (BitVec.ofBool (v.getLsbD k)).setWidth 4 <<< pos

/-- `getBit(blocks, n)`: bit `n-1` of each code, "bit0←b0, bit1←b1, bit2←b2, bit3←b3" (43_access_codec R141). -/
def getBitOf (b : BlocksAccess) (n : Nat) : BitVec 4 :=
  bitAt b.b0 (n - 1) 0 ||| bitAt b.b1 (n - 1) 1 ||| bitAt b.b2 (n - 1) 2 ||| bitAt b.b3 (n - 1) 3

/-- A byte from its low and its high nibble: `lo | (hi << 4)`. -/
def nibbles (lo hi : BitVec 4) : Byte := lo.setWidth 8 ||| (hi.setWidth 8 <<< 4)

/-- The low nibble of a byte, `v & 0xF`. -/
def lowNibble (v : Byte) : BitVec 4 := v.setWidth 4

/-- The high nibble of a byte, `v >> 4`. -/
def highNibble (v : Byte) : BitVec 4 := v.extractLsb' 4 4

/-- `encode(blocks)` as the four bytes of the ACCESS format (43_access_codec R142, 30_encoding R88). -/
def encodeAccess (b : BlocksAccess) : Byte × Byte × Byte × Byte :=
  let c1 := getBitOf b 1
  let c2 := getBitOf b 2
  let c3 := getBitOf b 3
  let byte0 := nibbles (~~~c1) (~~~c2)
  let byte1 := nibbles (~~~c3) c1
  let byte2 := nibbles c2 c3
  (byte0, byte1, byte2, byte0 ^^^ byte1 ^^^ byte2)

/-- Access code `k` from the three true nibbles (43_access_codec R144). -/
def codeOf (c1 c2 c3 : BitVec 4) (k : Nat) : Byte :=
  (BitVec.ofBool (c1.getLsbD k)).setWidth 8 ||| ((BitVec.ofBool (c2.getLsbD k)).setWidth 8 <<< 1)
    ||| ((BitVec.ofBool (c3.getLsbD k)).setWidth 8 <<< 2)

/-- The BlocksAccess part of `decode`, from `bytes[1]` and `bytes[2]` (43_access_codec R144). -/
def decodeCodes (byte1 byte2 : Byte) : BlocksAccess :=
  let c1 := highNibble byte1
  let c2 := lowNibble byte2
  let c3 := highNibble byte2
  ⟨codeOf c1 c2 c3 0, codeOf c1 c2 c3 1, codeOf c1 c2 c3 2, codeOf c1 c2 c3 3⟩

/-- `valid(bytes)` (43_access_codec R145). -/
def validAccess : List Byte → Bool
  | [x0, x1, x2, x3] =>
    lowNibble x0 == ~~~(highNibble x1) && highNibble x0 == ~~~(lowNibble x2) && lowNibble x1 == ~~~(highNibble x2)
      && x3 == x0 ^^^ x1 ^^^ x2
  | _ => false

/-- `decode(bytes)` (43_access_codec R144, R147), on three or four bytes; other lengths are no operand of it (R144). -/
def decodeAccessBytes : List Byte → Option (BlocksAccess × Bool)
  | [x0, x1, x2] => some (decodeCodes x1 x2, validAccess [x0, x1, x2])
  | [x0, x1, x2, x3] => some (decodeCodes x1 x2, validAccess [x0, x1, x2, x3])
  | _ => none

end Sys2Proof.Machine
end

