-- ==== Sys2Proof/Machine/Ops.lean ====
section
/-! DEFINITION. The named operations over the state: register writes of the engine, the bus primitives of 20_memory R50 to
R52, the pseudocode of an operation as a program of bus transactions and internal steps (10_state R20) and its two ways of
running (whole, and one step at a time), the read-modify-writes, FIFO and poll loops, admitting an instruction, ending an operation, and
presenting an error (60_exceptions R170), the machine's one way of taking an exception. -/

namespace Sys2Proof.Machine

/-- What a step answers. -/
abbrev Out := Host.Outcome State Fault Refusal

/-! ## Named updates of the state -/

def State.setPState (x : PState) (s : State) : State := { s with pstate := x }
def State.setUid (x : Option (Bytes 4)) (s : State) : State := { s with uid := x }
def State.setCfg (x : Cfg) (s : State) : State := { s with cfg := x }
def State.setAuthd (x : Bool) (s : State) : State := { s with authd := x }
def State.setPc (x : Pc) (s : State) : State := { s with pc := x }
def State.setWork (x : Work) (s : State) : State := { s with work := x }
def State.setWatch (x : Bool) (s : State) : State := { s with watch := x }
def State.setSignal (x : Bool) (s : State) : State := { s with signal := x }
def State.setIrqPrev (x : Bool) (s : State) : State := { s with irqPrev := x }
def State.setIrqIn (x : Bool) (s : State) : State := { s with irqIn := x }
def State.setTrace (x : List Xfer) (s : State) : State := { s with trace := x }
def State.setResult (x : Option Result) (s : State) : State := { s with result := x }
def State.setJob (x : Option Job) (s : State) : State := { s with job := x }
def State.setPlaced (x : Option (Format × List Byte)) (s : State) : State := { s with placed := x }
def State.setAnswers (x : List Byte) (s : State) : State := { s with answers := x }
def State.setInputs (x : List Input) (s : State) : State := { s with inputs := x }
def State.setFreeIx (x : Nat) (s : State) : State := { s with freeIx := x }

/-- "`PHASE` advances by one per step" (10_state R22). -/
def advance (s : State) : State := s.setPc { s.pc with phase := s.pc.phase + 1 }

/-- The session registers cleared: "PSTATE <- Idle; AUTHD <- 0; UID, KEY, SECTOR <- no value" (42_card_session R124 line 2). -/
def State.clearSession (s : State) : State :=
  { s with pstate := .idle, authd := false, uid := none, key := none, sector := none }

/-- The session opened for a block's sector: line 6 of `authenticate` (42_card_session R121). -/
def State.openSession (block : Byte) (key : Bytes 6) (s : State) : State :=
  { s with pstate := .authenticated, sector := some (sectorOf block), authd := true, key := some key }

/-! ## The bus (20_memory) -/

/-- The byte the chip answers a read with: the next scripted answer, or a free value (20_memory R57; log entry 1). -/
def chipAnswer (s : State) : Byte × State :=
  match s.answers with
  | a :: rest => (a, s.setAnswers rest)
  | [] => (Config.chipByte s.freeIx, s.setFreeIx (s.freeIx + 1))

/-- `BusXfer(b0, b1) -> r`: one indivisible step; it "appends `(b0, b1, r)` to the bus trace" and cannot fail (20_memory
R50). PHASE advances by one (10_state R22). -/
def busXfer (b0 b1 r : Byte) (s : State) : State :=
  (s.setTrace (s.trace ++ [⟨b0, b1, r⟩])).setPc { s.pc with phase := s.pc.phase + 1 }

/-- `RegWrite(a, v)` at a numeric address: "the response discarded" (20_memory R51), so the response is a free value. -/
def regWriteAt (a : RegAddr) (v : Byte) (s : State) : State :=
  busXfer (writeByte0 a) v (Config.chipByte s.freeIx) (s.setFreeIx (s.freeIx + 1))

/-- `RegRead(a) -> v` at a numeric address (20_memory R52). -/
def regReadAt (a : RegAddr) (s : State) : Byte × State :=
  ((chipAnswer s).1, busXfer (readByte0 a) 0x00#8 (chipAnswer s).1 (chipAnswer s).2)

/-- `RegWrite` of a named register (10_state R30). -/
def regWrite (r : Reg) (v : Byte) (s : State) : State := regWriteAt (s.params.regAddr r) v s

/-- `RegRead` of a named register (10_state R30). -/
def regRead (r : Reg) (s : State) : Byte × State := regReadAt (s.params.regAddr r) s

/-! ## Programs

The pseudocode of every operation but `wait` is a program: a fixed sequence of steps, chosen by nothing but the operands and
the bytes read (10_state R20: "no register, bus response or operand can make the sequencer run anything but the pseudocode").
A step is a bus transaction or an internal step, which is a line of the pseudocode with no transaction, or the test a line
begins with ("the next bus transaction or internal step", R20; log entry 10 says which lines are internal steps). With a step
go the acts that follow it, which write the engine's own registers: a byte the chip returned is stored, and a flag of the chip
is tested, "in the step that read" it (R25). A program is not state; State holds the operation in progress and what its steps
have returned (`Job`), from which its program's rest follows. -/

/-- What the engine does to its own registers in a step; `back` is the backward move of a poll loop, to the read it has just
made (10_state R22). -/
inductive Act
  | note (g : Work → Work)
  | back
  | iter (f : Nat → Nat)
  | pstate (x : PState)
  | uid (x : Option (Bytes 4))
  | cfg (x : Cfg)
  | authd (x : Bool)
  | clearSession
  | openSession (block : Byte) (key : Bytes 6)

/-- The effect of an act. -/
def Act.run : Act → State → State
  | .note g, s => s.setWork (g s.work)
  | .back, s => s.setPc { s.pc with phase := s.pc.phase - 1 }
  | .iter f, s => s.setPc { s.pc with iter := f s.pc.iter }
  | .pstate x, s => s.setPState x
  | .uid x, s => s.setUid x
  | .cfg x, s => s.setCfg x
  | .authd x, s => s.setAuthd x
  | .clearSession, s => s.clearSession
  | .openSession block key, s => s.openSession block key

/-- The pseudocode of an operation: its steps, which are register writes and reads on the bus and internal steps (`line`),
the acts that follow them, and a value at the end. `ask` looks at the parameters. -/
inductive Prog (α : Type)
  | ret (a : α)
  | ask (k : Params → Prog α)
  | act (a : Act) (k : Prog α)
  | line (k : Prog α)
  | write (r : Reg) (v : Byte) (k : Prog α)
  | read (r : Reg) (k : Byte → Prog α)

/-- One program after another. -/
def Prog.bind {α β : Type} : Prog α → (α → Prog β) → Prog β
  | .ret a, f => f a
  | .ask k, f => .ask fun p => (k p).bind f
  | .act a k, f => .act a (k.bind f)
  | .line k, f => .line (k.bind f)
  | .write r v k, f => .write r v (k.bind f)
  | .read r k, f => .read r fun b => (k b).bind f

/-- Go on with a value, or pass the error on unchanged (42_card_session R129, last group). -/
def Prog.orRaise {α β : Type} (p : Prog (Except ErrKind α)) (f : α → Prog (Except ErrKind β)) : Prog (Except ErrKind β) :=
  p.bind fun x =>
    match x with
    | .ok a => f a
    | .error e => .ret (.error e)

/-- A program run whole, from its first step to its end: the operation as "a function from (engine state, operands,
environment answers) to (engine state, result, bus trace)" (10_state R17). -/
def Prog.run {α : Type} : Prog α → State → α × State
  | .ret a, s => (a, s)
  | .ask k, s => (k s.params).run s
  | .act a k, s => k.run (a.run s)
  | .line k, s => k.run (advance s)
  | .write r v k, s => k.run (regWrite r v s)
  | .read r k, s => (k (regRead r s).1).run (regRead r s).2

/-- What is left of a program when its steps so far have returned `l`, its next step first: the acts up to it have been
done. A read has returned a byte. -/
def Prog.after {α : Type} (p : Params) : Prog α → List (Option Byte) → Prog α
  | .ret a, _ => .ret a
  | .ask k, l => (k p).after p l
  | .act _ k, l => k.after p l
  | .line k, [] => .line k
  | .line k, _ :: l => k.after p l
  | .write r v k, [] => .write r v k
  | .write _ _ k, _ :: l => k.after p l
  | .read r k, [] => .read r k
  | .read _ k, b :: l => (k (b.getD 0#8)).after p l

/-- The acts up to the next step, or up to the end and its value. -/
def Prog.flow {α : Type} : Prog α → State → Option α × State
  | .ret a, s => (some a, s)
  | .ask k, s => (k s.params).flow s
  | .act a k, s => k.flow (a.run s)
  | .line _, s => (none, s)
  | .write _ _ _, s => (none, s)
  | .read _ _, s => (none, s)

/-- What a step returned, kept with the operation in progress. -/
def State.take (b : Option Byte) (s : State) : State := s.setJob (s.job.map fun j => { j with took := j.took ++ [b] })

/-- One step of a program: a bus transaction or an internal step, and the acts that follow it (10_state R20, R25). -/
def Prog.tick {α : Type} : Prog α → State → Option α × State
  | .ret a, s => (some a, s)
  | .ask k, s => (k s.params).tick s
  | .act a k, s => k.tick (a.run s)
  | .line k, s => k.flow ((advance s).take none)
  | .write r v k, s => k.flow ((regWrite r v s).take (some (Config.chipByte s.freeIx)))
  | .read r k, s => (k (regRead r s).1).flow ((regRead r s).2.take (some (regRead r s).1))

/-- `SetBits(a, m)`: `T <- RegRead(a); RegWrite(a, T | m)`, the write unconditional (20_memory R54). -/
def setBitsProg (r : Reg) (m : Byte) : Prog Unit :=
  .read r fun v => .act (.note fun w => { w with t := some v }) (.write r (v ||| m) (.ret ()))

/-- `ClearBits(a, m)`: `T <- RegRead(a); RegWrite(a, T & ~m & 0xFF)`, the write unconditional (20_memory R55). -/
def clearBitsProg (r : Reg) (m : Byte) : Prog Unit :=
  .read r fun v => .act (.note fun w => { w with t := some v }) (.write r (v &&& ~~~m) (.ret ()))

/-- Plain register writes, in order. -/
def writeAllProg : List (Reg × Byte) → Prog Unit
  | [] => .ret ()
  | (r, v) :: rest => .write r v (writeAllProg rest)

/-- One `FIFODATA` write per byte, element 0 first (40_transceiver R93, 20_memory R58 b). -/
def writeFifoProg : List Byte → Prog Unit
  | [] => .ret ()
  | b :: bs => .write .fifoData b (writeFifoProg bs)

/-- `n` reads of `FIFODATA` after those that gave `rx`, the first read becoming element 0; RX is built byte by byte
(40_transceiver R100). -/
def drainFifoProg (rx : List Byte) : Nat → Prog (List Byte)
  | 0 => .ret rx
  | n + 1 => .read .fifoData fun b => .act (.note fun w => { w with rx := some (rx ++ [b]) }) (drainFifoProg (rx ++ [b]) n)

/-- A poll loop: "Each iteration is exactly one" read of the polled register (40_transceiver R95, 41_crc R107), tested in the
step that made it (10_state R25). STAT takes the byte read, MATCHED the test, ITER counts the reads (R21), and PHASE moves
back to the read when another iteration follows (R22). Answers whether the stop condition was met. -/
def pollLoopProg (r : Reg) (mask : Byte) : Nat → Prog Bool
  | 0 => .ret false
  | n + 1 =>
    .read r fun v =>
      .act (.note fun w => { w with stat := some v, matched := some (anySet v mask) }) <|
      .act (.iter (· + 1)) <|
      if anySet v mask then .ret true
      else if n = 0 then .ret false
      else .act .back (pollLoopProg r mask n)

/-- A bounded poll: "`MATCHED <- false; ITER <- 0`", then the loop (40_transceiver R90 lines 9 to 12, 41_crc R105 lines 5 to
8). -/
def pollProg (r : Reg) (mask : Byte) (bound : Nat) : Prog Bool :=
  .line <| .act (.note fun w => { w with matched := some false }) <| .act (.iter fun _ => 0) <|
  pollLoopProg r mask bound

/-- `raise E` in a sub-operation: "(2) the working registers lose their values; ... (4) the error kind is presented ... to the
enclosing operation" (60_exceptions R170). The position stays that of the enclosing operation, in which the sub-operation is
flattened (10_state R22); an operation that raises to the host ends by `raiseError`, which does the same once more. -/
def raiseProg {α : Type} (e : ErrKind) : Prog (Except ErrKind α) := .act (.note fun _ => Work.empty) (.ret (.error e))

/-- The FIFO flush: `SetBits` of FIFO_FLUSH_BIT in FIFO_FLUSH_REG (10_state R35, D3). -/
def flushFifoProg : Prog Unit := .ask fun p => setBitsProg p.fifoFlushReg p.fifoFlushBit

/-- One write of a command's code to COMMAND (10_state R31). -/
def writeCommandProg (c : ChipCommand) : Prog Unit := .ask fun p => .write .command (p.cmdCode c) (.ret ())

/-! The same, run whole on a state. -/

/-- SetBits (20_memory R54). -/
def setBits (r : Reg) (m : Byte) (s : State) : State := ((setBitsProg r m).run s).2

/-- ClearBits (20_memory R55). -/
def clearBits (r : Reg) (m : Byte) (s : State) : State := ((clearBitsProg r m).run s).2

/-- Plain register writes, in order. -/
def writeAll (l : List (Reg × Byte)) (s : State) : State := ((writeAllProg l).run s).2

/-- The FIFO load (40_transceiver R93). -/
def writeFifo (l : List Byte) (s : State) : State := ((writeFifoProg l).run s).2

/-- The FIFO drain (40_transceiver R100). -/
def drainFifo (rx : List Byte) (n : Nat) (s : State) : List Byte × State := (drainFifoProg rx n).run s

/-- A bounded poll (40_transceiver R95, 41_crc R107). -/
def poll (r : Reg) (mask : Byte) (bound : Nat) (s : State) : Bool × State := (pollProg r mask bound).run s

/-- The FIFO flush (10_state R35). -/
def flushFifo (s : State) : State := (flushFifoProg.run s).2

/-- One write of a command's code to COMMAND (10_state R31). -/
def writeCommand (c : ChipCommand) (s : State) : State := ((writeCommandProg c).run s).2

/-! ## Operations with an error outcome -/

/-- The outcome of an operation or a sub-operation: a value or one error kind, never both (00_scope R12). -/
inductive Res (α : Type)
  | ok (a : α) (s : State)
  | err (e : ErrKind) (s : State)
  deriving Repr

/-- What a program with an error outcome gives, run whole. -/
def Res.of {α : Type} : Except ErrKind α × State → Res α
  | (.ok a, s) => .ok a s
  | (.error e, s) => .err e s

/-- The state an outcome leaves. -/
def Res.state {α : Type} : Res α → State
  | .ok _ s => s
  | .err _ s => s

/-! ## The boundary of an operation -/

/-- Accept an instruction: only when the engine is idle (10_state R22), and only with operands the spec gives a meaning to
(60_exceptions R169); otherwise it is refused and nothing changes. -/
def accept (i : Instr) (s : State) (body : Out) : Out :=
  if s.pc.op.isSome then .refused .busy
  else if i.wf s.params then body
  else .refused .malformed

/-- An operation starts: OP is set, PHASE and ITER are 0, no working register holds a value, no result is presented yet
(10_state R15, R17, R20). -/
def begin (op : HostOp) (s : State) : State :=
  (((s.setPc ⟨some op, 0, 0⟩).setWork Work.empty).setResult none).setJob none

/-- An operation ends with a value: the working registers lose their values, `pc` becomes `(none, 0, 0)`, and the result is
presented once (10_state R15, R17, R48). -/
def finish (r : Result) (s : State) : State :=
  (((s.setWork Work.empty).setPc Pc.idle).setResult (some r)).setJob none

/-- `raise E` at the boundary of an operation (60_exceptions R170, steps 2 to 4): the working registers lose their values,
`pc <- (none, 0, 0)`, and the error kind is presented to the host; "Nothing is saved, no mode changes, control goes
nowhere". The cleanup of step 1 is the raising operation's own. The return is the host's next request: "Nothing is restored,
because nothing was saved" (R172). -/
def raiseError (e : ErrKind) (s : State) : State := finish (.error e) s

/-- The error kind a status of `authenticate` is: "`ReadFailure` is the error kind `AuthReadFailure` ...; `Failure` is the error
kind `AuthFailure`" (42_card_session R134). -/
def authErrKind : AuthStatus → Option ErrKind
  | .ok => none
  | .readFailure => some .authReadFailure
  | .failure => some .authFailure

/-- The error kind of a result, if it is an error result: one presented by `raise`, or a status of `authenticate`, which "for
every rule about errors (teardown, error codes, priority)" is one too (42_card_session R134). -/
def resultErrKind : Result → Option ErrKind
  | .error e => some e
  | .auth a => authErrKind a
  | _ => none

/-- The code of a result (60_exceptions R163): that of its error kind, or 0 for success. -/
def resultCode (r : Result) : Byte :=
  match resultErrKind r with
  | some e => e.code
  | none => 0#8

/-- A value or an error kind as the result presented. -/
def resultOf {α : Type} (f : α → Result) : Except ErrKind α → Result
  | .ok a => f a
  | .error e => .error e

/-- An outcome presented to the host: the value by `finish`, an error by `raiseError`. -/
def present {α : Type} (f : α → Result) : Res α → State
  | .ok a s => finish (f a) s
  | .err e s => raiseError e s

end Sys2Proof.Machine
end

