-- ==== Sys2Proof/Machine/Bus.lean ====
section
/-! DEFINITION. The BUS rows: one bus transaction each (20_memory R50 to R52; 10_state R31 to R44). The engine makes these
transactions inside its operations; run alone, a row is the one transaction, and a read presents the byte it returned (log
entry 7). -/

namespace Sys2Proof.Machine

/-- A write transaction run alone. -/
def writeRow (i : Instr) (a : RegAddr) (v : Byte) (s : State) : Out :=
  accept i s (.next (finish .done (regWriteAt a v s)))

/-- A read transaction run alone. -/
def readRow (i : Instr) (a : RegAddr) (s : State) : Out :=
  accept i s (.next (finish (.regValue (regReadAt a s).1) (regReadAt a s).2))

/-- BUS.write (30_encoding R71, 20_memory R51). -/
def execBusWrite (a : RegAddr) (v : Byte) (s : State) : Out := writeRow (.busWrite a v) a v s

/-- BUS.read (30_encoding R72, 20_memory R52). -/
def execBusRead (a : RegAddr) (s : State) : Out := readRow (.busRead a) a s

/-- W.Command (10_state R31). -/
def execWCommand (v : Byte) (s : State) : Out := writeRow (.wCommand v) (s.params.regAddr .command) v s

/-- W.ComIEn (10_state R32). -/
def execWComIEn (v : Byte) (s : State) : Out := writeRow (.wComIEn v) (s.params.regAddr .comIEn) v s

/-- W.ComIrq (10_state R33). -/
def execWComIrq (v : Byte) (s : State) : Out := writeRow (.wComIrq v) (s.params.regAddr .comIrq) v s

/-- W.DivIrq (10_state R39). -/
def execWDivIrq (v : Byte) (s : State) : Out := writeRow (.wDivIrq v) (s.params.regAddr .divIrq) v s

/-- W.Status2 (10_state R40). -/
def execWStatus2 (v : Byte) (s : State) : Out := writeRow (.wStatus2 v) (s.params.regAddr .status2) v s

/-- W.FifoData (10_state R34). -/
def execWFifoData (v : Byte) (s : State) : Out := writeRow (.wFifoData v) (s.params.regAddr .fifoData) v s

/-- W.FifoLevel (10_state R35). -/
def execWFifoLevel (v : Byte) (s : State) : Out := writeRow (.wFifoLevel v) (s.params.regAddr .fifoLevel) v s

/-- W.BitFraming (10_state R37). -/
def execWBitFraming (v : Byte) (s : State) : Out := writeRow (.wBitFraming v) (s.params.regAddr .bitFraming) v s

/-- W.Mode (10_state R44). -/
def execWMode (v : Byte) (s : State) : Out := writeRow (.wMode v) (s.params.regAddr .mode) v s

/-- W.TxControl (10_state R41). -/
def execWTxControl (v : Byte) (s : State) : Out := writeRow (.wTxControl v) (s.params.regAddr .txControl) v s

/-- W.TxAuto (10_state R44). -/
def execWTxAuto (v : Byte) (s : State) : Out := writeRow (.wTxAuto v) (s.params.regAddr .txAuto) v s

/-- W.TMode (10_state R43). -/
def execWTMode (v : Byte) (s : State) : Out := writeRow (.wTMode v) (s.params.regAddr .tMode) v s

/-- W.TPrescaler (10_state R43). -/
def execWTPrescaler (v : Byte) (s : State) : Out := writeRow (.wTPrescaler v) (s.params.regAddr .tPrescaler) v s

/-- W.TReloadH (10_state R43). -/
def execWTReloadH (v : Byte) (s : State) : Out := writeRow (.wTReloadH v) (s.params.regAddr .tReloadH) v s

/-- W.TReloadL (10_state R43). -/
def execWTReloadL (v : Byte) (s : State) : Out := writeRow (.wTReloadL v) (s.params.regAddr .tReloadL) v s

/-- R.ComIrq (10_state R33). -/
def execRComIrq (s : State) : Out := readRow .rComIrq (s.params.regAddr .comIrq) s

/-- R.DivIrq (10_state R39). -/
def execRDivIrq (s : State) : Out := readRow .rDivIrq (s.params.regAddr .divIrq) s

/-- R.Error (10_state R38). -/
def execRError (s : State) : Out := readRow .rError (s.params.regAddr .error) s

/-- R.Status2 (10_state R40). -/
def execRStatus2 (s : State) : Out := readRow .rStatus2 (s.params.regAddr .status2) s

/-- R.FifoData (10_state R34). -/
def execRFifoData (s : State) : Out := readRow .rFifoData (s.params.regAddr .fifoData) s

/-- R.FifoLevel (10_state R35). -/
def execRFifoLevel (s : State) : Out := readRow .rFifoLevel (s.params.regAddr .fifoLevel) s

/-- R.Control (10_state R36). -/
def execRControl (s : State) : Out := readRow .rControl (s.params.regAddr .control) s

/-- R.BitFraming (10_state R37). -/
def execRBitFraming (s : State) : Out := readRow .rBitFraming (s.params.regAddr .bitFraming) s

/-- R.TxControl (10_state R41). -/
def execRTxControl (s : State) : Out := readRow .rTxControl (s.params.regAddr .txControl) s

/-- R.CrcResultH (10_state R42). -/
def execRCrcResultH (s : State) : Out := readRow .rCrcResultH (s.params.regAddr .crcResultH) s

/-- R.CrcResultL (10_state R42). -/
def execRCrcResultL (s : State) : Out := readRow .rCrcResultL (s.params.regAddr .crcResultL) s

end Sys2Proof.Machine
end

