-- ==== Sys2Proof/Machine/CardFrames.lean ====
section
/-! DEFINITION. The CARD rows: "a byte sequence the engine writes into the FIFO for transmission to the card" (30_encoding
R70, R77 to R81). Run alone, a row is the load of its bytes into the FIFO, one transaction a byte, after the whole-byte write
of BITFRAMING that REQA and ANTICOLL are sent with (R77, R78; log entry 7). -/

namespace Sys2Proof.Machine

/-- The bytes of a frame written into the FIFO, run alone. -/
def frameRow (i : Instr) (bytes : List Byte) (s : State) : Out := accept i s (.next (finish .done (writeFifo bytes s)))

/-- A frame sent with a framing of its own: the framing written first, as the operation that builds the frame does. -/
def framedRow (i : Instr) (framing : Byte) (bytes : List Byte) (s : State) : Out :=
  accept i s (.next (finish .done (writeFifo bytes (regWrite .bitFraming framing s))))

/-- REQA, "sent with `BITFRAMING = 0x07`" (30_encoding R77). -/
def execCardReqa (s : State) : Out := framedRow .cardReqa 0x07#8 reqaFrame s

/-- ANTICOLL, "sent with `BITFRAMING = 0x00`" (30_encoding R78). -/
def execCardAnticoll (s : State) : Out := framedRow .cardAnticoll 0x00#8 anticollFrame s

/-- SELECT (30_encoding R79): the checksum byte stands exactly with SELECT_APPEND_BCC. -/
def execCardSelect (uid : Bytes 4) (bcc : Option Byte) (crcLow crcHigh : Byte) (s : State) : Out :=
  frameRow (.cardSelect uid bcc crcLow crcHigh) (withCrc (selectFrame s.params uid) (crcLow, crcHigh)) s

/-- AUTH (30_encoding R80). -/
def execCardAuth (mode block : Byte) (key : Bytes 6) (uid : Bytes 4) (s : State) : Out :=
  frameRow (.cardAuth mode block key uid) (authFrame mode block key uid) s

/-- READ (30_encoding R81). -/
def execCardRead (block crcLow crcHigh : Byte) (s : State) : Out :=
  frameRow (.cardRead block crcLow crcHigh) (withCrc (readFrameBytes block) (crcLow, crcHigh)) s

/-- WRITE (30_encoding R81). -/
def execCardWrite (block crcLow crcHigh : Byte) (s : State) : Out :=
  frameRow (.cardWrite block crcLow crcHigh) (withCrc (writeFrameBytes block) (crcLow, crcHigh)) s

/-- WRITEDATA (30_encoding R81): `data ++ crc`, 18 bytes. -/
def execCardWriteData (data : Bytes 16) (crcLow crcHigh : Byte) (s : State) : Out :=
  frameRow (.cardWriteData data crcLow crcHigh) (withCrc data.val (crcLow, crcHigh)) s

end Sys2Proof.Machine
end

