-- ==== Sys2Proof/Machine/ChipCmd.lean ====
section
/-! DEFINITION. The CHIPCMD rows: "the value written to the `COMMAND` register", which "starts that command in the chip"
(30_encoding R70, R74; 10_state R31). Run alone, a row is that one write (log entry 7). -/

namespace Sys2Proof.Machine

/-- The write of a command's code to COMMAND, run alone. -/
def commandRow (i : Instr) (c : ChipCommand) (s : State) : Out := accept i s (.next (finish .done (writeCommand c s)))

/-- CMD.Idle (30_encoding R74). -/
def execCmdIdle (s : State) : Out := commandRow .cmdIdle .idle s

/-- CMD.CalcCrc (30_encoding R74). -/
def execCmdCalcCrc (s : State) : Out := commandRow .cmdCalcCrc .calcCrc s

/-- CMD.Transceive (30_encoding R74). -/
def execCmdTransceive (s : State) : Out := commandRow .cmdTransceive .transceive s

/-- CMD.Authenticate (30_encoding R74). -/
def execCmdAuthenticate (s : State) : Out := commandRow .cmdAuthenticate .authenticate s

/-- CMD.SoftReset (30_encoding R74). -/
def execCmdSoftReset (s : State) : Out := commandRow .cmdSoftReset .softReset s

end Sys2Proof.Machine
end

