-- ==== Sys2Proof/Machine/Codec.lean ====
section
/-! DEFINITION. AccessBitsCodec: `getBit`, `encode`, `decode` (43_access_codec.md) and the ACCESS row. They read and write
no register (10_state R18): only the presented result changes. -/

namespace Sys2Proof.Machine

/-- `encode` (R142); a code above 7 is refused (R148). -/
def execEncode (b : BlocksAccess) (s : State) : Out :=
  accept (.encode b) s
    (let e := encodeAccess b
     .next (finish (.encoded e.1 e.2.1 e.2.2.1 e.2.2.2) (begin .encode s)))

/-- The result of `decode` presented; a byte count other than 3 or 4 is no operand (R144). -/
def presentDecoded (bytes : List Byte) (s : State) : Out :=
  match decodeAccessBytes bytes with
  | some r => .next (finish (.decoded r.1 r.2) s)
  | none => .refused .malformed

/-- `decode` (R144, R147). -/
def execDecode (bytes : List Byte) (s : State) : Out :=
  accept (.decode bytes) s (presentDecoded bytes (begin .decode s))

/-- `getBit` (R141); a code above 7 is refused (R148). -/
def execGetBit (b : BlocksAccess) (n : Byte) (s : State) : Out :=
  accept (.getBit b n) s (.next (finish (.nibble (getBitOf b n.toNat)) (begin .getBit s)))

/-- The ACCESS row: four encoded bytes, "consumed by decode" (30_encoding R88; log entry 8). -/
def execAccess (bytes : Bytes 4) (s : State) : Out := accept (.access bytes) s (presentDecoded bytes.val s)

end Sys2Proof.Machine
end

