-- ==== Sys2Proof/Machine/Crc.lean ====
section
/-! DEFINITION. CrcEngine: the operation `computeCrc` (41_crc.md). Line numbers are those of R105. It drives the bus itself
and does not go through `execute` (R110, 90_conflicts C6). -/

namespace Sys2Proof.Machine

/-- Lines 1 to 4: the prologue (R106). TX holds the operand from the call on (10_state R15). -/
def crcStartProg (data : List Byte) : Prog Unit :=
  .act (.note fun w => { w with tx := some data }) <|
  (clearBitsProg .divIrq crcReadyBit).bind fun _ =>
  flushFifoProg.bind fun _ =>
  (writeFifoProg data).bind fun _ =>
  writeCommandProg .calcCrc

/-- Lines 10 to 12: "read result-low then result-high registers" (R109), each byte of CRCRES written by its read. -/
def crcResultProg : Prog (Except ErrKind (Byte × Byte)) :=
  .read .crcResultL fun low =>
  .act (.note fun w => { w with crcRes0 := some low }) <|
  .read .crcResultH fun high =>
  .act (.note fun w => { w with crcRes1 := some high }) <| .line <| .ret (.ok (low, high))

/-- `computeCrc(data)` (R105). Exhaustion of the poll raises TimeoutError in the typed mode and passes in the stale mode
(R108, 90_conflicts C1). -/
def computeCrcProg (data : List Byte) : Prog (Except ErrKind (Byte × Byte)) :=
  (crcStartProg data).bind fun _ =>
  (pollProg .divIrq crcReadyBit Config.pollBoundCrc).bind fun matched =>
  .line <| .ask fun p =>
  if !matched && p.crcTimeoutMode == .typed then raiseProg .timeoutError else crcResultProg

/-- `computeCrc`, run whole. -/
def computeCrcBody (data : List Byte) (s : State) : Res (Byte × Byte) := Res.of ((computeCrcProg data).run s)

/-- `computeCrc` requested by the host, in any PSTATE (R105, R112 e). -/
def execComputeCrc (data : List Byte) (s : State) : Out :=
  accept (.computeCrc data) s
    (.next (present (fun c => .crc c.1 c.2) (computeCrcBody data (begin .computeCrc s))))

end Sys2Proof.Machine
end

