-- ==== Sys2Proof/Machine/Transceiver.lean ====
section
/-! DEFINITION. CommandTransceiver: the operation `execute` (40_transceiver.md). Line numbers are those of R90. -/

namespace Sys2Proof.Machine

/-- Lines 1 to 8: the masks, the prologue (R91, R92), the FIFO load (R93) and the start (R94). TX holds the operand from the
call on (10_state R15). -/
def executeStartProg (c : ChipCommand) (outData : List Byte) : Prog Unit :=
  .act (.note fun w => { w with tx := some outData }) <|
  .line <| .act (.note fun w => { w with en := some (masks c).1, wt := some (masks c).2 }) <|
  .write .comIEn (comIEnValue c) <|
  (clearBitsProg .comIrq masterBit).bind fun _ =>
  flushFifoProg.bind fun _ =>
  (writeCommandProg .idle).bind fun _ =>
  (writeFifoProg outData).bind fun _ =>
  (writeCommandProg c).bind fun _ =>
  .line <|
  match c with
  | .transceive => setBitsProg .bitFraming startSendBit
  | .idle | .calcCrc | .authenticate | .softReset => .ret ()

/-- Lines 18 to 22: the received count (R98), the valid bits (R99) and the drain (R100), for Transceive only. The bits of
CONTROL are tested in the step that reads them (10_state R25), so line 20 goes with line 19; RX starts from `[]`, and there is
at least one read. -/
def receiveProg : Prog (Except ErrKind Transceived) :=
  .read .fifoLevel fun level =>
  .act (.note fun w => { w with n := some (receivedCount level) }) <|
  .read .control fun control =>
  .act (.note fun w => { w with
    lastBits := some (lastBitsOf control)
    vbits := some (validBitsOf (receivedCount level) (lastBitsOf control)) }) <|
  (drainFifoProg [] (receivedCount level)).bind fun rx =>
  .line <| .ret (.ok ⟨rx, some (validBitsOf (receivedCount level) (lastBitsOf control))⟩)

/-- Lines 15 to 23, after a poll that matched: the error register, tested in the step that reads it (R97, 10_state R25), then
line 17 and the result (R98 to R101). -/
def executeResultProg (c : ChipCommand) : Prog (Except ErrKind Transceived) :=
  .read .error fun errv =>
  .act (.note fun w => { w with errv := some errv }) <|
  if anySet errv errMask then raiseProg .protocolError
  else
    .line <|
    match c with
    | .transceive => receiveProg
    | .idle | .calcCrc | .authenticate | .softReset =>
      .line <| .act (.note fun w => { w with rx := some [], vbits := none }) <| .ret (.ok ⟨[], none⟩)

/-- `execute(command, outData)` (R90). The start-send bit is cleared "always, regardless of outcome", before a timeout is
reported (R96, 90_conflicts C9). -/
def executeProg (c : ChipCommand) (outData : List Byte) : Prog (Except ErrKind Transceived) :=
  (executeStartProg c outData).bind fun _ =>
  (pollProg .comIrq (stopMask c) Config.pollBoundTrx).bind fun matched =>
  (clearBitsProg .bitFraming startSendBit).bind fun _ =>
  .line <| if matched then executeResultProg c else raiseProg .timeoutError

/-- `execute`, run whole. -/
def executeBody (c : ChipCommand) (outData : List Byte) (s : State) : Res Transceived :=
  Res.of ((executeProg c outData).run s)

/-- `execute` requested by the host, in any PSTATE (R90, R103). -/
def execExecute (command : ChipCommand) (outData : List Byte) (s : State) : Out :=
  accept (.execute command outData) s
    (.next (present .transceived (executeBody command outData (begin .execute s))))

end Sys2Proof.Machine
end

