-- ==== Sys2Proof/Machine/Session.lean ====
section
/-! DEFINITION. CardSession: the card-facing state machine and its operations (42_card_session.md). -/

namespace Sys2Proof.Machine

/-- The body of `stopCrypto`, both lines (R124). -/
def stopCryptoProg : Prog Unit :=
  (clearBitsProg .status2 cryptoOnBit).bind fun _ => .line <| .act .clearSession <| .ret ()

/-- `teardown()`: "the body of `stopCrypto` run by the engine itself, inside the failing operation" when AUTO_TEARDOWN is
true, and nothing when it is false (R125). -/
def teardownProg : Prog Unit := .ask fun p => if p.autoTeardown then stopCryptoProg else .ret ()

/-- Teardown, and then an outcome: teardown runs "before the operation's error or failure status is presented" (R125). -/
def tornDown {α : Type} (a : α) : Prog α := teardownProg.bind fun _ => .ret a

/-- A sub-operation and the test of its outcome, "`if c is an error e`", an internal step. DESIGN CHOICE (log entry 16): when the
sub-operation returns with success, the working registers keep what it left in them (STAT, ERRV, LASTBITS, RX, VBITS, CRCRES and
the rest); 10_state R15 and R25 speak of the end of an operation and do not say whether such a return is one. -/
def testedProg {α : Type} (p : Prog α) : Prog α := p.bind fun x => .line <| .ret x

/-- `computeCrc(f)` and then `execute(Transceive, f ++ c)` (R128), errors passed on (R129). -/
def sendWithCrcProg (f : List Byte) : Prog (Except ErrKind Transceived) :=
  (testedProg (computeCrcProg f)).orRaise fun c => testedProg (executeProg .transceive (withCrc f c))

/-- `reset()` (R116): the flag, one direct write of the SoftReset code, the session registers and CFG. -/
def resetProg : Prog Unit :=
  .line <| .act (.authd false) <|
  (writeCommandProg .softReset).bind fun _ =>
  .line <| .act .clearSession <| .act (.cfg .needsInit) <| .ret ()

/-- `init()` lines 1 to 6 (R117): the values in the order of the source's sentence. -/
def initWrites : List (Reg × Byte) :=
  [(.tMode, 0x8D#8), (.tPrescaler, 0x3E#8), (.tReloadL, 30#8), (.tReloadH, 0#8), (.txAuto, 0x40#8), (.mode, 0x3D#8)]

/-- `init()` (R117): "sets bits 0x03 of antenna-control register if not already set". -/
def initProg : Prog Unit :=
  (writeAllProg initWrites).bind fun _ =>
  .read .txControl fun v =>
  .act (.note fun w => { w with t := some v }) <| .line <|
  if v &&& rfOnBits = rfOnBits then .line <| .act (.cfg .ready) <| .ret ()
  else .write .txControl (v ||| rfOnBits) <| .line <| .act (.cfg .ready) <| .ret ()

/-- `request()` (R118): every failure is CardNotPresentError (R129), and PSTATE changes on success only. -/
def requestProg : Prog (Except ErrKind Unit) :=
  .write .bitFraming 0x07#8 <|
  (testedProg (executeProg .transceive reqaFrame)).bind fun r =>
  match r with
  | .error _ => .ret (.error .cardNotPresentError)
  | .ok x =>
    if x.validBits = some 16 then .line <| .act (.pstate .requested) <| .ret (.ok ())
    else .ret (.error .cardNotPresentError)

/-- `antiCollision()` (R119): a sub-operation error is passed on, every other rejection is ChecksumError, and each leaves
PSTATE = Collided. Lines 3 to 5 are the tests, 6 and 7 the result. -/
def antiCollisionProg : Prog (Except ErrKind (Bytes 4)) :=
  .write .bitFraming 0x00#8 <|
  (testedProg (executeProg .transceive anticollFrame)).bind fun r =>
  match r with
  | .error e => .act (.pstate .collided) <| .ret (.error e)
  | .ok x =>
    .line <|
    if x.data.length ≠ 5 then .act (.pstate .collided) <| .ret (.error .checksumError)
    else
      .line <|
      match acceptedUid x.data with
      | none => .act (.pstate .collided) <| .ret (.error .checksumError)
      | some u => .line <| .act (.uid (some u)) <| .act (.pstate .identified) <| .line <| .ret (.ok u)

/-- `selectTag(uid)` (R120): `blocks = response[0]` if 24 valid bits came, else 0; Selected in both cases. -/
def selectTagProg (uid : Bytes 4) : Prog (Except ErrKind Byte) :=
  .line <| .ask fun p =>
  (sendWithCrcProg (selectFrame p uid)).orRaise fun r =>
  let blocks := if r.validBits = some 24 then r.data.headD 0#8 else 0#8
  .line <| .act (.note fun w => { w with blocks := some blocks }) <|
  .line <| .act (.uid (some uid)) <| .act (.pstate .selected) <| .line <| .ret (.ok blocks)

/-- `authenticate(mode, blockAddress, key, uid)` (R121): its status. The bit of STATUS2 is tested in the step that reads it
(10_state R25). -/
def authenticateProg (mode block : Byte) (key : Bytes 6) (uid : Bytes 4) : Prog AuthStatus :=
  .line <|
  (testedProg (executeProg .authenticate (authFrame mode block key uid))).bind fun r =>
  match r with
  | .error _ => tornDown .readFailure
  | .ok _ =>
    .read .status2 fun v =>
    .act (.note fun w => { w with t := some v }) <| .ask fun p =>
    if authFailed p v then tornDown .failure
    else .line <| .act (.openSession block key) <| .line <| .ret .ok

/-- `readBlock(blockAddress)` (R122): errors passed on and a length other than 16 is DataLengthError, each after teardown. -/
def readBlockProg (block : Byte) : Prog (Except ErrKind (List Byte)) :=
  .line <|
  (sendWithCrcProg (readFrameBytes block)).bind fun r =>
  match r with
  | .error e => tornDown (.error e)
  | .ok x =>
    .line <|
    if x.data.length = 16 then .line <| .ret (.ok x.data) else tornDown (.error .dataLengthError)

/-- One phase of `writeBlock`: send a frame with its CRC and require the acknowledgement; every failure of the phase is
`e`, after teardown (R123, R129). The lines after `computeCrc` and after `execute` are the tests of their outcomes. -/
def writePhaseProg (e : ErrKind) (f : List Byte) : Prog (Except ErrKind Unit) :=
  (testedProg (computeCrcProg f)).bind fun c =>
  match c with
  | .error _ => tornDown (.error e)
  | .ok c =>
    (testedProg (executeProg .transceive (withCrc f c))).bind fun r =>
    match r with
    | .error _ => tornDown (.error e)
    | .ok x => if ackedBy x then .ret (.ok ()) else tornDown (.error e)

/-- `writeBlock(blockAddress, data)` (R123): "when the first phase fails, ... no byte of `data` reaches the FIFO". -/
def writeBlockProg (block : Byte) (data : Bytes 16) : Prog (Except ErrKind Unit) :=
  .line <|
  (writePhaseProg .writeNotAuthorizedError (writeFrameBytes block)).orRaise fun _ =>
  (writePhaseProg .writeFailedError data.val).orRaise fun _ =>
  .line <| .ret (.ok ())

/-! The same, run whole on a state. -/

/-- `reset`'s body (R116). -/
def resetBody (s : State) : State := (resetProg.run s).2

/-- `init`'s body (R117). -/
def initBody (s : State) : State := (initProg.run s).2

/-- `request`'s body (R118). -/
def requestBody (s : State) : Res Unit := Res.of (requestProg.run s)

/-- `antiCollision`'s body (R119). -/
def antiCollisionBody (s : State) : Res (Bytes 4) := Res.of (antiCollisionProg.run s)

/-- `selectTag`'s body (R120). -/
def selectTagBody (uid : Bytes 4) (s : State) : Res Byte := Res.of ((selectTagProg uid).run s)

/-- `authenticate`'s body (R121): the status and the state it leaves. -/
def authenticateBody (mode block : Byte) (key : Bytes 6) (uid : Bytes 4) (s : State) : AuthStatus × State :=
  (authenticateProg mode block key uid).run s

/-- `readBlock`'s body (R122). -/
def readBlockBody (block : Byte) (s : State) : Res (List Byte) := Res.of ((readBlockProg block).run s)

/-- `writeBlock`'s body (R123). -/
def writeBlockBody (block : Byte) (data : Bytes 16) (s : State) : Res Unit := Res.of ((writeBlockProg block data).run s)

/-- `stopCrypto`'s body (R124). -/
def stopCryptoBody (s : State) : State := (stopCryptoProg.run s).2

/-- The precondition `Authenticated(s)` with `s = blockAddress div 4` of `readBlock` and `writeBlock` (R114). SECTOR without
a value while PSTATE is Authenticated, which no run reaches, is a fault of the model (10_state R16). -/
def inSector (op : HostOp) (block : Byte) (s : State) (body : Out) : Out :=
  if s.pstate = .authenticated then
    match s.sector with
    | none => .fault (.noValue .sector)
    | some k => if k = sectorOf block then body else .refused (.precondition op)
  else .refused (.precondition op)

/-- A precondition of R114: the operation runs, or is refused (60_exceptions R169). -/
def require (op : HostOp) (cond : Bool) (body : Out) : Out := if cond then body else .refused (.precondition op)

/-- The precondition of an instruction (R114): true of those that have none. -/
def precondition (i : Instr) (s : State) (body : Out) : Out :=
  match i with
  | .init => require .init (s.cfg == .needsInit) body
  | .request => require .request (s.pstate == .idle && s.cfg == .ready) body
  | .antiCollision => require .antiCollision (s.pstate == .requested) body
  | .selectTag _ => require .selectTag (s.pstate == .identified) body
  | .authenticate _ _ _ _ => require .authenticate (s.pstate == .selected) body
  | .readBlock block => inSector .readBlock block s body
  | .writeBlock block _ => inSector .writeBlock block s body
  | _ => body

/-- An instruction accepted with its precondition, or refused (60_exceptions R169). -/
def admitted (i : Instr) (s : State) (body : Out) : Out := accept i s (precondition i s body)

/-! ## The meanings -/

/-- `reset` (R116), in any PSTATE. -/
def execReset (s : State) : Out := admitted .reset s (.next (finish .done (resetBody (begin .reset s))))

/-- `init` (R117): `CFG = NeedsInit`. -/
def execInit (s : State) : Out := admitted .init s (.next (finish .done (initBody (begin .init s))))

/-- `request` (R118): `PSTATE = Idle` and `CFG = Ready`. -/
def execRequest (s : State) : Out :=
  admitted .request s (.next (present (fun _ => .done) (requestBody (begin .request s))))

/-- `antiCollision` (R119): `PSTATE = Requested`. -/
def execAntiCollision (s : State) : Out :=
  admitted .antiCollision s (.next (present .uid (antiCollisionBody (begin .antiCollision s))))

/-- `selectTag` (R120): `PSTATE = Identified`. -/
def execSelectTag (uid : Bytes 4) (s : State) : Out :=
  admitted (.selectTag uid) s (.next (present .blocks (selectTagBody uid (begin .selectTag s))))

/-- `authenticate` (R121): `PSTATE = Selected`; the status is a value, not a `raise`, and the error kind it is by
`authErrKind` (R134). -/
def execAuthenticate (mode block : Byte) (key : Bytes 6) (uid : Bytes 4) (s : State) : Out :=
  admitted (.authenticate mode block key uid) s
    (let r := authenticateBody mode block key uid (begin .authenticate s)
     .next (finish (.auth r.1) r.2))

/-- `readBlock` (R122). -/
def execReadBlock (block : Byte) (s : State) : Out :=
  admitted (.readBlock block) s (.next (present .block (readBlockBody block (begin .readBlock s))))

/-- `writeBlock` (R123). -/
def execWriteBlock (block : Byte) (data : Bytes 16) (s : State) : Out :=
  admitted (.writeBlock block data) s (.next (present (fun _ => .done) (writeBlockBody block data (begin .writeBlock s))))

/-- `stopCrypto` (R124), in any PSTATE. -/
def execStopCrypto (s : State) : Out := admitted .stopCrypto s (.next (finish .done (stopCryptoBody (begin .stopCrypto s))))

end Sys2Proof.Machine
end

