-- ==== Sys2Proof/Machine/Sequencer.lean ====
section
/-! DEFINITION. The sequencer of every operation but `wait` and the codec: which program an operation is, one step of it ("the
next bus transaction or internal step", 10_state R20), the end of it, and the sequence of `selectCard` after its wait
(42_card_session R126). The codec operations make no transaction (10_state R18) and have no step of their own. -/

namespace Sys2Proof.Machine

/-- The program of an operation and its OP, with the result it presents at its end; none for `wait`, `selectCard`, the codec
and the rows that are no host request. -/
def program : Instr → Option (HostOp × Prog Result)
  | .execute c d => some (.execute, (executeProg c d).bind fun x => .ret (resultOf .transceived x))
  | .computeCrc d => some (.computeCrc, (computeCrcProg d).bind fun x => .ret (resultOf (fun c => .crc c.1 c.2) x))
  | .reset => some (.reset, resetProg.bind fun _ => .ret .done)
  | .init => some (.init, initProg.bind fun _ => .ret .done)
  | .request => some (.request, requestProg.bind fun x => .ret (resultOf (fun _ => .done) x))
  | .antiCollision => some (.antiCollision, antiCollisionProg.bind fun x => .ret (resultOf .uid x))
  | .selectTag uid => some (.selectTag, (selectTagProg uid).bind fun x => .ret (resultOf .blocks x))
  | .authenticate mode block key uid =>
    some (.authenticate, (authenticateProg mode block key uid).bind fun a => .ret (.auth a))
  | .readBlock block => some (.readBlock, (readBlockProg block).bind fun x => .ret (resultOf .block x))
  | .writeBlock block data => some (.writeBlock, (writeBlockProg block data).bind fun x => .ret (resultOf (fun _ => .done) x))
  | .stopCrypto => some (.stopCrypto, stopCryptoProg.bind fun _ => .ret .done)
  | _ => none

/-! ## The sequence of selectCard -/

/-- The step of `selectCard` that follows the step `i` ended with the result `r`: "`reset(); init(); request(); u <-
antiCollision(); b <- selectTag(u)`"; "The first step that raises ends the sequence with that error" (42_card_session R126).
None after an error and after the last step. -/
def nextStage (i : Instr) (r : Result) : Option Instr :=
  match resultErrKind r with
  | some _ => none
  | none =>
    match i, r with
    | .reset, _ => some .init
    | .init, _ => some .request
    | .request, _ => some .antiCollision
    | .antiCollision, .uid u => some (.selectTag u)
    | _, _ => none

/-- The steps of `selectCard` after its wait run whole, from the step `i`, at most `n` of them, the last result presented. No
working register holds a value at the start of one (10_state R15). -/
def stages : Nat → Instr → State → State
  | 0, _, s => s
  | n + 1, i, s =>
    match program i with
    | some (_, p) =>
      match p.run (s.setWork Work.empty) with
      | (r, t) =>
        match nextStage i r with
        | some j => stages n j t
        | none => finish r t
    | none => s

/-- An operation of `selectCard` reached: the acts up to its first step. No working register holds a value there (10_state
R15). PHASE goes on counting: "the model may nest `pc` or flatten it" (R22). -/
def startStage (i : Instr) (s : State) : State :=
  match program i with
  | some (_, p) =>
    match p.flow ((s.setWork Work.empty).setJob (some ⟨i, []⟩)) with
    | (some r, t) => finish r t
    | (none, t) => t
  | none => s

/-- The end of the operation in progress, or of a step of `selectCard`, with a result. -/
def conclude (r : Result) (s : State) : State :=
  match s.pc.op, s.job with
  | some .selectCard, some j =>
    match nextStage j.instr r with
    | some i => startStage i s
    | none => finish r s
  | _, _ => finish r s

/-- Go on when a program has reached its end, and wait for the next step when it has reached one. -/
def reached : Option Result × State → State
  | (some r, s) => conclude r s
  | (none, s) => s

/-! ## One step -/

/-- An operation begun, to be run one step at a time: its operands are held, and its first step is made. -/
def beginProgram (op : HostOp) (i : Instr) (p : Prog Result) (s : State) : State :=
  reached (p.tick ((begin op s).setJob (some ⟨i, []⟩)))

/-- One step of the operation in progress: its next bus transaction or internal step. -/
def tickJob (s : State) : State :=
  match s.job with
  | some j =>
    match program j.instr with
    | some (_, p) => reached ((p.after s.params j.took).tick s)
    | none => s
  | none => s

end Sys2Proof.Machine
end

