-- ==== Sys2Proof/Machine/Presence.lean ====
section
/-! DEFINITION. CardPresenceWait: the interrupt agent, the operation `wait` one sequencer step at a time, and the
pseudo-operation `selectCard`, which begins with a wait (44_presence_wait.md, 42_card_session R126). Line numbers are those
of R154.

PHASE inside a wait, with `n` prologue writes and `m` epilogue writes: 0 line 1, 1 .. n the prologue (line 2), n+1, n+2, n+3
the arming (lines 4 to 6), n+4 the wait point (line 7), n+5 .. n+4+m the epilogue (line 8), n+5+m line 9 and n+6+m line 10. Each
is one step, the first made when the operation is requested, so that an edge can arrive "between the signal's consumption and
line 9" (R157). In `selectCard` PHASE goes on counting from there. -/

namespace Sys2Proof.Machine

/-- One step of the interrupt agent (R153): "`new <- IRQ_IN; if WATCH = 1 and IRQ_PREV = 1 and new = 0 then SIGNAL <- 1;
IRQ_PREV <- new`". -/
def agentStep (s : State) : State :=
  (s.setSignal (s.signal || (s.watch && s.irqPrev && !s.irqIn))).setIrqPrev s.irqIn

/-- The operation of a job is the wait `selectCard` begins with, and not one of its later steps. A job that is run whole has
none. -/
def waitStage : Option Job → Bool
  | none => true
  | some j => (program j.instr).isNone

/-- A wait is in progress, alone or as the first part of `selectCard`. -/
def inWait (s : State) : Bool := (s.pc.op == some .wait || s.pc.op == some .selectCard) && waitStage s.job

/-- PHASE of line 4, where a re-arm goes back to (R154 line 7). -/
def armPhase (p : Params) : Nat := p.waitPrologue.length + 1

/-- PHASE of the wait point, line 7. -/
def waitPhase (p : Params) : Nat := armPhase p + 3

/-- PHASE of line 9, where the watch is deregistered (R157). -/
def deregisterPhase (p : Params) : Nat := waitPhase p + p.waitEpilogue.length + 1

/-- The sequencer is at the wait point (R156). -/
def atWaitPoint (s : State) : Bool := inWait s && s.pc.phase == waitPhase s.params

/-- Line 9: the watch is deregistered "on every exit path" (R157). -/
def deregister (s : State) : State := advance (s.setWatch false)

/-- Line 10: the result is returned, Abandoned as an error kind (60_exceptions R163), "done" as success; a `selectCard` whose
wait was done goes on with its other operations, one step at a time when it was requested so, and whole otherwise. -/
def endWait (s : State) : State :=
  if s.work.waitOut = some .abandoned then raiseError .abandoned s
  else if s.pc.op = some .selectCard then
    match s.job with
    | some _ => startStage .reset (advance s)
    | none => stages 5 .reset (advance s)
  else finish .done s

/-- Leave the loop with a result: PHASE goes to line 8. -/
def leaveLoop (o : WaitOut) (s : State) : State :=
  (s.setWork { s.work with waitOut := some o }).setPc { s.pc with phase := s.pc.phase + 1 }

/-- The signal taken at the wait point: "`SIGNAL <- 0`; leave the loop with result done" (R154 line 7, R156). Without a
pending signal the sequencer stays at the wait point. -/
def takeSignal (s : State) : State :=
  if s.signal then leaveLoop .done (s.setSignal false) else s

/-- One step of the sequencer in a wait (R154, R155): the line at PHASE. -/
def seqStep (s : State) : State :=
  match s.params.waitPrologue[s.pc.phase - 1]? with
  | some (r, v) => regWrite r v s
  | none =>
    match s.pc.phase - armPhase s.params with
    | 0 => regWrite .fifoData 0x26#8 s
    | 1 => regWrite .command 0x0C#8 s
    | 2 => regWrite .bitFraming 0x87#8 s
    | 3 => takeSignal s
    | k + 4 =>
      match s.params.waitEpilogue[k]? with
      | some (r, v) => regWrite r v s
      | none => if k = s.params.waitEpilogue.length then deregister s else endWait s

/-- One step of the sequencer, in whatever operation is in progress. -/
def turn (s : State) : State := if inWait s then seqStep s else tickJob s

/-- A move of the outside world. A move that is not enabled has no effect: a timeout is "enabled when `SIGNAL = 0`" at the
wait point, an abandonment at the wait point (R156, R158), and the sequencer has a turn only while an operation is in progress. -/
def applyMove (m : Move) (s : State) : State :=
  match m with
  | .line level => s.setIrqIn level
  | .sample => agentStep s
  | .go => if s.pc.op.isSome then turn s else s
  | .timeout => if atWaitPoint s && !s.signal then s.setPc { s.pc with phase := armPhase s.params } else s
  | .abandon => if atWaitPoint s then leaveLoop .abandoned s else s

/-- Line 1: "`WATCH <- 1; SIGNAL <- 0`", the watch registered once (R157). -/
def waitBegin (op : HostOp) (s : State) : State := (((begin op s).setWatch true).setSignal false).setPc ⟨some op, 1, 0⟩

/-- The sequencer runs on, with no other move, until it is at the wait point or the operation has ended: it "is obliged to
step whenever an operation is in progress and it is not at a wait point" (70_reset_and_hazards R212). -/
def settle : Nat → State → State
  | 0, s => s
  | n + 1, s => if s.pc.op.isNone || atWaitPoint s then s else settle n (seqStep s)

/-- Enough steps for `settle` from any line of a wait. -/
def settleBound (p : Params) : Nat := p.waitPrologue.length + p.waitEpilogue.length + 6

/-- A wait run against the moves the outside makes: each in turn, until the operation ends. When no move is left, or the
host's next request is (which the busy engine does not accept), the sequencer runs on to the wait point, where the operation
stays in progress (R156, R159). -/
def waitRun : List Input → State → State
  | .move m :: rest, s =>
    if (applyMove m s).pc.op.isNone then (applyMove m s).setInputs rest else waitRun rest (applyMove m s)
  | .request bytes :: rest, s => settle (settleBound s.params) (s.setInputs (.request bytes :: rest))
  | [], s => settle (settleBound s.params) (s.setInputs [])

/-- `wait` (R154), in any PSTATE. -/
def execWait (s : State) : Out := admitted .wait s (.next (waitRun s.inputs (waitBegin .wait s)))

/-- `selectCard` (42_card_session R126, 30_encoding R87): "Its precondition is that of `wait`, any state". -/
def execSelectCard (s : State) : Out := admitted .selectCard s (.next (waitRun s.inputs (waitBegin .selectCard s)))

end Sys2Proof.Machine
end

