-- ==== Sys2Proof/Machine/Results.lean ====
section
/-! DEFINITION. The ERRCODE rows (60_exceptions R163): presenting a result code. A code other than Ok is presented as `raise`
does it (R170), with no cleanup of an operation; Ok ends with success (log entry 8). And the ACK row: a response tested as
30_encoding R82 says. -/

namespace Sys2Proof.Machine

/-- An error kind presented to the host by `raise`, run alone. -/
def errorRow (i : Instr) (e : ErrKind) (s : State) : Out := accept i s (.next (raiseError e s))

/-- ERR.Ok: success (60_exceptions R163, code 0). -/
def execErrOk (s : State) : Out := accept .errOk s (.next (finish .done s))

/-- ERR.TimeoutError (60_exceptions R163). -/
def execErrTimeoutError (s : State) : Out := errorRow .errTimeoutError .timeoutError s

/-- ERR.ProtocolError (60_exceptions R163). -/
def execErrProtocolError (s : State) : Out := errorRow .errProtocolError .protocolError s

/-- ERR.ChecksumError (60_exceptions R163). -/
def execErrChecksumError (s : State) : Out := errorRow .errChecksumError .checksumError s

/-- ERR.CardNotPresentError (60_exceptions R163). -/
def execErrCardNotPresentError (s : State) : Out := errorRow .errCardNotPresentError .cardNotPresentError s

/-- ERR.AuthReadFailure (60_exceptions R163). -/
def execErrAuthReadFailure (s : State) : Out := errorRow .errAuthReadFailure .authReadFailure s

/-- ERR.AuthFailure (60_exceptions R163). -/
def execErrAuthFailure (s : State) : Out := errorRow .errAuthFailure .authFailure s

/-- ERR.WriteNotAuthorizedError (60_exceptions R163). -/
def execErrWriteNotAuthorizedError (s : State) : Out := errorRow .errWriteNotAuthorizedError .writeNotAuthorizedError s

/-- ERR.WriteFailedError (60_exceptions R163). -/
def execErrWriteFailedError (s : State) : Out := errorRow .errWriteFailedError .writeFailedError s

/-- ERR.DataLengthError (60_exceptions R163). -/
def execErrDataLengthError (s : State) : Out := errorRow .errDataLengthError .dataLengthError s

/-- ERR.Abandoned (60_exceptions R163). -/
def execErrAbandoned (s : State) : Out := errorRow .errAbandoned .abandoned s

/-- The response an ACK row stands for: the one byte 0x0A with four valid bits (30_encoding R82). -/
def ackResponse : Transceived := ⟨[0x0A#8], some 4⟩

/-- ACK: the response put to the acknowledgement test, its outcome presented (30_encoding R82; log entry 8). -/
def execAck (s : State) : Out := accept .ack s (.next (finish (.acked (ackedBy ackResponse)) s))

end Sys2Proof.Machine
end

