-- ==== Sys2Proof/Machine/Dispatch.lean ====
section
/-! DEFINITION. exec: one arm per constructor of Instr, each one direct call of that instruction's meaning. -/

namespace Sys2Proof.Machine

def exec (i : Instr) (s : State) : Host.Outcome State Fault Refusal :=
  match i with
  | .execute command outData => Sys2Proof.Machine.execExecute command outData s
  | .computeCrc data => Sys2Proof.Machine.execComputeCrc data s
  | .reset => Sys2Proof.Machine.execReset s
  | .init => Sys2Proof.Machine.execInit s
  | .request => Sys2Proof.Machine.execRequest s
  | .antiCollision => Sys2Proof.Machine.execAntiCollision s
  | .selectTag uid => Sys2Proof.Machine.execSelectTag uid s
  | .authenticate mode blockAddress key uid => Sys2Proof.Machine.execAuthenticate mode blockAddress key uid s
  | .readBlock blockAddress => Sys2Proof.Machine.execReadBlock blockAddress s
  | .writeBlock blockAddress data => Sys2Proof.Machine.execWriteBlock blockAddress data s
  | .stopCrypto => Sys2Proof.Machine.execStopCrypto s
  | .wait => Sys2Proof.Machine.execWait s
  | .encode blocks => Sys2Proof.Machine.execEncode blocks s
  | .decode bytes => Sys2Proof.Machine.execDecode bytes s
  | .getBit blocks n => Sys2Proof.Machine.execGetBit blocks n s
  | .selectCard => Sys2Proof.Machine.execSelectCard s
  | .busWrite a v => Sys2Proof.Machine.execBusWrite a v s
  | .busRead a => Sys2Proof.Machine.execBusRead a s
  | .wCommand v => Sys2Proof.Machine.execWCommand v s
  | .wComIEn v => Sys2Proof.Machine.execWComIEn v s
  | .wComIrq v => Sys2Proof.Machine.execWComIrq v s
  | .rComIrq => Sys2Proof.Machine.execRComIrq s
  | .wDivIrq v => Sys2Proof.Machine.execWDivIrq v s
  | .rDivIrq => Sys2Proof.Machine.execRDivIrq s
  | .rError => Sys2Proof.Machine.execRError s
  | .wStatus2 v => Sys2Proof.Machine.execWStatus2 v s
  | .rStatus2 => Sys2Proof.Machine.execRStatus2 s
  | .wFifoData v => Sys2Proof.Machine.execWFifoData v s
  | .rFifoData => Sys2Proof.Machine.execRFifoData s
  | .wFifoLevel v => Sys2Proof.Machine.execWFifoLevel v s
  | .rFifoLevel => Sys2Proof.Machine.execRFifoLevel s
  | .rControl => Sys2Proof.Machine.execRControl s
  | .wBitFraming v => Sys2Proof.Machine.execWBitFraming v s
  | .rBitFraming => Sys2Proof.Machine.execRBitFraming s
  | .wMode v => Sys2Proof.Machine.execWMode v s
  | .wTxControl v => Sys2Proof.Machine.execWTxControl v s
  | .rTxControl => Sys2Proof.Machine.execRTxControl s
  | .wTxAuto v => Sys2Proof.Machine.execWTxAuto v s
  | .rCrcResultH => Sys2Proof.Machine.execRCrcResultH s
  | .rCrcResultL => Sys2Proof.Machine.execRCrcResultL s
  | .wTMode v => Sys2Proof.Machine.execWTMode v s
  | .wTPrescaler v => Sys2Proof.Machine.execWTPrescaler v s
  | .wTReloadH v => Sys2Proof.Machine.execWTReloadH v s
  | .wTReloadL v => Sys2Proof.Machine.execWTReloadL v s
  | .cmdIdle => Sys2Proof.Machine.execCmdIdle s
  | .cmdCalcCrc => Sys2Proof.Machine.execCmdCalcCrc s
  | .cmdTransceive => Sys2Proof.Machine.execCmdTransceive s
  | .cmdAuthenticate => Sys2Proof.Machine.execCmdAuthenticate s
  | .cmdSoftReset => Sys2Proof.Machine.execCmdSoftReset s
  | .cardReqa => Sys2Proof.Machine.execCardReqa s
  | .cardAnticoll => Sys2Proof.Machine.execCardAnticoll s
  | .cardSelect uid bcc crcLow crcHigh => Sys2Proof.Machine.execCardSelect uid bcc crcLow crcHigh s
  | .cardAuth mode blockAddress key uid => Sys2Proof.Machine.execCardAuth mode blockAddress key uid s
  | .cardRead blockAddress crcLow crcHigh => Sys2Proof.Machine.execCardRead blockAddress crcLow crcHigh s
  | .cardWrite blockAddress crcLow crcHigh => Sys2Proof.Machine.execCardWrite blockAddress crcLow crcHigh s
  | .cardWriteData data crcLow crcHigh => Sys2Proof.Machine.execCardWriteData data crcLow crcHigh s
  | .ack => Sys2Proof.Machine.execAck s
  | .access bytes => Sys2Proof.Machine.execAccess bytes s
  | .errOk => Sys2Proof.Machine.execErrOk s
  | .errTimeoutError => Sys2Proof.Machine.execErrTimeoutError s
  | .errProtocolError => Sys2Proof.Machine.execErrProtocolError s
  | .errChecksumError => Sys2Proof.Machine.execErrChecksumError s
  | .errCardNotPresentError => Sys2Proof.Machine.execErrCardNotPresentError s
  | .errAuthReadFailure => Sys2Proof.Machine.execErrAuthReadFailure s
  | .errAuthFailure => Sys2Proof.Machine.execErrAuthFailure s
  | .errWriteNotAuthorizedError => Sys2Proof.Machine.execErrWriteNotAuthorizedError s
  | .errWriteFailedError => Sys2Proof.Machine.execErrWriteFailedError s
  | .errDataLengthError => Sys2Proof.Machine.execErrDataLengthError s
  | .errAbandoned => Sys2Proof.Machine.execErrAbandoned s

end Sys2Proof.Machine
end

