-- ==== Sys2Proof/Machine/Fetch.lean ====
section
/-! DEFINITION. What a step does around exec: a row of the opcode table placed by itself, the host's next request taken and
begun, and the step taken when the outside's script gives nothing the engine can accept. -/

namespace Sys2Proof.Machine

/-- A host request begun, to be run one step at a time (10_state R20, R22): accepted as exec accepts it, and its first step
made. The codec operations make no transaction (R18) and are over at once. -/
def beginRequest (i : Instr) (s : State) : Out :=
  match program i with
  | some (op, p) => admitted i s (.next (beginProgram op i p s))
  | none =>
    match i with
    | .wait => admitted .wait s (.next ((waitBegin .wait s).setJob (some ⟨.wait, []⟩)))
    | .selectCard => admitted .selectCard s (.next ((waitBegin .selectCard s).setJob (some ⟨.selectCard, []⟩)))
    | _ => exec i s

/-- The step when no scripted move is next and no request can be accepted. An operation that is not at a wait point goes on:
the sequencer "is obliged to step whenever an operation is in progress and it is not at a wait point" (70_reset_and_hazards
R212). Otherwise the engine is idle or at a wait point, and the outside makes a free move (44_presence_wait R156; log entry
2). -/
def unscripted (s : State) : Out :=
  if s.pc.op.isSome && !atWaitPoint s then .next (turn s)
  else .next (applyMove (Config.freeMove s.freeIx) (s.setFreeIx (s.freeIx + 1)))

/-- The request an idle engine takes next, and the state after taking it (60_exceptions R185: "Request any operation when the
engine is idle"). -/
def nextRequest (s : State) : Option (List Byte × State) :=
  match s.inputs with
  | .request bytes :: rest => if s.pc.op.isNone then some (bytes, s.setInputs rest) else none
  | _ => none

/-- The row placed by itself in an idle engine, and the state without it (log entry 11). -/
def nextPlaced (s : State) : Option (Format × List Byte × State) :=
  match s.placed with
  | some (f, bytes) => if s.pc.op.isNone then some (f, bytes, s.setPlaced none) else none
  | none => none

/-- `s` with a frame of a format placed by itself, and the engine idle so that it runs it (log entry 11). -/
def placeFrame (f : Format) (bytes : List Byte) (s : State) : State := (s.setPlaced (some (f, bytes))).setPc Pc.idle

/-- `s` with a word numbered as the opcode table numbers it placed by itself (log entry 6). -/
def placeTableWord (nbits w : Nat) (s : State) : State :=
  match tableFrame nbits w with
  | some (f, bytes) => placeFrame f bytes s
  | none => placeFrame .hostop (wordBytes (nbits / 8) w) s

end Sys2Proof.Machine
end

