-- ==== Sys2Proof/Machine/Step.lean ====
section
/-! DEFINITION. One step of the machine: a row placed by itself run by exec, a scripted move of the outside, the host's next
request begun by an idle engine, or else the step of `unscripted`. -/

namespace Sys2Proof.Machine

/-- One step. -/
def step (s : State) : Host.Outcome State Fault Refusal :=
  match nextPlaced s with
  | some (f, bytes, s1) =>
    match decodeFrame s.params f bytes with
    | .ok i => exec i s1
    | .error e => .refused (.undecodable e)
  | none =>
    match s.inputs with
    | .move m :: rest => .next (applyMove m (s.setInputs rest))
    | _ =>
      match nextRequest s with
      | some (bytes, s1) =>
        match decodeFrame s.params .hostop bytes with
        | .ok i => beginRequest i s1
        | .error e => .refused (.undecodable e)
      | none => unscripted s

/-- `s` with the instruction of a table word placed by itself, so that the next step runs it (log entry 6). -/
def State.withFetchWord (s : State) (nbits w : Nat) : State := placeTableWord nbits w s

end Sys2Proof.Machine
end

