-- ==== Sys2Proof/Safety.lean ====
section
/-! DEFINITION. The terms claims are stated in: what a bus trace shows, the runs 40_transceiver R90 and 41_crc R105 allow, the
invariants of the engine at an operation boundary, and the finished run of 70_reset_and_hazards R211. -/

namespace Sys2Proof.Safety

open Sys2Proof.Machine

/-! ## Transcripts -/

/-- A row of a transcript (95_test_vectors, conventions): a register write with its value, or a register read with the byte
the chip answered. -/
inductive Row
  | wr (r : Reg) (v : Byte)
  | rd (r : Reg) (v : Byte)
  deriving DecidableEq, Repr

/-- The transaction a row of a transcript stands for. A write's response is discarded (20_memory R51), so it is not said. -/
def Row.Matches (p : Params) : Row → Xfer → Prop
  | .wr r v, x => x.b0 = writeByte0 (p.regAddr r) ∧ x.b1 = v
  | .rd r v, x => x.b0 = readByte0 (p.regAddr r) ∧ x.b1 = 0x00#8 ∧ x.r = v

/-- The transactions `xs` are exactly the rows, in order. -/
abbrev Shows (p : Params) (rows : List Row) (xs : List Xfer) : Prop := List.Forall₂ (Row.Matches p) rows xs

/-- `SetBits(r, m)` when the chip answers `a` (20_memory R54). -/
def setRows (r : Reg) (m a : Byte) : List Row := [.rd r a, .wr r (a ||| m)]

/-- `ClearBits(r, m)` when the chip answers `a` (20_memory R55). -/
def clearRows (r : Reg) (m a : Byte) : List Row := [.rd r a, .wr r (a &&& ~~~m)]

/-- A byte sequence written into the FIFO (40_transceiver R93). -/
def fifoRows (l : List Byte) : List Row := l.map (.wr .fifoData)

/-- The answers of a poll that matched: the last meets the stop condition and none before does, in at most `bound` reads
(40_transceiver R95). -/
def PollMatched (mask : Byte) (bound : Nat) (vs : List Byte) : Prop :=
  ∃ early v, vs = early ++ [v] ∧ (∀ x ∈ early, x &&& mask = 0#8) ∧ v &&& mask ≠ 0#8 ∧ vs.length ≤ bound

/-- The answers of a poll that ran out: `bound` reads, none of which meets the stop condition (40_transceiver R97). -/
def PollExhausted (mask : Byte) (bound : Nat) (vs : List Byte) : Prop :=
  vs.length = bound ∧ ∀ x ∈ vs, x &&& mask = 0#8

/-- The bytes the reads of a transcript return, in order. -/
def readValues (rows : List Row) : List Byte :=
  rows.filterMap fun
    | .rd _ v => some v
    | .wr _ _ => none

/-- The bytes `vs` read are those of the script `answers`, as far as either goes: "a list of bytes ... consumed in order"
(20_memory R57). What is read beyond the script is free. -/
def Scripted (answers vs : List Byte) : Prop := answers.take vs.length = vs.take answers.length

/-- From `s` the engine makes the transactions `rows` and reaches `t`; the reads are answered from the script, which they use
up; no session register, flag, line, result or parameter changes, and OP does not. -/
def Runs (s : State) (rows : List Row) (t : State) : Prop :=
  ∃ xs freeIx phase iter work, Shows s.params rows xs ∧ Scripted s.answers (readValues rows) ∧
    t = { s with
      trace := s.trace ++ xs
      answers := s.answers.drop (readValues rows).length
      freeIx := freeIx
      pc := ⟨s.pc.op, phase, iter⟩
      work := work }

/-! ## The runs of the two sub-operations -/

/-- Lines 2 to 8 of `execute` (40_transceiver R90, R92 to R94): `a1`, `a2`, `a3` are the answers to the reads inside
ClearBits and SetBits. -/
def executeStartRows (p : Params) (c : ChipCommand) (outData : List Byte) (a1 a2 a3 : Byte) : List Row :=
  [.wr .comIEn ((masks c).1 ||| 0x80#8)] ++ clearRows .comIrq 0x80#8 a1 ++ setRows p.fifoFlushReg p.fifoFlushBit a2
    ++ [.wr .command (p.cmdCode .idle)] ++ fifoRows outData ++ [.wr .command (p.cmdCode c)]
    ++ (if c = .transceive then setRows .bitFraming 0x80#8 a3 else [])

/-- Lines 2 to 13 of `execute`: the start, the poll with the answers `vs`, and the clearing of the start-send bit. -/
def executePolledRows (p : Params) (c : ChipCommand) (outData : List Byte) (a1 a2 a3 : Byte) (vs : List Byte) (a4 : Byte) :
    List Row :=
  executeStartRows p c outData a1 a2 a3 ++ vs.map (.rd .comIrq) ++ clearRows .bitFraming 0x80#8 a4

/-- What `execute(command, outData)` does on the bus and answers (40_transceiver R90): the poll answers `vs`, the whole
transcript, and the outcome. -/
inductive ExecuteRun (p : Params) (c : ChipCommand) (outData : List Byte) :
    List Byte → List Row → Except ErrKind Transceived → Prop
  /-- Lines 13, 14: no read of the poll met the stop condition (R97). -/
  | timeout (a1 a2 a3 a4 : Byte) (vs : List Byte) (h : PollExhausted ((masks c).2 ||| 0x01#8) 2000 vs) :
      ExecuteRun p c outData vs (executePolledRows p c outData a1 a2 a3 vs a4) (.error .timeoutError)
  /-- Lines 15, 16: a bit of the mask 0x1B is set in the error register (R97). -/
  | protocol (a1 a2 a3 a4 e : Byte) (vs : List Byte) (h : PollMatched ((masks c).2 ||| 0x01#8) 2000 vs)
      (he : e &&& 0x1B#8 ≠ 0#8) :
      ExecuteRun p c outData vs (executePolledRows p c outData a1 a2 a3 vs a4 ++ [.rd .error e]) (.error .protocolError)
  /-- Lines 17 to 22: the received count, the valid bits, and the drain, for Transceive (R98 to R100). -/
  | received (a1 a2 a3 a4 e level control : Byte) (vs data : List Byte) (hc : c = .transceive)
      (h : PollMatched ((masks c).2 ||| 0x01#8) 2000 vs) (he : e &&& 0x1B#8 = 0#8)
      (hn : data.length = min (max level.toNat 1) 16) :
      ExecuteRun p c outData vs
        (executePolledRows p c outData a1 a2 a3 vs a4 ++ [.rd .error e, .rd .fifoLevel level, .rd .control control]
          ++ data.map (.rd .fifoData))
        (.ok ⟨data, some (if control &&& 0x07#8 = 0#8 then data.length * 8
          else (data.length - 1) * 8 + (control &&& 0x07#8).toNat)⟩)
  /-- Line 23: every other command answers no data and no valid-bit count (R101). -/
  | other (a1 a2 a3 a4 e : Byte) (vs : List Byte) (hc : c ≠ .transceive)
      (h : PollMatched ((masks c).2 ||| 0x01#8) 2000 vs) (he : e &&& 0x1B#8 = 0#8) :
      ExecuteRun p c outData vs (executePolledRows p c outData a1 a2 a3 vs a4 ++ [.rd .error e]) (.ok ⟨[], none⟩)

/-- Lines 1 to 8 of `computeCrc` (41_crc R105): the start and the poll with the answers `vs`. -/
def crcPolledRows (p : Params) (data : List Byte) (a1 a2 : Byte) (vs : List Byte) : List Row :=
  clearRows .divIrq 0x04#8 a1 ++ setRows p.fifoFlushReg p.fifoFlushBit a2 ++ fifoRows data
    ++ [.wr .command (p.cmdCode .calcCrc)] ++ vs.map (.rd .divIrq)

/-- What `computeCrc(data)` does on the bus and answers (41_crc R105). -/
inductive CrcRun (p : Params) (data : List Byte) : List Byte → List Row → Except ErrKind (Byte × Byte) → Prop
  /-- Line 9: exhaustion in the typed mode (R108); the result registers are not read. -/
  | timeout (a1 a2 : Byte) (vs : List Byte) (h : PollExhausted 0x04#8 255 vs) (hm : p.crcTimeoutMode = .typed) :
      CrcRun p data vs (crcPolledRows p data a1 a2 vs) (.error .timeoutError)
  /-- Lines 10 to 12: the result registers, low then high (R109), after the ready bit, or after exhaustion in the stale
  mode. -/
  | result (a1 a2 low high : Byte) (vs : List Byte)
      (h : PollMatched 0x04#8 255 vs ∨ (PollExhausted 0x04#8 255 vs ∧ p.crcTimeoutMode = .stale)) :
      CrcRun p data vs (crcPolledRows p data a1 a2 vs ++ [.rd .crcResultL low, .rd .crcResultH high]) (.ok (low, high))

/-- "the trace of `computeCrc(f)` followed by the trace of `execute(Transceive, f ++ c)`" (42_card_session R128), stopping at
an error of the first. -/
inductive SentWithCrc (p : Params) (f : List Byte) : List Row → Except ErrKind Transceived → Prop
  | crcFailed (vs : List Byte) (rows : List Row) (e : ErrKind) (h : CrcRun p f vs rows (.error e)) :
      SentWithCrc p f rows (.error e)
  | sent (vs vs' : List Byte) (rows rows' : List Row) (low high : Byte) (out : Except ErrKind Transceived)
      (h : CrcRun p f vs rows (.ok (low, high)))
      (h' : ExecuteRun p .transceive (f ++ [low, high]) vs' rows' out) :
      SentWithCrc p f (rows ++ rows') out

/-- Teardown on the bus: the read and the write of STATUS2 with AUTO_TEARDOWN, nothing without (42_card_session R125). -/
def teardownRows (p : Params) (a : Byte) : List Row := if p.autoTeardown then clearRows .status2 0x08#8 a else []

/-- `acked(x)` (42_card_session R123): four valid bits, and the low nibble of the first byte is 0x0A. -/
def Acked (x : Transceived) : Prop := x.validBits = some 4 ∧ ∃ d rest, x.data = d :: rest ∧ d &&& 0x0F#8 = 0x0A#8

/-! ## Invariants and the end of a run -/

/-- A BUS frame the engine may emit (30_encoding R84 c): bit 0 of byte 0 clear, and byte 1 zero in a read frame. -/
def LegalXfer (x : Xfer) : Prop := x.b0.getLsbD 0 = false ∧ (x.b0.getLsbD 7 = true → x.b1 = 0x00#8)

/-- The transaction accesses one of the nineteen registers (10_state R45). -/
def KnownRegister (p : Params) (x : Xfer) : Prop := ∃ r : Reg, busAddr x.b0 = p.regAddr r

/-- The program stands before a step, and not at its end. -/
def atStep {α : Type} : Prog α → Bool
  | .line _ => true
  | .write _ _ _ => true
  | .read _ _ => true
  | .ret _ => false
  | .ask _ => false
  | .act _ _ => false

/-- The program stands before the line that returns its value, and no error: the registers are as the operation leaves them. -/
def returning : Prog Result → Bool
  | .line (.ret r) => (resultErrKind r).isNone
  | _ => false

/-- What PSTATE is while an operation other than a wait is in progress (42_card_session R114): its precondition, and before
the line that returns (`back`) what the operation leaves. The `init` of a `selectCard` comes straight after its `reset`
(R126). -/
def HeldState (s : State) (back : Bool) : Instr → Prop
  | .reset => back = true → s.pstate = .idle
  | .init => s.pc.op = some .selectCard → s.pstate = .idle
  | .request => s.pstate = if back then .requested else .idle
  | .antiCollision => s.pstate = if back then .identified else .requested
  | .selectTag _ => s.pstate = if back then .selected else .identified
  | .authenticate _ _ _ _ => s.pstate = if back then .authenticated else .selected
  | .readBlock _ => s.pstate = .authenticated
  | .writeBlock _ _ => s.pstate = .authenticated
  | _ => True

/-- The invariant of the registers and flags: the authenticated flag (10_state R23), which line 1 of a `reset` in progress has
cleared before line 3 changes PSTATE (42_card_session R116); the session registers that have a value only in some states (R14);
the idle position and the working registers (R15, R22, R48); the watch, registered exactly while a wait is in progress, from its
line 1 to its line 9 (R24, 44_presence_wait R157, 60_exceptions R168, 70_reset_and_hazards R207); the operation in progress,
which is a program of the engine begun in the state its precondition asks for, standing before a step (R20, 42_card_session
R114); and the reset line (R26). -/
structure Inv (s : State) : Prop where
  authd_iff : s.authd = true ↔ s.pstate = .authenticated ∧ ∀ x l, s.job ≠ some ⟨.reset, x :: l⟩
  sector_iff : s.sector.isSome = true ↔ s.pstate = .authenticated
  key_iff : s.key.isSome = true ↔ s.pstate = .authenticated
  uid_iff : s.uid.isSome = true ↔
    (s.pstate = .identified ∨ s.pstate = .selected ∨ s.pstate = .authenticated)
  idle_pc : s.pc.op = none → s.pc = Pc.idle ∧ s.work = Work.empty ∧ s.job = none
  watch_iff : s.watch = true ↔ inWait s = true ∧ s.pc.phase ≤ deregisterPhase s.params
  running : s.pc.op ≠ none → inWait s = false →
    ∃ j op p, s.job = some j ∧ program j.instr = some (op, p) ∧ (s.pc.op = some op ∨ s.pc.op = some .selectCard) ∧
      atStep (p.after s.params j.took) = true ∧ HeldState s (returning (p.after s.params j.took)) j.instr
  rst_high : s.rstOut = true

/-- A finished run (70_reset_and_hazards R211). -/
def Finished (s : State) : Prop :=
  s.pc.op = none ∧ s.pstate = .idle ∧ s.authd = false ∧ s.watch = false ∧ s.uid = none ∧ s.key = none ∧ s.sector = none

/-- `t` is `s` after an operation that ended with the result `r`, with the transactions `xs` on the bus, `reads` of them
reads: the engine is idle, no working register holds a value, no job is held, the script is shorter by the bytes read, and every other
register, flag and line, and the parameters, are as in `s`. The session registers an operation writes are given in `s`. -/
def Ended (s : State) (r : Result) (xs : List Xfer) (reads : Nat) (t : State) : Prop :=
  ∃ freeIx,
    t = { s with
      pc := Pc.idle
      work := Work.empty
      job := none
      result := some r
      trace := s.trace ++ xs
      answers := s.answers.drop reads
      freeIx := freeIx }

/-- `Ended`, with the transactions given as the rows of a transcript, whose reads the script answers. -/
def EndsWith (s : State) (r : Result) (rows : List Row) (t : State) : Prop :=
  ∃ xs, Shows s.params rows xs ∧ Scripted s.answers (readValues rows) ∧ Ended s r xs (readValues rows).length t

/-- The session registers with no value and the engine in Idle: what `stopCrypto` leaves (42_card_session R124, line 2). -/
def cleared (s : State) : State :=
  { s with pstate := .idle, sector := none, authd := false, uid := none, key := none }

/-- What teardown leaves of the session: nothing with AUTO_TEARDOWN, everything without (42_card_session R125). -/
def torn (s : State) : State := if s.params.autoTeardown then cleared s else s

/-- The status byte `a` is read as "authentication rejected" (42_card_session R133). -/
def AuthRejected (p : Params) (a : Byte) : Prop :=
  (p.authOkSense = .bitClear ∧ a &&& 0x08#8 ≠ 0#8) ∨ (p.authOkSense = .bitSet ∧ a &&& 0x08#8 = 0#8)

/-- The six fixed writes of `init` (42_card_session R117, lines 1 to 6). -/
def initRows : List Row :=
  [.wr .tMode 0x8D#8, .wr .tPrescaler 0x3E#8, .wr .tReloadL 30#8, .wr .tReloadH 0#8, .wr .txAuto 0x40#8, .wr .mode 0x3D#8]

/-- The two bytes of a write frame and of a read frame at address `a` (20_memory R51, R52). -/
def writeXfer (a : RegAddr) (v r : Byte) : Xfer := ⟨(a.setWidth 8 <<< 1) &&& 0x7E#8, v, r⟩
def readXfer (a : RegAddr) (v : Byte) : Xfer := ⟨((a.setWidth 8 <<< 1) &&& 0x7E#8) ||| 0x80#8, 0x00#8, v⟩

/-- `AuthStatus` as an error result: "for every rule about errors ... they are error results" (42_card_session R134). -/
def Failed (r : Option Result) : Prop := ∃ x e, r = some x ∧ resultErrKind x = some e

/-! ## Waits and the sequence of selectCard -/

/-- Register writes in order, as rows (44_presence_wait R161). -/
def writeRowsOf (l : List (Reg × Byte)) : List Row := l.map fun x => .wr x.1 x.2

/-- Lines 4 to 6 of a wait: the three arming writes (44_presence_wait R155). -/
def armRows : List Row := [.wr .fifoData 0x26#8, .wr .command 0x0C#8, .wr .bitFraming 0x87#8]

/-- A wait armed once and re-armed `n` times, before its exit lines. -/
def armedRows (p : Params) (n : Nat) : List Row :=
  writeRowsOf p.waitPrologue ++ (List.replicate (n + 1) armRows).flatten

/-- `n` turns of the sequencer. -/
def turns (n : Nat) : List Input := List.replicate n (.move .go)

/-- The moves that bring a wait from its first line to the wait point and, `n` times, past a timeout and back to it. -/
def armedMoves (p : Params) (n : Nat) : List Input :=
  turns (p.waitPrologue.length + 3) ++ (List.replicate n (Input.move .timeout :: turns 3)).flatten

/-- A falling edge of the line, sampled by the agent before and after (44_presence_wait R153). -/
def edgeMoves : List Input := [.move (.line true), .move .sample, .move (.line false), .move .sample]

/-- In these moves, from IRQ_PREV = `prev` and IRQ_IN = `level`, the agent samples no falling edge and the host abandons
nothing, up to the host's next request (44_presence_wait R153, R158). -/
def noFallingEdge (prev level : Bool) : List Input → Bool
  | [] => true
  | .request _ :: _ => true
  | .move (.line b) :: rest => noFallingEdge prev b rest
  | .move .sample :: rest => !(prev && !level) && noFallingEdge level level rest
  | .move .abandon :: _ => false
  | .move .go :: rest => noFallingEdge prev level rest
  | .move .timeout :: rest => noFallingEdge prev level rest

/-- The turns that take the wait from the end of its loop to its end: the epilogue, line 9 and line 10. -/
def exitMoves (p : Params) : List Input := turns (p.waitEpilogue.length + 2)

/-- `n` steps of the machine. -/
def steps : Nat → State → Out
  | 0, s => .next s
  | n + 1, s =>
    match step s with
    | .next t => steps n t
    | .fault f => .fault f
    | .refused r => .refused r

/-- One step made at most one transaction: "one step is one bus transaction", or an internal step (10_state R20, its decision
D28). -/
def AtMostOne (xs ys : List Xfer) : Prop := ys = xs ∨ ∃ x, ys = xs ++ [x]

/-- `f` after an operation that ended without an error kind; an error kind ends the sequence (42_card_session R126). -/
def andThen (o : Out) (f : State → Out) : Out :=
  match o with
  | .next t =>
    match t.result with
    | some (.error _) => .next t
    | _ => f t
  | .fault r => .fault r
  | .refused r => .refused r

/-- "`reset(); init(); request(); u <- antiCollision(); b <- selectTag(u)`" (42_card_session R126), each as an instruction
of its own, requested one after the other. -/
def resetToSelect (s : State) : Out :=
  andThen (exec .reset s) fun s1 => andThen (exec .init s1) fun s2 => andThen (exec .request s2) fun s3 =>
    andThen (exec .antiCollision s3) fun s4 =>
      match s4.result with
      | some (.uid u) => exec (.selectTag u) s4
      | _ => .next s4

end Sys2Proof.Safety
end

