-- ==== Sys2Proof/Certificates/Slice0/Obligations.lean ====
section
/-! DEFINITION. The statements about the engine, for the provers. Each docstring says which rule or section of spec/ it
formalises. -/

open Sys2Proof Sys2Proof.Machine Sys2Proof.Safety

/-! ## Encodings -/

/-- O1. The round trip of 30_encoding: under admissible parameters, every well-formed instruction whose words are its own is
read back from its encoding, every operand included. -/
def Obligations.DecodeOfEncode : Prop :=
  ∀ (p : Params) (i : Instr), p.WF → i.wf p = true → i.ownWords p = true → decodeFrame p i.format (encode p i) = .ok i

/-- O2. The other direction: in every format but ACK (whose high nibble "is ignored", 30_encoding R82), a frame that decodes
is exactly the encoding of what it decodes to, so two frames never share a meaning and no bit of a frame is dropped. -/
def Obligations.EncodeOfDecode : Prop :=
  ∀ (p : Params) (f : Format) (l : List Byte) (i : Instr), f ≠ .ack → decodeFrame p f l = .ok i →
    i.format = f ∧ encode p i = l

/-- O3. The engine after power-on: the first column of 10_state R48, whose values are the spec's own decision D22
(70_reset_and_hazards R191). -/
def Obligations.PowerOnState : Prop :=
  State.reset.pstate = .idle ∧ State.reset.sector = none ∧ State.reset.authd = false ∧ State.reset.uid = none ∧
    State.reset.key = none ∧ State.reset.cfg = .needsReset ∧ State.reset.pc = ⟨none, 0, 0⟩ ∧
    State.reset.work = Work.empty ∧ State.reset.watch = false ∧ State.reset.signal = false ∧
    State.reset.irqPrev = true ∧ State.reset.rstOut = true ∧ State.reset.trace = []

/-- O4. A few words written out from the encoding tables decode to the instruction they stand for (sanity): words of the
formats HOSTOP, BUS, CHIPCMD, CARD, ACK, ACCESS and ERRCODE (95_test_vectors V12, V8, V15, V16; 30_encoding R74, R82, R88;
60_exceptions R163). The long formats AUTH and WRITEDATA have no word here; O1 and O2 are about them too. That the word `00 0C
26` is `execute(Transceive, [26])`, its ChipCommand operand read as the command's CMDCODE byte, is the model's choice (log entry
15): no rule or table gives the byte of that operand. -/
def Obligations.WrittenWordsDecode : Prop :=
  decodeFrame defaultParams .hostop [0x08#8, 0x04#8] = .ok (.readBlock 0x04#8) ∧
  decodeFrame defaultParams .hostop [0x00#8, 0x0C#8, 0x26#8] = .ok (.execute .transceive [0x26#8]) ∧
  decodeFrame defaultParams .bus [0x02#8, 0x0F#8] = .ok (.wCommand 0x0F#8) ∧
  decodeFrame defaultParams .bus [0x90#8, 0x00#8] = .ok .rStatus2 ∧
  decodeFrame defaultParams .chipcmd [0x0E#8] = .ok .cmdAuthenticate ∧
  decodeFrame defaultParams .card [0x93#8, 0x20#8] = .ok .cardAnticoll ∧
  decodeFrame defaultParams .ack [0x0A#8] = .ok .ack ∧
  decodeFrame defaultParams .access [0xE9#8, 0x64#8, 0xB1#8, 0x3C#8]
    = .ok (.access ⟨[0xE9#8, 0x64#8, 0xB1#8, 0x3C#8], rfl⟩) ∧
  decodeFrame defaultParams .errcode [0x05#8] = .ok .errAuthReadFailure

/-- O5. 30_encoding R84 (a): the select values 0x10 to 0xFF select no operation and are refused, whatever follows them; and
every select below is one of the sixteen operations. -/
def Obligations.UnknownSelectIsRefused : Prop :=
  ∀ (s : State) (b : Byte) (l : List Byte) (rest : List Input),
    s.inputs = .request (b :: l) :: rest → s.pc.op = none → s.placed = none →
      (0x10 ≤ b.toNat → step s = .refused (.undecodable (.badSelect b))) ∧
      (b.toNat < 0x10 → ∃ op : HostOp, op.code = b ∧ step s ≠ .refused (.undecodable (.badSelect b)))

/-! ## The step -/

/-- O6. A step runs the decoded instruction. A row of the opcode table placed by itself in an idle engine is decoded, and the
step is exec of the instruction it decodes to, in the state without that row; that a row of any format can be placed so, and is
run whole, is the model's choice (log entry 11: the host has no such move, 60_exceptions R185, R186). A host request, which is a
HOSTOP frame, is taken by an idle engine, and the step begins the operation it decodes to, in the state without that request
(log entry 3; O12 says what follows). A frame that decodes to nothing is refused by name (60_exceptions R169). -/
def Obligations.StepRunsTheDecodedFrame : Prop :=
  (∀ (s : State) (f : Format) (l : List Byte), s.placed = some (f, l) → s.pc.op = none →
    (∀ i, decodeFrame s.params f l = .ok i → step s = exec i { s with placed := none }) ∧
    (∀ e, decodeFrame s.params f l = .error e → step s = .refused (.undecodable e))) ∧
  (∀ (s : State) (l : List Byte) (rest : List Input), s.inputs = .request l :: rest → s.pc.op = none → s.placed = none →
    (∀ i, decodeFrame s.params .hostop l = .ok i → step s = beginRequest i { s with inputs := rest }) ∧
    (∀ e, decodeFrame s.params .hostop l = .error e → step s = .refused (.undecodable e)))

/-- O7. A scripted move of the outside is the step: the line, the agent, the sequencer's turn, a timeout or an abandonment
(44_presence_wait R152); each answers a next state. A scripted turn of the sequencer in the middle of an operation, whichever
it is, is the step the engine makes by itself (70_reset_and_hazards R212). That the outside's moves are scripted in the state is
the model's choice (log entry 2). -/
def Obligations.StepMakesTheNextMove : Prop :=
  (∀ (s : State) (m : Move) (rest : List Input), s.inputs = .move m :: rest → s.placed = none ∨ s.pc.op ≠ none →
    step s = .next (applyMove m { s with inputs := rest })) ∧
  (∀ (s : State) (rest : List Input), s.inputs = .move .go :: rest → s.pc.op ≠ none → atWaitPoint s = false →
    (∀ m more, rest ≠ .move m :: more) → step s = step { s with inputs := rest })

/-- O8. "While `OP` is not `none` the engine accepts no other operation" (10_state R22): every instruction is refused as busy,
and a request or a placed row presented meanwhile stays where it is. "`PHASE` advances by one per step; the only backward moves
are the two poll loops and the re-arm loop of `wait`": while an operation is in progress, in a state that has the invariant, a
step that does not end it makes PHASE one more; or goes back in a poll loop to the read just made, which ITER counts (10_state
R21); or is at the wait point, or a scripted move that is no turn of the sequencer, and leaves the position as it was; or re-arms
at the wait point. Which lines are steps is log entry 10. -/
def Obligations.BusyEngineAcceptsNothing : Prop :=
  (∀ (i : Instr) (s : State), s.pc.op ≠ none → exec i s = .refused .busy) ∧
  (∀ (s t : State) (l : List Byte) (rest : List Input), s.inputs = .request l :: rest → s.pc.op ≠ none →
    step s = .next t → t.inputs = s.inputs ∧ t.placed = s.placed) ∧
  (∀ s t : State, Inv s → s.pc.op ≠ none → step s = .next t → t.pc.op ≠ none →
    t.pc.phase = s.pc.phase + 1 ∨
    (t.pc.phase = s.pc.phase ∧ t.pc.iter = s.pc.iter + 1) ∨
    (t.pc = s.pc ∧ (atWaitPoint s = true ∨ ∃ m rest, m ≠ .go ∧ s.inputs = .move m :: rest)) ∨
    (t.pc.phase = armPhase s.params ∧ atWaitPoint s = true))

/-! ## One transaction, one command, one frame, one code -/

/-- O9. BUS.write and the fifteen W rows: `RegWrite(a, v)` is the one transaction `(a << 1) & 0x7E`, `v` (20_memory R51), and
nothing else of the engine changes. That a row is run alone and ends with success is the model's choice (log entry 7). -/
def Obligations.RegisterWritesComplete : Prop :=
  ∀ (s : State) (a : RegAddr) (v : Byte), s.pc.op = none →
    ∀ x ∈ [(Instr.busWrite a v, a), (.wCommand v, s.params.regAddr .command), (.wComIEn v, s.params.regAddr .comIEn),
        (.wComIrq v, s.params.regAddr .comIrq), (.wDivIrq v, s.params.regAddr .divIrq),
        (.wStatus2 v, s.params.regAddr .status2), (.wFifoData v, s.params.regAddr .fifoData),
        (.wFifoLevel v, s.params.regAddr .fifoLevel), (.wBitFraming v, s.params.regAddr .bitFraming),
        (.wMode v, s.params.regAddr .mode), (.wTxControl v, s.params.regAddr .txControl),
        (.wTxAuto v, s.params.regAddr .txAuto), (.wTMode v, s.params.regAddr .tMode),
        (.wTPrescaler v, s.params.regAddr .tPrescaler), (.wTReloadH v, s.params.regAddr .tReloadH),
        (.wTReloadL v, s.params.regAddr .tReloadL)],
      ∃ r t, exec x.1 s = .next t ∧ Ended s .done [writeXfer x.2 v r] 0 t

/-- O10. BUS.read and the eleven R rows: `RegRead(a)` is the one transaction `((a << 1) & 0x7E) | 0x80`, `0x00`, and its value
is the byte the chip answers (20_memory R52), the next scripted one if there is one. That a row is run alone and presents that byte
is the model's choice (log entry 7). -/
def Obligations.RegisterReadsComplete : Prop :=
  ∀ (s : State) (a : RegAddr), s.pc.op = none →
    ∀ x ∈ [(Instr.busRead a, a), (.rComIrq, s.params.regAddr .comIrq), (.rDivIrq, s.params.regAddr .divIrq),
        (.rError, s.params.regAddr .error), (.rStatus2, s.params.regAddr .status2),
        (.rFifoData, s.params.regAddr .fifoData), (.rFifoLevel, s.params.regAddr .fifoLevel),
        (.rControl, s.params.regAddr .control), (.rBitFraming, s.params.regAddr .bitFraming),
        (.rTxControl, s.params.regAddr .txControl), (.rCrcResultH, s.params.regAddr .crcResultH),
        (.rCrcResultL, s.params.regAddr .crcResultL)],
      ∃ v t, exec x.1 s = .next t ∧ Ended s (.regValue v) [readXfer x.2 v] 1 t ∧
        Scripted s.answers [v]

/-- O11. `SetBits(a, m)` and `ClearBits(a, m)`, the spec's decision D4: "Two `BusXfer`s, the read first. The write is performed
whether or not the bits were already set", and so with bits already clear (20_memory R54, R55). T takes the byte read. -/
def Obligations.BitWritesReadFirst : Prop :=
  ∀ (r : Reg) (m : Byte) (s : State),
    (∃ v, Runs s [.rd r v, .wr r (v ||| m)] (setBits r m s) ∧ (setBits r m s).work.t = some v) ∧
    (∃ v, Runs s [.rd r v, .wr r (v &&& ~~~m &&& 0xFF#8)] (clearBits r m s) ∧ (clearBits r m s).work.t = some v)

/-- O12. The steps of a host request, each "the next bus transaction or internal step" (10_state R20, 70_reset_and_hazards
R210), are together the operation as exec gives it, "a function from (engine state, operands, environment answers) to (engine
state, result, bus trace)" (10_state R17): each step makes at most one transaction; after each but the last the operation is in
progress, OP says which, and no result is presented; the last leaves the state exec gives. A request exec refuses or faults on is
refused or faults as exec says, in one step. This is every operation but the two that wait, with no move of the line, the agent
or the host in between; the codec makes no transaction. That the step which accepts a request makes its first step (log entry 3),
and which lines are internal steps (log entry 10), are the model's choice. -/
def Obligations.StepwiseIsWhole : Prop :=
  ∀ (s : State) (l : List Byte) (rest : List Input) (i : Instr),
    s.pc.op = none → s.placed = none → s.inputs = .request l :: rest → (∀ m more, rest ≠ .move m :: more) →
    decodeFrame s.params .hostop l = .ok i → i ≠ .wait → i ≠ .selectCard →
      (∀ t, exec i { s with inputs := rest } = .next t →
        ∃ n, steps (n + 1) s = .next t ∧
          ∀ k, k ≤ n → ∃ u v, steps k s = .next u ∧ steps (k + 1) s = .next v ∧ AtMostOne u.trace v.trace ∧
            (k < n → v.result = none ∧ v.pc.op ≠ none ∧ ∀ op p, program i = some (op, p) → v.pc.op = some op)) ∧
      (∀ r, exec i { s with inputs := rest } = .refused r → step s = .refused r) ∧
      (∀ f, exec i { s with inputs := rest } = .fault f → step s = .fault f)

/-- O13. The CHIPCMD rows: one write of the command's code to COMMAND (30_encoding R74, 10_state R31). That a row is run alone is the
model's choice (log entry 7). -/
def Obligations.ChipCommandsComplete : Prop :=
  ∀ s : State, s.pc.op = none →
    ∀ x ∈ [(Instr.cmdIdle, ChipCommand.idle), (.cmdCalcCrc, .calcCrc), (.cmdTransceive, .transceive),
        (.cmdAuthenticate, .authenticate), (.cmdSoftReset, .softReset)],
      ∃ t, exec x.1 s = .next t ∧ EndsWith s .done [.wr .command (s.params.cmdCode x.2)] t

/-- O14. The CARD rows that send whole frames: the bytes of the frame written into the FIFO in order (30_encoding R77 to R81;
that REQA and ANTICOLL are preceded by their BITFRAMING write is the model's reading, log entry 7). -/
def Obligations.CardFramesComplete : Prop :=
  ∀ (s : State) (mode block lo hi : Byte) (key : Bytes 6) (uid : Bytes 4) (data : Bytes 16), s.pc.op = none →
    ∀ x ∈ [(Instr.cardReqa, Row.wr .bitFraming 0x07#8 :: fifoRows [0x26#8]),
        (.cardAnticoll, Row.wr .bitFraming 0x00#8 :: fifoRows [0x93#8, 0x20#8]),
        (.cardSelect uid (if s.params.selectAppendBcc then some (uidXor uid) else none) lo hi,
          fifoRows ([0x93#8, 0x70#8] ++ uid.val ++ (if s.params.selectAppendBcc then [uidXor uid] else []) ++ [lo, hi])),
        (.cardAuth mode block key uid, fifoRows ([mode, block] ++ key.val ++ uid.val)),
        (.cardRead block lo hi, fifoRows [0x30#8, block, lo, hi]),
        (.cardWrite block lo hi, fifoRows [0xA0#8, block, lo, hi]),
        (.cardWriteData data lo hi, fifoRows (data.val ++ [lo, hi]))],
      ∃ t, exec x.1 s = .next t ∧ EndsWith s .done x.2 t

/-- O15. The ERRCODE rows: the kind is presented, the working registers lose their values, `pc <- (none, 0, 0)`, and "Nothing is
saved, no mode changes" (60_exceptions R170); Ok presents success. Each has its code of R163. That such a row is run
alone is the model's choice (log entry 8). -/
def Obligations.ErrorCodesComplete : Prop :=
  ∀ s : State, s.pc.op = none →
    ∀ x ∈ [(Instr.errOk, Result.done, 0#8), (.errTimeoutError, .error .timeoutError, 1#8),
        (.errProtocolError, .error .protocolError, 2#8), (.errChecksumError, .error .checksumError, 3#8),
        (.errCardNotPresentError, .error .cardNotPresentError, 4#8), (.errAuthReadFailure, .error .authReadFailure, 5#8),
        (.errAuthFailure, .error .authFailure, 6#8), (.errWriteNotAuthorizedError, .error .writeNotAuthorizedError, 7#8),
        (.errWriteFailedError, .error .writeFailedError, 8#8), (.errDataLengthError, .error .dataLengthError, 9#8),
        (.errAbandoned, .error .abandoned, 10#8)],
      ∃ t, exec x.1 s = .next t ∧ Ended s x.2.1 [] 0 t ∧ encode s.params x.1 = [x.2.2]

/-- O16. The acknowledgement: `acked(x) = (x.validBits = 4) and ((x.data[0] & 0x0F) = 0x0A)` for every response (30_encoding
R82), and the ACK row presents that its own response is one (that the row is run alone is the model's choice, log
entry 8). -/
def Obligations.AcknowledgementTest : Prop :=
  (∀ x : Transceived, ackedBy x = true ↔ Acked x) ∧
  (∀ s : State, s.pc.op = none → ∃ t, exec .ack s = .next t ∧ Ended s (.acked true) [] 0 t)

/-- O17. The ACCESS row is consumed by `decode` (30_encoding R88): it presents what `decode` presents of the same four bytes
(that the row is run alone is the model's choice, log entry 8). -/
def Obligations.AccessBytesAreDecoded : Prop :=
  ∀ (s : State) (x0 x1 x2 x3 : Byte), s.pc.op = none →
    ∃ b ok t, exec (.access ⟨[x0, x1, x2, x3], rfl⟩) s = .next t ∧ exec (.decode [x0, x1, x2, x3]) s = .next t ∧
      Ended s (.decoded b ok) [] 0 t

/-! ## execute and computeCrc -/

/-- O18. The mask table of 40_transceiver R91. -/
def Obligations.MasksOfCommands : Prop :=
  masks .authenticate = (0x12#8, 0x10#8) ∧ masks .transceive = (0x77#8, 0x30#8) ∧ masks .idle = (0#8, 0#8) ∧
    masks .calcCrc = (0#8, 0#8) ∧ masks .softReset = (0#8, 0#8)

/-- O19. A bounded poll (40_transceiver R95, 41_crc R107, 10_state R21): it reads the polled register and nothing else, at most
`bound` times, ending at the first read that meets the stop mask; on exit ITER is the number of reads, MATCHED is the
outcome and STAT is the last byte read. -/
def Obligations.PollStopsAtTheFirstMatch : Prop :=
  ∀ (r : Reg) (mask : Byte) (bound : Nat) (s : State),
    ∃ vs, Runs s (vs.map (.rd r)) (poll r mask bound s).2 ∧
      (poll r mask bound s).2.pc.iter = vs.length ∧ vs.length ≤ bound ∧ (0 < bound → 0 < vs.length) ∧
      (poll r mask bound s).2.work.matched = some (poll r mask bound s).1 ∧
      (vs ≠ [] → (poll r mask bound s).2.work.stat = vs.getLast?) ∧
      ((poll r mask bound s).1 = true → PollMatched mask bound vs) ∧
      ((poll r mask bound s).1 = false → PollExhausted mask bound vs)

/-- O20. `execute` in any state of the protocol (40_transceiver R90 to R101): a run of R90 on the bus, its outcome presented,
and nothing of the engine changed but that; its scripted answers are consumed from the front. -/
def Obligations.ExecuteCompletes : Prop :=
  ∀ (c : ChipCommand) (d : List Byte) (s : State), s.pc.op = none →
    ∃ vs rows out t, ExecuteRun s.params c d vs rows out ∧ exec (.execute c d) s = .next t ∧
      (∀ r, out = .ok r → EndsWith s (.transceived r) rows t) ∧ (∀ e, out = .error e → EndsWith s (.error e) rows t)

/-- O21. The two error checks of `execute`, in their order (40_transceiver R96, R97): after the start rows and 1 to 2000 reads
of COMIRQ the start-send bit is cleared, always; the result is TimeoutError if and only if none of 2000 reads met the stop
condition, and nothing more is done on the bus; otherwise the error register is read, and the result is ProtocolError if and
only if that byte has a bit of 0x1B, and nothing more is done on the bus. No other error is presented. -/
def Obligations.ExecuteErrorChecks : Prop :=
  ∀ (c : ChipCommand) (d : List Byte) (s : State), s.pc.op = none →
    ∃ (a1 a2 a3 a4 : Byte) (vs : List Byte) (tail : List Row) (r : Result) (t : State), exec (.execute c d) s = .next t ∧
      EndsWith s r (executeStartRows s.params c d a1 a2 a3 ++ vs.map (.rd .comIrq)
        ++ [.rd .bitFraming a4, .wr .bitFraming (a4 &&& ~~~0x80#8)] ++ tail) t ∧
      1 ≤ vs.length ∧ vs.length ≤ 2000 ∧
      (r = .error .timeoutError ↔ vs.length = 2000 ∧ ∀ v ∈ vs, v &&& ((masks c).2 ||| 0x01#8) = 0#8) ∧
      (r = .error .timeoutError → tail = []) ∧
      (r ≠ .error .timeoutError → ∃ e more, tail = .rd .error e :: more ∧
        (r = .error .protocolError ↔ e &&& 0x1B#8 ≠ 0#8) ∧ (r = .error .protocolError → more = [])) ∧
      (∀ e, r = .error e → e = .timeoutError ∨ e = .protocolError)

/-- O22. The transaction counts of one `execute` (40_transceiver R102), `K` the number of poll reads, `N` of bytes drained. -/
def Obligations.ExecuteCounts : Prop :=
  ∀ (c : ChipCommand) (d : List Byte) (s : State), s.pc.op = none →
    ∃ vs rows out xs t, ExecuteRun s.params c d vs rows out ∧ Shows s.params rows xs ∧
      exec (.execute c d) s = .next t ∧ t.trace = s.trace ++ xs ∧
      (∀ r, t.result = some (.transceived r) →
        xs.length = if c = .transceive then d.length + vs.length + r.data.length + 14 else d.length + vs.length + 10) ∧
      (t.result = some (.error .protocolError) →
        xs.length = if c = .transceive then d.length + vs.length + 12 else d.length + vs.length + 10) ∧
      (t.result = some (.error .timeoutError) →
        xs.length = if c = .transceive then d.length + 2011 else d.length + 2009)

/-- O23. What a Transceive receives (40_transceiver R98 to R100): 1 to 16 bytes, and a valid-bit count that is 16, 24 or 4
exactly for two whole bytes, three whole bytes and a lone four bits; any other command receives no byte and no count (R101). -/
def Obligations.ReceivedLengths : Prop :=
  ∀ (c : ChipCommand) (d : List Byte) (s t : State) (r : Transceived), exec (.execute c d) s = .next t →
    t.result = some (.transceived r) →
      (c ≠ .transceive → r = ⟨[], none⟩) ∧
      (c = .transceive → 1 ≤ r.data.length ∧ r.data.length ≤ 16 ∧
        ∃ n lastBits, r.data.length = n ∧ lastBits ≤ 7 ∧
          r.validBits = some (if lastBits = 0 then n * 8 else (n - 1) * 8 + lastBits) ∧
          (r.validBits = some 16 ↔ n = 2 ∧ lastBits = 0) ∧ (r.validBits = some 24 ↔ n = 3 ∧ lastBits = 0) ∧
          (r.validBits = some 4 ↔ n = 1 ∧ lastBits = 4))

/-- O24. "`execute` reads and writes no session register and no flag" (40_transceiver R103): they are unchanged whatever its
outcome, and what it does on the bus and answers does not depend on them. -/
def Obligations.ExecuteIgnoresTheSession : Prop :=
  ∀ (c : ChipCommand) (d : List Byte) (s : State) (ps : PState) (k : Option (BitVec 6)) (au : Bool) (u : Option (Bytes 4))
    (ky : Option (Bytes 6)) (cf : Cfg) (w sg : Bool), s.pc.op = none →
    ∃ t, exec (.execute c d) s = .next t ∧
      (t.pstate = s.pstate ∧ t.sector = s.sector ∧ t.authd = s.authd ∧ t.uid = s.uid ∧ t.key = s.key ∧ t.cfg = s.cfg ∧
        t.watch = s.watch ∧ t.signal = s.signal) ∧
      exec (.execute c d)
          { s with pstate := ps, sector := k, authd := au, uid := u, key := ky, cfg := cf, watch := w, signal := sg } =
        .next { t with pstate := ps, sector := k, authd := au, uid := u, key := ky, cfg := cf, watch := w, signal := sg }

/-- O25. `computeCrc` in any state of the protocol (41_crc R105 to R109): a run of R105, its outcome presented, nothing else of
the engine changed. -/
def Obligations.ComputeCrcCompletes : Prop :=
  ∀ (d : List Byte) (s : State), s.pc.op = none →
    ∃ vs rows out t, CrcRun s.params d vs rows out ∧ exec (.computeCrc d) s = .next t ∧
      (∀ low high, out = .ok (low, high) → EndsWith s (.crc low high) rows t) ∧
      (∀ e, out = .error e → EndsWith s (.error e) rows t)

/-- O26. The transaction counts of one `computeCrc` (41_crc R111). -/
def Obligations.ComputeCrcCounts : Prop :=
  ∀ (d : List Byte) (s : State), s.pc.op = none →
    ∃ vs rows out xs t, CrcRun s.params d vs rows out ∧ Shows s.params rows xs ∧
      exec (.computeCrc d) s = .next t ∧ t.trace = s.trace ++ xs ∧ 1 ≤ vs.length ∧ vs.length ≤ 255 ∧
      (s.params.crcTimeoutMode = .stale → xs.length = d.length + vs.length + 7) ∧
      (∀ low high, t.result = some (.crc low high) → xs.length = d.length + vs.length + 7) ∧
      (∀ e, t.result = some (.error e) → e = .timeoutError ∧ xs.length = d.length + 260)

/-! ## CardSession -/

/-- O27. `reset` (42_card_session R116, 70_reset_and_hazards R192): one write of the SoftReset code, no read, the session
registers cleared and CFG NeedsInit, in any state; WATCH, SIGNAL, IRQ_PREV and RST_OUT as they were. -/
def Obligations.ResetCompletes : Prop :=
  ∀ s : State, s.pc.op = none →
    ∃ t, exec .reset s = .next t ∧
      EndsWith { cleared s with cfg := .needsInit } .done [.wr .command (s.params.cmdCode .softReset)] t

/-- O28. `init` (42_card_session R117): six writes, one read of TXCONTROL, and a write of it with bits 0x03 set unless both
were; CFG Ready, and no other register of the engine changed. -/
def Obligations.InitCompletes : Prop :=
  ∀ s : State, s.pc.op = none → s.cfg = .needsInit →
    ∃ v t, exec .init s = .next t ∧
      EndsWith { s with cfg := .ready } .done
        (initRows ++ [.rd .txControl v] ++ (if v &&& 0x03#8 = 0x03#8 then [] else [.wr .txControl (v ||| 0x03#8)])) t

/-- O29. `request` (42_card_session R118): BITFRAMING 0x07, then `execute(Transceive, [0x26])`; Requested with exactly 16
valid bits, else CardNotPresentError with every register as it was. -/
def Obligations.RequestCompletes : Prop :=
  ∀ s : State, s.pc.op = none → s.pstate = .idle → s.cfg = .ready →
    ∃ vs rows out t, ExecuteRun s.params .transceive [0x26#8] vs rows out ∧ exec .request s = .next t ∧
      ((∃ r, out = .ok r ∧ r.validBits = some 16) →
        EndsWith { s with pstate := .requested } .done (.wr .bitFraming 0x07#8 :: rows) t) ∧
      (¬ (∃ r, out = .ok r ∧ r.validBits = some 16) →
        EndsWith s (.error .cardNotPresentError) (.wr .bitFraming 0x07#8 :: rows) t)

/-- O30. `antiCollision` (42_card_session R119): a UID exactly when five bytes came and the fifth is the exclusive or of the
first four; every other outcome leaves Collided, with the error of `execute` or ChecksumError. -/
def Obligations.AntiCollisionCompletes : Prop :=
  ∀ s : State, s.pc.op = none → s.pstate = .requested →
    ∃ vs rows out t, ExecuteRun s.params .transceive [0x93#8, 0x20#8] vs rows out ∧ exec .antiCollision s = .next t ∧
      (∀ e, out = .error e → EndsWith { s with pstate := .collided } (.error e) (.wr .bitFraming 0x00#8 :: rows) t) ∧
      (∀ r a b c d, out = .ok r → r.data = [a, b, c, d, a ^^^ b ^^^ c ^^^ d] →
        EndsWith { s with pstate := .identified, uid := some ⟨[a, b, c, d], rfl⟩ } (.uid ⟨[a, b, c, d], rfl⟩)
          (.wr .bitFraming 0x00#8 :: rows) t) ∧
      (∀ r, out = .ok r → (¬ ∃ a b c d, r.data = [a, b, c, d, a ^^^ b ^^^ c ^^^ d]) →
        EndsWith { s with pstate := .collided } (.error .checksumError) (.wr .bitFraming 0x00#8 :: rows) t)

/-- O31. `selectTag` (42_card_session R120): the frame `[0x93, 0x70] ++ uid` with its CRC, and with SELECT_APPEND_BCC its
checksum byte; `blocks` is the first byte with 24 valid bits and 0 otherwise, Selected in both cases; on an error nothing of
the session changes. -/
def Obligations.SelectTagCompletes : Prop :=
  ∀ (s : State) (uid : Bytes 4), s.pc.op = none → s.pstate = .identified →
    ∃ rows out t,
      SentWithCrc s.params
        ([0x93#8, 0x70#8] ++ uid.val ++ (if s.params.selectAppendBcc then [uidXor uid] else [])) rows out ∧
      exec (.selectTag uid) s = .next t ∧
      (∀ e, out = .error e → EndsWith s (.error e) rows t) ∧
      (∀ r b rest, out = .ok r → r.data = b :: rest → r.validBits = some 24 →
        EndsWith { s with pstate := .selected, uid := some uid } (.blocks b) rows t) ∧
      (∀ r, out = .ok r → r.validBits ≠ some 24 →
        EndsWith { s with pstate := .selected, uid := some uid } (.blocks 0#8) rows t)

/-- O32. `authenticate` (42_card_session R121, R133): twelve bytes sent with Authenticate; ReadFailure on an error, with no
read of STATUS2 but teardown's own; else STATUS2 decides between Failure, after teardown, and Ok, which opens the session for
the block's sector. "`ReadFailure` is the error kind `AuthReadFailure` ...; `Failure` is the error kind `AuthFailure`" (R134):
their codes are 5 and 6 (60_exceptions R163). -/
def Obligations.AuthenticateCompletes : Prop :=
  (resultErrKind (.auth .readFailure) = some .authReadFailure ∧ resultErrKind (.auth .failure) = some .authFailure ∧
    resultErrKind (.auth .ok) = none ∧ resultCode (.auth .readFailure) = 5#8 ∧ resultCode (.auth .failure) = 6#8 ∧
    resultCode (.auth .ok) = 0#8) ∧
  ∀ (s : State) (mode block : Byte) (key : Bytes 6) (uid : Bytes 4), s.pc.op = none → s.pstate = .selected →
    ∃ vs rows out a b t, ExecuteRun s.params .authenticate ([mode, block] ++ key.val ++ uid.val) vs rows out ∧
      exec (.authenticate mode block key uid) s = .next t ∧
      (∀ e, out = .error e → EndsWith (torn s) (.auth .readFailure) (rows ++ teardownRows s.params b) t) ∧
      (∀ r, out = .ok r → AuthRejected s.params a →
        EndsWith (torn s) (.auth .failure) (rows ++ [.rd .status2 a] ++ teardownRows s.params b) t) ∧
      (∀ r, out = .ok r → ¬ AuthRejected s.params a →
        EndsWith { s with
            pstate := .authenticated, sector := some (BitVec.ofNat 6 (block.toNat / 4)), authd := true, key := some key }
          (.auth .ok) (rows ++ [.rd .status2 a]) t)

/-- O33. `readBlock` (42_card_session R122): `[0x30, blockAddress]` with its CRC; the sixteen bytes, or DataLengthError or the
error passed on, each after teardown. -/
def Obligations.ReadBlockCompletes : Prop :=
  ∀ (s : State) (block : Byte), s.pc.op = none → s.pstate = .authenticated →
    s.sector = some (BitVec.ofNat 6 (block.toNat / 4)) →
    ∃ rows out a t, SentWithCrc s.params [0x30#8, block] rows out ∧ exec (.readBlock block) s = .next t ∧
      (∀ e, out = .error e → EndsWith (torn s) (.error e) (rows ++ teardownRows s.params a) t) ∧
      (∀ r, out = .ok r → r.data.length = 16 → EndsWith s (.block r.data) rows t) ∧
      (∀ r, out = .ok r → r.data.length ≠ 16 →
        EndsWith (torn s) (.error .dataLengthError) (rows ++ teardownRows s.params a) t)

/-- O34. `writeBlock` (42_card_session R123): the data phase is attempted if and only if the first phase is acknowledged; a
failure of the first phase is WriteNotAuthorizedError with nothing of `data` sent, of the second WriteFailedError, each after
teardown. -/
def Obligations.WriteBlockCompletes : Prop :=
  ∀ (s : State) (block : Byte) (data : Bytes 16), s.pc.op = none → s.pstate = .authenticated →
    s.sector = some (BitVec.ofNat 6 (block.toNat / 4)) →
    ∃ rows out rows2 out2 a t, SentWithCrc s.params [0xA0#8, block] rows out ∧
      exec (.writeBlock block data) s = .next t ∧
      ((¬ ∃ r, out = .ok r ∧ Acked r) →
        EndsWith (torn s) (.error .writeNotAuthorizedError) (rows ++ teardownRows s.params a) t) ∧
      ((∃ r, out = .ok r ∧ Acked r) →
        SentWithCrc s.params data.val rows2 out2 ∧
        ((¬ ∃ r, out2 = .ok r ∧ Acked r) →
          EndsWith (torn s) (.error .writeFailedError) (rows ++ rows2 ++ teardownRows s.params a) t) ∧
        ((∃ r, out2 = .ok r ∧ Acked r) → EndsWith s .done (rows ++ rows2) t))

/-- O35. `stopCrypto` (42_card_session R124): STATUS2 read and written with bit 0x08 clear, the session registers cleared,
CFG unchanged, in any state. -/
def Obligations.StopCryptoCompletes : Prop :=
  ∀ s : State, s.pc.op = none →
    ∃ a t, exec .stopCrypto s = .next t ∧
      EndsWith (cleared s) .done [.rd .status2 a, .wr .status2 (a &&& ~~~0x08#8)] t

/-- O36. The preconditions of 42_card_session R114: a request whose precondition is false is refused, by the name of its
operation (60_exceptions R169). -/
def Obligations.PreconditionsAreRefused : Prop :=
  ∀ (s : State) (mode block : Byte) (key : Bytes 6) (uid : Bytes 4) (data : Bytes 16), s.pc.op = none →
    (s.cfg ≠ .needsInit → exec .init s = .refused (.precondition .init)) ∧
    ((s.pstate ≠ .idle ∨ s.cfg ≠ .ready) → exec .request s = .refused (.precondition .request)) ∧
    (s.pstate ≠ .requested → exec .antiCollision s = .refused (.precondition .antiCollision)) ∧
    (s.pstate ≠ .identified → exec (.selectTag uid) s = .refused (.precondition .selectTag)) ∧
    (s.pstate ≠ .selected → exec (.authenticate mode block key uid) s = .refused (.precondition .authenticate)) ∧
    ((s.pstate ≠ .authenticated ∨ ∃ k : BitVec 6, s.sector = some k ∧ k.toNat ≠ block.toNat / 4) →
      exec (.readBlock block) s = .refused (.precondition .readBlock) ∧
      exec (.writeBlock block data) s = .refused (.precondition .writeBlock))

/-- O37. The order of the first operations is enforced by CFG (70_reset_and_hazards R195): after power-on `init` and `request`
are refused until `reset` has run, then `request` until `init` has, then a second `init` until another `reset`. Every host
operation but `reset`, `init`, `request` and `selectCard` neither reads nor writes CFG: not `execute`, `computeCrc`,
`stopCrypto`, `wait` and the codec, which R195 lists as not gated by it, and not the card operations after `request`, whose
preconditions do not name it (42_card_session R114). -/
def Obligations.BringUpOrder : Prop :=
  State.reset.cfg = .needsReset ∧
  (∀ s : State, s.pc.op = none → s.cfg = .needsReset →
    exec .init s = .refused (.precondition .init) ∧ exec .request s = .refused (.precondition .request)) ∧
  (∀ s : State, s.pc.op = none → ∃ t, exec .reset s = .next t ∧ t.pc.op = none ∧ t.cfg = .needsInit ∧
    exec .request t = .refused (.precondition .request) ∧
    ∃ u, exec .init t = .next u ∧ u.pc.op = none ∧ u.cfg = .ready ∧ exec .init u = .refused (.precondition .init)) ∧
  (∀ (s t : State) (i : Instr) (cf : Cfg),
    i.format = .hostop → i ≠ .reset → i ≠ .init → i ≠ .request → i ≠ .selectCard →
    exec i s = .next t → t.cfg = s.cfg ∧ exec i { s with cfg := cf } = .next { t with cfg := cf })

/-- O38. A register with no value is never read as a zero (10_state R16): in Authenticated with no SECTOR, which no run
reaches (O51), `readBlock` and `writeBlock` fault; no other instruction ever faults. -/
def Obligations.NoValueIsAFault : Prop :=
  ∀ (s : State) (block : Byte) (data : Bytes 16), s.pc.op = none →
    (s.pstate = .authenticated → s.sector = none →
      exec (.readBlock block) s = .fault (.noValue .sector) ∧ exec (.writeBlock block data) s = .fault (.noValue .sector)) ∧
    (∀ (i : Instr) (f : Fault), exec i s = .fault f →
      ((∃ b, i = .readBlock b) ∨ ∃ b d, i = .writeBlock b d) ∧ s.pstate = .authenticated ∧ s.sector = none ∧
        f = .noValue .sector)

/-- O39. Crypto teardown (42_card_session R125, 70_reset_and_hazards R202): with AUTO_TEARDOWN, when `authenticate`,
`readBlock` or `writeBlock` presents an error, the run is finished (R211) and the last transaction is a write of STATUS2 with
bit 0x08 clear. -/
def Obligations.TeardownOnEveryError : Prop :=
  ∀ (s t : State) (i : Instr),
    ((∃ m b k u, i = .authenticate m b k u) ∨ (∃ b, i = .readBlock b) ∨ (∃ b d, i = .writeBlock b d)) →
    s.params.autoTeardown = true → s.watch = false → exec i s = .next t → Failed t.result →
      Finished t ∧ ∃ v r, v &&& 0x08#8 = 0#8 ∧ t.trace.getLast? = some (writeXfer (s.params.regAddr .status2) v r)

/-- O40. Forward progress (70_reset_and_hazards R210): every card operation makes fewer than 8200 bus transactions, whatever
the chip answers. -/
def Obligations.CardOperationsAreBounded : Prop :=
  ∀ (s t : State) (i : Instr),
    (i = .reset ∨ i = .init ∨ i = .request ∨ i = .antiCollision ∨ (∃ u, i = .selectTag u) ∨
      (∃ m b k u, i = .authenticate m b k u) ∨ (∃ b, i = .readBlock b) ∨ (∃ b d, i = .writeBlock b d) ∨
      i = .stopCrypto) →
    exec i s = .next t → t.trace.length < s.trace.length + 8200

/-- O41. Block addressing (42_card_session R127): a block address is its sector and its index, the sector trailer is the block
of index 3, and the data-block formula never yields a trailer. -/
def Obligations.BlockAddressing : Prop :=
  (∀ block : Byte, (sectorOf block).toNat = block.toNat / 4 ∧ indexOf block = block.toNat % 4 ∧
    block.toNat = (sectorOf block).toNat * 4 + indexOf block) ∧
  (∀ sector k : Nat, dataBlockAddress sector k = sector * 4 + k % 3 ∧ trailerAddress sector = sector * 4 + 3 ∧
    dataBlockAddress sector k / 4 = sector ∧ ∀ sector' : Nat, dataBlockAddress sector k ≠ trailerAddress sector')

/-! ## AccessBitsCodec -/

/-- O42. `getBit` (43_access_codec R141): bit `k` of the nibble is bit `n - 1` of code `bk`; no bus transaction, no register. -/
def Obligations.GetBitCompletes : Prop :=
  ∀ (s : State) (b : BlocksAccess) (n : Byte), s.pc.op = none → b.inRange = true → 1 ≤ n.toNat → n.toNat ≤ 3 →
    ∃ v t, exec (.getBit b n) s = .next t ∧ Ended s (.nibble v) [] 0 t ∧
      v.getLsbD 0 = b.b0.getLsbD (n.toNat - 1) ∧ v.getLsbD 1 = b.b1.getLsbD (n.toNat - 1) ∧
      v.getLsbD 2 = b.b2.getLsbD (n.toNat - 1) ∧ v.getLsbD 3 = b.b3.getLsbD (n.toNat - 1)

/-- O43. `encode` (43_access_codec R142) gives the layout of R149, every bit of it; no bus transaction, no register. -/
def Obligations.EncodeCompletes : Prop :=
  ∀ (s : State) (b : BlocksAccess), s.pc.op = none → b.inRange = true →
    ∃ x0 x1 x2 x3 t, exec (.encode b) s = .next t ∧ Ended s (.encoded x0 x1 x2 x3) [] 0 t ∧
      (∀ k : Fin 4,
        let c := [b.b0, b.b1, b.b2, b.b3].getD k.val 0#8
        x0.getLsbD k.val = !c.getLsbD 0 ∧ x0.getLsbD (k.val + 4) = !c.getLsbD 1 ∧
        x1.getLsbD k.val = !c.getLsbD 2 ∧ x1.getLsbD (k.val + 4) = c.getLsbD 0 ∧
        x2.getLsbD k.val = c.getLsbD 1 ∧ x2.getLsbD (k.val + 4) = c.getLsbD 2) ∧
      x3 = x0 ^^^ x1 ^^^ x2

/-- O44. The properties of `encode` (43_access_codec R143): the redundancy invariant, the complemented nibbles, and that it is
injective on codes in range. -/
def Obligations.EncodeProperties : Prop :=
  (∀ (s t : State) (b : BlocksAccess) (x0 x1 x2 x3 : Byte), exec (.encode b) s = .next t →
    t.result = some (.encoded x0 x1 x2 x3) →
      x3 = x0 ^^^ x1 ^^^ x2 ∧ lowNibble x0 = ~~~(highNibble x1) ∧ highNibble x0 = ~~~(lowNibble x2) ∧
      lowNibble x1 = ~~~(highNibble x2)) ∧
  (∀ (s t u : State) (b c : BlocksAccess), exec (.encode b) s = .next t → exec (.encode c) s = .next u →
    t.result = u.result → b = c)

/-- O45. `decode` (43_access_codec R144, R147) on three or four bytes: it is total, and the flag is `valid` (R145); when the flag
is true, each code is in range and is that of the three true nibbles; no bus transaction, no register. Of the codes given with
the flag false nothing is said: "A model must not let a claim depend on the BlocksAccess part when `consistent` is false"
(R147). -/
def Obligations.DecodeCompletes : Prop :=
  ∀ (s : State) (x0 x1 x2 : Byte) (tail : List Byte), s.pc.op = none → tail.length ≤ 1 →
    ∃ b ok t, exec (.decode (x0 :: x1 :: x2 :: tail)) s = .next t ∧ Ended s (.decoded b ok) [] 0 t ∧
      (ok = true → b.inRange = true ∧ ∀ k : Fin 4,
        let c := [b.b0, b.b1, b.b2, b.b3].getD k.val 0#8
        c.getLsbD 0 = x1.getLsbD (k.val + 4) ∧ c.getLsbD 1 = x2.getLsbD k.val ∧ c.getLsbD 2 = x2.getLsbD (k.val + 4)) ∧
      (ok = true ↔ tail = [x0 ^^^ x1 ^^^ x2] ∧ lowNibble x0 = ~~~(highNibble x1) ∧ highNibble x0 = ~~~(lowNibble x2) ∧
        lowNibble x1 = ~~~(highNibble x2))

/-- O46. The round trip of 43_access_codec R146: `decode(encode(x)) = (x, true)` for every `x` in range, and `encode` of the
codes decoded from bytes with the flag true gives the bytes back. -/
def Obligations.CodecRoundTrip : Prop :=
  (∀ (s : State) (b : BlocksAccess), s.pc.op = none → b.inRange = true →
    ∃ x0 x1 x2 x3 t u, exec (.encode b) s = .next t ∧ t.result = some (.encoded x0 x1 x2 x3) ∧
      exec (.decode [x0, x1, x2, x3]) t = .next u ∧ u.result = some (.decoded b true)) ∧
  (∀ (s t : State) (x0 x1 x2 x3 : Byte) (b : BlocksAccess), s.pc.op = none →
    exec (.decode [x0, x1, x2, x3]) s = .next t → t.result = some (.decoded b true) →
    ∃ u, exec (.encode b) t = .next u ∧ u.result = some (.encoded x0 x1 x2 x3))

/-- O47. "`encode` and `getBit` refuse such an operand ...; they do not mask it. `decode` can only produce codes 0..7"
(43_access_codec R148, the spec's decision D20), and so is an `n` of `getBit` outside 1..3 refused, and a byte count of
`decode` other than 3 and 4 (log entry 9). More generally an idle engine refuses an instruction as malformed exactly when its
operands are ill formed (60_exceptions R169). -/
def Obligations.OutOfRangeCodesAreRefused : Prop :=
  ∀ (s : State) (b : BlocksAccess) (n : Byte) (l : List Byte) (i : Instr), s.pc.op = none →
    ((7 < b.b0.toNat ∨ 7 < b.b1.toNat ∨ 7 < b.b2.toNat ∨ 7 < b.b3.toNat) →
      exec (.encode b) s = .refused .malformed ∧ exec (.getBit b n) s = .refused .malformed) ∧
    ((n.toNat = 0 ∨ 3 < n.toNat) → exec (.getBit b n) s = .refused .malformed) ∧
    (l.length ≠ 3 → l.length ≠ 4 → exec (.decode l) s = .refused .malformed) ∧
    (∀ t c ok, exec (.decode l) s = .next t → t.result = some (.decoded c ok) →
      c.b0.toNat ≤ 7 ∧ c.b1.toNat ≤ 7 ∧ c.b2.toNat ≤ 7 ∧ c.b3.toNat ≤ 7) ∧
    (i.wf s.params = false ↔ exec i s = .refused .malformed)

/-! ## CardPresenceWait -/

/-- O48. One step of the interrupt agent (44_presence_wait R153): a falling edge while the watch is registered sets SIGNAL,
which stays set; with no watch, or without a falling edge, SIGNAL is as it was; IRQ_PREV takes the level; nothing else
changes. -/
def Obligations.InterruptAgentStep : Prop :=
  ∀ s : State,
    (s.watch = true → s.irqPrev = true → s.irqIn = false →
      agentStep s = { s with signal := true, irqPrev := s.irqIn }) ∧
    ((s.watch = false ∨ s.irqPrev = false ∨ s.irqIn = true) → agentStep s = { s with irqPrev := s.irqIn })

/-- O49. The wait point (44_presence_wait R156): the signal ends the loop and is consumed; a timeout re-arms without a signal
and is not enabled with one; an abandonment ends the loop always; and without a signal the sequencer stays where it is. -/
def Obligations.WaitPointChoices : Prop :=
  ∀ s : State, atWaitPoint s = true →
    (s.signal = true → applyMove .go s =
      { s with signal := false, pc := { s.pc with phase := s.pc.phase + 1 }, work := { s.work with waitOut := some .done } }) ∧
    (s.signal = false → applyMove .go s = s) ∧
    (s.signal = false → applyMove .timeout s = { s with pc := { s.pc with phase := s.params.waitPrologue.length + 1 } }) ∧
    (s.signal = true → applyMove .timeout s = s) ∧
    applyMove .abandon s =
      { s with pc := { s.pc with phase := s.pc.phase + 1 }, work := { s.work with waitOut := some .abandoned } }

/-- O50. `wait` to its end (44_presence_wait R154, R162): with `n` timeouts before a falling edge, the prologue, `n + 1`
armings and the epilogue, all writes; WATCH and SIGNAL clear, no session register changed. The edge may be sampled at the wait
point (`j = 0`) or `j` turns before it, at any place in the last arming or before it: "it is pending and is seen at the wait
point that follows" (R156). -/
def Obligations.WaitCompletes : Prop :=
  ∀ (s : State) (n j : Nat) (before rest : List Input), s.pc.op = none →
    before ++ turns j = armedMoves s.params n →
    s.inputs = before ++ edgeMoves ++ turns j ++ turns 1 ++ exitMoves s.params ++ rest →
    ∃ t, exec .wait s = .next t ∧
      EndsWith { s with watch := false, signal := false, irqPrev := false, irqIn := false, inputs := rest } .done
        (armedRows s.params n ++ writeRowsOf s.params.waitEpilogue) t

/-- O51. The invariant of the registers and flags (10_state R14, R15, R22, R23, R24; 60_exceptions R168;
70_reset_and_hazards R207) is kept by every step from every state that has it, in the middle of an operation too. That an
operation in progress is a wait, or a program held with its operands and what its steps have returned, standing before a step, is
how the model runs it (log entries 3 and 10), and so is that WATCH is 1 exactly from line 1 to line 9 of a wait in progress: R24
and R207 say it of operation boundaries. -/
def Obligations.InvariantIsKept : Prop :=
  ∀ s t : State, Inv s → step s = .next t → Inv t

/-- O52. The invariant holds after power-on. -/
def Obligations.InvariantAtReset : Prop := Inv State.reset

/-- O53. An abandoned `wait` (44_presence_wait R158): after `n` timeouts, lines 8 and 9 are run and Abandoned is presented. -/
def Obligations.AbandonedWaitEnds : Prop :=
  ∀ (s : State) (n : Nat) (rest : List Input), s.pc.op = none →
    s.inputs = armedMoves s.params n ++ [.move .abandon] ++ exitMoves s.params ++ rest →
    ∃ t, exec .wait s = .next t ∧
      EndsWith { s with watch := false, signal := false, inputs := rest } (.error .abandoned)
        (armedRows s.params n ++ writeRowsOf s.params.waitEpilogue) t

/-- O54. A `wait` without an edge and without abandonment does not end (44_presence_wait R159): whatever moves the outside
makes, if the agent samples no falling edge in them and the host abandons nothing (R153, R158), it is still at the wait point,
its watch registered: on a line held high, on a line held low with IRQ_PREV 0, on a line that rises, and whatever number of
timeouts pass. -/
def Obligations.WaitWithoutAnEdgeGoesOn : Prop :=
  ∀ s : State, s.pc.op = none → noFallingEdge s.irqPrev s.irqIn s.inputs = true →
    ∃ t, exec .wait s = .next t ∧ t.pc.op = some .wait ∧ atWaitPoint t = true ∧ t.watch = true ∧ t.signal = false

/-- O55. What a `wait` leaves alone, whatever moves the outside makes (44_presence_wait R154): it ends or is at its wait point,
no session register changes, it reads nothing, and WATCH is set exactly while it is in progress (R157). -/
def Obligations.WaitTouchesOnlyItsFlags : Prop :=
  ∀ s t : State, exec .wait s = .next t →
    (t.pc.op = none ∧ (t.result = some .done ∨ t.result = some (.error .abandoned)) ∨
      t.pc.op = some .wait ∧ atWaitPoint t = true ∧ t.result = none) ∧
    (t.watch = true ↔ t.pc.op = some .wait) ∧
    t.pstate = s.pstate ∧ t.sector = s.sector ∧ t.authd = s.authd ∧ t.uid = s.uid ∧ t.key = s.key ∧ t.cfg = s.cfg ∧
    t.rstOut = s.rstOut ∧ t.params = s.params ∧ t.answers = s.answers ∧
    ∃ xs, t.trace = s.trace ++ xs ∧ ∀ x ∈ xs, x.b0.getLsbD 7 = false

/-- O56. `selectCard` is the sequence `wait(); reset(); init(); request(); u <- antiCollision(); selectTag(u)`, stopping at the
first error kind (42_card_session R126): it ends in the very state those instructions, requested one after the other, end in;
while its wait is in progress it differs from a wait in OP alone. Requested by the host, it runs one step at a time, each "the
next bus transaction or internal step" (10_state R20): from the last line of its wait, the steps lead to the state that line
leaves when all is run whole, each with at most one transaction, in progress until the last. That this line of the wait is a step
of its own with its PHASE, and which lines of the other operations are, is the model's choice (log entries 3 and 10). -/
def Obligations.SelectCardIsTheSequence : Prop :=
  (∀ s w : State, exec .wait s = .next w →
    (w.pc.op = none → exec .selectCard s = andThen (.next w) resetToSelect) ∧
    (w.pc.op ≠ none → exec .selectCard s = .next { w with pc := { w.pc with op := some .selectCard } })) ∧
  (∀ s : State, s.pc.op = some .selectCard → s.job = some ⟨.selectCard, []⟩ →
    s.pc.phase = deregisterPhase s.params + 1 → (∀ m rest, s.inputs ≠ .move m :: rest) →
    ∃ n, steps (n + 1) s = .next (endWait { s with job := none }) ∧
      ∀ k, k ≤ n → ∃ u v, steps k s = .next u ∧ steps (k + 1) s = .next v ∧ AtMostOne u.trace v.trace ∧
        (k < n → v.pc.op = some .selectCard))

/-- O57. `selectCard` to its end from any state of the protocol, when `n` timeouts pass before a falling edge, which may be
sampled at the wait point or at any place in the last arming or before it, as in O50: it answers a next state, idle, in Selected
with the `blocks` byte, or with the error kind of the first step that raised. -/
def Obligations.SelectCardCompletes : Prop :=
  ∀ (s : State) (n j : Nat) (before rest : List Input), s.pc.op = none →
    before ++ turns j = armedMoves s.params n →
    s.inputs = before ++ edgeMoves ++ turns j ++ turns 1 ++ exitMoves s.params ++ rest →
    ∃ t, exec .selectCard s = .next t ∧ t.pc = Pc.idle ∧ t.work = Work.empty ∧ t.watch = false ∧ t.cfg = .ready ∧
      t.authd = false ∧ t.sector = none ∧ t.key = none ∧ t.inputs = rest ∧
      ((∃ b, t.result = some (.blocks b) ∧ t.pstate = .selected ∧ t.uid.isSome = true) ∨
        (t.result = some (.error .cardNotPresentError) ∧ t.pstate = .idle) ∨
        (∃ e, t.result = some (.error e) ∧ (e = .timeoutError ∨ e = .protocolError ∨ e = .checksumError) ∧
          (t.pstate = .collided ∨ t.pstate = .identified)))

/-! ## The whole machine -/

/-- O58. The transactions on the bus are frames 30_encoding R84 (c) allows, on every step from every state whose trace holds
only such: bit 0 of the first byte is 0, and a read sends 0x00. The trace only grows (10_state R27), and the parameters and
RST_OUT (R26) never change. -/
def Obligations.TraceStaysLegal : Prop :=
  ∀ s t : State, (∀ x ∈ s.trace, LegalXfer x) → step s = .next t →
    (∀ x ∈ t.trace, LegalXfer x) ∧ s.trace <+: t.trace ∧ t.params = s.params ∧ t.rstOut = s.rstOut

/-- O59. "The engine addresses no chip register other than the nineteen of rule R30 ... the host cannot make the engine address
any other" (10_state R45): on every step from every state in which no row but a host request stands placed by itself (log entry
11: only the two plain BUS rows name an address), every new transaction is to one of them; and the next state is such a state
again, so that this holds along every run. -/
def Obligations.OnlyNineteenRegisters : Prop :=
  ∀ s t : State, (∀ f l, s.placed = some (f, l) → f = .hostop) → step s = .next t →
    (∀ f l, t.placed = some (f, l) → f = .hostop) ∧
    ∃ xs, t.trace = s.trace ++ xs ∧ ∀ x ∈ xs, KnownRegister s.params x

/-- O60. The authenticated flag (10_state R23) and the secrets of the session: only `authenticate` with the result Ok sets
AUTHD, and UID, KEY and AUTHD are read by no operation (42_card_session R132, 10_state R23): what the engine does on the bus
and answers does not depend on them. -/
def Obligations.SessionSecretsAreNeverRead : Prop :=
  (∀ (i : Instr) (s t : State), exec i s = .next t → s.authd = false → t.authd = true →
    (∃ m b k u, i = .authenticate m b k u) ∧ t.result = some (.auth .ok)) ∧
  (∀ (i : Instr) (s t : State) (u : Option (Bytes 4)) (k : Option (Bytes 6)) (a : Bool), exec i s = .next t →
    ∃ t', exec i { s with uid := u, key := k, authd := a } = .next t' ∧ t'.trace = t.trace ∧ t'.result = t.result ∧
      t'.pstate = t.pstate ∧ t'.sector = t.sector ∧ t'.cfg = t.cfg)
end

