-- ==== Sys2Proof/Laws/State.lean ====
section
/-! SUPPORT. Each named update of the state read at each field: it writes its own field and leaves every other as it was. -/

namespace Sys2Proof.Machine

@[simp] theorem State.setPState_pstate (x : PState) (s : State) : (s.setPState x).pstate = x := rfl
@[simp] theorem State.setPState_sector (x : PState) (s : State) : (s.setPState x).sector = s.sector := rfl
@[simp] theorem State.setPState_authd (x : PState) (s : State) : (s.setPState x).authd = s.authd := rfl
@[simp] theorem State.setPState_uid (x : PState) (s : State) : (s.setPState x).uid = s.uid := rfl
@[simp] theorem State.setPState_key (x : PState) (s : State) : (s.setPState x).key = s.key := rfl
@[simp] theorem State.setPState_cfg (x : PState) (s : State) : (s.setPState x).cfg = s.cfg := rfl
@[simp] theorem State.setPState_pc (x : PState) (s : State) : (s.setPState x).pc = s.pc := rfl
@[simp] theorem State.setPState_work (x : PState) (s : State) : (s.setPState x).work = s.work := rfl
@[simp] theorem State.setPState_watch (x : PState) (s : State) : (s.setPState x).watch = s.watch := rfl
@[simp] theorem State.setPState_signal (x : PState) (s : State) : (s.setPState x).signal = s.signal := rfl
@[simp] theorem State.setPState_irqPrev (x : PState) (s : State) : (s.setPState x).irqPrev = s.irqPrev := rfl
@[simp] theorem State.setPState_irqIn (x : PState) (s : State) : (s.setPState x).irqIn = s.irqIn := rfl
@[simp] theorem State.setPState_rstOut (x : PState) (s : State) : (s.setPState x).rstOut = s.rstOut := rfl
@[simp] theorem State.setPState_trace (x : PState) (s : State) : (s.setPState x).trace = s.trace := rfl
@[simp] theorem State.setPState_result (x : PState) (s : State) : (s.setPState x).result = s.result := rfl
@[simp] theorem State.setPState_params (x : PState) (s : State) : (s.setPState x).params = s.params := rfl
@[simp] theorem State.setPState_job (x : PState) (s : State) : (s.setPState x).job = s.job := rfl
@[simp] theorem State.setPState_placed (x : PState) (s : State) : (s.setPState x).placed = s.placed := rfl
@[simp] theorem State.setPState_answers (x : PState) (s : State) : (s.setPState x).answers = s.answers := rfl
@[simp] theorem State.setPState_inputs (x : PState) (s : State) : (s.setPState x).inputs = s.inputs := rfl
@[simp] theorem State.setPState_freeIx (x : PState) (s : State) : (s.setPState x).freeIx = s.freeIx := rfl

@[simp] theorem State.setUid_pstate (x : Option (Bytes 4)) (s : State) : (s.setUid x).pstate = s.pstate := rfl
@[simp] theorem State.setUid_sector (x : Option (Bytes 4)) (s : State) : (s.setUid x).sector = s.sector := rfl
@[simp] theorem State.setUid_authd (x : Option (Bytes 4)) (s : State) : (s.setUid x).authd = s.authd := rfl
@[simp] theorem State.setUid_uid (x : Option (Bytes 4)) (s : State) : (s.setUid x).uid = x := rfl
@[simp] theorem State.setUid_key (x : Option (Bytes 4)) (s : State) : (s.setUid x).key = s.key := rfl
@[simp] theorem State.setUid_cfg (x : Option (Bytes 4)) (s : State) : (s.setUid x).cfg = s.cfg := rfl
@[simp] theorem State.setUid_pc (x : Option (Bytes 4)) (s : State) : (s.setUid x).pc = s.pc := rfl
@[simp] theorem State.setUid_work (x : Option (Bytes 4)) (s : State) : (s.setUid x).work = s.work := rfl
@[simp] theorem State.setUid_watch (x : Option (Bytes 4)) (s : State) : (s.setUid x).watch = s.watch := rfl
@[simp] theorem State.setUid_signal (x : Option (Bytes 4)) (s : State) : (s.setUid x).signal = s.signal := rfl
@[simp] theorem State.setUid_irqPrev (x : Option (Bytes 4)) (s : State) : (s.setUid x).irqPrev = s.irqPrev := rfl
@[simp] theorem State.setUid_irqIn (x : Option (Bytes 4)) (s : State) : (s.setUid x).irqIn = s.irqIn := rfl
@[simp] theorem State.setUid_rstOut (x : Option (Bytes 4)) (s : State) : (s.setUid x).rstOut = s.rstOut := rfl
@[simp] theorem State.setUid_trace (x : Option (Bytes 4)) (s : State) : (s.setUid x).trace = s.trace := rfl
@[simp] theorem State.setUid_result (x : Option (Bytes 4)) (s : State) : (s.setUid x).result = s.result := rfl
@[simp] theorem State.setUid_params (x : Option (Bytes 4)) (s : State) : (s.setUid x).params = s.params := rfl
@[simp] theorem State.setUid_job (x : Option (Bytes 4)) (s : State) : (s.setUid x).job = s.job := rfl
@[simp] theorem State.setUid_placed (x : Option (Bytes 4)) (s : State) : (s.setUid x).placed = s.placed := rfl
@[simp] theorem State.setUid_answers (x : Option (Bytes 4)) (s : State) : (s.setUid x).answers = s.answers := rfl
@[simp] theorem State.setUid_inputs (x : Option (Bytes 4)) (s : State) : (s.setUid x).inputs = s.inputs := rfl
@[simp] theorem State.setUid_freeIx (x : Option (Bytes 4)) (s : State) : (s.setUid x).freeIx = s.freeIx := rfl

@[simp] theorem State.setCfg_pstate (x : Cfg) (s : State) : (s.setCfg x).pstate = s.pstate := rfl
@[simp] theorem State.setCfg_sector (x : Cfg) (s : State) : (s.setCfg x).sector = s.sector := rfl
@[simp] theorem State.setCfg_authd (x : Cfg) (s : State) : (s.setCfg x).authd = s.authd := rfl
@[simp] theorem State.setCfg_uid (x : Cfg) (s : State) : (s.setCfg x).uid = s.uid := rfl
@[simp] theorem State.setCfg_key (x : Cfg) (s : State) : (s.setCfg x).key = s.key := rfl
@[simp] theorem State.setCfg_cfg (x : Cfg) (s : State) : (s.setCfg x).cfg = x := rfl
@[simp] theorem State.setCfg_pc (x : Cfg) (s : State) : (s.setCfg x).pc = s.pc := rfl
@[simp] theorem State.setCfg_work (x : Cfg) (s : State) : (s.setCfg x).work = s.work := rfl
@[simp] theorem State.setCfg_watch (x : Cfg) (s : State) : (s.setCfg x).watch = s.watch := rfl
@[simp] theorem State.setCfg_signal (x : Cfg) (s : State) : (s.setCfg x).signal = s.signal := rfl
@[simp] theorem State.setCfg_irqPrev (x : Cfg) (s : State) : (s.setCfg x).irqPrev = s.irqPrev := rfl
@[simp] theorem State.setCfg_irqIn (x : Cfg) (s : State) : (s.setCfg x).irqIn = s.irqIn := rfl
@[simp] theorem State.setCfg_rstOut (x : Cfg) (s : State) : (s.setCfg x).rstOut = s.rstOut := rfl
@[simp] theorem State.setCfg_trace (x : Cfg) (s : State) : (s.setCfg x).trace = s.trace := rfl
@[simp] theorem State.setCfg_result (x : Cfg) (s : State) : (s.setCfg x).result = s.result := rfl
@[simp] theorem State.setCfg_params (x : Cfg) (s : State) : (s.setCfg x).params = s.params := rfl
@[simp] theorem State.setCfg_job (x : Cfg) (s : State) : (s.setCfg x).job = s.job := rfl
@[simp] theorem State.setCfg_placed (x : Cfg) (s : State) : (s.setCfg x).placed = s.placed := rfl
@[simp] theorem State.setCfg_answers (x : Cfg) (s : State) : (s.setCfg x).answers = s.answers := rfl
@[simp] theorem State.setCfg_inputs (x : Cfg) (s : State) : (s.setCfg x).inputs = s.inputs := rfl
@[simp] theorem State.setCfg_freeIx (x : Cfg) (s : State) : (s.setCfg x).freeIx = s.freeIx := rfl

@[simp] theorem State.setAuthd_pstate (x : Bool) (s : State) : (s.setAuthd x).pstate = s.pstate := rfl
@[simp] theorem State.setAuthd_sector (x : Bool) (s : State) : (s.setAuthd x).sector = s.sector := rfl
@[simp] theorem State.setAuthd_authd (x : Bool) (s : State) : (s.setAuthd x).authd = x := rfl
@[simp] theorem State.setAuthd_uid (x : Bool) (s : State) : (s.setAuthd x).uid = s.uid := rfl
@[simp] theorem State.setAuthd_key (x : Bool) (s : State) : (s.setAuthd x).key = s.key := rfl
@[simp] theorem State.setAuthd_cfg (x : Bool) (s : State) : (s.setAuthd x).cfg = s.cfg := rfl
@[simp] theorem State.setAuthd_pc (x : Bool) (s : State) : (s.setAuthd x).pc = s.pc := rfl
@[simp] theorem State.setAuthd_work (x : Bool) (s : State) : (s.setAuthd x).work = s.work := rfl
@[simp] theorem State.setAuthd_watch (x : Bool) (s : State) : (s.setAuthd x).watch = s.watch := rfl
@[simp] theorem State.setAuthd_signal (x : Bool) (s : State) : (s.setAuthd x).signal = s.signal := rfl
@[simp] theorem State.setAuthd_irqPrev (x : Bool) (s : State) : (s.setAuthd x).irqPrev = s.irqPrev := rfl
@[simp] theorem State.setAuthd_irqIn (x : Bool) (s : State) : (s.setAuthd x).irqIn = s.irqIn := rfl
@[simp] theorem State.setAuthd_rstOut (x : Bool) (s : State) : (s.setAuthd x).rstOut = s.rstOut := rfl
@[simp] theorem State.setAuthd_trace (x : Bool) (s : State) : (s.setAuthd x).trace = s.trace := rfl
@[simp] theorem State.setAuthd_result (x : Bool) (s : State) : (s.setAuthd x).result = s.result := rfl
@[simp] theorem State.setAuthd_params (x : Bool) (s : State) : (s.setAuthd x).params = s.params := rfl
@[simp] theorem State.setAuthd_job (x : Bool) (s : State) : (s.setAuthd x).job = s.job := rfl
@[simp] theorem State.setAuthd_placed (x : Bool) (s : State) : (s.setAuthd x).placed = s.placed := rfl
@[simp] theorem State.setAuthd_answers (x : Bool) (s : State) : (s.setAuthd x).answers = s.answers := rfl
@[simp] theorem State.setAuthd_inputs (x : Bool) (s : State) : (s.setAuthd x).inputs = s.inputs := rfl
@[simp] theorem State.setAuthd_freeIx (x : Bool) (s : State) : (s.setAuthd x).freeIx = s.freeIx := rfl

@[simp] theorem State.setPc_pstate (x : Pc) (s : State) : (s.setPc x).pstate = s.pstate := rfl
@[simp] theorem State.setPc_sector (x : Pc) (s : State) : (s.setPc x).sector = s.sector := rfl
@[simp] theorem State.setPc_authd (x : Pc) (s : State) : (s.setPc x).authd = s.authd := rfl
@[simp] theorem State.setPc_uid (x : Pc) (s : State) : (s.setPc x).uid = s.uid := rfl
@[simp] theorem State.setPc_key (x : Pc) (s : State) : (s.setPc x).key = s.key := rfl
@[simp] theorem State.setPc_cfg (x : Pc) (s : State) : (s.setPc x).cfg = s.cfg := rfl
@[simp] theorem State.setPc_pc (x : Pc) (s : State) : (s.setPc x).pc = x := rfl
@[simp] theorem State.setPc_work (x : Pc) (s : State) : (s.setPc x).work = s.work := rfl
@[simp] theorem State.setPc_watch (x : Pc) (s : State) : (s.setPc x).watch = s.watch := rfl
@[simp] theorem State.setPc_signal (x : Pc) (s : State) : (s.setPc x).signal = s.signal := rfl
@[simp] theorem State.setPc_irqPrev (x : Pc) (s : State) : (s.setPc x).irqPrev = s.irqPrev := rfl
@[simp] theorem State.setPc_irqIn (x : Pc) (s : State) : (s.setPc x).irqIn = s.irqIn := rfl
@[simp] theorem State.setPc_rstOut (x : Pc) (s : State) : (s.setPc x).rstOut = s.rstOut := rfl
@[simp] theorem State.setPc_trace (x : Pc) (s : State) : (s.setPc x).trace = s.trace := rfl
@[simp] theorem State.setPc_result (x : Pc) (s : State) : (s.setPc x).result = s.result := rfl
@[simp] theorem State.setPc_params (x : Pc) (s : State) : (s.setPc x).params = s.params := rfl
@[simp] theorem State.setPc_job (x : Pc) (s : State) : (s.setPc x).job = s.job := rfl
@[simp] theorem State.setPc_placed (x : Pc) (s : State) : (s.setPc x).placed = s.placed := rfl
@[simp] theorem State.setPc_answers (x : Pc) (s : State) : (s.setPc x).answers = s.answers := rfl
@[simp] theorem State.setPc_inputs (x : Pc) (s : State) : (s.setPc x).inputs = s.inputs := rfl
@[simp] theorem State.setPc_freeIx (x : Pc) (s : State) : (s.setPc x).freeIx = s.freeIx := rfl

@[simp] theorem State.setWork_pstate (x : Work) (s : State) : (s.setWork x).pstate = s.pstate := rfl
@[simp] theorem State.setWork_sector (x : Work) (s : State) : (s.setWork x).sector = s.sector := rfl
@[simp] theorem State.setWork_authd (x : Work) (s : State) : (s.setWork x).authd = s.authd := rfl
@[simp] theorem State.setWork_uid (x : Work) (s : State) : (s.setWork x).uid = s.uid := rfl
@[simp] theorem State.setWork_key (x : Work) (s : State) : (s.setWork x).key = s.key := rfl
@[simp] theorem State.setWork_cfg (x : Work) (s : State) : (s.setWork x).cfg = s.cfg := rfl
@[simp] theorem State.setWork_pc (x : Work) (s : State) : (s.setWork x).pc = s.pc := rfl
@[simp] theorem State.setWork_work (x : Work) (s : State) : (s.setWork x).work = x := rfl
@[simp] theorem State.setWork_watch (x : Work) (s : State) : (s.setWork x).watch = s.watch := rfl
@[simp] theorem State.setWork_signal (x : Work) (s : State) : (s.setWork x).signal = s.signal := rfl
@[simp] theorem State.setWork_irqPrev (x : Work) (s : State) : (s.setWork x).irqPrev = s.irqPrev := rfl
@[simp] theorem State.setWork_irqIn (x : Work) (s : State) : (s.setWork x).irqIn = s.irqIn := rfl
@[simp] theorem State.setWork_rstOut (x : Work) (s : State) : (s.setWork x).rstOut = s.rstOut := rfl
@[simp] theorem State.setWork_trace (x : Work) (s : State) : (s.setWork x).trace = s.trace := rfl
@[simp] theorem State.setWork_result (x : Work) (s : State) : (s.setWork x).result = s.result := rfl
@[simp] theorem State.setWork_params (x : Work) (s : State) : (s.setWork x).params = s.params := rfl
@[simp] theorem State.setWork_job (x : Work) (s : State) : (s.setWork x).job = s.job := rfl
@[simp] theorem State.setWork_placed (x : Work) (s : State) : (s.setWork x).placed = s.placed := rfl
@[simp] theorem State.setWork_answers (x : Work) (s : State) : (s.setWork x).answers = s.answers := rfl
@[simp] theorem State.setWork_inputs (x : Work) (s : State) : (s.setWork x).inputs = s.inputs := rfl
@[simp] theorem State.setWork_freeIx (x : Work) (s : State) : (s.setWork x).freeIx = s.freeIx := rfl

@[simp] theorem State.setWatch_pstate (x : Bool) (s : State) : (s.setWatch x).pstate = s.pstate := rfl
@[simp] theorem State.setWatch_sector (x : Bool) (s : State) : (s.setWatch x).sector = s.sector := rfl
@[simp] theorem State.setWatch_authd (x : Bool) (s : State) : (s.setWatch x).authd = s.authd := rfl
@[simp] theorem State.setWatch_uid (x : Bool) (s : State) : (s.setWatch x).uid = s.uid := rfl
@[simp] theorem State.setWatch_key (x : Bool) (s : State) : (s.setWatch x).key = s.key := rfl
@[simp] theorem State.setWatch_cfg (x : Bool) (s : State) : (s.setWatch x).cfg = s.cfg := rfl
@[simp] theorem State.setWatch_pc (x : Bool) (s : State) : (s.setWatch x).pc = s.pc := rfl
@[simp] theorem State.setWatch_work (x : Bool) (s : State) : (s.setWatch x).work = s.work := rfl
@[simp] theorem State.setWatch_watch (x : Bool) (s : State) : (s.setWatch x).watch = x := rfl
@[simp] theorem State.setWatch_signal (x : Bool) (s : State) : (s.setWatch x).signal = s.signal := rfl
@[simp] theorem State.setWatch_irqPrev (x : Bool) (s : State) : (s.setWatch x).irqPrev = s.irqPrev := rfl
@[simp] theorem State.setWatch_irqIn (x : Bool) (s : State) : (s.setWatch x).irqIn = s.irqIn := rfl
@[simp] theorem State.setWatch_rstOut (x : Bool) (s : State) : (s.setWatch x).rstOut = s.rstOut := rfl
@[simp] theorem State.setWatch_trace (x : Bool) (s : State) : (s.setWatch x).trace = s.trace := rfl
@[simp] theorem State.setWatch_result (x : Bool) (s : State) : (s.setWatch x).result = s.result := rfl
@[simp] theorem State.setWatch_params (x : Bool) (s : State) : (s.setWatch x).params = s.params := rfl
@[simp] theorem State.setWatch_job (x : Bool) (s : State) : (s.setWatch x).job = s.job := rfl
@[simp] theorem State.setWatch_placed (x : Bool) (s : State) : (s.setWatch x).placed = s.placed := rfl
@[simp] theorem State.setWatch_answers (x : Bool) (s : State) : (s.setWatch x).answers = s.answers := rfl
@[simp] theorem State.setWatch_inputs (x : Bool) (s : State) : (s.setWatch x).inputs = s.inputs := rfl
@[simp] theorem State.setWatch_freeIx (x : Bool) (s : State) : (s.setWatch x).freeIx = s.freeIx := rfl

@[simp] theorem State.setSignal_pstate (x : Bool) (s : State) : (s.setSignal x).pstate = s.pstate := rfl
@[simp] theorem State.setSignal_sector (x : Bool) (s : State) : (s.setSignal x).sector = s.sector := rfl
@[simp] theorem State.setSignal_authd (x : Bool) (s : State) : (s.setSignal x).authd = s.authd := rfl
@[simp] theorem State.setSignal_uid (x : Bool) (s : State) : (s.setSignal x).uid = s.uid := rfl
@[simp] theorem State.setSignal_key (x : Bool) (s : State) : (s.setSignal x).key = s.key := rfl
@[simp] theorem State.setSignal_cfg (x : Bool) (s : State) : (s.setSignal x).cfg = s.cfg := rfl
@[simp] theorem State.setSignal_pc (x : Bool) (s : State) : (s.setSignal x).pc = s.pc := rfl
@[simp] theorem State.setSignal_work (x : Bool) (s : State) : (s.setSignal x).work = s.work := rfl
@[simp] theorem State.setSignal_watch (x : Bool) (s : State) : (s.setSignal x).watch = s.watch := rfl
@[simp] theorem State.setSignal_signal (x : Bool) (s : State) : (s.setSignal x).signal = x := rfl
@[simp] theorem State.setSignal_irqPrev (x : Bool) (s : State) : (s.setSignal x).irqPrev = s.irqPrev := rfl
@[simp] theorem State.setSignal_irqIn (x : Bool) (s : State) : (s.setSignal x).irqIn = s.irqIn := rfl
@[simp] theorem State.setSignal_rstOut (x : Bool) (s : State) : (s.setSignal x).rstOut = s.rstOut := rfl
@[simp] theorem State.setSignal_trace (x : Bool) (s : State) : (s.setSignal x).trace = s.trace := rfl
@[simp] theorem State.setSignal_result (x : Bool) (s : State) : (s.setSignal x).result = s.result := rfl
@[simp] theorem State.setSignal_params (x : Bool) (s : State) : (s.setSignal x).params = s.params := rfl
@[simp] theorem State.setSignal_job (x : Bool) (s : State) : (s.setSignal x).job = s.job := rfl
@[simp] theorem State.setSignal_placed (x : Bool) (s : State) : (s.setSignal x).placed = s.placed := rfl
@[simp] theorem State.setSignal_answers (x : Bool) (s : State) : (s.setSignal x).answers = s.answers := rfl
@[simp] theorem State.setSignal_inputs (x : Bool) (s : State) : (s.setSignal x).inputs = s.inputs := rfl
@[simp] theorem State.setSignal_freeIx (x : Bool) (s : State) : (s.setSignal x).freeIx = s.freeIx := rfl

@[simp] theorem State.setIrqPrev_pstate (x : Bool) (s : State) : (s.setIrqPrev x).pstate = s.pstate := rfl
@[simp] theorem State.setIrqPrev_sector (x : Bool) (s : State) : (s.setIrqPrev x).sector = s.sector := rfl
@[simp] theorem State.setIrqPrev_authd (x : Bool) (s : State) : (s.setIrqPrev x).authd = s.authd := rfl
@[simp] theorem State.setIrqPrev_uid (x : Bool) (s : State) : (s.setIrqPrev x).uid = s.uid := rfl
@[simp] theorem State.setIrqPrev_key (x : Bool) (s : State) : (s.setIrqPrev x).key = s.key := rfl
@[simp] theorem State.setIrqPrev_cfg (x : Bool) (s : State) : (s.setIrqPrev x).cfg = s.cfg := rfl
@[simp] theorem State.setIrqPrev_pc (x : Bool) (s : State) : (s.setIrqPrev x).pc = s.pc := rfl
@[simp] theorem State.setIrqPrev_work (x : Bool) (s : State) : (s.setIrqPrev x).work = s.work := rfl
@[simp] theorem State.setIrqPrev_watch (x : Bool) (s : State) : (s.setIrqPrev x).watch = s.watch := rfl
@[simp] theorem State.setIrqPrev_signal (x : Bool) (s : State) : (s.setIrqPrev x).signal = s.signal := rfl
@[simp] theorem State.setIrqPrev_irqPrev (x : Bool) (s : State) : (s.setIrqPrev x).irqPrev = x := rfl
@[simp] theorem State.setIrqPrev_irqIn (x : Bool) (s : State) : (s.setIrqPrev x).irqIn = s.irqIn := rfl
@[simp] theorem State.setIrqPrev_rstOut (x : Bool) (s : State) : (s.setIrqPrev x).rstOut = s.rstOut := rfl
@[simp] theorem State.setIrqPrev_trace (x : Bool) (s : State) : (s.setIrqPrev x).trace = s.trace := rfl
@[simp] theorem State.setIrqPrev_result (x : Bool) (s : State) : (s.setIrqPrev x).result = s.result := rfl
@[simp] theorem State.setIrqPrev_params (x : Bool) (s : State) : (s.setIrqPrev x).params = s.params := rfl
@[simp] theorem State.setIrqPrev_job (x : Bool) (s : State) : (s.setIrqPrev x).job = s.job := rfl
@[simp] theorem State.setIrqPrev_placed (x : Bool) (s : State) : (s.setIrqPrev x).placed = s.placed := rfl
@[simp] theorem State.setIrqPrev_answers (x : Bool) (s : State) : (s.setIrqPrev x).answers = s.answers := rfl
@[simp] theorem State.setIrqPrev_inputs (x : Bool) (s : State) : (s.setIrqPrev x).inputs = s.inputs := rfl
@[simp] theorem State.setIrqPrev_freeIx (x : Bool) (s : State) : (s.setIrqPrev x).freeIx = s.freeIx := rfl

@[simp] theorem State.setIrqIn_pstate (x : Bool) (s : State) : (s.setIrqIn x).pstate = s.pstate := rfl
@[simp] theorem State.setIrqIn_sector (x : Bool) (s : State) : (s.setIrqIn x).sector = s.sector := rfl
@[simp] theorem State.setIrqIn_authd (x : Bool) (s : State) : (s.setIrqIn x).authd = s.authd := rfl
@[simp] theorem State.setIrqIn_uid (x : Bool) (s : State) : (s.setIrqIn x).uid = s.uid := rfl
@[simp] theorem State.setIrqIn_key (x : Bool) (s : State) : (s.setIrqIn x).key = s.key := rfl
@[simp] theorem State.setIrqIn_cfg (x : Bool) (s : State) : (s.setIrqIn x).cfg = s.cfg := rfl
@[simp] theorem State.setIrqIn_pc (x : Bool) (s : State) : (s.setIrqIn x).pc = s.pc := rfl
@[simp] theorem State.setIrqIn_work (x : Bool) (s : State) : (s.setIrqIn x).work = s.work := rfl
@[simp] theorem State.setIrqIn_watch (x : Bool) (s : State) : (s.setIrqIn x).watch = s.watch := rfl
@[simp] theorem State.setIrqIn_signal (x : Bool) (s : State) : (s.setIrqIn x).signal = s.signal := rfl
@[simp] theorem State.setIrqIn_irqPrev (x : Bool) (s : State) : (s.setIrqIn x).irqPrev = s.irqPrev := rfl
@[simp] theorem State.setIrqIn_irqIn (x : Bool) (s : State) : (s.setIrqIn x).irqIn = x := rfl
@[simp] theorem State.setIrqIn_rstOut (x : Bool) (s : State) : (s.setIrqIn x).rstOut = s.rstOut := rfl
@[simp] theorem State.setIrqIn_trace (x : Bool) (s : State) : (s.setIrqIn x).trace = s.trace := rfl
@[simp] theorem State.setIrqIn_result (x : Bool) (s : State) : (s.setIrqIn x).result = s.result := rfl
@[simp] theorem State.setIrqIn_params (x : Bool) (s : State) : (s.setIrqIn x).params = s.params := rfl
@[simp] theorem State.setIrqIn_job (x : Bool) (s : State) : (s.setIrqIn x).job = s.job := rfl
@[simp] theorem State.setIrqIn_placed (x : Bool) (s : State) : (s.setIrqIn x).placed = s.placed := rfl
@[simp] theorem State.setIrqIn_answers (x : Bool) (s : State) : (s.setIrqIn x).answers = s.answers := rfl
@[simp] theorem State.setIrqIn_inputs (x : Bool) (s : State) : (s.setIrqIn x).inputs = s.inputs := rfl
@[simp] theorem State.setIrqIn_freeIx (x : Bool) (s : State) : (s.setIrqIn x).freeIx = s.freeIx := rfl

@[simp] theorem State.setTrace_pstate (x : List Xfer) (s : State) : (s.setTrace x).pstate = s.pstate := rfl
@[simp] theorem State.setTrace_sector (x : List Xfer) (s : State) : (s.setTrace x).sector = s.sector := rfl
@[simp] theorem State.setTrace_authd (x : List Xfer) (s : State) : (s.setTrace x).authd = s.authd := rfl
@[simp] theorem State.setTrace_uid (x : List Xfer) (s : State) : (s.setTrace x).uid = s.uid := rfl
@[simp] theorem State.setTrace_key (x : List Xfer) (s : State) : (s.setTrace x).key = s.key := rfl
@[simp] theorem State.setTrace_cfg (x : List Xfer) (s : State) : (s.setTrace x).cfg = s.cfg := rfl
@[simp] theorem State.setTrace_pc (x : List Xfer) (s : State) : (s.setTrace x).pc = s.pc := rfl
@[simp] theorem State.setTrace_work (x : List Xfer) (s : State) : (s.setTrace x).work = s.work := rfl
@[simp] theorem State.setTrace_watch (x : List Xfer) (s : State) : (s.setTrace x).watch = s.watch := rfl
@[simp] theorem State.setTrace_signal (x : List Xfer) (s : State) : (s.setTrace x).signal = s.signal := rfl
@[simp] theorem State.setTrace_irqPrev (x : List Xfer) (s : State) : (s.setTrace x).irqPrev = s.irqPrev := rfl
@[simp] theorem State.setTrace_irqIn (x : List Xfer) (s : State) : (s.setTrace x).irqIn = s.irqIn := rfl
@[simp] theorem State.setTrace_rstOut (x : List Xfer) (s : State) : (s.setTrace x).rstOut = s.rstOut := rfl
@[simp] theorem State.setTrace_trace (x : List Xfer) (s : State) : (s.setTrace x).trace = x := rfl
@[simp] theorem State.setTrace_result (x : List Xfer) (s : State) : (s.setTrace x).result = s.result := rfl
@[simp] theorem State.setTrace_params (x : List Xfer) (s : State) : (s.setTrace x).params = s.params := rfl
@[simp] theorem State.setTrace_job (x : List Xfer) (s : State) : (s.setTrace x).job = s.job := rfl
@[simp] theorem State.setTrace_placed (x : List Xfer) (s : State) : (s.setTrace x).placed = s.placed := rfl
@[simp] theorem State.setTrace_answers (x : List Xfer) (s : State) : (s.setTrace x).answers = s.answers := rfl
@[simp] theorem State.setTrace_inputs (x : List Xfer) (s : State) : (s.setTrace x).inputs = s.inputs := rfl
@[simp] theorem State.setTrace_freeIx (x : List Xfer) (s : State) : (s.setTrace x).freeIx = s.freeIx := rfl

@[simp] theorem State.setResult_pstate (x : Option Result) (s : State) : (s.setResult x).pstate = s.pstate := rfl
@[simp] theorem State.setResult_sector (x : Option Result) (s : State) : (s.setResult x).sector = s.sector := rfl
@[simp] theorem State.setResult_authd (x : Option Result) (s : State) : (s.setResult x).authd = s.authd := rfl
@[simp] theorem State.setResult_uid (x : Option Result) (s : State) : (s.setResult x).uid = s.uid := rfl
@[simp] theorem State.setResult_key (x : Option Result) (s : State) : (s.setResult x).key = s.key := rfl
@[simp] theorem State.setResult_cfg (x : Option Result) (s : State) : (s.setResult x).cfg = s.cfg := rfl
@[simp] theorem State.setResult_pc (x : Option Result) (s : State) : (s.setResult x).pc = s.pc := rfl
@[simp] theorem State.setResult_work (x : Option Result) (s : State) : (s.setResult x).work = s.work := rfl
@[simp] theorem State.setResult_watch (x : Option Result) (s : State) : (s.setResult x).watch = s.watch := rfl
@[simp] theorem State.setResult_signal (x : Option Result) (s : State) : (s.setResult x).signal = s.signal := rfl
@[simp] theorem State.setResult_irqPrev (x : Option Result) (s : State) : (s.setResult x).irqPrev = s.irqPrev := rfl
@[simp] theorem State.setResult_irqIn (x : Option Result) (s : State) : (s.setResult x).irqIn = s.irqIn := rfl
@[simp] theorem State.setResult_rstOut (x : Option Result) (s : State) : (s.setResult x).rstOut = s.rstOut := rfl
@[simp] theorem State.setResult_trace (x : Option Result) (s : State) : (s.setResult x).trace = s.trace := rfl
@[simp] theorem State.setResult_result (x : Option Result) (s : State) : (s.setResult x).result = x := rfl
@[simp] theorem State.setResult_params (x : Option Result) (s : State) : (s.setResult x).params = s.params := rfl
@[simp] theorem State.setResult_job (x : Option Result) (s : State) : (s.setResult x).job = s.job := rfl
@[simp] theorem State.setResult_placed (x : Option Result) (s : State) : (s.setResult x).placed = s.placed := rfl
@[simp] theorem State.setResult_answers (x : Option Result) (s : State) : (s.setResult x).answers = s.answers := rfl
@[simp] theorem State.setResult_inputs (x : Option Result) (s : State) : (s.setResult x).inputs = s.inputs := rfl
@[simp] theorem State.setResult_freeIx (x : Option Result) (s : State) : (s.setResult x).freeIx = s.freeIx := rfl

@[simp] theorem State.setJob_pstate (x : Option Job) (s : State) : (s.setJob x).pstate = s.pstate := rfl
@[simp] theorem State.setJob_sector (x : Option Job) (s : State) : (s.setJob x).sector = s.sector := rfl
@[simp] theorem State.setJob_authd (x : Option Job) (s : State) : (s.setJob x).authd = s.authd := rfl
@[simp] theorem State.setJob_uid (x : Option Job) (s : State) : (s.setJob x).uid = s.uid := rfl
@[simp] theorem State.setJob_key (x : Option Job) (s : State) : (s.setJob x).key = s.key := rfl
@[simp] theorem State.setJob_cfg (x : Option Job) (s : State) : (s.setJob x).cfg = s.cfg := rfl
@[simp] theorem State.setJob_pc (x : Option Job) (s : State) : (s.setJob x).pc = s.pc := rfl
@[simp] theorem State.setJob_work (x : Option Job) (s : State) : (s.setJob x).work = s.work := rfl
@[simp] theorem State.setJob_watch (x : Option Job) (s : State) : (s.setJob x).watch = s.watch := rfl
@[simp] theorem State.setJob_signal (x : Option Job) (s : State) : (s.setJob x).signal = s.signal := rfl
@[simp] theorem State.setJob_irqPrev (x : Option Job) (s : State) : (s.setJob x).irqPrev = s.irqPrev := rfl
@[simp] theorem State.setJob_irqIn (x : Option Job) (s : State) : (s.setJob x).irqIn = s.irqIn := rfl
@[simp] theorem State.setJob_rstOut (x : Option Job) (s : State) : (s.setJob x).rstOut = s.rstOut := rfl
@[simp] theorem State.setJob_trace (x : Option Job) (s : State) : (s.setJob x).trace = s.trace := rfl
@[simp] theorem State.setJob_result (x : Option Job) (s : State) : (s.setJob x).result = s.result := rfl
@[simp] theorem State.setJob_params (x : Option Job) (s : State) : (s.setJob x).params = s.params := rfl
@[simp] theorem State.setJob_job (x : Option Job) (s : State) : (s.setJob x).job = x := rfl
@[simp] theorem State.setJob_placed (x : Option Job) (s : State) : (s.setJob x).placed = s.placed := rfl
@[simp] theorem State.setJob_answers (x : Option Job) (s : State) : (s.setJob x).answers = s.answers := rfl
@[simp] theorem State.setJob_inputs (x : Option Job) (s : State) : (s.setJob x).inputs = s.inputs := rfl
@[simp] theorem State.setJob_freeIx (x : Option Job) (s : State) : (s.setJob x).freeIx = s.freeIx := rfl

@[simp] theorem State.setPlaced_pstate (x : Option (Format × List Byte)) (s : State) : (s.setPlaced x).pstate = s.pstate := rfl
@[simp] theorem State.setPlaced_sector (x : Option (Format × List Byte)) (s : State) : (s.setPlaced x).sector = s.sector := rfl
@[simp] theorem State.setPlaced_authd (x : Option (Format × List Byte)) (s : State) : (s.setPlaced x).authd = s.authd := rfl
@[simp] theorem State.setPlaced_uid (x : Option (Format × List Byte)) (s : State) : (s.setPlaced x).uid = s.uid := rfl
@[simp] theorem State.setPlaced_key (x : Option (Format × List Byte)) (s : State) : (s.setPlaced x).key = s.key := rfl
@[simp] theorem State.setPlaced_cfg (x : Option (Format × List Byte)) (s : State) : (s.setPlaced x).cfg = s.cfg := rfl
@[simp] theorem State.setPlaced_pc (x : Option (Format × List Byte)) (s : State) : (s.setPlaced x).pc = s.pc := rfl
@[simp] theorem State.setPlaced_work (x : Option (Format × List Byte)) (s : State) : (s.setPlaced x).work = s.work := rfl
@[simp] theorem State.setPlaced_watch (x : Option (Format × List Byte)) (s : State) : (s.setPlaced x).watch = s.watch := rfl
@[simp] theorem State.setPlaced_signal (x : Option (Format × List Byte)) (s : State) : (s.setPlaced x).signal = s.signal := rfl
@[simp] theorem State.setPlaced_irqPrev (x : Option (Format × List Byte)) (s : State) : (s.setPlaced x).irqPrev = s.irqPrev := rfl
@[simp] theorem State.setPlaced_irqIn (x : Option (Format × List Byte)) (s : State) : (s.setPlaced x).irqIn = s.irqIn := rfl
@[simp] theorem State.setPlaced_rstOut (x : Option (Format × List Byte)) (s : State) : (s.setPlaced x).rstOut = s.rstOut := rfl
@[simp] theorem State.setPlaced_trace (x : Option (Format × List Byte)) (s : State) : (s.setPlaced x).trace = s.trace := rfl
@[simp] theorem State.setPlaced_result (x : Option (Format × List Byte)) (s : State) : (s.setPlaced x).result = s.result := rfl
@[simp] theorem State.setPlaced_params (x : Option (Format × List Byte)) (s : State) : (s.setPlaced x).params = s.params := rfl
@[simp] theorem State.setPlaced_job (x : Option (Format × List Byte)) (s : State) : (s.setPlaced x).job = s.job := rfl
@[simp] theorem State.setPlaced_placed (x : Option (Format × List Byte)) (s : State) : (s.setPlaced x).placed = x := rfl
@[simp] theorem State.setPlaced_answers (x : Option (Format × List Byte)) (s : State) : (s.setPlaced x).answers = s.answers := rfl
@[simp] theorem State.setPlaced_inputs (x : Option (Format × List Byte)) (s : State) : (s.setPlaced x).inputs = s.inputs := rfl
@[simp] theorem State.setPlaced_freeIx (x : Option (Format × List Byte)) (s : State) : (s.setPlaced x).freeIx = s.freeIx := rfl

@[simp] theorem State.setAnswers_pstate (x : List Byte) (s : State) : (s.setAnswers x).pstate = s.pstate := rfl
@[simp] theorem State.setAnswers_sector (x : List Byte) (s : State) : (s.setAnswers x).sector = s.sector := rfl
@[simp] theorem State.setAnswers_authd (x : List Byte) (s : State) : (s.setAnswers x).authd = s.authd := rfl
@[simp] theorem State.setAnswers_uid (x : List Byte) (s : State) : (s.setAnswers x).uid = s.uid := rfl
@[simp] theorem State.setAnswers_key (x : List Byte) (s : State) : (s.setAnswers x).key = s.key := rfl
@[simp] theorem State.setAnswers_cfg (x : List Byte) (s : State) : (s.setAnswers x).cfg = s.cfg := rfl
@[simp] theorem State.setAnswers_pc (x : List Byte) (s : State) : (s.setAnswers x).pc = s.pc := rfl
@[simp] theorem State.setAnswers_work (x : List Byte) (s : State) : (s.setAnswers x).work = s.work := rfl
@[simp] theorem State.setAnswers_watch (x : List Byte) (s : State) : (s.setAnswers x).watch = s.watch := rfl
@[simp] theorem State.setAnswers_signal (x : List Byte) (s : State) : (s.setAnswers x).signal = s.signal := rfl
@[simp] theorem State.setAnswers_irqPrev (x : List Byte) (s : State) : (s.setAnswers x).irqPrev = s.irqPrev := rfl
@[simp] theorem State.setAnswers_irqIn (x : List Byte) (s : State) : (s.setAnswers x).irqIn = s.irqIn := rfl
@[simp] theorem State.setAnswers_rstOut (x : List Byte) (s : State) : (s.setAnswers x).rstOut = s.rstOut := rfl
@[simp] theorem State.setAnswers_trace (x : List Byte) (s : State) : (s.setAnswers x).trace = s.trace := rfl
@[simp] theorem State.setAnswers_result (x : List Byte) (s : State) : (s.setAnswers x).result = s.result := rfl
@[simp] theorem State.setAnswers_params (x : List Byte) (s : State) : (s.setAnswers x).params = s.params := rfl
@[simp] theorem State.setAnswers_job (x : List Byte) (s : State) : (s.setAnswers x).job = s.job := rfl
@[simp] theorem State.setAnswers_placed (x : List Byte) (s : State) : (s.setAnswers x).placed = s.placed := rfl
@[simp] theorem State.setAnswers_answers (x : List Byte) (s : State) : (s.setAnswers x).answers = x := rfl
@[simp] theorem State.setAnswers_inputs (x : List Byte) (s : State) : (s.setAnswers x).inputs = s.inputs := rfl
@[simp] theorem State.setAnswers_freeIx (x : List Byte) (s : State) : (s.setAnswers x).freeIx = s.freeIx := rfl

@[simp] theorem State.setInputs_pstate (x : List Input) (s : State) : (s.setInputs x).pstate = s.pstate := rfl
@[simp] theorem State.setInputs_sector (x : List Input) (s : State) : (s.setInputs x).sector = s.sector := rfl
@[simp] theorem State.setInputs_authd (x : List Input) (s : State) : (s.setInputs x).authd = s.authd := rfl
@[simp] theorem State.setInputs_uid (x : List Input) (s : State) : (s.setInputs x).uid = s.uid := rfl
@[simp] theorem State.setInputs_key (x : List Input) (s : State) : (s.setInputs x).key = s.key := rfl
@[simp] theorem State.setInputs_cfg (x : List Input) (s : State) : (s.setInputs x).cfg = s.cfg := rfl
@[simp] theorem State.setInputs_pc (x : List Input) (s : State) : (s.setInputs x).pc = s.pc := rfl
@[simp] theorem State.setInputs_work (x : List Input) (s : State) : (s.setInputs x).work = s.work := rfl
@[simp] theorem State.setInputs_watch (x : List Input) (s : State) : (s.setInputs x).watch = s.watch := rfl
@[simp] theorem State.setInputs_signal (x : List Input) (s : State) : (s.setInputs x).signal = s.signal := rfl
@[simp] theorem State.setInputs_irqPrev (x : List Input) (s : State) : (s.setInputs x).irqPrev = s.irqPrev := rfl
@[simp] theorem State.setInputs_irqIn (x : List Input) (s : State) : (s.setInputs x).irqIn = s.irqIn := rfl
@[simp] theorem State.setInputs_rstOut (x : List Input) (s : State) : (s.setInputs x).rstOut = s.rstOut := rfl
@[simp] theorem State.setInputs_trace (x : List Input) (s : State) : (s.setInputs x).trace = s.trace := rfl
@[simp] theorem State.setInputs_result (x : List Input) (s : State) : (s.setInputs x).result = s.result := rfl
@[simp] theorem State.setInputs_params (x : List Input) (s : State) : (s.setInputs x).params = s.params := rfl
@[simp] theorem State.setInputs_job (x : List Input) (s : State) : (s.setInputs x).job = s.job := rfl
@[simp] theorem State.setInputs_placed (x : List Input) (s : State) : (s.setInputs x).placed = s.placed := rfl
@[simp] theorem State.setInputs_answers (x : List Input) (s : State) : (s.setInputs x).answers = s.answers := rfl
@[simp] theorem State.setInputs_inputs (x : List Input) (s : State) : (s.setInputs x).inputs = x := rfl
@[simp] theorem State.setInputs_freeIx (x : List Input) (s : State) : (s.setInputs x).freeIx = s.freeIx := rfl

@[simp] theorem State.setFreeIx_pstate (x : Nat) (s : State) : (s.setFreeIx x).pstate = s.pstate := rfl
@[simp] theorem State.setFreeIx_sector (x : Nat) (s : State) : (s.setFreeIx x).sector = s.sector := rfl
@[simp] theorem State.setFreeIx_authd (x : Nat) (s : State) : (s.setFreeIx x).authd = s.authd := rfl
@[simp] theorem State.setFreeIx_uid (x : Nat) (s : State) : (s.setFreeIx x).uid = s.uid := rfl
@[simp] theorem State.setFreeIx_key (x : Nat) (s : State) : (s.setFreeIx x).key = s.key := rfl
@[simp] theorem State.setFreeIx_cfg (x : Nat) (s : State) : (s.setFreeIx x).cfg = s.cfg := rfl
@[simp] theorem State.setFreeIx_pc (x : Nat) (s : State) : (s.setFreeIx x).pc = s.pc := rfl
@[simp] theorem State.setFreeIx_work (x : Nat) (s : State) : (s.setFreeIx x).work = s.work := rfl
@[simp] theorem State.setFreeIx_watch (x : Nat) (s : State) : (s.setFreeIx x).watch = s.watch := rfl
@[simp] theorem State.setFreeIx_signal (x : Nat) (s : State) : (s.setFreeIx x).signal = s.signal := rfl
@[simp] theorem State.setFreeIx_irqPrev (x : Nat) (s : State) : (s.setFreeIx x).irqPrev = s.irqPrev := rfl
@[simp] theorem State.setFreeIx_irqIn (x : Nat) (s : State) : (s.setFreeIx x).irqIn = s.irqIn := rfl
@[simp] theorem State.setFreeIx_rstOut (x : Nat) (s : State) : (s.setFreeIx x).rstOut = s.rstOut := rfl
@[simp] theorem State.setFreeIx_trace (x : Nat) (s : State) : (s.setFreeIx x).trace = s.trace := rfl
@[simp] theorem State.setFreeIx_result (x : Nat) (s : State) : (s.setFreeIx x).result = s.result := rfl
@[simp] theorem State.setFreeIx_params (x : Nat) (s : State) : (s.setFreeIx x).params = s.params := rfl
@[simp] theorem State.setFreeIx_job (x : Nat) (s : State) : (s.setFreeIx x).job = s.job := rfl
@[simp] theorem State.setFreeIx_placed (x : Nat) (s : State) : (s.setFreeIx x).placed = s.placed := rfl
@[simp] theorem State.setFreeIx_answers (x : Nat) (s : State) : (s.setFreeIx x).answers = s.answers := rfl
@[simp] theorem State.setFreeIx_inputs (x : Nat) (s : State) : (s.setFreeIx x).inputs = s.inputs := rfl
@[simp] theorem State.setFreeIx_freeIx (x : Nat) (s : State) : (s.setFreeIx x).freeIx = x := rfl

@[simp] theorem State.clearSession_pstate (s : State) : (s.clearSession).pstate = .idle := rfl
@[simp] theorem State.clearSession_sector (s : State) : (s.clearSession).sector = none := rfl
@[simp] theorem State.clearSession_authd (s : State) : (s.clearSession).authd = false := rfl
@[simp] theorem State.clearSession_uid (s : State) : (s.clearSession).uid = none := rfl
@[simp] theorem State.clearSession_key (s : State) : (s.clearSession).key = none := rfl
@[simp] theorem State.clearSession_cfg (s : State) : (s.clearSession).cfg = s.cfg := rfl
@[simp] theorem State.clearSession_pc (s : State) : (s.clearSession).pc = s.pc := rfl
@[simp] theorem State.clearSession_work (s : State) : (s.clearSession).work = s.work := rfl
@[simp] theorem State.clearSession_watch (s : State) : (s.clearSession).watch = s.watch := rfl
@[simp] theorem State.clearSession_signal (s : State) : (s.clearSession).signal = s.signal := rfl
@[simp] theorem State.clearSession_irqPrev (s : State) : (s.clearSession).irqPrev = s.irqPrev := rfl
@[simp] theorem State.clearSession_irqIn (s : State) : (s.clearSession).irqIn = s.irqIn := rfl
@[simp] theorem State.clearSession_rstOut (s : State) : (s.clearSession).rstOut = s.rstOut := rfl
@[simp] theorem State.clearSession_trace (s : State) : (s.clearSession).trace = s.trace := rfl
@[simp] theorem State.clearSession_result (s : State) : (s.clearSession).result = s.result := rfl
@[simp] theorem State.clearSession_params (s : State) : (s.clearSession).params = s.params := rfl
@[simp] theorem State.clearSession_job (s : State) : (s.clearSession).job = s.job := rfl
@[simp] theorem State.clearSession_placed (s : State) : (s.clearSession).placed = s.placed := rfl
@[simp] theorem State.clearSession_answers (s : State) : (s.clearSession).answers = s.answers := rfl
@[simp] theorem State.clearSession_inputs (s : State) : (s.clearSession).inputs = s.inputs := rfl
@[simp] theorem State.clearSession_freeIx (s : State) : (s.clearSession).freeIx = s.freeIx := rfl

@[simp] theorem State.openSession_pstate (b : Byte) (k : Bytes 6) (s : State) : (s.openSession b k).pstate = .authenticated := rfl
@[simp] theorem State.openSession_sector (b : Byte) (k : Bytes 6) (s : State) : (s.openSession b k).sector = some (sectorOf b) := rfl
@[simp] theorem State.openSession_authd (b : Byte) (k : Bytes 6) (s : State) : (s.openSession b k).authd = true := rfl
@[simp] theorem State.openSession_uid (b : Byte) (k : Bytes 6) (s : State) : (s.openSession b k).uid = s.uid := rfl
@[simp] theorem State.openSession_key (b : Byte) (k : Bytes 6) (s : State) : (s.openSession b k).key = some k := rfl
@[simp] theorem State.openSession_cfg (b : Byte) (k : Bytes 6) (s : State) : (s.openSession b k).cfg = s.cfg := rfl
@[simp] theorem State.openSession_pc (b : Byte) (k : Bytes 6) (s : State) : (s.openSession b k).pc = s.pc := rfl
@[simp] theorem State.openSession_work (b : Byte) (k : Bytes 6) (s : State) : (s.openSession b k).work = s.work := rfl
@[simp] theorem State.openSession_watch (b : Byte) (k : Bytes 6) (s : State) : (s.openSession b k).watch = s.watch := rfl
@[simp] theorem State.openSession_signal (b : Byte) (k : Bytes 6) (s : State) : (s.openSession b k).signal = s.signal := rfl
@[simp] theorem State.openSession_irqPrev (b : Byte) (k : Bytes 6) (s : State) : (s.openSession b k).irqPrev = s.irqPrev := rfl
@[simp] theorem State.openSession_irqIn (b : Byte) (k : Bytes 6) (s : State) : (s.openSession b k).irqIn = s.irqIn := rfl
@[simp] theorem State.openSession_rstOut (b : Byte) (k : Bytes 6) (s : State) : (s.openSession b k).rstOut = s.rstOut := rfl
@[simp] theorem State.openSession_trace (b : Byte) (k : Bytes 6) (s : State) : (s.openSession b k).trace = s.trace := rfl
@[simp] theorem State.openSession_result (b : Byte) (k : Bytes 6) (s : State) : (s.openSession b k).result = s.result := rfl
@[simp] theorem State.openSession_params (b : Byte) (k : Bytes 6) (s : State) : (s.openSession b k).params = s.params := rfl
@[simp] theorem State.openSession_job (b : Byte) (k : Bytes 6) (s : State) : (s.openSession b k).job = s.job := rfl
@[simp] theorem State.openSession_placed (b : Byte) (k : Bytes 6) (s : State) : (s.openSession b k).placed = s.placed := rfl
@[simp] theorem State.openSession_answers (b : Byte) (k : Bytes 6) (s : State) : (s.openSession b k).answers = s.answers := rfl
@[simp] theorem State.openSession_inputs (b : Byte) (k : Bytes 6) (s : State) : (s.openSession b k).inputs = s.inputs := rfl
@[simp] theorem State.openSession_freeIx (b : Byte) (k : Bytes 6) (s : State) : (s.openSession b k).freeIx = s.freeIx := rfl

@[simp] theorem finish_pstate (r : Result) (s : State) : (finish r s).pstate = s.pstate := rfl
@[simp] theorem finish_sector (r : Result) (s : State) : (finish r s).sector = s.sector := rfl
@[simp] theorem finish_authd (r : Result) (s : State) : (finish r s).authd = s.authd := rfl
@[simp] theorem finish_uid (r : Result) (s : State) : (finish r s).uid = s.uid := rfl
@[simp] theorem finish_key (r : Result) (s : State) : (finish r s).key = s.key := rfl
@[simp] theorem finish_cfg (r : Result) (s : State) : (finish r s).cfg = s.cfg := rfl
@[simp] theorem finish_pc (r : Result) (s : State) : (finish r s).pc = Pc.idle := rfl
@[simp] theorem finish_work (r : Result) (s : State) : (finish r s).work = Work.empty := rfl
@[simp] theorem finish_watch (r : Result) (s : State) : (finish r s).watch = s.watch := rfl
@[simp] theorem finish_signal (r : Result) (s : State) : (finish r s).signal = s.signal := rfl
@[simp] theorem finish_irqPrev (r : Result) (s : State) : (finish r s).irqPrev = s.irqPrev := rfl
@[simp] theorem finish_irqIn (r : Result) (s : State) : (finish r s).irqIn = s.irqIn := rfl
@[simp] theorem finish_rstOut (r : Result) (s : State) : (finish r s).rstOut = s.rstOut := rfl
@[simp] theorem finish_trace (r : Result) (s : State) : (finish r s).trace = s.trace := rfl
@[simp] theorem finish_result (r : Result) (s : State) : (finish r s).result = some r := rfl
@[simp] theorem finish_params (r : Result) (s : State) : (finish r s).params = s.params := rfl
@[simp] theorem finish_job (r : Result) (s : State) : (finish r s).job = none := rfl
@[simp] theorem finish_placed (r : Result) (s : State) : (finish r s).placed = s.placed := rfl
@[simp] theorem finish_answers (r : Result) (s : State) : (finish r s).answers = s.answers := rfl
@[simp] theorem finish_inputs (r : Result) (s : State) : (finish r s).inputs = s.inputs := rfl
@[simp] theorem finish_freeIx (r : Result) (s : State) : (finish r s).freeIx = s.freeIx := rfl

@[simp] theorem begin_pstate (op : HostOp) (s : State) : (begin op s).pstate = s.pstate := rfl
@[simp] theorem begin_sector (op : HostOp) (s : State) : (begin op s).sector = s.sector := rfl
@[simp] theorem begin_authd (op : HostOp) (s : State) : (begin op s).authd = s.authd := rfl
@[simp] theorem begin_uid (op : HostOp) (s : State) : (begin op s).uid = s.uid := rfl
@[simp] theorem begin_key (op : HostOp) (s : State) : (begin op s).key = s.key := rfl
@[simp] theorem begin_cfg (op : HostOp) (s : State) : (begin op s).cfg = s.cfg := rfl
@[simp] theorem begin_pc (op : HostOp) (s : State) : (begin op s).pc = ⟨some op, 0, 0⟩ := rfl
@[simp] theorem begin_work (op : HostOp) (s : State) : (begin op s).work = Work.empty := rfl
@[simp] theorem begin_watch (op : HostOp) (s : State) : (begin op s).watch = s.watch := rfl
@[simp] theorem begin_signal (op : HostOp) (s : State) : (begin op s).signal = s.signal := rfl
@[simp] theorem begin_irqPrev (op : HostOp) (s : State) : (begin op s).irqPrev = s.irqPrev := rfl
@[simp] theorem begin_irqIn (op : HostOp) (s : State) : (begin op s).irqIn = s.irqIn := rfl
@[simp] theorem begin_rstOut (op : HostOp) (s : State) : (begin op s).rstOut = s.rstOut := rfl
@[simp] theorem begin_trace (op : HostOp) (s : State) : (begin op s).trace = s.trace := rfl
@[simp] theorem begin_result (op : HostOp) (s : State) : (begin op s).result = none := rfl
@[simp] theorem begin_params (op : HostOp) (s : State) : (begin op s).params = s.params := rfl
@[simp] theorem begin_job (op : HostOp) (s : State) : (begin op s).job = none := rfl
@[simp] theorem begin_placed (op : HostOp) (s : State) : (begin op s).placed = s.placed := rfl
@[simp] theorem begin_answers (op : HostOp) (s : State) : (begin op s).answers = s.answers := rfl
@[simp] theorem begin_inputs (op : HostOp) (s : State) : (begin op s).inputs = s.inputs := rfl
@[simp] theorem begin_freeIx (op : HostOp) (s : State) : (begin op s).freeIx = s.freeIx := rfl

@[simp] theorem Pc.idle_op : Pc.idle.op = none := rfl

end Sys2Proof.Machine
end

