-- ==== Sys2Proof/Laws/Run.lean ====
section
/-! SUPPORT. What running a program whole is, line by line: one equation for each program of the engine, in which every part
is itself an operation run whole. Rewrite with these and do not unfold `Prog.run` on a whole operation. -/

namespace Sys2Proof.Safety

open Sys2Proof.Machine

variable {α β : Type}

/-- A program and then another. -/
theorem run_bind (p : Prog α) (f : α → Prog β) (s : State) : (p.bind f).run s = (f (p.run s).1).run (p.run s).2 := by
  induction p generalizing s with
  | ret a => rfl
  | ask k ih => exact ih _ s
  | act a k ih => exact ih _
  | line k ih => exact ih _
  | write r v k ih => exact ih _
  | read r k ih => exact ih _ _

theorem ite_run (c : Prop) [Decidable c] (p q : Prog α) (s : State) :
    (if c then p else q).run s = if c then p.run s else q.run s := apply_ite (fun x => x.run s) c p q

/-- A sub-operation that raises: the working registers lose their values (60_exceptions R170). -/
theorem raiseProg_run (e : ErrKind) (s : State) :
    (raiseProg e : Prog (Except ErrKind α)).run s = (.error e, s.setWork Work.empty) := rfl

/-! ## The shared operations -/

theorem setBits_eq (r : Reg) (m : Byte) (s : State) :
    setBits r m s = regWrite r ((regRead r s).1 ||| m)
      ((regRead r s).2.setWork { (regRead r s).2.work with t := some (regRead r s).1 }) := rfl

theorem clearBits_eq (r : Reg) (m : Byte) (s : State) :
    clearBits r m s = regWrite r ((regRead r s).1 &&& ~~~m)
      ((regRead r s).2.setWork { (regRead r s).2.work with t := some (regRead r s).1 }) := rfl

theorem writeAll_cons (x : Reg × Byte) (l : List (Reg × Byte)) (s : State) :
    writeAll (x :: l) s = writeAll l (regWrite x.1 x.2 s) := rfl

theorem writeFifo_cons (b : Byte) (l : List Byte) (s : State) :
    writeFifo (b :: l) s = writeFifo l (regWrite .fifoData b s) := rfl

theorem drainFifo_succ (rx : List Byte) (n : Nat) (s : State) :
    drainFifo rx (n + 1) s =
      (let rx1 := rx ++ [(regRead .fifoData s).1]
       let s1 := (regRead .fifoData s).2
       drainFifo rx1 n (s1.setWork { s1.work with rx := some rx1 })) := rfl

/-- The loop of a poll, run whole. -/
def pollLoop (r : Reg) (mask : Byte) (n : Nat) (s : State) : Bool × State := (pollLoopProg r mask n).run s

/-- The state after one iteration of a poll. -/
def polled (r : Reg) (mask : Byte) (s : State) : State :=
  let s1 := (regRead r s).2
  (s1.setWork { s1.work with stat := some (regRead r s).1, matched := some (anySet (regRead r s).1 mask) }).setPc
    ⟨s1.pc.op, s1.pc.phase, s1.pc.iter + 1⟩

theorem pollLoop_succ (r : Reg) (mask : Byte) (n : Nat) (s : State) :
    pollLoop r mask (n + 1) s =
      if anySet (regRead r s).1 mask then (true, polled r mask s)
      else if n = 0 then (false, polled r mask s)
      else pollLoop r mask n ((polled r mask s).setPc ⟨(polled r mask s).pc.op, (polled r mask s).pc.phase - 1, (polled r mask s).pc.iter⟩) := by
  simp only [pollLoop, pollLoopProg, Prog.run]
  split_ifs <;> rfl

theorem poll_eq (r : Reg) (mask : Byte) (bound : Nat) (s : State) :
    poll r mask bound s =
      pollLoop r mask bound ((s.setWork { s.work with matched := some false }).setPc ⟨s.pc.op, s.pc.phase + 1, 0⟩) := rfl

theorem flushFifo_eq (s : State) : flushFifo s = setBits s.params.fifoFlushReg s.params.fifoFlushBit s := rfl

theorem writeCommand_eq (c : ChipCommand) (s : State) : writeCommand c s = regWrite .command (s.params.cmdCode c) s := rfl

/-! ## execute -/

/-- Lines 1 to 8 of `execute`, run whole. -/
def executeStart (c : ChipCommand) (d : List Byte) (s : State) : State := ((executeStartProg c d).run s).2

theorem executeStart_eq (c : ChipCommand) (d : List Byte) (s : State) :
    executeStart c d s =
      (let s0 := (advance s).setWork { s.work with tx := some d, en := some (masks c).1, wt := some (masks c).2 }
       let s6 := advance (writeCommand c (writeFifo d (writeCommand .idle (flushFifo (clearBits .comIrq masterBit
         (regWrite .comIEn (comIEnValue c) s0))))))
       if c = .transceive then setBits .bitFraming startSendBit s6 else s6) := by
  cases c <;> (simp only [executeStart, executeStartProg, Prog.run, run_bind]; rfl)

/-- Lines 18 to 22 of `execute`, run whole. -/
def receive (s : State) : Res Transceived := Res.of (receiveProg.run s)

theorem receive_eq (s : State) :
    receive s =
      (let n := receivedCount (regRead .fifoLevel s).1
       let s2 := (regRead .fifoLevel s).2.setWork { (regRead .fifoLevel s).2.work with n := some n }
       let lastBits := lastBitsOf (regRead .control s2).1
       let s4 := (regRead .control s2).2.setWork { (regRead .control s2).2.work with
         lastBits := some lastBits, vbits := some (validBitsOf n lastBits) }
       .ok ⟨(drainFifo [] n s4).1, some (validBitsOf n lastBits)⟩ (advance (drainFifo [] n s4).2)) := by
  simp only [receive, receiveProg, Prog.run, run_bind]; rfl

/-- Lines 15 to 23 of `execute`, run whole. -/
def executeResult (c : ChipCommand) (s : State) : Res Transceived := Res.of ((executeResultProg c).run s)

theorem executeResult_eq (c : ChipCommand) (s : State) :
    executeResult c s =
      (let s2 := (regRead .error s).2.setWork { (regRead .error s).2.work with errv := some (regRead .error s).1 }
       if anySet (regRead .error s).1 errMask then .err .protocolError (s2.setWork Work.empty)
       else if c = .transceive then receive (advance s2)
       else .ok ⟨[], none⟩ ((advance (advance s2)).setWork { s2.work with rx := some [], vbits := none })) := by
  simp only [executeResult, executeResultProg, Prog.run]
  split_ifs with h1 h2
  · rfl
  · subst h2; rfl
  · cases c <;> first | exact absurd rfl h2 | rfl

theorem executeBody_eq (c : ChipCommand) (d : List Byte) (s : State) :
    executeBody c d s =
      (let p := poll .comIrq (stopMask c) Config.pollBoundTrx (executeStart c d s)
       let s1 := advance (clearBits .bitFraming startSendBit p.2)
       if p.1 then executeResult c s1 else .err .timeoutError (s1.setWork Work.empty)) := by
  simp only [executeBody, executeProg, Prog.run, run_bind, poll, executeStart, apply_ite, ite_run]
  rfl

theorem executeProg_run (c : ChipCommand) (d : List Byte) (s : State) : Res.of ((executeProg c d).run s) = executeBody c d s := rfl

/-! ## computeCrc and the frames with a CRC -/

/-- Lines 1 to 4 of `computeCrc`, run whole. -/
def crcStart (d : List Byte) (s : State) : State := ((crcStartProg d).run s).2

theorem crcStart_eq (d : List Byte) (s : State) :
    crcStart d s = writeCommand .calcCrc (writeFifo d (flushFifo (clearBits .divIrq crcReadyBit
      (s.setWork { s.work with tx := some d })))) := by
  simp only [crcStart, crcStartProg, Prog.run, run_bind]; rfl

/-- Lines 10 to 12 of `computeCrc`, run whole. -/
def crcResult (s : State) : Res (Byte × Byte) := Res.of (crcResultProg.run s)

theorem crcResult_eq (s : State) :
    crcResult s =
      (let low := (regRead .crcResultL s).1
       let s1 := (regRead .crcResultL s).2.setWork { (regRead .crcResultL s).2.work with crcRes0 := some low }
       let high := (regRead .crcResultH s1).1
       let s2 := (regRead .crcResultH s1).2.setWork { (regRead .crcResultH s1).2.work with crcRes1 := some high }
       .ok (low, high) (advance s2)) := rfl

theorem computeCrcBody_eq (d : List Byte) (s : State) :
    computeCrcBody d s =
      (let p := poll .divIrq crcReadyBit Config.pollBoundCrc (crcStart d s)
       if !p.1 && (advance p.2).params.crcTimeoutMode == .typed then
         .err .timeoutError ((advance p.2).setWork Work.empty)
       else crcResult (advance p.2)) := by
  simp only [computeCrcBody, computeCrcProg, Prog.run, run_bind, poll, crcStart, apply_ite, ite_run]
  rfl

/-- A sub-operation and the test of its outcome. -/
theorem testedProg_run (p : Prog α) (s : State) : (testedProg p).run s = ((p.run s).1, advance (p.run s).2) := by
  rw [testedProg, run_bind]; rfl

/-- An outcome, and the step that tests it. -/
def tested : Res α → Res α
  | .ok a s => .ok a (advance s)
  | .err e s => .err e (advance s)

theorem tested_run (p : Prog (Except ErrKind α)) (s : State) : Res.of ((testedProg p).run s) = tested (Res.of (p.run s)) := by
  rw [testedProg_run]; rcases p.run s with ⟨_ | _, t⟩ <;> rfl

/-- A frame sent with its CRC, run whole. -/
def sendWithCrc (f : List Byte) (s : State) : Res Transceived := Res.of ((sendWithCrcProg f).run s)

/-- Go on with a value, or pass the error on unchanged. -/
def bindRes (r : Res α) (f : α → State → Res β) : Res β :=
  match r with
  | .ok a s => f a s
  | .err e s => .err e s

theorem orRaise_run (p : Prog (Except ErrKind α)) (f : α → Prog (Except ErrKind β)) (s : State) :
    Res.of ((p.orRaise f).run s) = bindRes (Res.of (p.run s)) fun a t => Res.of ((f a).run t) := by
  simp only [Prog.orRaise, run_bind]
  rcases p.run s with ⟨_ | _, t⟩ <;> rfl

theorem sendWithCrc_eq (f : List Byte) (s : State) :
    sendWithCrc f s =
      bindRes (tested (computeCrcBody f s)) fun c t => tested (executeBody .transceive (withCrc f c) t) := by
  simp only [sendWithCrc, sendWithCrcProg, orRaise_run, tested_run]; rfl

/-! ## CardSession -/

theorem stopCryptoBody_eq (s : State) : stopCryptoBody s = (advance (clearBits .status2 cryptoOnBit s)).clearSession := rfl

/-- Teardown, run whole. -/
def teardown (s : State) : State := (teardownProg.run s).2

theorem teardown_eq (s : State) : teardown s = if s.params.autoTeardown then stopCryptoBody s else s := by
  simp only [teardown, teardownProg, Prog.run]
  split_ifs <;> rfl

theorem tornDown_run (a : α) (s : State) : (tornDown a).run s = (a, teardown s) := by
  simp only [tornDown, run_bind]; rfl

theorem resetBody_eq (s : State) :
    resetBody s = ((advance (writeCommand .softReset ((advance s).setAuthd false))).clearSession.setCfg .needsInit) := rfl

theorem initBody_eq (s : State) :
    initBody s =
      (let s1 := writeAll initWrites s
       let v := (regRead .txControl s1).1
       let s3 := advance ((regRead .txControl s1).2.setWork { (regRead .txControl s1).2.work with t := some v })
       if v &&& rfOnBits = rfOnBits then (advance s3).setCfg .ready
       else (advance (regWrite .txControl (v ||| rfOnBits) s3)).setCfg .ready) := by
  simp only [initBody, initProg, Prog.run, run_bind, writeAll, apply_ite, ite_run]
  rfl

theorem requestBody_eq (s : State) :
    requestBody s =
      match executeBody .transceive reqaFrame (regWrite .bitFraming 0x07#8 s) with
      | .err _ s1 => .err .cardNotPresentError (advance s1)
      | .ok r s1 =>
        if r.validBits = some 16 then .ok () ((advance (advance s1)).setPState .requested)
        else .err .cardNotPresentError (advance s1) := by
  simp only [requestBody, requestProg, Prog.run, run_bind, testedProg_run, executeBody]
  rcases (executeProg .transceive reqaFrame).run (regWrite .bitFraming 0x07#8 s) with ⟨_ | r, t⟩
  · rfl
  · simp only [Res.of]; split_ifs <;> rfl

theorem antiCollisionBody_eq (s : State) :
    antiCollisionBody s =
      match executeBody .transceive anticollFrame (regWrite .bitFraming 0x00#8 s) with
      | .err e s1 => .err e ((advance s1).setPState .collided)
      | .ok r s1 =>
        let s2 := advance (advance s1)
        if r.data.length ≠ 5 then .err .checksumError (s2.setPState .collided)
        else
          match acceptedUid r.data with
          | none => .err .checksumError ((advance s2).setPState .collided)
          | some u =>
            .ok u (advance (((advance (advance s2)).setUid (some u)).setPState .identified)) := by
  simp only [antiCollisionBody, antiCollisionProg, Prog.run, run_bind, testedProg_run, executeBody]
  rcases (executeProg .transceive anticollFrame).run (regWrite .bitFraming 0x00#8 s) with ⟨_ | r, t⟩
  · rfl
  · simp only [Res.of, Prog.run, apply_ite, ite_run]; split_ifs
    · rfl
    · cases acceptedUid r.data <;> rfl

theorem selectTagBody_eq (uid : Bytes 4) (s : State) :
    selectTagBody uid s =
      bindRes (sendWithCrc (selectFrame (advance s).params uid) (advance s)) fun r s1 =>
        let blocks := if r.validBits = some 24 then r.data.headD 0#8 else 0#8
        .ok blocks (advance (((advance ((advance s1).setWork { s1.work with blocks := some blocks })).setUid
          (some uid)).setPState .selected)) := by
  simp only [selectTagBody, selectTagProg, Prog.run, orRaise_run, sendWithCrc]; rfl

theorem authenticateBody_eq (mode block : Byte) (key : Bytes 6) (uid : Bytes 4) (s : State) :
    authenticateBody mode block key uid s =
      match executeBody .authenticate (authFrame mode block key uid) (advance s) with
      | .err _ s1 => (.readFailure, teardown (advance s1))
      | .ok _ s1 =>
        let v := (regRead .status2 (advance s1)).1
        let s2 := (regRead .status2 (advance s1)).2
        let s3 := s2.setWork { s2.work with t := some v }
        if authFailed s3.params v then (.failure, teardown s3) else (.ok, advance ((advance s3).openSession block key)) := by
  simp only [authenticateBody, authenticateProg, Prog.run, run_bind, testedProg_run, executeBody]
  rcases (executeProg .authenticate (authFrame mode block key uid)).run (advance s) with ⟨_ | r, t⟩
  · simp only [Res.of, tornDown_run]
  · simp only [Prog.run, ite_run, tornDown_run]; rfl

theorem readBlockBody_eq (block : Byte) (s : State) :
    readBlockBody block s =
      match sendWithCrc (readFrameBytes block) (advance s) with
      | .err e s1 => .err e (teardown s1)
      | .ok r s1 =>
        if r.data.length = 16 then .ok r.data (advance (advance s1)) else .err .dataLengthError (teardown (advance s1)) := by
  simp only [readBlockBody, readBlockProg, Prog.run, run_bind, sendWithCrc]
  rcases (sendWithCrcProg (readFrameBytes block)).run (advance s) with ⟨_ | r, t⟩
  · simp only [Res.of, tornDown_run]
  · simp only [Res.of, Prog.run]; split_ifs
    · rfl
    · simp only [tornDown_run]

/-- A phase of `writeBlock`, run whole. -/
def writePhase (e : ErrKind) (f : List Byte) (s : State) : Res Unit := Res.of ((writePhaseProg e f).run s)

theorem writePhase_eq (e : ErrKind) (f : List Byte) (s : State) :
    writePhase e f s =
      match computeCrcBody f s with
      | .err _ s1 => .err e (teardown (advance s1))
      | .ok c s1 =>
        match executeBody .transceive (withCrc f c) (advance s1) with
        | .err _ s2 => .err e (teardown (advance s2))
        | .ok r s2 => if ackedBy r then .ok () (advance s2) else .err e (teardown (advance s2)) := by
  simp only [writePhase, writePhaseProg, run_bind, testedProg_run, computeCrcBody]
  rcases (computeCrcProg f).run s with ⟨_ | c, t⟩
  · simp only [Res.of, tornDown_run]
  · simp only [Res.of, run_bind, testedProg_run, executeBody]
    rcases (executeProg .transceive (withCrc f c)).run (advance t) with ⟨_ | r, u⟩
    · simp only [tornDown_run]
    · simp only []; split_ifs
      · rfl
      · simp only [tornDown_run]

theorem writeBlockBody_eq (block : Byte) (data : Bytes 16) (s : State) :
    writeBlockBody block data s =
      bindRes (writePhase .writeNotAuthorizedError (writeFrameBytes block) (advance s)) fun _ s1 =>
        bindRes (writePhase .writeFailedError data.val s1) fun _ s2 => .ok () (advance s2) := by
  simp only [writeBlockBody, writeBlockProg, Prog.run, orRaise_run, writePhase]; rfl

/-! ## The sequence of selectCard -/

/-- The steps of `selectCard` after its `wait`, run whole: `reset(); init(); request(); u <- antiCollision(); selectTag(u)`. -/
def selectCardRest (s : State) : Res Byte :=
  let w := State.setWork Work.empty
  bindRes (requestBody (w (initBody (w (resetBody (w s)))))) fun _ s1 =>
    bindRes (antiCollisionBody (w s1)) fun u s2 => selectTagBody u (w s2)

theorem stages_eq (s : State) : stages 5 .reset s = present .blocks (selectCardRest s) := by
  have hr : ∀ (p : Prog Unit) (s : State), (p.bind fun _ => .ret Result.done).run s = (.done, (p.run s).2) := fun p s => by
    rw [run_bind]; rfl
  have hx : ∀ {α : Type} (p : Prog (Except ErrKind α)) (f : α → Result) (s : State),
      (p.bind fun x => .ret (resultOf f x)).run s = (resultOf f (p.run s).1, (p.run s).2) := fun p f s => by
    rw [run_bind]; rfl
  have ho : ∀ {α : Type} (f : α → Result) (a : α), resultOf f (.ok a) = f a := fun _ _ => rfl
  simp only [stages, program, hr, hx, nextStage, resultErrKind, selectCardRest, requestBody, initBody, resetBody]
  rcases requestProg.run ((initProg.run ((resetProg.run (s.setWork Work.empty)).2.setWork Work.empty)).2.setWork Work.empty) with
    ⟨_ | a, t⟩
  · rfl
  · simp only [ho, Res.of, bindRes, antiCollisionBody, hx]
    rcases antiCollisionProg.run (t.setWork Work.empty) with ⟨_ | u, t'⟩
    · rfl
    · simp only [ho, Res.of, selectTagBody, hx]
      rcases (selectTagProg u).run (t'.setWork Work.empty) with ⟨_ | b, t''⟩ <;> rfl

end Sys2Proof.Safety
end

