-- ==== Sys2Proof/Laws/Acts.lean ====
section
/-! SUPPORT. Which registers of the engine a program writes between its transactions, and that a register it does not write
can be set before or after it. -/

namespace Sys2Proof.Safety

open Sys2Proof.Machine

variable {α β : Type} {P Q : Act → Prop}

/-- Every act of a program meets `P`. -/
def Acts (P : Act → Prop) : Prog α → Prop
  | .ret _ => True
  | .ask k => ∀ p, Acts P (k p)
  | .act a k => P a ∧ Acts P k
  | .line k => Acts P k
  | .write _ _ k => Acts P k
  | .read _ k => ∀ b, Acts P (k b)

/-- The act writes only PHASE, ITER and the working registers. -/
def Quiet : Act → Prop
  | .note _ | .back | .iter _ => True
  | .pstate _ | .uid _ | .cfg _ | .authd _ | .clearSession | .openSession _ _ => False

/-- The act does not write CFG. -/
def KeepsCfg : Act → Prop
  | .cfg _ => False
  | .note _ | .back | .iter _ | .pstate _ | .uid _ | .authd _ | .clearSession | .openSession _ _ => True

theorem Quiet.keepsCfg {a : Act} (h : Quiet a) : KeepsCfg a := by cases a <;> trivial

theorem Acts.mono (h : ∀ a, P a → Q a) {p : Prog α} (hp : Acts P p) : Acts Q p := by
  induction p with
  | ret a => trivial
  | ask k ih => exact fun p => ih p (hp p)
  | act a k ih => exact ⟨h a hp.1, ih hp.2⟩
  | line k ih => exact ih hp
  | write r v k ih => exact ih hp
  | read r k ih => exact fun b => ih b (hp b)

theorem acts_true (p : Prog α) : Acts (fun _ => True) p := by
  induction p with
  | ret a => trivial
  | ask k ih => exact ih
  | act a k ih => exact ⟨trivial, ih⟩
  | line k ih => exact ih
  | write r v k ih => exact ih
  | read r k ih => exact ih

theorem Acts.bind {p : Prog α} {f : α → Prog β} (hp : Acts P p) (hf : ∀ a, Acts P (f a)) : Acts P (p.bind f) := by
  induction p with
  | ret a => exact hf a
  | ask k ih => exact fun p => ih p (hp p)
  | act a k ih => exact ⟨hp.1, ih hp.2⟩
  | line k ih => exact ih hp
  | write r v k ih => exact ih hp
  | read r k ih => exact fun b => ih b (hp b)

theorem Acts.orRaise {p : Prog (Except ErrKind α)} {f : α → Prog (Except ErrKind β)} (hp : Acts P p)
    (hf : ∀ a, Acts P (f a)) : Acts P (p.orRaise f) :=
  hp.bind fun x => by cases x <;> [trivial; exact hf _]

theorem Acts.ite (c : Prop) [Decidable c] {p q : Prog α} (hp : Acts P p) (hq : Acts P q) : Acts P (if c then p else q) := by
  split_ifs <;> assumption

/-! ## The sub-operations are quiet -/

theorem writeFifoProg_quiet (l : List Byte) : Acts Quiet (writeFifoProg l) := by
  induction l with
  | nil => trivial
  | cons b l ih => exact ih

theorem writeAllProg_quiet (l : List (Reg × Byte)) : Acts Quiet (writeAllProg l) := by
  induction l with
  | nil => trivial
  | cons x l ih => exact ih

theorem drainFifoProg_quiet (rx : List Byte) (n : Nat) : Acts Quiet (drainFifoProg rx n) := by
  induction n generalizing rx with
  | zero => trivial
  | succ n ih => exact fun b => ⟨trivial, ih _⟩

theorem pollLoopProg_quiet (r : Reg) (mask : Byte) (n : Nat) : Acts Quiet (pollLoopProg r mask n) := by
  induction n with
  | zero => trivial
  | succ n ih => exact fun b => ⟨trivial, trivial, .ite _ trivial (.ite _ trivial ⟨trivial, ih⟩)⟩

theorem pollProg_quiet (r : Reg) (mask : Byte) (n : Nat) : Acts Quiet (pollProg r mask n) :=
  ⟨trivial, trivial, pollLoopProg_quiet r mask n⟩

theorem setBitsProg_quiet (r : Reg) (m : Byte) : Acts Quiet (setBitsProg r m) := fun _ => ⟨trivial, trivial⟩

theorem clearBitsProg_quiet (r : Reg) (m : Byte) : Acts Quiet (clearBitsProg r m) := fun _ => ⟨trivial, trivial⟩

theorem flushFifoProg_quiet : Acts Quiet flushFifoProg := fun _ => setBitsProg_quiet _ _

theorem writeCommandProg_quiet (c : ChipCommand) : Acts Quiet (writeCommandProg c) := fun _ => trivial

theorem executeProg_quiet (c : ChipCommand) (d : List Byte) : Acts Quiet (executeProg c d) := by
  have hs : Acts Quiet (executeStartProg c d) :=
    ⟨trivial, trivial, (clearBitsProg_quiet _ _).bind fun _ => flushFifoProg_quiet.bind fun _ =>
      (writeCommandProg_quiet _).bind fun _ => (writeFifoProg_quiet _).bind fun _ =>
      (writeCommandProg_quiet _).bind fun _ => by cases c <;> first | trivial | exact setBitsProg_quiet _ _⟩
  have hr : Acts Quiet receiveProg :=
    fun _ => ⟨trivial, fun _ => ⟨trivial, (drainFifoProg_quiet _ _).bind fun _ => trivial⟩⟩
  have he : Acts Quiet (executeResultProg c) :=
    fun _ => ⟨trivial, .ite _ ⟨trivial, trivial⟩ (by cases c <;> first | exact hr | exact ⟨trivial, trivial⟩)⟩
  exact hs.bind fun _ => (pollProg_quiet _ _ _).bind fun _ => (clearBitsProg_quiet _ _).bind fun _ =>
    .ite _ he ⟨trivial, trivial⟩

theorem computeCrcProg_quiet (d : List Byte) : Acts Quiet (computeCrcProg d) := by
  have hs : Acts Quiet (crcStartProg d) :=
    ⟨trivial, (clearBitsProg_quiet _ _).bind fun _ => flushFifoProg_quiet.bind fun _ =>
      (writeFifoProg_quiet _).bind fun _ => writeCommandProg_quiet _⟩
  exact hs.bind fun _ => (pollProg_quiet _ _ _).bind fun _ => fun _ =>
    .ite _ ⟨trivial, trivial⟩ fun _ => ⟨trivial, fun _ => ⟨trivial, trivial⟩⟩

theorem Acts.tested {p : Prog α} (hp : Acts P p) : Acts P (testedProg p) := hp.bind fun _ => trivial

theorem sendWithCrcProg_quiet (f : List Byte) : Acts Quiet (sendWithCrcProg f) :=
  (computeCrcProg_quiet f).tested.orRaise fun _ => (executeProg_quiet _ _).tested

/-! ## The card operations after init do not write CFG -/

theorem tornDown_keepsCfg (a : α) : Acts KeepsCfg (tornDown a) := by
  refine Acts.bind (fun p => .ite _ ?_ trivial) fun _ => trivial
  exact ((clearBitsProg_quiet _ _).mono fun _ => Quiet.keepsCfg).bind fun _ => ⟨trivial, trivial⟩

theorem stopCryptoProg_keepsCfg : Acts KeepsCfg stopCryptoProg :=
  ((clearBitsProg_quiet _ _).mono fun _ => Quiet.keepsCfg).bind fun _ => ⟨trivial, trivial⟩

theorem antiCollisionProg_keepsCfg : Acts KeepsCfg antiCollisionProg := by
  refine ((executeProg_quiet _ _).tested.mono fun _ => Quiet.keepsCfg).bind fun r => ?_
  rcases r with _ | x
  · exact ⟨trivial, trivial⟩
  · refine .ite _ ⟨trivial, trivial⟩ ?_
    show Acts KeepsCfg (match acceptedUid x.data with | none => _ | some u => _)
    cases acceptedUid x.data <;> [exact ⟨trivial, trivial⟩; exact ⟨trivial, trivial, trivial⟩]

theorem selectTagProg_keepsCfg (uid : Bytes 4) : Acts KeepsCfg (selectTagProg uid) :=
  fun _ => ((sendWithCrcProg_quiet _).mono fun _ => Quiet.keepsCfg).orRaise fun _ => ⟨trivial, trivial, trivial, trivial⟩

theorem authenticateProg_keepsCfg (mode block : Byte) (key : Bytes 6) (uid : Bytes 4) :
    Acts KeepsCfg (authenticateProg mode block key uid) := by
  refine ((executeProg_quiet _ _).tested.mono fun _ => Quiet.keepsCfg).bind fun r => ?_
  rcases r with _ | x
  · exact tornDown_keepsCfg _
  · exact fun _ => ⟨trivial, fun _ => .ite _ (tornDown_keepsCfg _) ⟨trivial, trivial⟩⟩

theorem readBlockProg_keepsCfg (block : Byte) : Acts KeepsCfg (readBlockProg block) := by
  refine ((sendWithCrcProg_quiet _).mono fun _ => Quiet.keepsCfg).bind fun r => ?_
  rcases r with _ | x
  · exact tornDown_keepsCfg _
  · exact .ite _ trivial (tornDown_keepsCfg _)

theorem writePhaseProg_keepsCfg (e : ErrKind) (f : List Byte) : Acts KeepsCfg (writePhaseProg e f) := by
  refine ((computeCrcProg_quiet _).tested.mono fun _ => Quiet.keepsCfg).bind fun c => ?_
  rcases c with _ | c
  · exact tornDown_keepsCfg _
  · refine ((executeProg_quiet _ _).tested.mono fun _ => Quiet.keepsCfg).bind fun r => ?_
    rcases r with _ | x
    · exact tornDown_keepsCfg _
    · exact .ite _ trivial (tornDown_keepsCfg _)

theorem writeBlockProg_keepsCfg (block : Byte) (data : Bytes 16) : Acts KeepsCfg (writeBlockProg block data) :=
  (writePhaseProg_keepsCfg _ _).orRaise fun _ => (writePhaseProg_keepsCfg _ _).orRaise fun _ => trivial

/-! ## A change of the state that a program does not see -/

/-- `f` changes nothing a step or an act that meets `P` reads or writes. -/
structure Aside (P : Act → Prop) (f : State → State) : Prop where
  params : ∀ s, (f s).params = s.params
  line : ∀ s, advance (f s) = f (advance s)
  write : ∀ r v s, regWrite r v (f s) = f (regWrite r v s)
  read : ∀ r s, regRead r (f s) = ((regRead r s).1, f (regRead r s).2)
  act : ∀ a s, P a → a.run (f s) = f (a.run s)

theorem setJob_aside (x : Option Job) : Aside (fun _ => True) (State.setJob x) where
  params _ := rfl
  line _ := rfl
  write _ _ _ := rfl
  read r s := by
    unfold regRead regReadAt chipAnswer; simp only [State.setJob_answers]; cases s.answers <;> rfl
  act a _ _ := by cases a <;> rfl

theorem setCfg_aside (x : Cfg) : Aside KeepsCfg (State.setCfg x) where
  params _ := rfl
  line _ := rfl
  write _ _ _ := rfl
  read r s := by
    unfold regRead regReadAt chipAnswer; simp only [State.setCfg_answers]; cases s.answers <;> rfl
  act a _ h := by cases a <;> first | exact h.elim | rfl

/-- A program run after such a change and before it. -/
theorem Aside.run {f : State → State} (hf : Aside P f) {p : Prog α} (hp : Acts P p) (s : State) :
    p.run (f s) = ((p.run s).1, f (p.run s).2) := by
  induction p generalizing s with
  | ret a => rfl
  | ask k ih => simp only [Prog.run, hf.params]; exact ih _ (hp _) s
  | act a k ih => simp only [Prog.run, hf.act a s hp.1]; exact ih hp.2 _
  | line k ih => simp only [Prog.run, hf.line]; exact ih hp _
  | write r v k ih => simp only [Prog.run, hf.write]; exact ih hp _
  | read r k ih => simp only [Prog.run, hf.read]; exact ih _ (hp _) _

end Sys2Proof.Safety
end

