-- ==== Sys2Proof/Laws/Ops.lean ====
section
/-! SUPPORT. What each shared operation over the bus can do, said once, as a run of rows
(`Safety.Runs`). -/

namespace Sys2Proof.Safety

open Sys2Proof.Machine

variable {s t u : State} {rows rows' : List Row}

theorem readValues_append (r r' : List Row) : readValues (r ++ r') = readValues r ++ readValues r' :=
  List.filterMap_append

theorem Scripted.nil (as : List Byte) : Scripted as [] := by simp [Scripted]

theorem Scripted.append {as vs ws : List Byte} (h : Scripted as vs) (h' : Scripted (as.drop vs.length) ws) :
    Scripted as (vs ++ ws) := by
  induction vs generalizing as with
  | nil => simpa using h'
  | cons v vs ih =>
    cases as with
    | nil => simp [Scripted]
    | cons a as =>
      simp only [Scripted, List.length_cons, List.take_succ_cons, List.cons.injEq] at h
      obtain ⟨rfl, h⟩ := h
      have := ih h (by simpa using h')
      simpa [Scripted] using this

theorem Runs.params (h : Runs s rows t) : t.params = s.params := by
  obtain ⟨_, _, _, _, _, -, -, rfl⟩ := h; rfl

theorem Runs.refl (s : State) : Runs s [] s :=
  ⟨[], s.freeIx, s.pc.phase, s.pc.iter, s.work, .nil, .nil _, by simp [readValues]⟩

theorem Runs.trans (h : Runs s rows t) (h' : Runs t rows' u) : Runs s (rows ++ rows') u := by
  obtain ⟨xs, _, _, _, _, hx, hs, rfl⟩ := h
  obtain ⟨ys, k, ph, it, w, hy, hs', rfl⟩ := h'
  refine ⟨xs ++ ys, k, ph, it, w, List.rel_append hx hy, ?_, ?_⟩
  · rw [readValues_append]; exact hs.append hs'
  · simp [readValues_append]

/-- A register of the engine written inside an operation. -/
theorem Runs.setWork (h : Runs s rows t) (w : Work) : Runs s rows (t.setWork w) := by
  obtain ⟨xs, k, ph, it, _, hx, hs, rfl⟩ := h
  exact ⟨xs, k, ph, it, w, hx, hs, rfl⟩

/-- PHASE or ITER written inside an operation. -/
theorem Runs.setPc (h : Runs s rows t) (ph it : Nat) : Runs s rows (t.setPc ⟨t.pc.op, ph, it⟩) := by
  obtain ⟨xs, k, _, _, w, hx, hs, rfl⟩ := h
  exact ⟨xs, k, ph, it, w, hx, hs, rfl⟩

/-- PHASE passed a line. -/
theorem Runs.advance (h : Runs s rows t) : Runs s rows (advance t) := h.setPc _ _

theorem regWrite_runs (r : Reg) (v : Byte) (s : State) : Runs s [.wr r v] (regWrite r v s) :=
  ⟨[⟨writeByte0 (s.params.regAddr r), v, Config.chipByte s.freeIx⟩], s.freeIx + 1, s.pc.phase + 1, s.pc.iter,
    s.work, .cons ⟨rfl, rfl⟩ .nil, .nil _, rfl⟩

theorem regRead_runs (r : Reg) (s : State) : Runs s [.rd r (regRead r s).1] (regRead r s).2 := by
  refine ⟨[⟨readByte0 (s.params.regAddr r), 0, (regRead r s).1⟩], (chipAnswer s).2.freeIx,
    s.pc.phase + 1, s.pc.iter, s.work, .cons ⟨rfl, rfl, rfl⟩ .nil, ?_, ?_⟩
  · cases h : s.answers <;> simp [Scripted, readValues, regRead, regReadAt, chipAnswer, h]
  · unfold regRead regReadAt chipAnswer busXfer
    cases h : s.answers <;> simp [readValues, State.setPc, State.setTrace, State.setFreeIx, State.setAnswers, h]

/-- SetBits is the two transactions of 20_memory R54. -/
theorem setBits_runs (r : Reg) (m : Byte) (s : State) :
    Runs s (setRows r m (regRead r s).1) (setBits r m s) :=
  ((regRead_runs r s).setWork _).trans (regWrite_runs r _ _)

/-- ClearBits is the two transactions of 20_memory R55. -/
theorem clearBits_runs (r : Reg) (m : Byte) (s : State) :
    Runs s (clearRows r m (regRead r s).1) (clearBits r m s) :=
  ((regRead_runs r s).setWork _).trans (regWrite_runs r _ _)

theorem writeFifo_runs (l : List Byte) (s : State) : Runs s (fifoRows l) (writeFifo l s) := by
  induction l generalizing s with
  | nil => exact .refl s
  | cons b bs ih => exact (regWrite_runs .fifoData b s).trans (ih _)

/-- A drain reads `n` bytes and appends them to those already drained. -/
theorem drainFifo_runs (rx : List Byte) (n : Nat) (s : State) :
    ∃ vs, (drainFifo rx n s).1 = rx ++ vs ∧ vs.length = n ∧ Runs s (vs.map (.rd .fifoData)) (drainFifo rx n s).2 := by
  induction n generalizing rx s with
  | zero => exact ⟨[], (List.append_nil rx).symm, rfl, .refl s⟩
  | succ n ih =>
    rw [drainFifo_succ]
    obtain ⟨vs, hv, hl, h⟩ := ih (rx ++ [(regRead .fifoData s).1]) ((regRead .fifoData s).2.setWork
      { (regRead .fifoData s).2.work with rx := some (rx ++ [(regRead .fifoData s).1]) })
    exact ⟨(regRead .fifoData s).1 :: vs, by simpa using hv, by simpa using hl,
      ((regRead_runs .fifoData s).setWork _).trans h⟩

theorem writeAll_runs (l : List (Reg × Byte)) (s : State) :
    Runs s (l.map fun x => .wr x.1 x.2) (writeAll l s) := by
  induction l generalizing s with
  | nil => exact .refl s
  | cons x xs ih => exact (regWrite_runs x.1 x.2 s).trans (ih _)

theorem anySet_eq_true {v m : Byte} : anySet v m = true ↔ v &&& m ≠ 0#8 := by simp [anySet]

theorem anySet_eq_false {v m : Byte} : anySet v m = false ↔ v &&& m = 0#8 := by simp [anySet]

theorem polled_runs (r : Reg) (mask : Byte) (s : State) : Runs s [.rd r (regRead r s).1] (polled r mask s) :=
  ((regRead_runs r s).setWork _).setPc _ _

/-- A poll loop reads once per iteration; if it answers true, the last read is the first to meet the stop condition, and if
false, it made all its reads and none met it. -/
theorem pollLoop_runs (r : Reg) (mask : Byte) (n : Nat) (s : State) :
    ∃ vs, Runs s (vs.map (.rd r)) (pollLoop r mask n s).2 ∧
      ((pollLoop r mask n s).1 = true → PollMatched mask n vs) ∧
      ((pollLoop r mask n s).1 = false → PollExhausted mask n vs) := by
  induction n generalizing s with
  | zero => exact ⟨[], .refl s, nofun, fun _ => ⟨rfl, nofun⟩⟩
  | succ n ih =>
    rw [pollLoop_succ]
    split_ifs with hm hn
    · exact ⟨[(regRead r s).1], polled_runs r mask s, fun _ => ⟨[], _, rfl, nofun, anySet_eq_true.1 hm, by simp⟩, nofun⟩
    · have hv := anySet_eq_false.1 (Bool.not_eq_true _ ▸ hm)
      exact ⟨[(regRead r s).1], polled_runs r mask s, nofun, fun _ => ⟨by simp [hn], by simpa using hv⟩⟩
    · have hv := anySet_eq_false.1 (Bool.not_eq_true _ ▸ hm)
      obtain ⟨vs, h, ht, hf⟩ := ih ((polled r mask s).setPc
        ⟨(polled r mask s).pc.op, (polled r mask s).pc.phase - 1, (polled r mask s).pc.iter⟩)
      refine ⟨(regRead r s).1 :: vs, ((polled_runs r mask s).setPc _ _).trans h, fun hp => ?_, fun hp => ?_⟩
      · obtain ⟨early, v, rfl, he, hv', hl⟩ := ht hp
        exact ⟨(regRead r s).1 :: early, v, rfl, by simpa using ⟨hv, he⟩, hv', by simp at hl ⊢; omega⟩
      · obtain ⟨hl, he⟩ := hf hp
        exact ⟨by simp [hl], by simpa using ⟨hv, he⟩⟩

theorem poll_runs (r : Reg) (mask : Byte) (n : Nat) (s : State) :
    ∃ vs, Runs s (vs.map (.rd r)) (poll r mask n s).2 ∧
      ((poll r mask n s).1 = true → PollMatched mask n vs) ∧
      ((poll r mask n s).1 = false → PollExhausted mask n vs) := by
  rw [poll_eq]
  obtain ⟨vs, h, ht, hf⟩ := pollLoop_runs r mask n
    ((s.setWork { s.work with matched := some false }).setPc ⟨s.pc.op, s.pc.phase + 1, 0⟩)
  exact ⟨vs, (((Runs.refl s).setWork _).setPc _ _).trans h, ht, hf⟩

/-- The outcome of an operation without the state. -/
def outcome {α : Type} : Res α → Except ErrKind α
  | .ok a _ => .ok a
  | .err e _ => .error e

end Sys2Proof.Safety
end

