-- ==== Sys2Proof/Laws/SubOps.lean ====
section
/-! SUPPORT. What the sub-operations can do, said once: `executeBody` is a run of 40_transceiver R90, `computeCrcBody` a run of
41_crc R105, `sendWithCrc` the two in sequence, and teardown the clearing of the crypto-on bit and of the session registers. -/

namespace Sys2Proof.Safety

open Sys2Proof.Machine

variable {s t : State} {rows : List Row}

/-! ## One more operation at the end of a run -/

theorem Runs.thenWrite (h : Runs s rows t) (r : Reg) (v : Byte) : Runs s (rows ++ [.wr r v]) (regWrite r v t) :=
  h.trans (regWrite_runs r v t)

theorem Runs.thenSet (h : Runs s rows t) (r : Reg) (m : Byte) : ∃ a, Runs s (rows ++ setRows r m a) (setBits r m t) :=
  ⟨_, h.trans (setBits_runs r m t)⟩

theorem Runs.thenClear (h : Runs s rows t) (r : Reg) (m : Byte) :
    ∃ a, Runs s (rows ++ clearRows r m a) (clearBits r m t) :=
  ⟨_, h.trans (clearBits_runs r m t)⟩

theorem Runs.thenFlush (h : Runs s rows t) :
    ∃ a, Runs s (rows ++ setRows s.params.fifoFlushReg s.params.fifoFlushBit a) (flushFifo t) := by
  rw [← h.params]; exact h.thenSet _ _

theorem Runs.thenCommand (h : Runs s rows t) (c : ChipCommand) :
    Runs s (rows ++ [.wr .command (s.params.cmdCode c)]) (writeCommand c t) := by
  rw [← h.params]; exact h.thenWrite _ _

theorem Runs.thenFifo (h : Runs s rows t) (l : List Byte) : Runs s (rows ++ fifoRows l) (writeFifo l t) :=
  h.trans (writeFifo_runs l t)

theorem Runs.thenRead (h : Runs s rows t) (r : Reg) : Runs s (rows ++ [.rd r (regRead r t).1]) (regRead r t).2 :=
  h.trans (regRead_runs r t)

/-! ## execute -/

theorem executeStart_runs (c : ChipCommand) (d : List Byte) (s : State) :
    ∃ a1 a2 a3, Runs s (executeStartRows s.params c d a1 a2 a3) (executeStart c d s) := by
  have h0 := (Runs.refl s).advance.setWork { s.work with tx := some d, en := some (masks c).1, wt := some (masks c).2 }
  obtain ⟨a1, h2⟩ := (h0.thenWrite .comIEn (comIEnValue c)).thenClear .comIrq masterBit
  obtain ⟨a2, h3⟩ := h2.thenFlush
  have h6 := (((h3.thenCommand .idle).thenFifo d).thenCommand c).advance
  cases c
  case transceive =>
    obtain ⟨a3, h7⟩ := h6.thenSet .bitFraming startSendBit
    exact ⟨a1, a2, a3, by simpa [executeStartRows, executeStart_eq, comIEnValue, masterBit, startSendBit] using h7⟩
  all_goals exact ⟨a1, a2, 0, by simpa [executeStartRows, executeStart_eq, comIEnValue, masterBit] using h6⟩

theorem lastBitsOf_eq_zero (c : Byte) : lastBitsOf c = 0#3 ↔ c &&& 0x07#8 = 0#8 := by
  simp only [lastBitsOf]
  revert c; decide

theorem lastBitsOf_toNat (c : Byte) : (lastBitsOf c).toNat = (c &&& 0x07#8).toNat := by
  simp only [lastBitsOf]
  revert c; decide

theorem receivedCount_eq (v : Byte) : receivedCount v = min (max v.toNat 1) 16 := by
  simp only [receivedCount, clamp]; split_ifs <;> omega

/-- The lines of `execute` after a poll that matched, as the end of a run of R90. -/
theorem executeResult_runs {c : ChipCommand} {d vs : List Byte} {a1 a2 a3 a4 : Byte} {u : State}
    (h : Runs s (executePolledRows s.params c d a1 a2 a3 vs a4) u)
    (hv : PollMatched ((masks c).2 ||| 0x01#8) 2000 vs) :
    ∃ rows, ExecuteRun s.params c d vs rows (outcome (executeResult c u)) ∧ Runs s rows (executeResult c u).state := by
  have h1 := (h.thenRead .error).setWork { (regRead .error u).2.work with errv := some (regRead .error u).1 }
  rw [executeResult_eq]
  revert h1
  generalize (regRead .error u).2.setWork { (regRead .error u).2.work with errv := some (regRead .error u).1 } = u0
  intro h1
  cases he : anySet (regRead .error u).1 errMask with
  | true => exact ⟨_, .protocol a1 a2 a3 a4 _ vs hv (anySet_eq_true.1 he), h1.setWork _⟩
  | false =>
    have he' := anySet_eq_false.1 he
    by_cases hc : c = .transceive
    · subst hc
      simp only [Bool.false_eq_true, if_false, if_true, receive_eq]
      replace h1 := h1.advance
      revert h1
      generalize advance u0 = u1
      intro h1
      have h2 := (h1.thenRead .fifoLevel).setWork
        { (regRead .fifoLevel u1).2.work with n := some (receivedCount (regRead .fifoLevel u1).1) }
      revert h2
      generalize (regRead .fifoLevel u1).2.setWork _ = u2
      intro h2
      have h3 := (h2.thenRead .control).setWork
        { (regRead .control u2).2.work with
          lastBits := some (lastBitsOf (regRead .control u2).1)
          vbits := some (validBitsOf (receivedCount (regRead .fifoLevel u1).1) (lastBitsOf (regRead .control u2).1)) }
      revert h3
      generalize (regRead .control u2).2.setWork _ = u3
      intro h3
      obtain ⟨data, hdata, hl, hd⟩ := drainFifo_runs [] (receivedCount (regRead .fifoLevel u1).1) u3
      rw [List.nil_append] at hdata
      have hr := ExecuteRun.received (p := s.params) (outData := d) a1 a2 a3 a4 _ (regRead .fifoLevel u1).1
        (regRead .control u2).1 vs data rfl hv he' (hl.trans (receivedCount_eq _))
      simp only [hl, ← lastBitsOf_eq_zero, ← lastBitsOf_toNat] at hr
      exact ⟨_, by rw [hdata]; exact hr, by simpa [Res.state] using (h3.trans hd).advance⟩
    · simp only [Bool.false_eq_true, if_false, hc]
      exact ⟨_, .other a1 a2 a3 a4 _ vs hc hv he', h1.advance.advance.setWork _⟩

/-- `execute` is a run of R90: it answers a value or an error, and between its first and last transaction nothing but the
bus, the position and the working registers changes. -/
theorem executeBody_runs (c : ChipCommand) (d : List Byte) (s : State) :
    ∃ vs rows, ExecuteRun s.params c d vs rows (outcome (executeBody c d s)) ∧ Runs s rows (executeBody c d s).state := by
  obtain ⟨a1, a2, a3, hs⟩ := executeStart_runs c d s
  obtain ⟨vs, hp, ht, hf⟩ := poll_runs .comIrq (stopMask c) Config.pollBoundTrx (executeStart c d s)
  obtain ⟨a4, h⟩ := (hs.trans hp).thenClear .bitFraming startSendBit
  simp only [executeBody_eq]
  cases hm : (poll .comIrq (stopMask c) Config.pollBoundTrx (executeStart c d s)).1 with
  | false => exact ⟨vs, _, .timeout a1 a2 a3 a4 vs (hf hm), h.advance.setWork _⟩
  | true =>
    obtain ⟨rows, hr⟩ := executeResult_runs h.advance (ht hm)
    exact ⟨vs, rows, hr⟩

/-! ## computeCrc and the frames with a CRC -/

theorem tested_outcome {α : Type} (r : Res α) : outcome (tested r) = outcome r := by cases r <;> rfl

theorem tested_runs {α : Type} {r : Res α} (h : Runs s rows r.state) : Runs s rows (tested r).state := by
  cases r <;> exact Runs.advance h

/-- `computeCrc` is a run of 41_crc R105. -/
theorem computeCrcBody_runs (d : List Byte) (s : State) :
    ∃ vs rows, CrcRun s.params d vs rows (outcome (computeCrcBody d s)) ∧ Runs s rows (computeCrcBody d s).state := by
  have h0 := (Runs.refl s).setWork { s.work with tx := some d }
  obtain ⟨a1, h1⟩ := h0.thenClear .divIrq crcReadyBit
  obtain ⟨a2, h2⟩ := h1.thenFlush
  have h3 := (h2.thenFifo d).thenCommand .calcCrc
  rw [← crcStart_eq] at h3
  obtain ⟨vs, hp, ht, hf⟩ := poll_runs .divIrq crcReadyBit Config.pollBoundCrc (crcStart d s)
  have h4 : Runs s (crcPolledRows s.params d a1 a2 vs) (poll .divIrq crcReadyBit Config.pollBoundCrc (crcStart d s)).2 := by
    simpa [crcPolledRows, crcReadyBit] using h3.trans hp
  replace h4 := h4.advance
  have hpar := h4.params
  rw [computeCrcBody_eq]
  revert h4 hpar ht hf
  generalize poll .divIrq crcReadyBit Config.pollBoundCrc (crcStart d s) = q
  obtain ⟨b, u⟩ := q
  simp only []
  generalize advance u = u
  intro ht hf h4 hpar
  have hres (hv : PollMatched 0x04#8 255 vs ∨ (PollExhausted 0x04#8 255 vs ∧ s.params.crcTimeoutMode = .stale)) :
      ∃ rows, CrcRun s.params d vs rows (outcome (crcResult u)) ∧ Runs s rows (crcResult u).state :=
    ⟨_, .result a1 a2 _ _ vs hv, by
      have h5 := ((h4.thenRead .crcResultL).setWork { (regRead .crcResultL u).2.work with
        crcRes0 := some (regRead .crcResultL u).1 }).thenRead .crcResultH
      rw [List.append_assoc] at h5; exact (h5.setWork _).advance⟩
  cases b with
  | true =>
    obtain ⟨rows, hr⟩ := hres (.inl (ht rfl))
    exact ⟨vs, rows, hr⟩
  | false =>
    cases hmode : s.params.crcTimeoutMode with
    | typed => exact ⟨vs, _, by simpa [hpar, hmode, outcome] using CrcRun.timeout a1 a2 vs (hf rfl) hmode,
        by simpa [hpar, hmode, Res.state] using h4.setWork _⟩
    | stale =>
      obtain ⟨rows, hr, hs⟩ := hres (.inr ⟨hf rfl, hmode⟩)
      exact ⟨vs, rows, by simpa [hpar, hmode] using hr, by simpa [hpar, hmode] using hs⟩

/-- A frame sent with its CRC is the trace of `computeCrc` and then that of `execute` (42_card_session R128). -/
theorem sendWithCrc_runs (f : List Byte) (s : State) :
    ∃ rows, SentWithCrc s.params f rows (outcome (sendWithCrc f s)) ∧ Runs s rows (sendWithCrc f s).state := by
  obtain ⟨vs, rows, hr, hs⟩ := computeCrcBody_runs f s
  rw [sendWithCrc_eq]
  cases hc : computeCrcBody f s with
  | err e u =>
    rw [hc] at hr hs
    have hs : Runs s rows u := hs
    exact ⟨rows, .crcFailed vs rows e hr, hs.advance⟩
  | ok c u =>
    rw [hc] at hr hs
    have hs : Runs s rows u := hs
    replace hs := hs.advance
    obtain ⟨vs', rows', hr', hs'⟩ := executeBody_runs .transceive (withCrc f c) (advance u)
    rw [hs.params] at hr'
    have h := SentWithCrc.sent vs vs' rows rows' c.1 c.2 _ hr hr'
    rw [← tested_outcome] at h
    exact ⟨rows ++ rows', h, hs.trans (tested_runs hs')⟩

/-! ## Teardown -/

/-- `stopCrypto`'s body: the crypto-on bit cleared on the bus, then the session registers cleared. -/
theorem stopCryptoBody_runs (s : State) :
    ∃ a u, Runs s (clearRows .status2 0x08#8 a) u ∧ stopCryptoBody s = u.clearSession :=
  ⟨_, advance (clearBits .status2 cryptoOnBit s), (clearBits_runs .status2 cryptoOnBit s).advance, rfl⟩

/-- Teardown: as `stopCrypto` with AUTO_TEARDOWN, nothing without. -/
theorem teardown_runs (s : State) :
    ∃ a u, Runs s (teardownRows s.params a) u ∧ teardown s = (if s.params.autoTeardown then u.clearSession else u) := by
  simp only [teardown_eq, teardownRows]
  cases s.params.autoTeardown with
  | true => exact stopCryptoBody_runs s
  | false => exact ⟨0, s, .refl s, rfl⟩

end Sys2Proof.Safety
end

