-- ==== Sys2Proof/Laws/Boundary.lean ====
section
/-! SUPPORT. The boundary of an operation: when an instruction is admitted, what a row run alone answers, and what a run
followed by `finish` leaves. -/

namespace Sys2Proof.Safety

open Sys2Proof.Machine

variable {i : Instr} {s u : State} {rows : List Row}

theorem accept_idle (h : s.pc.op = none) (hw : i.wf s.params = true) (body : Out) : accept i s body = body := by
  simp [accept, h, hw]

theorem accept_busy (h : s.pc.op ≠ none) (body : Out) : accept i s body = .refused .busy := by
  cases hp : s.pc.op with
  | none => exact absurd hp h
  | some o => simp [accept, hp]

theorem accept_malformed (h : s.pc.op = none) (hw : i.wf s.params = false) (body : Out) :
    accept i s body = .refused .malformed := by
  simp [accept, h, hw]

/-- An instruction that answers a next state was admitted: the engine was idle and its operands were well formed. -/
theorem accept_next {body : Out} {t : State} (h : accept i s body = .next t) :
    s.pc.op = none ∧ i.wf s.params = true ∧ body = .next t := by
  unfold accept at h
  split_ifs at h with h1 h2
  exact ⟨by simpa using h1, h2, h⟩

/-- A precondition holds, is refused, or meets a SECTOR with no value; whichever, it is a matter of the instruction and the
state alone. -/
theorem precondition_cases (i : Instr) (s : State) :
    (∀ body, precondition i s body = body) ∨ (∃ op, ∀ body, precondition i s body = .refused (.precondition op)) ∨
      (∀ body, precondition i s body = .fault (.noValue .sector)) ∧ s.pstate = .authenticated ∧ s.sector = none ∧
        ((∃ b, i = .readBlock b) ∨ ∃ b d, i = .writeBlock b d) := by
  have hr : ∀ (op : HostOp) (c : Bool),
      (∀ body, require op c body = body) ∨ ∀ body, require op c body = .refused (.precondition op) := by
    intro op c; cases c
    · exact .inr fun _ => rfl
    · exact .inl fun _ => rfl
  have hs : ∀ (op : HostOp) (b : Byte), (∀ body, inSector op b s body = body) ∨
      (∀ body, inSector op b s body = .refused (.precondition op)) ∨
      (∀ body, inSector op b s body = .fault (.noValue .sector)) ∧ s.pstate = .authenticated ∧ s.sector = none := by
    intro op b
    simp only [inSector]
    by_cases hp : s.pstate = .authenticated
    · cases hk : s.sector with
      | none => exact .inr (.inr ⟨fun _ => by simp [hp], hp, rfl⟩)
      | some k =>
        by_cases hb : k = sectorOf b
        · exact .inl fun _ => by simp [hp, hb]
        · exact .inr (.inl fun _ => by simp [hp, hb])
    · exact .inr (.inl fun _ => by simp [hp])
  cases i
  case init => exact (hr .init (s.cfg == .needsInit)).imp id fun h => .inl ⟨_, h⟩
  case request => exact (hr .request (s.pstate == .idle && s.cfg == .ready)).imp id fun h => .inl ⟨_, h⟩
  case antiCollision => exact (hr .antiCollision (s.pstate == .requested)).imp id fun h => .inl ⟨_, h⟩
  case selectTag => exact (hr .selectTag (s.pstate == .identified)).imp id fun h => .inl ⟨_, h⟩
  case authenticate => exact (hr .authenticate (s.pstate == .selected)).imp id fun h => .inl ⟨_, h⟩
  case readBlock b => exact (hs .readBlock b).imp id (.imp (fun h => ⟨_, h⟩) fun h => ⟨h.1, h.2.1, h.2.2, .inl ⟨_, rfl⟩⟩)
  case writeBlock b d => exact (hs .writeBlock b).imp id (.imp (fun h => ⟨_, h⟩) fun h => ⟨h.1, h.2.1, h.2.2, .inr ⟨_, _, rfl⟩⟩)
  all_goals exact .inl fun _ => rfl

/-- An instruction admitted answers its body. -/
theorem precondition_next {body : Out} {t : State} (h : precondition i s body = .next t) :
    body = .next t ∧ ∀ body', precondition i s body' = body' := by
  rcases precondition_cases i s with hp | ⟨op, hp⟩ | ⟨hp, -⟩
  · exact ⟨(hp body).symm.trans h, hp⟩
  · rw [hp] at h; cases h
  · rw [hp] at h; cases h

theorem admitted_next {body : Out} {t : State} (h : admitted i s body = .next t) :
    s.pc.op = none ∧ i.wf s.params = true ∧ body = .next t := by
  obtain ⟨h1, h2, h3⟩ := accept_next h
  exact ⟨h1, h2, (precondition_next h3).1⟩

/-- An instruction that is admitted with one body is admitted with any. -/
theorem admitted_any {body : Out} {t : State} (h : admitted i s body = .next t) (body' : Out) : admitted i s body' = body' := by
  obtain ⟨h1, h2, h3⟩ := accept_next h
  rw [admitted, accept_idle h1 h2, (precondition_next h3).2]

/-- An instruction is admitted, refused or faulted on, whatever its body. -/
theorem admitted_cases (i : Instr) (s : State) :
    (∀ body, admitted i s body = body) ∨ (∃ r, ∀ body, admitted i s body = .refused r) ∨
      (∀ body, admitted i s body = .fault (.noValue .sector)) ∧ s.pc.op = none ∧ s.pstate = .authenticated ∧ s.sector = none ∧
        ((∃ b, i = .readBlock b) ∨ ∃ b d, i = .writeBlock b d) := by
  by_cases h : s.pc.op = none
  · cases hw : i.wf s.params with
    | false => exact .inr (.inl ⟨.malformed, fun _ => accept_malformed h hw _⟩)
    | true =>
      rcases precondition_cases i s with hp | ⟨op, hp⟩ | ⟨hp, h'⟩
      · exact .inl fun _ => (accept_idle h hw _).trans (hp _)
      · exact .inr (.inl ⟨_, fun _ => (accept_idle h hw _).trans (hp _)⟩)
      · exact .inr (.inr ⟨fun _ => (accept_idle h hw _).trans (hp _), h, h'⟩)
  · exact .inr (.inl ⟨.busy, fun _ => accept_busy h _⟩)

/-- Every meaning admits its instruction first; with well-formed operands it is not refused as malformed. -/
theorem exec_accept (i : Instr) (s : State) :
    ∃ body, exec i s = accept i s body ∧ (i.wf s.params = true → body ≠ .refused .malformed) := by
  have ha : ∀ t : State, precondition i s (.next t) ≠ .refused .malformed := fun t => by
    rcases precondition_cases i s with hp | ⟨op, hp⟩ | ⟨hp, -⟩ <;> rw [hp] <;> nofun
  cases i
  case decode l =>
    refine ⟨_, rfl, fun hw => ?_⟩
    simp only [Instr.wf, Bool.or_eq_true, decide_eq_true_eq] at hw
    rcases l with _ | ⟨x0, _ | ⟨x1, _ | ⟨x2, _ | ⟨x3, _ | ⟨x4, l⟩⟩⟩⟩⟩ <;> simp at hw <;>
      simp [presentDecoded, decodeAccessBytes]
  case access b =>
    obtain ⟨l, hl⟩ := b
    refine ⟨_, rfl, fun hw => ?_⟩
    rcases l with _ | ⟨x0, _ | ⟨x1, _ | ⟨x2, _ | ⟨x3, _ | ⟨x4, l⟩⟩⟩⟩⟩ <;> simp at hl
    simp [presentDecoded, decodeAccessBytes]
  all_goals
    exact ⟨_, rfl, fun _ => ha _⟩

theorem writeRow_idle (h : s.pc.op = none) (hw : i.wf s.params = true) (a : RegAddr) (v : Byte) :
    writeRow i a v s = .next (finish .done (regWriteAt a v s)) := accept_idle h hw _

theorem readRow_idle (h : s.pc.op = none) (hw : i.wf s.params = true) (a : RegAddr) :
    readRow i a s = .next (finish (.regValue (regReadAt a s).1) (regReadAt a s).2) := accept_idle h hw _

theorem commandRow_idle (h : s.pc.op = none) (hw : i.wf s.params = true) (c : ChipCommand) :
    commandRow i c s = .next (finish .done (writeCommand c s)) := accept_idle h hw _

theorem frameRow_idle (h : s.pc.op = none) (hw : i.wf s.params = true) (l : List Byte) :
    frameRow i l s = .next (finish .done (writeFifo l s)) := accept_idle h hw _

theorem framedRow_idle (h : s.pc.op = none) (hw : i.wf s.params = true) (v : Byte) (l : List Byte) :
    framedRow i v l s = .next (finish .done (writeFifo l (regWrite .bitFraming v s))) := accept_idle h hw _

theorem errorRow_idle (h : s.pc.op = none) (hw : i.wf s.params = true) (e : ErrKind) :
    errorRow i e s = .next (raiseError e s) := accept_idle h hw _

/-! The named operations as one record update each: rewrite with these before comparing states. -/

theorem finish_eq (r : Result) (s : State) :
    finish r s = { s with pc := Pc.idle, work := Work.empty, job := none, result := some r } := rfl

theorem begin_eq (op : HostOp) (s : State) :
    begin op s = { s with pc := ⟨some op, 0, 0⟩, work := Work.empty, job := none, result := none } := rfl

theorem regWriteAt_eq (a : RegAddr) (v : Byte) (s : State) :
    regWriteAt a v s = { s with
      pc := ⟨s.pc.op, s.pc.phase + 1, s.pc.iter⟩
      trace := s.trace ++ [⟨writeByte0 a, v, Config.chipByte s.freeIx⟩]
      freeIx := s.freeIx + 1 } := rfl

theorem chipAnswer_state_eq (s : State) :
    (chipAnswer s).2 = { s with answers := (chipAnswer s).2.answers, freeIx := (chipAnswer s).2.freeIx } := by
  unfold chipAnswer; cases s.answers <;> rfl

theorem regReadAt_state_eq (a : RegAddr) (s : State) :
    (regReadAt a s).2 = { s with
      pc := ⟨s.pc.op, s.pc.phase + 1, s.pc.iter⟩
      trace := s.trace ++ [⟨readByte0 a, 0x00#8, (chipAnswer s).1⟩]
      answers := (chipAnswer s).2.answers
      freeIx := (chipAnswer s).2.freeIx } := by
  unfold regReadAt; rw [chipAnswer_state_eq]; rfl

/-- A read takes the next scripted answer. -/
theorem chipAnswer_scripted {a : Byte} {rest : List Byte} (h : s.answers = a :: rest) :
    chipAnswer s = (a, s.setAnswers rest) := by
  simp [chipAnswer, h]

/-- A run from an idle engine, ended with a result. -/
theorem Runs.ended (h : Runs s rows u) (r : Result) : EndsWith s r rows (finish r u) := by
  obtain ⟨xs, k, _, _, _, hx, hs, rfl⟩ := h
  exact ⟨xs, hx, hs, k, finish_eq _ _⟩

/-- A run of an operation, ended with a result. -/
theorem Runs.ended_begin {op : HostOp} (h : Runs (begin op s) rows u) (r : Result) : EndsWith s r rows (finish r u) := by
  obtain ⟨xs, k, _, _, _, hx, hs, rfl⟩ := h
  rw [begin_eq] at hx hs
  exact ⟨xs, hx, hs, k, by rw [finish_eq, begin_eq]⟩

end Sys2Proof.Safety
end

