-- ==== Sys2Proof/Laws/Parallel.lean ====
section
/-! SUPPORT. What a program depends on, said once. A program whose acts are quiet makes the same transactions and gives the
same value in two states with the same parameters and the same answers to come, whatever their other registers hold, and
leaves those as they were; and every program does so in two states that differ in UID, KEY and AUTHD alone. -/

namespace Sys2Proof.Safety

open Sys2Proof.Machine

/-- The two states have the same parameters and the same answers to come. -/
def Agree (s s' : State) : Prop := s.params = s'.params ∧ s.answers = s'.answers ∧ s.freeIx = s'.freeIx

/-- From `s` to `t` and from `s'` to `t'` the same transactions were made and the same answers used, and nothing but the
position and the working registers changed besides. -/
def Par (s s' t t' : State) : Prop :=
  ∃ xs as k ph it w ph' it' w',
    t = { s with trace := s.trace ++ xs, answers := as, freeIx := k, pc := ⟨s.pc.op, ph, it⟩, work := w } ∧
    t' = { s' with trace := s'.trace ++ xs, answers := as, freeIx := k, pc := ⟨s'.pc.op, ph', it'⟩, work := w' }

variable {s s' t t' u u' : State}

theorem Par.agree (h : Par s s' t t') (ha : Agree s s') : Agree t t' := by
  obtain ⟨xs, as, k, _, _, _, _, _, _, rfl, rfl⟩ := h
  exact ⟨ha.1, rfl, rfl⟩

theorem Par.refl (ha : Agree s s') : Par s s' s s' :=
  ⟨[], s.answers, s.freeIx, s.pc.phase, s.pc.iter, s.work, s'.pc.phase, s'.pc.iter, s'.work, by simp,
    by rw [ha.2.1, ha.2.2]; simp⟩

theorem Par.trans (h : Par s s' t t') (h' : Par t t' u u') : Par s s' u u' := by
  obtain ⟨xs, _, _, _, _, _, _, _, _, rfl, rfl⟩ := h
  obtain ⟨ys, as, k, ph, it, w, ph', it', w', rfl, rfl⟩ := h'
  exact ⟨xs ++ ys, as, k, ph, it, w, ph', it', w', by simp, by simp⟩

theorem Par.setWork (h : Par s s' t t') (w w' : Work) : Par s s' (t.setWork w) (t'.setWork w') := by
  obtain ⟨xs, as, k, ph, it, _, ph', it', _, rfl, rfl⟩ := h
  exact ⟨xs, as, k, ph, it, w, ph', it', w', rfl, rfl⟩

theorem Par.setPc (h : Par s s' t t') (ph it ph' it' : Nat) :
    Par s s' (t.setPc ⟨t.pc.op, ph, it⟩) (t'.setPc ⟨t'.pc.op, ph', it'⟩) := by
  obtain ⟨xs, as, k, _, _, w, _, _, w', rfl, rfl⟩ := h
  exact ⟨xs, as, k, ph, it, w, ph', it', w', rfl, rfl⟩

theorem regWrite_par (r : Reg) (v : Byte) (ha : Agree s s') : Par s s' (regWrite r v s) (regWrite r v s') := by
  refine ⟨[⟨writeByte0 (s.params.regAddr r), v, Config.chipByte s.freeIx⟩], s.answers, s.freeIx + 1, s.pc.phase + 1,
    s.pc.iter, s.work, s'.pc.phase + 1, s'.pc.iter, s'.work, rfl, ?_⟩
  rw [ha.1, ha.2.1, ha.2.2]; rfl

theorem regRead_par (r : Reg) (ha : Agree s s') :
    (regRead r s).1 = (regRead r s').1 ∧ Par s s' (regRead r s).2 (regRead r s').2 := by
  have h1 : (chipAnswer s).1 = (chipAnswer s').1 := by
    unfold chipAnswer; rw [← ha.2.1, ← ha.2.2]; cases s.answers <;> rfl
  have h2 : (chipAnswer s).2.answers = (chipAnswer s').2.answers := by
    unfold chipAnswer; rw [← ha.2.1, ← ha.2.2]; cases h : s.answers <;> simp [← ha.2.1, h]
  have h3 : (chipAnswer s).2.freeIx = (chipAnswer s').2.freeIx := by
    unfold chipAnswer; rw [← ha.2.1, ← ha.2.2]; cases s.answers <;> simp [← ha.2.2]
  refine ⟨h1, ?_⟩
  simp only [regRead]
  have hp : s'.params.regAddr r = s.params.regAddr r := by rw [ha.1]
  rw [regReadAt_state_eq, regReadAt_state_eq, ← h1, ← h2, ← h3, hp]
  exact ⟨_, _, _, _, _, _, _, _, _, rfl, rfl⟩

/-- A program with quiet acts, in two states with the same parameters and answers. -/
theorem run_par {α : Type} {p : Prog α} (hp : Acts Quiet p) (h : Par s s' t t') (ha : Agree s s') :
    (p.run t).1 = (p.run t').1 ∧ Par s s' (p.run t).2 (p.run t').2 := by
  induction p generalizing t t' with
  | ret a => exact ⟨rfl, h⟩
  | ask k ih => simp only [Prog.run, ← (h.agree ha).1]; exact ih _ (hp _) h
  | act a k ih =>
    refine ih hp.2 ?_
    cases a <;> first | exact hp.1.elim | exact h.setWork _ _ | exact h.setPc _ _ _ _
  | line k ih => exact ih hp (h.setPc _ _ _ _)
  | write r v k ih => exact ih hp (h.trans (regWrite_par r v (h.agree ha)))
  | read r k ih =>
    obtain ⟨e, h'⟩ := regRead_par r (h.agree ha)
    simp only [Prog.run, ← e]; exact ih _ (hp _) (h.trans h')

/-- The two states differ in UID, KEY and AUTHD alone. -/
def Blind (s s' : State) : Prop := ∃ u k a, s' = { s with uid := u, key := k, authd := a }

/-- No program reads UID, KEY or AUTHD. -/
theorem run_blind {α : Type} (p : Prog α) (h : Blind s s') : (p.run s).1 = (p.run s').1 ∧ Blind (p.run s).2 (p.run s').2 := by
  induction p generalizing s s' with
  | ret a => exact ⟨rfl, h⟩
  | ask k ih => obtain ⟨u, x, a, rfl⟩ := h; exact ih _ ⟨u, x, a, rfl⟩
  | act b k ih => obtain ⟨u, x, a, rfl⟩ := h; exact ih (by cases b <;> exact ⟨_, _, _, rfl⟩)
  | line k ih => obtain ⟨u, x, a, rfl⟩ := h; exact ih ⟨u, x, a, rfl⟩
  | write r v k ih => obtain ⟨u, x, a, rfl⟩ := h; exact ih ⟨u, x, a, rfl⟩
  | read r k ih =>
    obtain ⟨u, x, a, rfl⟩ := h
    have hr : regRead r { s with uid := u, key := x, authd := a } =
        ((regRead r s).1, { (regRead r s).2 with uid := u, key := x, authd := a }) := by
      obtain ⟨_, _, _, _, _, _, _, _, _, _, _, _, _, _, _, _, _, _, answers, _, _⟩ := s
      cases answers <;> rfl
    simp only [Prog.run, hr]; exact ih _ ⟨u, x, a, rfl⟩

end Sys2Proof.Safety
end

