-- ==== Sys2Proof/Laws/Session.lean ====
section
/-! SUPPORT. CardSession: ending a run with a write of session registers, teardown at the end of a run, and the tests the
operations make of what they received. -/

namespace Sys2Proof.Safety

open Sys2Proof.Machine

variable {s s' u : State} {rows : List Row} {op : HostOp}

/-- A run of an operation, a write `f` of session registers, and the end: what is left is the end of `s'`, when `f` makes the
state of the run over `s` into one over `s'`. -/
theorem Runs.ended_update (h : Runs (begin op s) rows u) (r : Result) (f : State → State)
    (hf : ∀ xs as k ph it w,
      f { (begin op s) with trace := s.trace ++ xs, answers := as, freeIx := k, pc := ⟨some op, ph, it⟩, work := w } =
        { s' with
          trace := s.trace ++ xs, answers := as, freeIx := k, pc := ⟨some op, ph, it⟩, work := w, result := none,
          job := none })
    (hp : s'.params = s.params) (ha : s'.answers = s.answers) (ht : s'.trace = s.trace) :
    EndsWith s' r rows (finish r (f u)) := by
  obtain ⟨xs, k, ph, it, w, hx, hs, rfl⟩ := h
  refine ⟨xs, by rw [hp]; exact hx, by rw [ha]; exact hs, k, ?_⟩
  have := hf xs (s.answers.drop (readValues rows).length) k ph it w
  simp only [begin_eq] at this ⊢
  rw [this, finish_eq, ha, ht]

/-- A run of an operation, teardown, and the end. -/
theorem Runs.ended_teardown (h : Runs (begin op s) rows u) (r : Result) :
    ∃ a, EndsWith (torn s) r (rows ++ teardownRows s.params a) (finish r (teardown u)) := by
  obtain ⟨a, v, hv, ht⟩ := teardown_runs u
  have hp : u.params = s.params := h.params
  rw [hp] at hv ht
  refine ⟨a, ?_⟩
  rw [ht, torn]
  split
  · exact (h.trans hv).ended_update r (fun u => u.clearSession) (by intros; rfl) rfl rfl rfl
  · exact (h.trans hv).ended_begin r

theorem authFailed_iff (p : Params) (a : Byte) : authFailed p a = true ↔ AuthRejected p a := by
  unfold AuthRejected authFailed anySet
  cases p.authOkSense <;> simp [cryptoOnBit]

theorem sectorOf_eq (b : Byte) : sectorOf b = BitVec.ofNat 6 (b.toNat / 4) := by
  simp only [sectorOf, ← BitVec.toNat_inj, BitVec.extractLsb'_toNat, Nat.shiftRight_eq_div_pow, BitVec.toNat_ofNat]

theorem acceptedUid_some (a b c d : Byte) :
    acceptedUid [a, b, c, d, a ^^^ b ^^^ c ^^^ d] = some ⟨[a, b, c, d], rfl⟩ := by
  simp [acceptedUid, xorBytes]

theorem acceptedUid_none {l : List Byte} (h : ¬ ∃ a b c d, l = [a, b, c, d, a ^^^ b ^^^ c ^^^ d]) :
    acceptedUid l = none := by
  unfold acceptedUid
  split
  next a b c d x =>
    split
    next hx => subst hx; exact absurd ⟨a, b, c, d, by simp [xorBytes]⟩ h
    next => rfl
  next => rfl

end Sys2Proof.Safety
end

