-- ==== Sys2Proof/Laws/Wait.lean ====
section
/-! SUPPORT. CardPresenceWait line by line: what a turn of the sequencer does at each PHASE, and how a wait runs through the
moves of the outside. -/

namespace Sys2Proof.Safety

open Sys2Proof.Machine

variable {s t : State} {rest : List Input}

/-! ## A wait in progress -/

theorem inWait_op (h : inWait s = true) : s.pc.op ≠ none := by
  intro hn; simp [inWait, hn] at h

theorem inWait_congr (h : t.pc.op = s.pc.op) (h' : t.job = s.job) : inWait t = inWait s := by
  simp [inWait, h, h']

theorem turn_wait (h : inWait s = true) : turn s = seqStep s := by simp [turn, h]

theorem turn_other (h : inWait s = false) : turn s = tickJob s := by simp [turn, h]

theorem applyMove_go (h : inWait s = true) : applyMove .go s = seqStep s := by
  simp [applyMove, Option.isSome_iff_ne_none, inWait_op h, turn_wait h]

/-- Line 1 of a wait as one record update. -/
theorem waitBegin_eq (op : HostOp) (s : State) :
    waitBegin op s = { s with
      pc := ⟨some op, 1, 0⟩, work := Work.empty, job := none, result := none, watch := true, signal := false } := by
  rw [waitBegin, begin_eq]; rfl

/-! ## The lines -/

/-- The register write of a line of a wait, by PHASE; line 1, the wait point and lines 9 and 10 have none. -/
def lineWrite (p : Params) (phase : Nat) : Option (Reg × Byte) :=
  match p.waitPrologue[phase - 1]? with
  | some x => some x
  | none =>
    match phase - armPhase p with
    | 0 => some (.fifoData, 0x26#8)
    | 1 => some (.command, 0x0C#8)
    | 2 => some (.bitFraming, 0x87#8)
    | 3 => none
    | k + 4 => p.waitEpilogue[k]?

theorem seqStep_write {r : Reg} {v : Byte} (h : lineWrite s.params s.pc.phase = some (r, v)) :
    seqStep s = regWrite r v s := by
  unfold lineWrite at h
  unfold seqStep
  split at h
  next x hx => cases h; rw [hx]
  next hx =>
    rw [hx]
    split at h
    next hk => cases h; simp only [hk]
    next hk => cases h; simp only [hk]
    next hk => cases h; simp only [hk]
    next hk => cases h
    next k hk => simp only [hk, h]

theorem seqStep_point (h : s.pc.phase = waitPhase s.params) : seqStep s = takeSignal s := by
  have h1 : s.params.waitPrologue[s.pc.phase - 1]? = none := by simp [h, waitPhase, armPhase]
  have h2 : s.pc.phase - armPhase s.params = 3 := by simp [h, waitPhase]
  unfold seqStep; rw [h1]; simp only [h2]

theorem seqStep_deregister (h : s.pc.phase = deregisterPhase s.params) : seqStep s = deregister s := by
  have h1 : s.params.waitPrologue[s.pc.phase - 1]? = none := by simp [h, deregisterPhase, waitPhase, armPhase]; omega
  have h2 : s.pc.phase - armPhase s.params = s.params.waitEpilogue.length + 4 := by
    simp [h, deregisterPhase, waitPhase]; omega
  unfold seqStep; rw [h1]; simp only [h2]; simp

theorem seqStep_last (h : s.pc.phase = deregisterPhase s.params + 1) : seqStep s = endWait s := by
  have h1 : s.params.waitPrologue[s.pc.phase - 1]? = none := by simp [h, deregisterPhase, waitPhase, armPhase]; omega
  have h2 : s.pc.phase - armPhase s.params = s.params.waitEpilogue.length + 1 + 4 := by
    simp [h, deregisterPhase, waitPhase]; omega
  unfold seqStep; rw [h1]; simp only [h2]; simp

theorem lineWrite_prologue (p : Params) (k : Nat) (h : k < p.waitPrologue.length) :
    lineWrite p (1 + k) = p.waitPrologue[k]? := by
  unfold lineWrite; rw [Nat.add_sub_cancel_left, List.getElem?_eq_getElem h]

/-- The three arming writes. -/
def armWrites : List (Reg × Byte) := [(.fifoData, 0x26#8), (.command, 0x0C#8), (.bitFraming, 0x87#8)]

theorem lineWrite_arm (p : Params) (k : Nat) (h : k < 3) : lineWrite p (armPhase p + k) = armWrites[k]? := by
  unfold lineWrite
  rw [List.getElem?_eq_none (by simp [armPhase]), Nat.add_sub_cancel_left]
  rcases k with _ | _ | _ | k <;> first | rfl | omega

theorem lineWrite_epilogue (p : Params) (k : Nat) : lineWrite p (waitPhase p + 1 + k) = p.waitEpilogue[k]? := by
  unfold lineWrite
  rw [List.getElem?_eq_none (by simp [armPhase, waitPhase]; omega)]
  have : waitPhase p + 1 + k - armPhase p = k + 4 := by simp [waitPhase]; omega
  simp only [this]

/-- From PHASE 1 the first lines of a wait are its prologue and the arming. -/
theorem lineWrite_start (p : Params) (k : Nat) (h : k < (p.waitPrologue ++ armWrites).length) :
    lineWrite p (1 + k) = (p.waitPrologue ++ armWrites)[k]? := by
  by_cases hk : k < p.waitPrologue.length
  · rw [lineWrite_prologue p k hk, List.getElem?_append_left hk]
  · have h3 : k - p.waitPrologue.length < 3 := by simp [armWrites] at h; omega
    rw [List.getElem?_append_right (by omega), ← lineWrite_arm p _ h3]
    congr 1; simp only [armPhase]; omega

/-! ## What register writes in order leave of the fields a wait looks at -/

theorem writeAll_fields (l : List (Reg × Byte)) (s : State) :
    (writeAll l s).pc.phase = s.pc.phase + l.length ∧ (writeAll l s).pc.op = s.pc.op ∧
      (writeAll l s).params = s.params ∧ (writeAll l s).signal = s.signal ∧ (writeAll l s).inputs = s.inputs ∧
      (writeAll l s).answers = s.answers ∧ (writeAll l s).work = s.work ∧ (writeAll l s).job = s.job ∧
      (writeAll l s).watch = s.watch := by
  induction l generalizing s with
  | nil => exact ⟨rfl, rfl, rfl, rfl, rfl, rfl, rfl, rfl, rfl⟩
  | cons x l ih =>
    obtain ⟨a, b⟩ := ih (regWrite x.1 x.2 s)
    refine ⟨?_, b⟩
    rw [writeAll_cons, a]; show s.pc.phase + 1 + _ = _; simp; omega

theorem writeAll_inWait (l : List (Reg × Byte)) (s : State) : inWait (writeAll l s) = inWait s :=
  inWait_congr (writeAll_fields l s).2.1 (writeAll_fields l s).2.2.2.2.2.2.2.1

theorem writeAll_append (l l' : List (Reg × Byte)) (s : State) : writeAll (l ++ l') s = writeAll l' (writeAll l s) := by
  induction l generalizing s with
  | nil => rfl
  | cons x l ih => exact ih _

/-! ## Runs through moves -/

theorem waitRun_move {m : Move} (h : (applyMove m s).pc.op ≠ none) :
    waitRun (.move m :: rest) s = waitRun rest (applyMove m s) := by
  rw [waitRun]; cases hp : (applyMove m s).pc.op with
  | none => exact absurd hp h
  | some o => rfl

theorem waitRun_last {m : Move} (h : (applyMove m s).pc.op = none) :
    waitRun (.move m :: rest) s = (applyMove m s).setInputs rest := by
  rw [waitRun, h]; rfl

theorem turns_add (a b : Nat) : turns (a + b) = turns a ++ turns b := by simp [turns, List.replicate_append_replicate]

/-- Turns of the sequencer over lines that are register writes. -/
theorem waitRun_writes (l : List (Reg × Byte)) (hw : inWait s = true)
    (hl : ∀ k, k < l.length → lineWrite s.params (s.pc.phase + k) = l[k]?) :
    waitRun (turns l.length ++ rest) s = waitRun rest (writeAll l s) := by
  induction l generalizing s with
  | nil => rfl
  | cons x l ih =>
    have h0 : seqStep s = regWrite x.1 x.2 s := seqStep_write (by simpa using hl 0 (by simp))
    have h1 : applyMove .go s = regWrite x.1 x.2 s := (applyMove_go hw).trans h0
    have hw' : inWait (regWrite x.1 x.2 s) = true := hw
    rw [List.length_cons, turns, List.replicate_succ, List.cons_append, waitRun_move (by rw [h1]; exact inWait_op hw'), h1]
    refine ih hw' fun k hk => ?_
    have := hl (k + 1) (by simpa using hk)
    rw [List.getElem?_cons_succ] at this
    rw [← this]
    show lineWrite s.params (s.pc.phase + 1 + k) = _
    congr 1; omega

/-- Lines 4 to 6. -/
theorem waitRun_arm (s : State) (rest : List Input) (hw : inWait s = true) (hp : s.pc.phase = armPhase s.params) :
    waitRun (turns 3 ++ rest) s = waitRun rest (writeAll armWrites s) := by
  refine waitRun_writes armWrites hw fun k hk => ?_
  rw [hp, lineWrite_arm _ _ (by simpa [armWrites] using hk)]

/-- The state a timeout at the wait point leaves. -/
def rearmed (s : State) : State := s.setPc { s.pc with phase := armPhase s.params }

theorem waitRun_timeout (hw : inWait s = true) (hp : s.pc.phase = waitPhase s.params) (hs : s.signal = false) :
    waitRun (.move .timeout :: rest) s = waitRun rest (rearmed s) := by
  have hat : atWaitPoint s = true := by simp [atWaitPoint, hw, hp]
  have h1 : applyMove .timeout s = rearmed s := by simp [applyMove, hat, hs, rearmed]
  have hw1 : inWait (rearmed s) = true := hw
  rw [waitRun_move (by rw [h1]; exact inWait_op hw1), h1]

/-- From the first line of a wait to the wait point, past `n` timeouts. -/
theorem waitRun_armed (s : State) (n : Nat) (rest : List Input) (hw : inWait s = true)
    (hp : s.pc.phase = 1) (hs : s.signal = false) :
    ∃ u, waitRun (armedMoves s.params n ++ rest) s = waitRun rest u ∧ Runs s (armedRows s.params n) u ∧
      u.pc.phase = waitPhase s.params ∧ u.work = s.work ∧ inWait u = true ∧ u.signal = false ∧ u.watch = s.watch := by
  induction n generalizing rest with
  | zero =>
    obtain ⟨a, b, c, d, e, f, g, i, j⟩ := writeAll_fields (s.params.waitPrologue ++ armWrites) s
    refine ⟨writeAll (s.params.waitPrologue ++ armWrites) s, ?_, ?_, ?_, g, by rw [writeAll_inWait, hw], by rw [d, hs], j⟩
    · have h := waitRun_writes (rest := rest) (s.params.waitPrologue ++ armWrites) hw
        (fun k hk => by rw [hp]; exact lineWrite_start _ _ hk)
      simpa [armedMoves, armWrites] using h
    · simpa [armedRows, writeRowsOf, armWrites, armRows] using writeAll_runs (s.params.waitPrologue ++ armWrites) s
    · rw [a, hp]; simp [waitPhase, armPhase, armWrites]; omega
  | succ n ih =>
    obtain ⟨u, hu, hr, hq, hk, hw', hs', ht⟩ := ih (.move .timeout :: (turns 3 ++ rest))
    have hpar := hr.params
    obtain ⟨a, b, c, d, e, f, g, i, j⟩ := writeAll_fields armWrites (rearmed u)
    refine ⟨writeAll armWrites (rearmed u), ?_, ?_, ?_, by rw [g]; exact hk, by rw [writeAll_inWait]; exact hw',
      by rw [d]; exact hs', by rw [j]; exact ht⟩
    · rw [armedMoves, List.replicate_succ', List.flatten_append, ← List.append_assoc]
      rw [armedMoves] at hu
      simp only [List.flatten_singleton, List.append_assoc, List.cons_append] at hu ⊢
      rw [hu, waitRun_timeout hw' (by rw [hq, hpar]) hs', waitRun_arm (rearmed u) _ hw' rfl]
    · have h1 : Runs u (armRows) (writeAll armWrites (rearmed u)) :=
        ((Runs.refl u).setPc _ _).trans (writeAll_runs armWrites _)
      have := hr.trans h1
      simpa [armedRows, List.replicate_succ'] using this
    · rw [a]; show armPhase u.params + 3 = _; rw [hpar]; rfl

/-- The end of a wait from the end of its loop: the epilogue, line 9 and line 10. -/
def exited (s : State) : State := endWait (deregister (writeAll s.params.waitEpilogue s))

/-- From the end of the loop of a wait to its end. -/
theorem waitRun_exits (s : State) (rest : List Input) (hw : inWait s = true) (hp : s.pc.phase = waitPhase s.params + 1)
    (hn : (exited s).pc.op = none) : waitRun (exitMoves s.params ++ rest) s = (exited s).setInputs rest := by
  obtain ⟨a, b, c, -⟩ := writeAll_fields s.params.waitEpilogue s
  rw [exitMoves, turns_add, List.append_assoc, waitRun_writes _ hw (fun k hk => by rw [hp]; exact lineWrite_epilogue _ _)]
  have hw1 : inWait (writeAll s.params.waitEpilogue s) = true := (writeAll_inWait _ _).trans hw
  have hph : (writeAll s.params.waitEpilogue s).pc.phase = deregisterPhase (writeAll s.params.waitEpilogue s).params := by
    rw [a, hp, c, deregisterPhase]; omega
  have h1 : applyMove .go (writeAll s.params.waitEpilogue s) = deregister (writeAll s.params.waitEpilogue s) := by
    rw [applyMove_go hw1]; exact seqStep_deregister hph
  have hw2 : inWait (deregister (writeAll s.params.waitEpilogue s)) = true := hw1
  have h2 : applyMove .go (deregister (writeAll s.params.waitEpilogue s)) = exited s := by
    rw [applyMove_go hw2]; exact seqStep_last (congrArg (· + 1) hph)
  show waitRun (.move .go :: .move .go :: rest) _ = _
  rw [waitRun_move (by rw [h1]; exact inWait_op hw2), h1, waitRun_last (by rw [h2]; exact hn), h2]

/-! ## A falling edge -/

/-- A falling edge sampled while the watch is registered. -/
def edged (s : State) : State := { s with signal := true, irqPrev := false, irqIn := false }

/-- The four moves of a falling edge, one after the other. -/
theorem edge_applied (ht : s.watch = true) :
    agentStep ((agentStep (s.setIrqIn true)).setIrqIn false) = edged s := by
  simp [agentStep, edged, State.setSignal, State.setIrqPrev, State.setIrqIn, ht]

theorem waitRun_edge (hw : inWait s = true) (ht : s.watch = true) :
    waitRun (edgeMoves ++ rest) s = waitRun rest (edged s) := by
  have hn := inWait_op hw
  have h1 : waitRun (edgeMoves ++ rest) s = waitRun (.move .sample :: .move (.line false) :: .move .sample :: rest)
      (s.setIrqIn true) := waitRun_move (m := .line true) hn
  have h2 : ∀ l : List Input, waitRun (.move .sample :: l) (s.setIrqIn true) = waitRun l (agentStep (s.setIrqIn true)) :=
    fun l => waitRun_move (m := .sample) hn
  have h3 : ∀ l : List Input, waitRun (.move (.line false) :: l) (agentStep (s.setIrqIn true)) =
      waitRun l ((agentStep (s.setIrqIn true)).setIrqIn false) := fun l => waitRun_move (m := .line false) hn
  have h4 : ∀ l : List Input, waitRun (.move .sample :: l) ((agentStep (s.setIrqIn true)).setIrqIn false) =
      waitRun l (agentStep ((agentStep (s.setIrqIn true)).setIrqIn false)) := fun l => waitRun_move (m := .sample) hn
  rw [h1, h2, h3, h4, edge_applied ht]

theorem writeAll_edged (l : List (Reg × Byte)) (s : State) : writeAll l (edged s) = edged (writeAll l s) := by
  induction l generalizing s with
  | nil => rfl
  | cons x l ih => exact ih (regWrite x.1 x.2 s)

/-- An edge sampled `j` lines before the end of a run of register writes is kept until their end. -/
theorem waitRun_writes_edge (l : List (Reg × Byte)) (j : Nat) (hj : j ≤ l.length) (hw : inWait s = true)
    (ht : s.watch = true) (hl : ∀ k, k < l.length → lineWrite s.params (s.pc.phase + k) = l[k]?) :
    waitRun (turns (l.length - j) ++ edgeMoves ++ turns j ++ rest) s = waitRun rest (edged (writeAll l s)) := by
  have h1 : (l.take (l.length - j)).length = l.length - j := by simp
  have h2 : (l.drop (l.length - j)).length = j := by simp; omega
  obtain ⟨a, b, c, d, e, f, g, i, k'⟩ := writeAll_fields (l.take (l.length - j)) s
  have e1 := waitRun_writes (s := s) (rest := edgeMoves ++ turns j ++ rest) (l.take (l.length - j)) hw (fun k hk => by
    rw [h1] at hk; rw [hl k (by omega), List.getElem?_take_of_lt hk])
  have hw' : inWait (writeAll (l.take (l.length - j)) s) = true := (writeAll_inWait _ _).trans hw
  have e2 := waitRun_writes (s := edged (writeAll (l.take (l.length - j)) s)) (rest := rest) (l.drop (l.length - j)) hw'
    (fun k hk => by
      show lineWrite (writeAll _ s).params ((writeAll _ s).pc.phase + k) = _
      rw [c, a, h1, Nat.add_assoc, hl _ (by rw [h2] at hk; omega), List.getElem?_drop])
  rw [h1] at e1
  rw [h2] at e2
  simp only [List.append_assoc] at e1 ⊢
  rw [e1, waitRun_edge hw' (by rw [k']; exact ht), e2, writeAll_edged, ← writeAll_append, List.take_append_drop]

/-- From the first line of a wait to the wait point, past `n` timeouts, an edge being sampled `j` turns before: the signal
is "seen at the wait point that follows" (44_presence_wait R156). -/
theorem waitRun_armed_edge (s : State) (n j : Nat) (A rest : List Input) (hA : A ++ turns j = armedMoves s.params n)
    (hw : inWait s = true) (ht : s.watch = true) (hp : s.pc.phase = 1) (hs : s.signal = false) :
    ∃ u, waitRun (A ++ edgeMoves ++ turns j ++ rest) s = waitRun rest (edged u) ∧ Runs s (armedRows s.params n) u ∧
      u.pc.phase = waitPhase s.params ∧ u.work = s.work ∧ inWait u = true := by
  have hsplit : ∀ (B : List Input) (m : Nat), (∀ x ∈ B.getLast?, x = .move .timeout) → A ++ turns j = B ++ turns m →
      j ≤ m ∧ A = B ++ turns (m - j) := by
    intro B m hB h
    have hjm : j ≤ m := by
      by_contra hlt
      have h1 := congrArg (fun l => (l.reverse)[m]?) h
      have hBl : B ≠ [] := by
        rintro rfl
        have := congrArg List.length h; simp [turns] at this; omega
      obtain ⟨b, hb⟩ := Option.isSome_iff_exists.1 (List.getLast?_isSome.2 hBl)
      have hb' := hB b (by simp [hb])
      simp only [List.reverse_append] at h1
      rw [List.getElem?_append_left (by simp [turns]; omega), List.getElem?_append_right (by simp [turns])] at h1
      simp only [turns, List.reverse_replicate, List.length_replicate, Nat.sub_self] at h1
      rw [List.getElem?_replicate_of_lt (by omega), ← List.head?_eq_getElem?, List.head?_reverse, hb, hb'] at h1
      cases h1
    refine ⟨hjm, ?_⟩
    have : A ++ turns j = B ++ turns (m - j) ++ turns j := by
      rw [h, List.append_assoc, ← turns_add, Nat.sub_add_cancel hjm]
    exact List.append_cancel_right this
  cases n with
  | zero =>
    obtain ⟨hj, rfl⟩ := hsplit [] (s.params.waitPrologue.length + 3) (by simp) (by simpa [armedMoves] using hA)
    obtain ⟨a, b, c, d, e, f, g, i, k⟩ := writeAll_fields (s.params.waitPrologue ++ armWrites) s
    refine ⟨writeAll (s.params.waitPrologue ++ armWrites) s, ?_, ?_, ?_, g, by rw [writeAll_inWait, hw]⟩
    · have h := waitRun_writes_edge (rest := rest) (s.params.waitPrologue ++ armWrites) j
        (by simpa [armWrites] using hj) hw ht (fun k hk => by rw [hp]; exact lineWrite_start _ _ hk)
      simpa [armWrites] using h
    · simpa [armedRows, writeRowsOf, armWrites, armRows] using writeAll_runs (s.params.waitPrologue ++ armWrites) s
    · rw [a, hp]; simp [waitPhase, armPhase, armWrites]; omega
  | succ n =>
    obtain ⟨hj, rfl⟩ := hsplit (armedMoves s.params n ++ [.move .timeout]) 3 (by simp)
      (by rw [hA]; simp [armedMoves, List.replicate_succ'])
    obtain ⟨u, hu, hr, hq, hk, hw', hs', ht'⟩ := waitRun_armed s n
      (.move .timeout :: (turns (3 - j) ++ edgeMoves ++ turns j ++ rest)) hw hp hs
    have hpar := hr.params
    obtain ⟨a, b, c, d, e, f, g, i, k⟩ := writeAll_fields armWrites (rearmed u)
    refine ⟨writeAll armWrites (rearmed u), ?_, ?_, ?_, by rw [g]; exact hk, by rw [writeAll_inWait]; exact hw'⟩
    · simp only [List.append_assoc, List.cons_append, List.nil_append] at hu ⊢
      rw [hu, waitRun_timeout hw' (by rw [hq, hpar]) hs']
      have h := waitRun_writes_edge (s := rearmed u) (rest := rest) armWrites j hj hw' (ht'.trans ht) (fun k hk => by
        show lineWrite u.params (armPhase u.params + k) = _
        rw [lineWrite_arm _ _ hk])
      simpa [armWrites] using h
    · have h1 : Runs u (armRows) (writeAll armWrites (rearmed u)) :=
        ((Runs.refl u).setPc _ _).trans (writeAll_runs armWrites _)
      have := hr.trans h1
      simpa [armedRows, List.replicate_succ'] using this
    · rw [a]; show armPhase u.params + 3 = _; rw [hpar]; rfl

end Sys2Proof.Safety
end

