-- ==== Sys2Proof/Laws/Trace.lean ====
section
/-! SUPPORT. What every operation and every move does to the bus trace, said once: it appends transactions on named registers
and leaves the parameters and the reset line alone. -/

namespace Sys2Proof.Safety

open Sys2Proof.Machine

/-- From `s` to `t` the trace grew by the rows of a transcript, and the parameters and RST_OUT did not change. -/
def Grows (s t : State) : Prop :=
  t.params = s.params ∧ t.rstOut = s.rstOut ∧ ∃ rows xs, Shows s.params rows xs ∧ t.trace = s.trace ++ xs

variable {s t u : State} {rows : List Row}

theorem Grows.refl (s : State) : Grows s s := ⟨rfl, rfl, [], [], .nil, by simp⟩

theorem Grows.trans (h : Grows s t) (h' : Grows t u) : Grows s u := by
  obtain ⟨p, q, r, x, hs, ht⟩ := h
  obtain ⟨p', q', r', x', hs', ht'⟩ := h'
  exact ⟨p'.trans p, q'.trans q, r ++ r', x ++ x', List.rel_append hs (p ▸ hs'), by rw [ht', ht, List.append_assoc]⟩

/-- A change of fields other than the trace, the parameters and RST_OUT. -/
theorem Grows.quiet (h : Grows s t) (hp : u.params = t.params) (hr : u.rstOut = t.rstOut) (ht : u.trace = t.trace) :
    Grows s u := by
  obtain ⟨p, q, r, x, hs, e⟩ := h
  exact ⟨hp.trans p, hr.trans q, r, x, hs, ht.trans e⟩

theorem Runs.grows (h : Runs s rows t) : Grows s t := by
  obtain ⟨xs, _, _, _, _, hx, -, rfl⟩ := h
  exact ⟨rfl, rfl, rows, xs, hx, rfl⟩

theorem regWrite_grows (r : Reg) (v : Byte) (s : State) : Grows s (regWrite r v s) := (regWrite_runs r v s).grows

theorem finish_grows (r : Result) (s : State) : Grows s (finish r s) := (Grows.refl s).quiet rfl rfl rfl

theorem begin_grows (op : HostOp) (s : State) : Grows s (begin op s) := (Grows.refl s).quiet rfl rfl rfl

theorem present_grows {α : Type} (f : α → Result) (r : Res α) : Grows r.state (present f r) := by
  cases r <;> exact finish_grows _ _

/-! ## Programs -/

theorem advance_grows (s : State) : Grows s (advance s) := (Grows.refl s).quiet rfl rfl rfl

theorem act_grows (a : Act) (s : State) : Grows s (a.run s) := by cases a <;> exact (Grows.refl s).quiet rfl rfl rfl

/-- A program run whole. -/
theorem run_grows {α : Type} (p : Prog α) (s : State) : Grows s (p.run s).2 := by
  induction p generalizing s with
  | ret a => exact .refl s
  | ask k ih => exact ih _ s
  | act a k ih => exact (act_grows a s).trans (ih _)
  | line k ih => exact (advance_grows s).trans (ih _)
  | write r v k ih => exact (regWrite_grows r v s).trans (ih _)
  | read r k ih => exact (regRead_runs r s).grows.trans (ih _ _)

theorem flow_grows {α : Type} (p : Prog α) (s : State) : Grows s (p.flow s).2 := by
  induction p generalizing s with
  | ret a => exact .refl s
  | ask k ih => exact ih _ s
  | act a k ih => exact (act_grows a s).trans (ih _)
  | line k ih => exact .refl s
  | write r v k ih => exact .refl s
  | read r k ih => exact .refl s

/-- One step of a program. -/
theorem tick_grows {α : Type} (p : Prog α) (s : State) : Grows s (p.tick s).2 := by
  induction p generalizing s with
  | ret a => exact .refl s
  | ask k ih => exact ih _ s
  | act a k ih => exact (act_grows a s).trans (ih _)
  | line k ih => exact ((advance_grows s).quiet (u := (advance s).take none) rfl rfl rfl).trans (flow_grows k _)
  | write r v k ih => exact ((regWrite_grows r v s).quiet rfl rfl rfl).trans (flow_grows k _)
  | read r k ih => exact ((regRead_runs r s).grows.quiet rfl rfl rfl).trans (flow_grows (k _) _)

theorem res_state_of {α : Type} (x : Except ErrKind α × State) : (Res.of x).state = x.2 := by
  obtain ⟨_ | _, _⟩ := x <;> rfl

theorem res_grows {α : Type} (p : Prog (Except ErrKind α)) (s : State) : Grows s (Res.of (p.run s)).state := by
  rw [res_state_of]; exact run_grows p s

theorem stages_grows (n : Nat) (i : Instr) (s : State) : Grows s (stages n i s) := by
  induction n generalizing i s with
  | zero => exact .refl s
  | succ n ih =>
    rw [stages]
    split
    next op p h =>
      have h0 : Grows s (p.run (s.setWork Work.empty)).2 :=
        ((Grows.refl s).quiet (u := s.setWork Work.empty) rfl rfl rfl).trans (run_grows p _)
      simp only []
      split
      · exact h0.trans (ih _ _)
      · exact h0.trans (finish_grows _ _)
    next => exact .refl s

/-! ## The sequencer -/

theorem startStage_grows (i : Instr) (s : State) : Grows s (startStage i s) := by
  rw [startStage]
  split
  next op p _ =>
    have h : Grows s (p.flow ((s.setWork Work.empty).setJob (some ⟨i, []⟩))).2 :=
      ((Grows.refl s).quiet (u := (s.setWork Work.empty).setJob (some ⟨i, []⟩)) rfl rfl rfl).trans (flow_grows p _)
    split <;> rename_i e <;> rw [e] at h
    · exact h.trans (finish_grows _ _)
    · exact h
  next => exact .refl s

theorem conclude_grows (r : Result) (s : State) : Grows s (conclude r s) := by
  rw [conclude]
  split
  · split
    · exact startStage_grows _ s
    · exact finish_grows r s
  · exact finish_grows r s

theorem reached_grows (x : Option Result × State) : Grows x.2 (reached x) := by
  obtain ⟨_ | r, t⟩ := x
  · exact .refl t
  · exact conclude_grows r t

theorem beginProgram_grows (op : HostOp) (i : Instr) (p : Prog Result) (s : State) : Grows s (beginProgram op i p s) :=
  (((begin_grows op s).quiet (u := (begin op s).setJob (some ⟨i, []⟩)) rfl rfl rfl).trans (tick_grows p _)).trans
    (reached_grows _)

theorem tickJob_grows (s : State) : Grows s (tickJob s) := by
  rw [tickJob]
  split
  · split
    · exact (tick_grows _ s).trans (reached_grows _)
    · exact .refl s
  · exact .refl s

/-! ## The wait -/

theorem endWait_grows (s : State) : Grows s (endWait s) := by
  simp only [endWait]
  split_ifs
  · exact finish_grows _ _
  · split
    · exact (advance_grows s).trans (startStage_grows _ _)
    · exact (advance_grows s).trans (stages_grows _ _ _)
  · exact finish_grows _ _

theorem deregister_grows (s : State) : Grows s (deregister s) := (Grows.refl s).quiet rfl rfl rfl

theorem leaveLoop_grows (o : WaitOut) (s : State) : Grows s (leaveLoop o s) := (Grows.refl s).quiet rfl rfl rfl

theorem takeSignal_grows (s : State) : Grows s (takeSignal s) := by
  simp only [takeSignal]
  split
  · exact (Grows.refl s).quiet rfl rfl rfl
  · exact .refl s

theorem seqStep_grows (s : State) : Grows s (seqStep s) := by
  simp only [seqStep]
  repeat' split
  all_goals
    first
    | exact regWrite_grows _ _ _
    | exact takeSignal_grows s
    | exact deregister_grows s
    | exact endWait_grows s

theorem turn_grows (s : State) : Grows s (turn s) := by
  rw [turn]
  split
  · exact seqStep_grows s
  · exact tickJob_grows s

theorem applyMove_grows (m : Move) (s : State) : Grows s (applyMove m s) := by
  cases m <;> simp only [applyMove]
  case go => split <;> [exact turn_grows s; exact .refl s]
  case timeout => split <;> [exact (Grows.refl s).quiet rfl rfl rfl; exact .refl s]
  case abandon => split <;> [exact leaveLoop_grows _ s; exact .refl s]
  all_goals exact (Grows.refl s).quiet rfl rfl rfl

theorem settle_grows (n : Nat) (s : State) : Grows s (settle n s) := by
  induction n generalizing s with
  | zero => exact .refl s
  | succ n ih =>
    rw [settle]
    split
    · exact .refl s
    · exact (seqStep_grows s).trans (ih _)

theorem waitRun_grows (l : List Input) (s : State) : Grows s (waitRun l s) := by
  induction l generalizing s with
  | nil => exact ((Grows.refl s).quiet (u := s.setInputs []) rfl rfl rfl).trans (settle_grows _ _)
  | cons x l ih =>
    cases x with
    | move m =>
      rw [waitRun]
      split
      · exact (applyMove_grows m s).quiet rfl rfl rfl
      · exact (applyMove_grows m s).trans (ih _)
    | request b =>
      exact ((Grows.refl s).quiet (u := s.setInputs (.request b :: l)) rfl rfl rfl).trans (settle_grows _ _)

/-! ## Instructions -/

/-- A transaction of the two plain BUS rows, which name an address and no register. -/
def PlainXfer (i : Instr) (x : Xfer) : Prop :=
  (∃ a v, i = .busWrite a v ∧ x.b0 = writeByte0 a) ∨ (∃ a, i = .busRead a ∧ x.b0 = readByte0 a ∧ x.b1 = 0x00#8)

theorem presentDecoded_grows {l : List Byte} (h : presentDecoded l s = .next t) : Grows s t := by
  simp only [presentDecoded] at h
  split at h
  · cases h; exact finish_grows _ _
  · cases h

theorem writeRow_grows {i : Instr} {r : Reg} {v : Byte} (h : writeRow i (s.params.regAddr r) v s = .next t) :
    Grows s t := by
  obtain ⟨-, -, h⟩ := accept_next h
  cases h; exact (regWrite_grows r v s).trans (finish_grows _ _)

theorem readRow_grows {i : Instr} {r : Reg} (h : readRow i (s.params.regAddr r) s = .next t) : Grows s t := by
  obtain ⟨-, -, h⟩ := accept_next h
  cases h; exact (regRead_runs r s).grows.trans (finish_grows _ _)

theorem commandRow_grows {i : Instr} {c : ChipCommand} (h : commandRow i c s = .next t) : Grows s t := by
  obtain ⟨-, -, h⟩ := accept_next h
  cases h; exact (regWrite_grows _ _ s).trans (finish_grows _ _)

theorem frameRow_grows {i : Instr} {l : List Byte} (h : frameRow i l s = .next t) : Grows s t := by
  obtain ⟨-, -, h⟩ := accept_next h
  cases h; exact (writeFifo_runs l s).grows.trans (finish_grows _ _)

theorem framedRow_grows {i : Instr} {v : Byte} {l : List Byte} (h : framedRow i v l s = .next t) : Grows s t := by
  obtain ⟨-, -, h⟩ := accept_next h
  cases h; exact ((regWrite_grows _ _ s).trans (writeFifo_runs l _).grows).trans (finish_grows _ _)

theorem errorRow_grows {i : Instr} {e : ErrKind} (h : errorRow i e s = .next t) : Grows s t := by
  obtain ⟨-, -, h⟩ := accept_next h
  cases h; exact finish_grows _ _

/-- Every host operation appends transactions on named registers to the trace. -/
theorem hostop_grows {i : Instr} (hf : i.format = .hostop) (h : exec i s = .next t) : Grows s t := by
  cases i <;> first | cases hf; done | skip
  case decode => exact (begin_grows _ s).trans (presentDecoded_grows (accept_next h).2.2)
  all_goals replace h := (admitted_next h).2.2
  case wait => cases h; exact ((begin_grows .wait s).quiet (u := waitBegin .wait s) rfl rfl rfl).trans (waitRun_grows _ _)
  case selectCard =>
    cases h; exact ((begin_grows .selectCard s).quiet (u := waitBegin .selectCard s) rfl rfl rfl).trans (waitRun_grows _ _)
  case execute c d => cases h; exact ((begin_grows _ s).trans (res_grows (executeProg c d) _)).trans (present_grows _ _)
  case computeCrc d => cases h; exact ((begin_grows _ s).trans (res_grows (computeCrcProg d) _)).trans (present_grows _ _)
  case reset => cases h; exact ((begin_grows _ s).trans (run_grows resetProg _)).trans (finish_grows _ _)
  case init => cases h; exact ((begin_grows _ s).trans (run_grows initProg _)).trans (finish_grows _ _)
  case stopCrypto => cases h; exact ((begin_grows _ s).trans (run_grows stopCryptoProg _)).trans (finish_grows _ _)
  case request => cases h; exact ((begin_grows _ s).trans (res_grows requestProg _)).trans (present_grows _ _)
  case antiCollision => cases h; exact ((begin_grows _ s).trans (res_grows antiCollisionProg _)).trans (present_grows _ _)
  case selectTag u => cases h; exact ((begin_grows _ s).trans (res_grows (selectTagProg u) _)).trans (present_grows _ _)
  case authenticate m b k u =>
    cases h; exact ((begin_grows _ s).trans (run_grows (authenticateProg m b k u) _)).trans (finish_grows _ _)
  case readBlock b => cases h; exact ((begin_grows _ s).trans (res_grows (readBlockProg b) _)).trans (present_grows _ _)
  case writeBlock b d => cases h; exact ((begin_grows _ s).trans (res_grows (writeBlockProg b d) _)).trans (present_grows _ _)
  case encode => cases h; exact (begin_grows _ s).trans (finish_grows _ _)
  case getBit => cases h; exact (begin_grows _ s).trans (finish_grows _ _)

/-- Every instruction appends transactions on named registers to the trace, or is a plain BUS row and appends its own. -/
theorem exec_grows {i : Instr} (h : exec i s = .next t) :
    Grows s t ∨ t.params = s.params ∧ t.rstOut = s.rstOut ∧ ∃ x, PlainXfer i x ∧ t.trace = s.trace ++ [x] := by
  cases i
  case busWrite a v =>
    obtain ⟨-, -, h⟩ := accept_next h
    rw [finish_eq, regWriteAt_eq] at h
    cases h
    exact .inr ⟨rfl, rfl, _, .inl ⟨a, v, rfl, rfl⟩, rfl⟩
  case busRead a =>
    obtain ⟨-, -, h⟩ := accept_next h
    rw [finish_eq, regReadAt_state_eq] at h
    cases h
    exact .inr ⟨rfl, rfl, _, .inr ⟨a, rfl, rfl, rfl⟩, rfl⟩
  case access => exact .inl (presentDecoded_grows (accept_next h).2.2)
  case ack => obtain ⟨-, -, h⟩ := accept_next h; cases h; exact .inl (finish_grows _ _)
  case errOk => obtain ⟨-, -, h⟩ := accept_next h; cases h; exact .inl (finish_grows _ _)
  case wCommand | wComIEn | wComIrq | wDivIrq | wStatus2 | wFifoData | wFifoLevel | wBitFraming | wMode |
      wTxControl | wTxAuto | wTMode | wTPrescaler | wTReloadH | wTReloadL =>
    exact .inl (writeRow_grows h)
  case rComIrq | rDivIrq | rError | rStatus2 | rFifoData | rFifoLevel | rControl | rBitFraming | rTxControl |
      rCrcResultH | rCrcResultL =>
    exact .inl (readRow_grows h)
  case cmdIdle | cmdCalcCrc | cmdTransceive | cmdAuthenticate | cmdSoftReset =>
    exact .inl (commandRow_grows h)
  case cardSelect | cardAuth | cardRead | cardWrite | cardWriteData =>
    exact .inl (frameRow_grows h)
  case cardReqa | cardAnticoll =>
    exact .inl (framedRow_grows h)
  case errTimeoutError | errProtocolError | errChecksumError | errCardNotPresentError | errAuthReadFailure |
      errAuthFailure | errWriteNotAuthorizedError | errWriteFailedError | errDataLengthError | errAbandoned =>
    exact .inl (errorRow_grows h)
  all_goals exact .inl (hostop_grows rfl h)

/-- What beginning a host request is: the program of the operation, a wait, or a codec operation, over at once. -/
theorem beginRequest_program {i : Instr} {op : HostOp} {p : Prog Result} (hp : program i = some (op, p)) (s : State) :
    beginRequest i s = admitted i s (.next (beginProgram op i p s)) := by
  cases i <;> cases hp <;> rfl

theorem beginRequest_codec {i : Instr} (hp : program i = none) (h1 : i ≠ .wait) (h2 : i ≠ .selectCard) (s : State) :
    beginRequest i s = exec i s := by
  cases i <;> first | cases hp; done | exact absurd rfl h1 | exact absurd rfl h2 | rfl

/-- A host request begun appends transactions on named registers to the trace. -/
theorem beginRequest_grows {i : Instr} (hf : i.format = .hostop) (h : beginRequest i s = .next t) : Grows s t := by
  rcases hp : program i with _ | ⟨op, p⟩
  · by_cases h1 : i = .wait
    · subst h1; cases (admitted_next h).2.2; exact (begin_grows .wait s).quiet rfl rfl rfl
    · by_cases h2 : i = .selectCard
      · subst h2; cases (admitted_next h).2.2; exact (begin_grows .selectCard s).quiet rfl rfl rfl
      · rw [beginRequest_codec hp h1 h2] at h; exact hostop_grows hf h
  · rw [beginRequest_program hp] at h
    cases (admitted_next h).2.2; exact beginProgram_grows op i p s

end Sys2Proof.Safety
end

