-- ==== Sys2Proof/Laws/Fields.lean ====
section
/-! SUPPORT. What every operation leaves of the session registers, the flags, the lines and the inputs, said once. -/

namespace Sys2Proof.Safety

open Sys2Proof.Machine

/-- `t` has the session registers, the flags, the lines, the parameters, the inputs, the OP and the job of `s`. -/
structure Keeps (s t : State) : Prop where
  pstate : t.pstate = s.pstate
  sector : t.sector = s.sector
  authd : t.authd = s.authd
  uid : t.uid = s.uid
  key : t.key = s.key
  cfg : t.cfg = s.cfg
  op : t.pc.op = s.pc.op
  watch : t.watch = s.watch
  signal : t.signal = s.signal
  irqPrev : t.irqPrev = s.irqPrev
  irqIn : t.irqIn = s.irqIn
  rstOut : t.rstOut = s.rstOut
  params : t.params = s.params
  inputs : t.inputs = s.inputs
  job : t.job = s.job
  placed : t.placed = s.placed

variable {s t u : State} {rows : List Row}

theorem Keeps.refl (s : State) : Keeps s s := ⟨rfl, rfl, rfl, rfl, rfl, rfl, rfl, rfl, rfl, rfl, rfl, rfl, rfl, rfl, rfl, rfl⟩

theorem Keeps.trans (h : Keeps s t) (h' : Keeps t u) : Keeps s u :=
  ⟨h'.1.trans h.1, h'.2.trans h.2, h'.3.trans h.3, h'.4.trans h.4, h'.5.trans h.5, h'.6.trans h.6, h'.7.trans h.7,
    h'.8.trans h.8, h'.9.trans h.9, h'.10.trans h.10, h'.11.trans h.11, h'.12.trans h.12, h'.13.trans h.13,
    h'.14.trans h.14, h'.15.trans h.15, h'.16.trans h.16⟩

theorem Runs.keeps (h : Runs s rows t) : Keeps s t := by
  obtain ⟨_, _, _, _, _, -, -, rfl⟩ := h
  exact ⟨rfl, rfl, rfl, rfl, rfl, rfl, rfl, rfl, rfl, rfl, rfl, rfl, rfl, rfl, rfl, rfl⟩

theorem Keeps.setWork (h : Keeps s t) (w : Work) : Keeps s (t.setWork w) := by
  obtain ⟨a, b, c, d, e, f, g, i, j, k, l, m, n, o, y, z⟩ := h
  exact ⟨a, b, c, d, e, f, g, i, j, k, l, m, n, o, y, z⟩

theorem Keeps.advance (h : Keeps s t) : Keeps s (advance t) := h.trans ((Runs.refl t).advance).keeps

theorem Keeps.setPState (h : Keeps s t) (p : PState) : Keeps { s with pstate := p } (t.setPState p) := by
  obtain ⟨a, b, c, d, e, f, g, i, j, k, l, m, n, o, y, z⟩ := h
  exact ⟨rfl, b, c, d, e, f, g, i, j, k, l, m, n, o, y, z⟩

theorem Keeps.setUid (h : Keeps s t) (x : Option (Bytes 4)) : Keeps { s with uid := x } (t.setUid x) := by
  obtain ⟨a, b, c, d, e, f, g, i, j, k, l, m, n, o, y, z⟩ := h
  exact ⟨a, b, c, rfl, e, f, g, i, j, k, l, m, n, o, y, z⟩

theorem Keeps.setCfg (h : Keeps s t) (x : Cfg) : Keeps { s with cfg := x } (t.setCfg x) := by
  obtain ⟨a, b, c, d, e, f, g, i, j, k, l, m, n, o, y, z⟩ := h
  exact ⟨a, b, c, d, e, rfl, g, i, j, k, l, m, n, o, y, z⟩

theorem Keeps.clearSession (h : Keeps s t) : Keeps (cleared s) t.clearSession := by
  obtain ⟨a, b, c, d, e, f, g, i, j, k, l, m, n, o, y, z⟩ := h
  exact ⟨rfl, rfl, rfl, rfl, rfl, f, g, i, j, k, l, m, n, o, y, z⟩

theorem Keeps.openSession (h : Keeps s t) (block : Byte) (x : Bytes 6) :
    Keeps { s with pstate := .authenticated, sector := some (sectorOf block), authd := true, key := some x }
      (t.openSession block x) := by
  obtain ⟨a, b, c, d, e, f, g, i, j, k, l, m, n, o, y, z⟩ := h
  exact ⟨rfl, rfl, rfl, d, rfl, f, g, i, j, k, l, m, n, o, y, z⟩

theorem executeBody_keeps (c : ChipCommand) (d : List Byte) (s : State) : Keeps s (executeBody c d s).state := by
  obtain ⟨_, _, -, h⟩ := executeBody_runs c d s; exact h.keeps

theorem computeCrcBody_keeps (d : List Byte) (s : State) : Keeps s (computeCrcBody d s).state := by
  obtain ⟨_, _, -, h⟩ := computeCrcBody_runs d s; exact h.keeps

theorem tested_ok {α : Type} {r : Res α} {a : α} (h : tested r = .ok a t) : ∃ u, r = .ok a u ∧ t = advance u := by
  cases r <;> cases h; exact ⟨_, rfl, rfl⟩

theorem tested_err {α : Type} {r : Res α} {e : ErrKind} (h : tested r = .err e t) : ∃ u, r = .err e u ∧ t = advance u := by
  cases r <;> cases h; exact ⟨_, rfl, rfl⟩

theorem sendWithCrc_keeps (f : List Byte) (s : State) : Keeps s (sendWithCrc f s).state := by
  obtain ⟨_, -, h⟩ := sendWithCrc_runs f s; exact h.keeps

/-- The only errors of `execute` (40_transceiver R97). -/
theorem executeBody_err {c : ChipCommand} {d : List Byte} {e : ErrKind} (h : executeBody c d s = .err e t) :
    e = .timeoutError ∨ e = .protocolError := by
  obtain ⟨_, _, hr, -⟩ := executeBody_runs c d s
  rw [h] at hr
  generalize ho : outcome (Res.err e t : Res Transceived) = o at hr
  cases hr <;> simp only [outcome] at ho <;> cases ho <;> simp

/-- The only error of `computeCrc` (41_crc R108). -/
theorem computeCrcBody_err {d : List Byte} {e : ErrKind} (h : computeCrcBody d s = .err e t) : e = .timeoutError := by
  obtain ⟨_, _, hr, -⟩ := computeCrcBody_runs d s
  rw [h] at hr
  generalize ho : outcome (Res.err e t : Res (Byte × Byte)) = o at hr
  cases hr <;> simp only [outcome] at ho <;> cases ho
  rfl

theorem sendWithCrc_err {f : List Byte} {e : ErrKind} (h : sendWithCrc f s = .err e t) :
    e = .timeoutError ∨ e = .protocolError := by
  rw [sendWithCrc_eq] at h
  cases hc : computeCrcBody f s with
  | err e' u => rw [hc] at h; cases h; exact .inl (computeCrcBody_err hc)
  | ok c u => rw [hc] at h; obtain ⟨_, h, -⟩ := tested_err h; exact executeBody_err h

theorem teardown_keeps (h : Keeps s t) : Keeps (torn s) (teardown t) := by
  simp only [torn, teardown_eq, h.params]
  split
  · exact (h.trans (clearBits_runs .status2 cryptoOnBit t).keeps).advance.clearSession
  · exact h

theorem resetBody_keeps (s : State) : Keeps { cleared s with cfg := .needsInit } (resetBody s) := by
  have h0 : Keeps (s.setAuthd false) ((advance s).setAuthd false) := (Keeps.refl (s.setAuthd false)).advance
  have h : Keeps (s.setAuthd false) (writeCommand .softReset ((advance s).setAuthd false)) :=
    h0.trans (regWrite_runs _ _ _).keeps
  exact h.advance.clearSession.setCfg .needsInit

theorem initBody_keeps (s : State) : Keeps { s with cfg := .ready } (initBody s) := by
  have h := (((writeAll_runs initWrites s).keeps.trans (regRead_runs .txControl (writeAll initWrites s)).keeps).setWork
    { (regRead .txControl (writeAll initWrites s)).2.work with t := some (regRead .txControl (writeAll initWrites s)).1 }).advance
  simp only [initBody_eq]
  split
  · exact h.advance.setCfg _
  · exact (h.trans (regWrite_runs _ _ _).keeps).advance.setCfg _

/-- `request` reaches Requested, or raises CardNotPresentError and leaves every register. -/
theorem requestBody_keeps (s : State) :
    (∃ t, requestBody s = .ok () t ∧ Keeps { s with pstate := .requested } t) ∨
      ∃ t, requestBody s = .err .cardNotPresentError t ∧ Keeps s t := by
  have h := (regWrite_runs .bitFraming 0x07#8 s).keeps.trans (executeBody_keeps .transceive reqaFrame _)
  rw [requestBody_eq]
  split <;> rename_i hb <;> rw [hb] at h
  · exact .inr ⟨_, rfl, h.advance⟩
  · split
    · exact .inl ⟨_, rfl, h.advance.advance.setPState _⟩
    · exact .inr ⟨_, rfl, h.advance⟩

/-- `antiCollision` reaches Identified with the UID it answers, or Collided. -/
theorem antiCollisionBody_keeps (s : State) :
    (∃ u t, antiCollisionBody s = .ok u t ∧ Keeps { s with pstate := .identified, uid := some u } t) ∨
      ∃ e t, antiCollisionBody s = .err e t ∧ (e = .timeoutError ∨ e = .protocolError ∨ e = .checksumError) ∧
        Keeps { s with pstate := .collided } t := by
  have h := (regWrite_runs .bitFraming 0x00#8 s).keeps.trans (executeBody_keeps .transceive anticollFrame _)
  rw [antiCollisionBody_eq]
  split <;> rename_i hb <;> rw [hb] at h
  · exact .inr ⟨_, _, rfl, (executeBody_err hb).imp_right .inl, h.advance.setPState _⟩
  · simp only []
    split
    · exact .inr ⟨_, _, rfl, .inr (.inr rfl), h.advance.advance.setPState _⟩
    · split
      · exact .inr ⟨_, _, rfl, .inr (.inr rfl), h.advance.advance.advance.setPState _⟩
      · rename_i u _
        exact .inl ⟨u, _, rfl, ((h.advance.advance.advance.advance.setUid (some u)).setPState .identified).advance⟩

/-- `selectTag` reaches Selected with its operand as the UID, or leaves every register. -/
theorem selectTagBody_keeps (uid : Bytes 4) (s : State) :
    (∃ b t, selectTagBody uid s = .ok b t ∧ Keeps { s with pstate := .selected, uid := some uid } t) ∨
      ∃ e t, selectTagBody uid s = .err e t ∧ (e = .timeoutError ∨ e = .protocolError) ∧ Keeps s t := by
  have h := (Keeps.refl s).advance.trans (sendWithCrc_keeps (selectFrame (advance s).params uid) (advance s))
  rw [selectTagBody_eq]
  cases hb : sendWithCrc (selectFrame (advance s).params uid) (advance s) <;> rw [hb] at h
  · exact .inl ⟨_, _, rfl, (((h.advance.setWork _).advance.setUid (some uid)).setPState .selected).advance⟩
  · exact .inr ⟨_, _, rfl, sendWithCrc_err hb, h⟩

/-- `authenticate` opens the session with Ok, or leaves what teardown leaves. -/
theorem authenticateBody_keeps (mode block : Byte) (key : Bytes 6) (uid : Bytes 4) (s : State) :
    ((authenticateBody mode block key uid s).1 = .ok ∧
      Keeps { s with pstate := .authenticated, sector := some (sectorOf block), authd := true, key := some key }
        (authenticateBody mode block key uid s).2) ∨
    ((authenticateBody mode block key uid s).1 ≠ .ok ∧ Keeps (torn s) (authenticateBody mode block key uid s).2) := by
  have h := (Keeps.refl s).advance.trans (executeBody_keeps .authenticate (authFrame mode block key uid) (advance s))
  rw [authenticateBody_eq]
  split <;> rename_i hb <;> rw [hb] at h
  · exact .inr ⟨nofun, teardown_keeps h.advance⟩
  · rename_i r s1
    have h2 := (h.advance.trans (regRead_runs .status2 (advance s1)).keeps).setWork
      { (regRead .status2 (advance s1)).2.work with t := some (regRead .status2 (advance s1)).1 }
    simp only []
    split
    · exact .inr ⟨nofun, teardown_keeps h2⟩
    · exact .inl ⟨rfl, (h2.advance.openSession block key).advance⟩

/-- `readBlock` leaves every register, or with an error what teardown leaves. -/
theorem readBlockBody_keeps (block : Byte) (s : State) :
    (∃ l t, readBlockBody block s = .ok l t ∧ Keeps s t) ∨ ∃ e t, readBlockBody block s = .err e t ∧ Keeps (torn s) t := by
  have h := (Keeps.refl s).advance.trans (sendWithCrc_keeps (readFrameBytes block) (advance s))
  rw [readBlockBody_eq]
  split <;> rename_i hb <;> rw [hb] at h
  · exact .inr ⟨_, _, rfl, teardown_keeps h⟩
  · split
    · exact .inl ⟨_, _, rfl, h.advance.advance⟩
    · exact .inr ⟨_, _, rfl, teardown_keeps h.advance⟩

theorem writePhase_keeps (e : ErrKind) (f : List Byte) (s : State) :
    (∃ t, writePhase e f s = .ok () t ∧ Keeps s t) ∨ ∃ t, writePhase e f s = .err e t ∧ Keeps (torn s) t := by
  have h := computeCrcBody_keeps f s
  rw [writePhase_eq]
  split <;> rename_i hb <;> rw [hb] at h
  · exact .inr ⟨_, rfl, teardown_keeps h.advance⟩
  · rename_i c s1
    have h2 := h.advance.trans (executeBody_keeps .transceive (withCrc f c) (advance s1))
    split <;> rename_i hx <;> rw [hx] at h2
    · exact .inr ⟨_, rfl, teardown_keeps h2.advance⟩
    · split
      · exact .inl ⟨_, rfl, h2.advance⟩
      · exact .inr ⟨_, rfl, teardown_keeps h2.advance⟩

theorem Keeps.torn (h : Keeps s t) : Keeps (torn s) (torn t) := by
  simp only [Safety.torn, h.params]
  obtain ⟨a, b, c, d, e, f, g, i, j, k, l, m, n, o, y, z⟩ := h
  split
  · exact ⟨rfl, rfl, rfl, rfl, rfl, f, g, i, j, k, l, m, n, o, y, z⟩
  · exact ⟨a, b, c, d, e, f, g, i, j, k, l, m, n, o, y, z⟩

/-- `writeBlock` leaves every register, or with an error what teardown leaves. -/
theorem writeBlockBody_keeps (block : Byte) (data : Bytes 16) (s : State) :
    (∃ t, writeBlockBody block data s = .ok () t ∧ Keeps s t) ∨
      ∃ e t, writeBlockBody block data s = .err e t ∧ Keeps (Safety.torn s) t := by
  rw [writeBlockBody_eq]
  have h0 := (Keeps.refl s).advance
  rcases writePhase_keeps .writeNotAuthorizedError (writeFrameBytes block) (advance s) with ⟨t, e, h⟩ | ⟨t, e, h⟩ <;>
    rw [e] <;> simp only [bindRes]
  · rcases writePhase_keeps .writeFailedError data.val t with ⟨u, e', h'⟩ | ⟨u, e', h'⟩ <;> rw [e'] <;> simp only []
    · exact .inl ⟨_, rfl, ((h0.trans h).trans h').advance⟩
    · exact .inr ⟨_, u, rfl, (h0.trans h).torn.trans h'⟩
  · exact .inr ⟨_, t, rfl, h0.torn.trans h⟩

/-- The steps of `selectCard` after its wait, from any state: Selected with a UID, or the state its first error leaves. -/
theorem selectCardRest_keeps (s : State) :
    (∃ b u t, selectCardRest s = .ok b t ∧
      Keeps { cleared s with cfg := .ready, pstate := .selected, uid := some u } t) ∨
    (∃ t, selectCardRest s = .err .cardNotPresentError t ∧ Keeps { cleared s with cfg := .ready } t) ∨
    (∃ e t, selectCardRest s = .err e t ∧ (e = .timeoutError ∨ e = .protocolError ∨ e = .checksumError) ∧
      Keeps { cleared s with cfg := .ready, pstate := .collided } t) ∨
    ∃ e u t, selectCardRest s = .err e t ∧ (e = .timeoutError ∨ e = .protocolError) ∧
      Keeps { cleared s with cfg := .ready, pstate := .identified, uid := some u } t := by
  have h1 : Keeps { cleared s with cfg := .ready }
      (initBody ((resetBody (s.setWork Work.empty)).setWork Work.empty)) := by
    obtain ⟨a, b, c, d, e, f, g, i, j, k, l, m, n, o, y, z⟩ :=
      initBody_keeps ((resetBody (s.setWork Work.empty)).setWork Work.empty)
    obtain ⟨a', b', c', d', e', f', g', i', j', k', l', m', n', o', y', z'⟩ := resetBody_keeps (s.setWork Work.empty)
    exact ⟨a.trans a', b.trans b', c.trans c', d.trans d', e.trans e', f, g.trans g', i.trans i', j.trans j', k.trans k',
      l.trans l', m.trans m', n.trans n', o.trans o', y.trans y', z.trans z'⟩
  simp only [selectCardRest]
  rcases requestBody_keeps
      ((initBody ((resetBody (s.setWork Work.empty)).setWork Work.empty)).setWork Work.empty) with ⟨t, e, h⟩ | ⟨t, e, h⟩ <;> rw [e] <;>
    simp only [bindRes]
  · have h2 := ((h1.setWork Work.empty).setPState .requested).trans h
    rcases antiCollisionBody_keeps (t.setWork Work.empty) with ⟨u, t', e', h'⟩ | ⟨er, t', e', hk, h'⟩ <;> rw [e']
    · have h3 := (((h2.setWork Work.empty).setUid (some u)).setPState .identified).trans h'
      rcases selectTagBody_keeps u (t'.setWork Work.empty) with ⟨b, t'', e'', h''⟩ | ⟨er, t'', e'', hk, h''⟩
      · have h4 := (((h3.setWork Work.empty).setUid (some u)).setPState .selected).trans h''
        exact .inl ⟨b, u, t'', e'', h4⟩
      · exact .inr (.inr (.inr ⟨er, u, t'', e'', hk, (h3.setWork Work.empty).trans h''⟩))
    · exact .inr (.inr (.inl ⟨er, t', rfl, hk, ((h2.setWork Work.empty).setPState .collided).trans h'⟩))
  · exact .inr (.inl ⟨t, rfl, (h1.setWork Work.empty).trans h⟩)

end Sys2Proof.Safety
end

