-- ==== Sys2Proof/Laws/Moves.lean ====
section
/-! SUPPORT. What a wait in progress leaves alone, whatever moves the outside makes, and that a wait run ends or reaches its
wait point. -/

namespace Sys2Proof.Safety

open Sys2Proof.Machine

/-- The watch is registered up to line 9 of a wait (44_presence_wait R157). -/
def Watched (s : State) : Prop := s.watch = decide (s.pc.phase ≤ deregisterPhase s.params)

/-- From `s` to `t` a wait went on: only SIGNAL, IRQ_PREV, IRQ_IN, the position inside the wait, WATCH with line 9, its pending
result and the inputs changed, and the transactions made are writes. -/
structure Waits (s t : State) : Prop where
  pstate : t.pstate = s.pstate
  sector : t.sector = s.sector
  authd : t.authd = s.authd
  uid : t.uid = s.uid
  key : t.key = s.key
  cfg : t.cfg = s.cfg
  op : t.pc.op = s.pc.op
  watch : Watched s → Watched t
  rstOut : t.rstOut = s.rstOut
  params : t.params = s.params
  result : t.result = s.result
  answers : t.answers = s.answers
  job : t.job = s.job
  placed : t.placed = s.placed
  trace : ∃ xs, t.trace = s.trace ++ xs ∧ ∀ x ∈ xs, x.b0.getLsbD 7 = false

variable {s t u : State}

theorem Waits.refl (s : State) : Waits s s :=
  ⟨rfl, rfl, rfl, rfl, rfl, rfl, rfl, id, rfl, rfl, rfl, rfl, rfl, rfl, [], by simp, by simp⟩

theorem Waits.trans (h : Waits s t) (h' : Waits t u) : Waits s u := by
  obtain ⟨xs, hx, hb⟩ := h.trace
  obtain ⟨ys, hy, hc⟩ := h'.trace
  exact ⟨h'.1.trans h.1, h'.2.trans h.2, h'.3.trans h.3, h'.4.trans h.4, h'.5.trans h.5, h'.6.trans h.6, h'.7.trans h.7,
    fun hw => h'.8 (h.8 hw), h'.9.trans h.9, h'.10.trans h.10, h'.11.trans h.11, h'.12.trans h.12,
    h'.13.trans h.13, h'.14.trans h.14, xs ++ ys, by simp [hy, hx],
    fun x hm => (List.mem_append.1 hm).elim (hb x) (hc x)⟩

theorem writeByte0_bit7 (a : RegAddr) : (writeByte0 a).getLsbD 7 = false := by revert a; decide

/-- A line other than line 9 does not change whether the watch is registered. -/
theorem Watched.advance (h : s.pc.phase ≠ deregisterPhase s.params) (hw : t.watch = s.watch) (hp : t.params = s.params)
    (hq : t.pc.phase = s.pc.phase + 1) (hs : Watched s) : Watched t := by
  rw [Watched, hw, hs, hp, hq]; exact decide_eq_decide.2 (by omega)

theorem regWrite_waits (r : Reg) (v : Byte) (h : s.pc.phase ≠ deregisterPhase s.params) : Waits s (regWrite r v s) := by
  have hw : Watched s → Watched (regWrite r v s) := .advance h rfl rfl rfl
  revert hw
  simp only [regWrite, regWriteAt_eq]
  exact fun hw => ⟨rfl, rfl, rfl, rfl, rfl, rfl, rfl, hw, rfl, rfl, rfl, rfl, rfl, rfl, _, rfl,
    fun x hx => by rw [List.mem_singleton.1 hx]; exact writeByte0_bit7 _⟩

theorem leaveLoop_waits (o : WaitOut) (h : s.pc.phase ≠ deregisterPhase s.params) : Waits s (leaveLoop o s) :=
  ⟨rfl, rfl, rfl, rfl, rfl, rfl, rfl, .advance h rfl rfl rfl, rfl, rfl, rfl, rfl, rfl, rfl, [], by simp [leaveLoop], by simp⟩

theorem takeSignal_waits (h : s.pc.phase ≠ deregisterPhase s.params) : Waits s (takeSignal s) := by
  simp only [takeSignal]
  split
  · exact ⟨rfl, rfl, rfl, rfl, rfl, rfl, rfl, .advance h rfl rfl rfl, rfl, rfl, rfl, rfl, rfl, rfl, [], by simp [leaveLoop],
      by simp⟩
  · exact .refl s

/-- Line 9. -/
theorem deregister_waits (h : s.pc.phase = deregisterPhase s.params) : Waits s (deregister s) :=
  ⟨rfl, rfl, rfl, rfl, rfl, rfl, rfl, fun _ => by
    rw [Watched]; show false = decide (s.pc.phase + 1 ≤ deregisterPhase s.params); simp [h], rfl, rfl, rfl, rfl, rfl, rfl,
    [], by simp [deregister, advance], by simp⟩

/-- A step of the sequencer in a wait goes on with the wait, or is its last line, after line 9. -/
theorem seqStep_waits (s : State) :
    Waits s (seqStep s) ∨ seqStep s = endWait s ∧ deregisterPhase s.params < s.pc.phase := by
  simp only [seqStep]
  split
  next x hx =>
    have := (List.getElem?_eq_some_iff.1 hx).1
    exact .inl (regWrite_waits _ _ (by simp only [deregisterPhase, waitPhase, armPhase]; omega))
  next hx =>
    have hx := List.getElem?_eq_none_iff.1 hx
    split
    next hk => exact .inl (regWrite_waits _ _ (by simp only [deregisterPhase, waitPhase, armPhase] at *; omega))
    next hk => exact .inl (regWrite_waits _ _ (by simp only [deregisterPhase, waitPhase, armPhase] at *; omega))
    next hk => exact .inl (regWrite_waits _ _ (by simp only [deregisterPhase, waitPhase, armPhase] at *; omega))
    next hk => exact .inl (takeSignal_waits (by simp only [deregisterPhase, waitPhase, armPhase] at *; omega))
    next k hk =>
      split
      next y hy =>
        have := (List.getElem?_eq_some_iff.1 hy).1
        exact .inl (regWrite_waits _ _ (by simp only [deregisterPhase, waitPhase, armPhase] at *; omega))
      next hy =>
        have := List.getElem?_eq_none_iff.1 hy
        split
        · exact .inl (deregister_waits (by simp only [deregisterPhase, waitPhase, armPhase] at *; omega))
        · exact .inr ⟨rfl, by simp only [deregisterPhase, waitPhase, armPhase] at *; omega⟩

theorem atWaitPoint_phase (h : atWaitPoint s = true) : s.pc.phase = waitPhase s.params := by
  simp only [atWaitPoint, Bool.and_eq_true, beq_iff_eq] at h; exact h.2

theorem applyMove_waits (m : Move) (s : State) (hw : inWait s = true) :
    Waits s (applyMove m s) ∨ applyMove m s = endWait s ∧ deregisterPhase s.params < s.pc.phase := by
  cases m <;> simp only [applyMove]
  case go => split <;> [rw [turn_wait hw]; skip] <;> [exact seqStep_waits s; exact .inl (.refl s)]
  case abandon =>
    split
    next h => exact .inl (leaveLoop_waits _ (by rw [atWaitPoint_phase h, deregisterPhase]; omega))
    next => exact .inl (.refl s)
  case timeout =>
    split
    next h =>
      have h := atWaitPoint_phase (Bool.and_eq_true_iff.1 h).1
      refine .inl ⟨rfl, rfl, rfl, rfl, rfl, rfl, rfl, fun hs => ?_, rfl, rfl, rfl, rfl, rfl, rfl, [], by simp, by simp⟩
      rw [Watched] at hs ⊢
      exact hs.trans (decide_eq_decide.2 (by
        show _ ↔ armPhase s.params ≤ deregisterPhase s.params
        rw [h]; simp only [deregisterPhase, waitPhase]; omega))
    next => exact .inl (.refl s)
  case line => exact .inl ⟨rfl, rfl, rfl, rfl, rfl, rfl, rfl, id, rfl, rfl, rfl, rfl, rfl, rfl, [], by simp, by simp⟩
  case sample => exact .inl ⟨rfl, rfl, rfl, rfl, rfl, rfl, rfl, id, rfl, rfl, rfl, rfl, rfl, rfl, [], by simp [agentStep], by simp⟩

/-- The last line of a wait that is run whole leaves the engine idle, with WATCH as it was and a result presented. -/
theorem endWait_idle (s : State) (hj : s.job = none) :
    (endWait s).pc = Pc.idle ∧ (endWait s).work = Work.empty ∧ (endWait s).watch = s.watch ∧ (endWait s).job = none ∧
      (endWait s).result.isSome = true := by
  simp only [endWait, hj]
  split_ifs
  · exact ⟨rfl, rfl, rfl, rfl, rfl⟩
  · rw [stages_eq]
    rcases selectCardRest_keeps (advance s) with
      ⟨_, _, t, e, h⟩ | ⟨t, e, h⟩ | ⟨_, t, e, -, h⟩ | ⟨_, _, t, e, -, h⟩ <;> rw [e] <;> exact ⟨rfl, rfl, h.watch, rfl, rfl⟩
  · exact ⟨rfl, rfl, rfl, rfl, rfl⟩

/-- The last line of a wait requested alone ends it and no more. -/
theorem endWait_wait (h : s.pc.op = some .wait) :
    Keeps { s with pc := Pc.idle, job := none } (endWait s) ∧ (endWait s).answers = s.answers ∧
      (endWait s).trace = s.trace ∧
      (endWait s).result = some (if s.work.waitOut = some .abandoned then .error .abandoned else .done) := by
  simp only [endWait]
  split_ifs with h1 h2
  · exact ⟨⟨rfl, rfl, rfl, rfl, rfl, rfl, rfl, rfl, rfl, rfl, rfl, rfl, rfl, rfl, rfl, rfl⟩, rfl, rfl, rfl⟩
  · rw [h] at h2; cases h2
  · exact ⟨⟨rfl, rfl, rfl, rfl, rfl, rfl, rfl, rfl, rfl, rfl, rfl, rfl, rfl, rfl, rfl, rfl⟩, rfl, rfl, rfl⟩

/-- How many turns the sequencer needs from `s` to the wait point or to the end. -/
def turnsLeft (s : State) : Nat :=
  if s.pc.phase ≤ waitPhase s.params then waitPhase s.params - s.pc.phase
  else deregisterPhase s.params + 2 - s.pc.phase

/-- Away from the wait point, a turn ends the wait or brings it one turn nearer. -/
theorem seqStep_nearer (hn : s.pc.phase ≠ waitPhase s.params) :
    seqStep s = endWait s ∨
      (turnsLeft (seqStep s) < turnsLeft s ∧ (seqStep s).pc.phase = s.pc.phase + 1) := by
  have hw : ∀ (r : Reg) (v : Byte), s.pc.phase ≤ waitPhase s.params + s.params.waitEpilogue.length →
      turnsLeft (regWrite r v s) < turnsLeft s ∧ (regWrite r v s).pc.phase = s.pc.phase + 1 := by
    intro r v hl
    have hp : (regWrite r v s).pc.phase = s.pc.phase + 1 := rfl
    have hq : (regWrite r v s).params = s.params := rfl
    refine ⟨?_, hp⟩
    simp only [turnsLeft, hp, hq, deregisterPhase]
    split_ifs <;> omega
  simp only [seqStep]
  split
  next x hx =>
    right
    have := (List.getElem?_eq_some_iff.1 hx).1
    exact hw _ _ (by simp only [waitPhase, armPhase]; omega)
  next hx =>
    have hx := List.getElem?_eq_none_iff.1 hx
    split
    next hk => exact .inr (hw _ _ (by simp only [waitPhase, armPhase] at *; omega))
    next hk => exact .inr (hw _ _ (by simp only [waitPhase, armPhase] at *; omega))
    next hk => exact .inr (hw _ _ (by simp only [waitPhase, armPhase] at *; omega))
    next hk => exfalso; apply hn; simp only [waitPhase, armPhase] at *; omega
    next k hk =>
      split
      next y hy =>
        have := (List.getElem?_eq_some_iff.1 hy).1
        exact .inr (hw _ _ (by simp only [waitPhase, armPhase] at *; omega))
      next hy =>
        have := List.getElem?_eq_none_iff.1 hy
        split
        · refine .inr ⟨?_, rfl⟩
          have hp : (deregister s).pc.phase = s.pc.phase + 1 := rfl
          have hq : (deregister s).params = s.params := rfl
          simp only [turnsLeft, hp, hq]
          split_ifs <;> simp only [deregisterPhase, waitPhase, armPhase] at * <;> omega
        · exact .inl rfl

/-- With enough turns the sequencer goes on with the wait to its wait point, or to its end. -/
theorem settle_waits (n : Nat) (s : State) (hw : inWait s = true) (hj : s.job = none) (hn : turnsLeft s < n) :
    (Waits s (settle n s) ∧ atWaitPoint (settle n s) = true) ∨
      ∃ u, Waits s u ∧ deregisterPhase u.params < u.pc.phase ∧ settle n s = endWait u := by
  induction n generalizing s with
  | zero => omega
  | succ n ih =>
    have hop : s.pc.op.isNone = false := by
      cases h : s.pc.op with
      | none => exact absurd h (inWait_op hw)
      | some o => rfl
    rw [settle]
    cases ha : atWaitPoint s with
    | true => simp only [hop, Bool.false_or, if_true]; exact .inl ⟨.refl s, ha⟩
    | false =>
      have hp : s.pc.phase ≠ waitPhase s.params := by
        intro h; simp [atWaitPoint, hw, h] at ha
      simp only [hop, Bool.or_self, Bool.false_eq_true, if_false]
      rcases seqStep_waits s with h1 | ⟨he, hd⟩
      swap
      · refine .inr ⟨s, .refl s, hd, ?_⟩
        rw [he]
        cases n with
        | zero => rfl
        | succ n => rw [settle, (endWait_idle s hj).1]; rfl
      rcases seqStep_nearer hp with he | ⟨hl, hq⟩
      · have := h1.op
        rw [he, (endWait_idle s hj).1] at this
        exact absurd this.symm (inWait_op hw)
      · have hw1 : inWait (seqStep s) = true := (inWait_congr h1.op h1.job).trans hw
        rcases ih _ hw1 (h1.job.trans hj) (by omega) with ⟨h2, h3⟩ | ⟨u, h2, h3, h4⟩
        · exact .inl ⟨h1.trans h2, h3⟩
        · exact .inr ⟨u, h1.trans h2, h3, h4⟩

theorem turnsLeft_lt (s : State) : turnsLeft s < settleBound s.params := by
  unfold turnsLeft settleBound deregisterPhase waitPhase armPhase
  split <;> omega

/-- Whatever moves the outside makes, a wait goes on to its wait point, where it stays, or it ends. -/
theorem waitRun_waits (l : List Input) (s : State) (hw : inWait s = true) (hj : s.job = none) :
    (Waits s (waitRun l s) ∧ atWaitPoint (waitRun l s) = true) ∨
      ∃ u rest, Waits s u ∧ deregisterPhase u.params < u.pc.phase ∧ waitRun l s = (endWait u).setInputs rest := by
  have hi : ∀ (s : State) (l : List Input), Waits s (s.setInputs l) := fun s l =>
    ⟨rfl, rfl, rfl, rfl, rfl, rfl, rfl, id, rfl, rfl, rfl, rfl, rfl, rfl, [], by simp, by simp⟩
  have hs : ∀ (s : State) (l : List Input), inWait s = true → s.job = none →
      (Waits s (settle (settleBound s.params) (s.setInputs l)) ∧
        atWaitPoint (settle (settleBound s.params) (s.setInputs l)) = true) ∨
      ∃ u rest, Waits s u ∧ deregisterPhase u.params < u.pc.phase ∧
        settle (settleBound s.params) (s.setInputs l) = (endWait u).setInputs rest := by
    intro s l hw hj
    rcases settle_waits (settleBound s.params) (s.setInputs l) hw hj (turnsLeft_lt (s.setInputs l)) with ⟨h, h'⟩ | ⟨u, h, hd, h'⟩
    · exact .inl ⟨(hi s l).trans h, h'⟩
    · exact .inr ⟨u, (endWait u).inputs, (hi s l).trans h, hd, h'⟩
  induction l generalizing s with
  | nil => exact hs s [] hw hj
  | cons x l ih =>
    cases x with
    | request b => exact hs s _ hw hj
    | move m =>
      rcases applyMove_waits m s hw with h | ⟨h, hd⟩
      · have hw1 : inWait (applyMove m s) = true := (inWait_congr h.op h.job).trans hw
        rw [waitRun_move (inWait_op hw1)]
        rcases ih _ hw1 (h.job.trans hj) with ⟨h1, h2⟩ | ⟨u, rest, h1, h2, h3⟩
        · exact .inl ⟨h.trans h1, h2⟩
        · exact .inr ⟨u, rest, h.trans h1, h2, h3⟩
      · rw [waitRun_last (by rw [h, (endWait_idle s hj).1]; rfl), h]
        exact .inr ⟨s, l, .refl s, hd, rfl⟩

end Sys2Proof.Safety
end

