-- ==== Sys2Proof/Laws/PerInstr.lean ====
section
/-! SUPPORT. A statement about every instruction as syntax, one lemma per constructor: the shape of its frame. -/

namespace Sys2Proof.Laws.Framed

/-- The shapes of the formats (00_scope R9, 30_encoding R71, R74, R77 to R83, R85, R88): how many bytes a frame has, and that
the first byte of a host request is a select below 0x10. -/
def Shape (f : Format) (l : List Byte) : Prop :=
  match f with
  | .hostop => ∃ sel ops, l = sel :: ops ∧ sel.toNat < 0x10
  | .bus => l.length = 2
  | .chipcmd => l.length = 1
  | .card => l.length = 1 ∨ l.length = 2 ∨ l.length = 4 ∨ l.length = 8 ∨ l.length = 9
  | .authFrame => l.length = 12
  | .writeData => l.length = 18
  | .ack => l.length = 1
  | .access => l.length = 4
  | .errcode => l.length = 1

/-- The encoding of `i` has the shape of its format, whatever the parameters. -/
def Statement (i : Instr) : Prop := ∀ p : Params, Shape i.format (Sys2Proof.encode p i)

theorem execute (command : ChipCommand) (outData : List Byte) : Statement (Instr.execute command outData) := fun _ => ⟨_, _, rfl, by decide⟩

theorem computeCrc (data : List Byte) : Statement (Instr.computeCrc data) := fun _ => ⟨_, _, rfl, by decide⟩

theorem reset : Statement Instr.reset := fun _ => ⟨_, _, rfl, by decide⟩

theorem init : Statement Instr.init := fun _ => ⟨_, _, rfl, by decide⟩

theorem request : Statement Instr.request := fun _ => ⟨_, _, rfl, by decide⟩

theorem antiCollision : Statement Instr.antiCollision := fun _ => ⟨_, _, rfl, by decide⟩

theorem selectTag (uid : Bytes 4) : Statement (Instr.selectTag uid) := fun _ => ⟨_, _, rfl, by decide⟩

theorem authenticate (mode blockAddress : Byte) (key : Bytes 6) (uid : Bytes 4) : Statement (Instr.authenticate mode blockAddress key uid) := fun _ => ⟨_, _, rfl, by decide⟩

theorem readBlock (blockAddress : Byte) : Statement (Instr.readBlock blockAddress) := fun _ => ⟨_, _, rfl, by decide⟩

theorem writeBlock (blockAddress : Byte) (data : Bytes 16) : Statement (Instr.writeBlock blockAddress data) := fun _ => ⟨_, _, rfl, by decide⟩

theorem stopCrypto : Statement Instr.stopCrypto := fun _ => ⟨_, _, rfl, by decide⟩

theorem wait : Statement Instr.wait := fun _ => ⟨_, _, rfl, by decide⟩

theorem encode (blocks : BlocksAccess) : Statement (Instr.encode blocks) := fun _ => ⟨_, _, rfl, by decide⟩

theorem decode (bytes : List Byte) : Statement (Instr.decode bytes) := fun _ => ⟨_, _, rfl, by decide⟩

theorem getBit (blocks : BlocksAccess) (n : Byte) : Statement (Instr.getBit blocks n) := fun _ => ⟨_, _, rfl, by decide⟩

theorem selectCard : Statement Instr.selectCard := fun _ => ⟨_, _, rfl, by decide⟩

theorem busWrite (a : RegAddr) (v : Byte) : Statement (Instr.busWrite a v) := fun _ => rfl

theorem busRead (a : RegAddr) : Statement (Instr.busRead a) := fun _ => rfl

theorem wCommand (v : Byte) : Statement (Instr.wCommand v) := fun _ => rfl

theorem wComIEn (v : Byte) : Statement (Instr.wComIEn v) := fun _ => rfl

theorem wComIrq (v : Byte) : Statement (Instr.wComIrq v) := fun _ => rfl

theorem rComIrq : Statement Instr.rComIrq := fun _ => rfl

theorem wDivIrq (v : Byte) : Statement (Instr.wDivIrq v) := fun _ => rfl

theorem rDivIrq : Statement Instr.rDivIrq := fun _ => rfl

theorem rError : Statement Instr.rError := fun _ => rfl

theorem wStatus2 (v : Byte) : Statement (Instr.wStatus2 v) := fun _ => rfl

theorem rStatus2 : Statement Instr.rStatus2 := fun _ => rfl

theorem wFifoData (v : Byte) : Statement (Instr.wFifoData v) := fun _ => rfl

theorem rFifoData : Statement Instr.rFifoData := fun _ => rfl

theorem wFifoLevel (v : Byte) : Statement (Instr.wFifoLevel v) := fun _ => rfl

theorem rFifoLevel : Statement Instr.rFifoLevel := fun _ => rfl

theorem rControl : Statement Instr.rControl := fun _ => rfl

theorem wBitFraming (v : Byte) : Statement (Instr.wBitFraming v) := fun _ => rfl

theorem rBitFraming : Statement Instr.rBitFraming := fun _ => rfl

theorem wMode (v : Byte) : Statement (Instr.wMode v) := fun _ => rfl

theorem wTxControl (v : Byte) : Statement (Instr.wTxControl v) := fun _ => rfl

theorem rTxControl : Statement Instr.rTxControl := fun _ => rfl

theorem wTxAuto (v : Byte) : Statement (Instr.wTxAuto v) := fun _ => rfl

theorem rCrcResultH : Statement Instr.rCrcResultH := fun _ => rfl

theorem rCrcResultL : Statement Instr.rCrcResultL := fun _ => rfl

theorem wTMode (v : Byte) : Statement (Instr.wTMode v) := fun _ => rfl

theorem wTPrescaler (v : Byte) : Statement (Instr.wTPrescaler v) := fun _ => rfl

theorem wTReloadH (v : Byte) : Statement (Instr.wTReloadH v) := fun _ => rfl

theorem wTReloadL (v : Byte) : Statement (Instr.wTReloadL v) := fun _ => rfl

theorem cmdIdle : Statement Instr.cmdIdle := fun _ => rfl

theorem cmdCalcCrc : Statement Instr.cmdCalcCrc := fun _ => rfl

theorem cmdTransceive : Statement Instr.cmdTransceive := fun _ => rfl

theorem cmdAuthenticate : Statement Instr.cmdAuthenticate := fun _ => rfl

theorem cmdSoftReset : Statement Instr.cmdSoftReset := fun _ => rfl

theorem cardReqa : Statement Instr.cardReqa := fun _ => .inl rfl

theorem cardAnticoll : Statement Instr.cardAnticoll := fun _ => .inr (.inl rfl)

theorem cardSelect (uid : Bytes 4) (bcc : Option Byte) (crcLow crcHigh : Byte) : Statement (Instr.cardSelect uid bcc crcLow crcHigh) := by
  intro p
  cases bcc <;> simp [Shape, Instr.format, Sys2Proof.encode, uid.2]

theorem cardAuth (mode blockAddress : Byte) (key : Bytes 6) (uid : Bytes 4) : Statement (Instr.cardAuth mode blockAddress key uid) := by
  intro p
  simp [Shape, Instr.format, Sys2Proof.encode, key.2, uid.2]

theorem cardRead (blockAddress crcLow crcHigh : Byte) : Statement (Instr.cardRead blockAddress crcLow crcHigh) := fun _ => .inr (.inr (.inl rfl))

theorem cardWrite (blockAddress crcLow crcHigh : Byte) : Statement (Instr.cardWrite blockAddress crcLow crcHigh) := fun _ => .inr (.inr (.inl rfl))

theorem cardWriteData (data : Bytes 16) (crcLow crcHigh : Byte) : Statement (Instr.cardWriteData data crcLow crcHigh) := by
  intro p
  simp [Shape, Instr.format, Sys2Proof.encode, data.2]

theorem ack : Statement Instr.ack := fun _ => rfl

theorem access (bytes : Bytes 4) : Statement (Instr.access bytes) := fun _ => bytes.2

theorem errOk : Statement Instr.errOk := fun _ => rfl

theorem errTimeoutError : Statement Instr.errTimeoutError := fun _ => rfl

theorem errProtocolError : Statement Instr.errProtocolError := fun _ => rfl

theorem errChecksumError : Statement Instr.errChecksumError := fun _ => rfl

theorem errCardNotPresentError : Statement Instr.errCardNotPresentError := fun _ => rfl

theorem errAuthReadFailure : Statement Instr.errAuthReadFailure := fun _ => rfl

theorem errAuthFailure : Statement Instr.errAuthFailure := fun _ => rfl

theorem errWriteNotAuthorizedError : Statement Instr.errWriteNotAuthorizedError := fun _ => rfl

theorem errWriteFailedError : Statement Instr.errWriteFailedError := fun _ => rfl

theorem errDataLengthError : Statement Instr.errDataLengthError := fun _ => rfl

theorem errAbandoned : Statement Instr.errAbandoned := fun _ => rfl

end Sys2Proof.Laws.Framed
end

