-- ==== Sys2Proof/Laws/Steps.lean ====
section
/-! SUPPORT. The sequencer one step at a time: what a tick of a program is, and that the ticks of an operation are
its program run whole (10_state R17, R20). -/

namespace Sys2Proof.Safety

open Sys2Proof.Machine

variable {α : Type} {P : Act → Prop} {s t u : State}

/-! ## What no program touches -/

/-- `t` has of `s` what no program writes. -/
structure Outside (s t : State) : Prop where
  op : t.pc.op = s.pc.op
  watch : t.watch = s.watch
  signal : t.signal = s.signal
  irqPrev : t.irqPrev = s.irqPrev
  irqIn : t.irqIn = s.irqIn
  rstOut : t.rstOut = s.rstOut
  result : t.result = s.result
  params : t.params = s.params
  inputs : t.inputs = s.inputs
  placed : t.placed = s.placed
  job : t.job = s.job

theorem Outside.refl (s : State) : Outside s s := ⟨rfl, rfl, rfl, rfl, rfl, rfl, rfl, rfl, rfl, rfl, rfl⟩

theorem Outside.trans (h : Outside s t) (h' : Outside t u) : Outside s u :=
  ⟨h'.1.trans h.1, h'.2.trans h.2, h'.3.trans h.3, h'.4.trans h.4, h'.5.trans h.5, h'.6.trans h.6, h'.7.trans h.7,
    h'.8.trans h.8, h'.9.trans h.9, h'.10.trans h.10, h'.11.trans h.11⟩

theorem act_outside (a : Act) (s : State) : Outside s (a.run s) := by
  cases a <;> exact ⟨rfl, rfl, rfl, rfl, rfl, rfl, rfl, rfl, rfl, rfl, rfl⟩

theorem Runs.outside {rows : List Row} (h : Runs s rows t) : Outside s t := by
  obtain ⟨_, _, _, _, _, -, -, rfl⟩ := h
  exact ⟨rfl, rfl, rfl, rfl, rfl, rfl, rfl, rfl, rfl, rfl, rfl⟩

theorem act_trace (a : Act) (s : State) : (a.run s).trace = s.trace := by cases a <;> rfl

theorem run_outside (p : Prog α) (s : State) : Outside s (p.run s).2 := by
  induction p generalizing s with
  | ret a => exact .refl s
  | ask k ih => exact ih _ s
  | act a k ih => exact (act_outside a s).trans (ih _)
  | line k ih => exact ((Runs.refl s).advance.outside).trans (ih _)
  | write r v k ih => exact (regWrite_runs r v s).outside.trans (ih _)
  | read r k ih => exact (regRead_runs r s).outside.trans (ih _ _)

theorem flow_outside (p : Prog α) (s : State) : Outside s (p.flow s).2 := by
  induction p generalizing s with
  | ret a => exact .refl s
  | ask k ih => exact ih _ s
  | act a k ih => exact (act_outside a s).trans (ih _)
  | line k ih => exact .refl s
  | write r v k ih => exact .refl s
  | read r k ih => exact .refl s

theorem flow_trace (p : Prog α) (s : State) : (p.flow s).2.trace = s.trace := by
  induction p generalizing s with
  | ret a => rfl
  | ask k ih => exact ih _ s
  | act a k ih => exact (ih _).trans (act_trace a s)
  | line k ih => rfl
  | write r v k ih => rfl
  | read r k ih => rfl

/-! ## The rest of a program -/

theorem after_append (p : Params) (q : Prog α) (l l' : List (Option Byte)) : q.after p (l ++ l') = (q.after p l).after p l' := by
  induction q generalizing l with
  | ret a => rfl
  | ask k ih => exact ih _ l
  | act a k ih => exact ih l
  | line k ih => cases l <;> [rfl; exact ih _]
  | write r v k ih => cases l <;> [rfl; exact ih _]
  | read r k ih => cases l <;> [rfl; exact ih _ _]

/-- The acts up to the next step end the program, or leave it standing before one; and running on from there is running
the whole program. -/
theorem flow_after (q : Prog α) (s : State) :
    (∃ a, (q.flow s).1 = some a ∧ q.after s.params [] = .ret a ∧ q.run s = (a, (q.flow s).2)) ∨
      (q.flow s).1 = none ∧ atStep (q.after s.params []) = true ∧
        q.run s = (q.after s.params []).run (q.flow s).2 := by
  induction q generalizing s with
  | ret a => exact .inl ⟨a, rfl, rfl, rfl⟩
  | ask k ih => exact ih _ s
  | act a k ih =>
    have h := ih (a.run s)
    rw [(act_outside a s).params] at h
    exact h
  | line k ih => exact .inr ⟨rfl, rfl, rfl⟩
  | write r v k ih => exact .inr ⟨rfl, rfl, rfl⟩
  | read r k ih => exact .inr ⟨rfl, rfl, rfl⟩

theorem Aside.flow {f : State → State} (hf : Aside P f) {p : Prog α} (hp : Acts P p) (s : State) :
    p.flow (f s) = ((p.flow s).1, f (p.flow s).2) := by
  induction p generalizing s with
  | ret a => rfl
  | ask k ih => simp only [Prog.flow, hf.params]; exact ih _ (hp _) s
  | act a k ih => simp only [Prog.flow, hf.act a s hp.1]; exact ih hp.2 _
  | line k ih => rfl
  | write r v k ih => rfl
  | read r k ih => rfl

/-- What follows the step a program stands before, when it returns `b`. -/
def following : Prog α → Option Byte → Prog α
  | .line k, _ => k
  | .write _ _ k, _ => k
  | .read _ k, b => k (b.getD 0#8)
  | q, _ => q

/-- A tick of a program that stands before a step: that step, what it returned kept, and the acts that follow. -/
theorem tick_eq (q : Prog α) (s : State) (h : atStep q = true) :
    ∃ (b : Option Byte) (u : State), q.tick s = (following q b).flow (u.take b) ∧
      q.after s.params [b] = (following q b).after s.params [] ∧ q.run s = (following q b).run u ∧
      Outside s u ∧ AtMostOne s.trace u.trace := by
  cases q with
  | ret a => cases h
  | ask k => cases h
  | act a k => cases h
  | line k => exact ⟨none, advance s, rfl, rfl, rfl, (Runs.refl s).advance.outside, .inl rfl⟩
  | write r v k => exact ⟨some _, regWrite r v s, rfl, rfl, rfl, (regWrite_runs r v s).outside, .inr ⟨_, rfl⟩⟩
  | read r k =>
    refine ⟨some (regRead r s).1, (regRead r s).2, rfl, rfl, rfl, (regRead_runs r s).outside, .inr
      ⟨⟨readByte0 (s.params.regAddr r), 0x00#8, (regRead r s).1⟩, ?_⟩⟩
    simp only [regRead]; rw [regReadAt_state_eq]; rfl

/-- A tick runs the acts before the step it makes. -/
theorem tick_flow (q : Prog α) (s : State) (h : (q.flow s).1 = none) :
    q.tick s = (q.after s.params []).tick (q.flow s).2 := by
  induction q generalizing s with
  | ret a => cases h
  | ask k ih => exact ih _ s h
  | act a k ih => have := ih (a.run s) h; rwa [(act_outside a s).params] at this
  | line k ih => rfl
  | write r v k ih => rfl
  | read r k ih => rfl

/-! ## An operation in progress -/

/-- `n` steps of the operation in progress. -/
def ticks : Nat → State → State
  | 0, s => s
  | n + 1, s => ticks n (tickJob s)

theorem tickJob_eq {i : Instr} {l : List (Option Byte)} {op : HostOp} {p : Prog Result} (hp : program i = some (op, p))
    (hj : s.job = some ⟨i, l⟩) : tickJob s = reached ((p.after s.params l).tick s) := by
  simp only [tickJob, hj, hp]

/-- The steps from `s`, in which the operation `i` stands before those of `q`, are `q` run whole: each makes at most one
transaction and touches nothing outside, and the last ends the operation. -/
def StepsAre (i : Instr) (q : Prog Result) (s : State) : Prop :=
  ∃ n l', ticks (n + 1) s = conclude (q.run s).1 ((q.run s).2.setJob (some ⟨i, l'⟩)) ∧
    AtMostOne (ticks n s).trace (q.run s).2.trace ∧
    (∀ k, k < n → AtMostOne (ticks k s).trace (ticks (k + 1) s).trace) ∧
    ∀ k, k ≤ n → ∃ l'', Outside (s.setJob (some ⟨i, l''⟩)) (ticks k s)

theorem Outside.setJob (h : Outside s t) (j : Option Job) : Outside (s.setJob j) (t.setJob j) := by
  obtain ⟨c1, c2, c3, c4, c5, c6, c7, c8, c9, c10, -⟩ := h
  exact ⟨c1, c2, c3, c4, c5, c6, c7, c8, c9, c10, rfl⟩

/-- One tick, and then the steps of what follows it. -/
theorem StepsAre.tick {i : Instr} {l : List (Option Byte)} {op : HostOp} {p q : Prog Result}
    (hp : program i = some (op, p)) (hj : s.job = some ⟨i, l⟩) (ha : p.after s.params l = q) (hq : atStep q = true)
    (ih : ∀ (b : Option Byte) (s' : State), s'.job = some ⟨i, l ++ [b]⟩ →
      p.after s'.params (l ++ [b]) = (following q b).after s'.params [] →
      atStep ((following q b).after s'.params []) = true → StepsAre i ((following q b).after s'.params []) s') :
    StepsAre i q s := by
  obtain ⟨b, u, ht, hb, hr, ho, hx⟩ := tick_eq q s hq
  replace ih := ih b
  revert ht hb hr ih
  generalize following q b = k
  intro ht hb hr ih
  have hp1 : u.params = s.params := ho.params
  have e1 : tickJob s = reached (k.flow (u.setJob (some ⟨i, l ++ [b]⟩))) := by
    rw [tickJob_eq hp hj, ha, ht, State.take, ho.job, hj]; rfl
  rw [(setJob_aside (some ⟨i, l ++ [b]⟩)).flow (acts_true k) u] at e1
  have hself : Outside (s.setJob (some ⟨i, l⟩)) s := by
    have : s.setJob (some ⟨i, l⟩) = s := by rw [← hj]; rfl
    rw [this]; exact .refl s
  rw [StepsAre, hr]
  rcases flow_after k u with ⟨a, h1, h2, h3⟩ | ⟨h1, h2, h3⟩
  · refine ⟨0, l ++ [b], ?_, ?_, nofun, fun m hm => ?_⟩
    · rw [ticks, e1, h1, h3]; rfl
    · rw [h3]; show AtMostOne s.trace (k.flow u).2.trace; rw [flow_trace]; exact hx
    · obtain rfl : m = 0 := by omega
      exact ⟨l, hself⟩
  · have hparams : ((k.flow u).2.setJob (some ⟨i, l ++ [b]⟩)).params = s.params := (flow_outside k u).params.trans hp1
    have hu : tickJob s = (k.flow u).2.setJob (some ⟨i, l ++ [b]⟩) := by rw [e1, h1]; rfl
    obtain ⟨n, l', e, hlast, hone, hmid⟩ := ih (tickJob s) (by rw [hu]; rfl)
      (by rw [hu, hparams, after_append, ha, hb]) (by rw [hu, hparams, ← hp1]; exact h2)
    have hrun : (k.after (tickJob s).params []).run (tickJob s) =
        ((k.run u).1, (k.run u).2.setJob (some ⟨i, l ++ [b]⟩)) := by
      rw [hu, hparams, ← hp1, (setJob_aside _).run (acts_true _), ← h3]
    have htr : AtMostOne s.trace (tickJob s).trace := by
      rw [hu]; show AtMostOne s.trace (k.flow u).2.trace; rw [flow_trace]; exact hx
    rw [hrun] at e hlast
    refine ⟨n + 1, l', ?_, hlast, fun m hm => ?_, fun m hm => ?_⟩
    · rw [ticks, e]; rfl
    · cases m with
      | zero => exact htr
      | succ m => exact hone m (by omega)
    · cases m with
      | zero => exact ⟨l, hself⟩
      | succ m =>
        obtain ⟨l'', g2⟩ := hmid m (by omega)
        refine ⟨l'', Outside.trans ?_ g2⟩
        rw [hu]
        exact (ho.trans (flow_outside k u)).setJob _

/-- An operation in progress that stands before a step goes on, one step at a time, as the rest of its program run whole. -/
theorem steps_are {i : Instr} {op : HostOp} {p : Prog Result} (hp : program i = some (op, p)) (q : Prog Result) :
    ∀ (s : State) (l : List (Option Byte)), s.job = some ⟨i, l⟩ → p.after s.params l = q.after s.params [] →
      atStep (q.after s.params []) = true → StepsAre i (q.after s.params []) s := by
  induction q with
  | ret a => intro s l _ _ h; cases h
  | ask k ih => exact fun s l hj ha h => ih s.params s l hj ha h
  | act a k ih => exact ih
  | line k ih =>
    exact fun s l hj ha h => StepsAre.tick hp hj ha h fun b s' hj' ha' h' => ih s' (l ++ [b]) hj' ha' h'
  | write r v k ih =>
    exact fun s l hj ha h => StepsAre.tick hp hj ha h fun b s' hj' ha' h' => ih s' (l ++ [b]) hj' ha' h'
  | read r k ih =>
    exact fun s l hj ha h => StepsAre.tick hp hj ha h fun b s' hj' ha' h' => ih (b.getD 0#8) s' (l ++ [b]) hj' ha' h'

/-! ## The meaning of an operation and its steps -/

/-- `present` is `finish` with the outcome as a result. -/
theorem present_of (f : α → Result) (x : Except ErrKind α × State) : present f (Res.of x) = finish (resultOf f x.1) x.2 := by
  obtain ⟨_ | _, _⟩ := x <;> rfl

/-- The meaning of an operation that has a program: that program run whole, and the end. -/
theorem exec_program {i : Instr} {op : HostOp} {p : Prog Result} (hp : program i = some (op, p)) (s : State) :
    exec i s = admitted i s (.next (finish (p.run (begin op s)).1 (p.run (begin op s)).2)) := by
  cases i <;> cases hp
  case execute c d => rw [run_bind]; exact congrArg (fun x => admitted (.execute c d) s (.next x)) (present_of _ _)
  case computeCrc d => rw [run_bind]; exact congrArg (fun x => admitted (.computeCrc d) s (.next x)) (present_of _ _)
  case request => rw [run_bind]; exact congrArg (fun x => admitted .request s (.next x)) (present_of _ _)
  case antiCollision => rw [run_bind]; exact congrArg (fun x => admitted .antiCollision s (.next x)) (present_of _ _)
  case selectTag u => rw [run_bind]; exact congrArg (fun x => admitted (.selectTag u) s (.next x)) (present_of _ _)
  case readBlock b => rw [run_bind]; exact congrArg (fun x => admitted (.readBlock b) s (.next x)) (present_of _ _)
  case writeBlock b d => rw [run_bind]; exact congrArg (fun x => admitted (.writeBlock b d) s (.next x)) (present_of _ _)
  all_goals rw [run_bind]; rfl

theorem program_op {i : Instr} {op : HostOp} {p : Prog Result} (hp : program i = some (op, p)) :
    op ≠ .selectCard ∧ op ≠ .wait := by
  cases i <;> cases hp <;> exact ⟨nofun, nofun⟩

theorem conclude_finish (h : s.pc.op ≠ some .selectCard) (r : Result) : conclude r s = finish r s := by
  rw [conclude]
  split
  next h' _ => exact absurd h' h
  next => rfl

theorem finish_setJob (r : Result) (j : Option Job) (s : State) : finish r (s.setJob j) = finish r s := rfl

/-- An operation reached: it holds its operands, and the acts up to its first step are done. -/
def reachedProgram (op : HostOp) (i : Instr) (p : Prog Result) (s : State) : State :=
  (p.flow (begin op s)).2.setJob (some ⟨i, []⟩)

/-- Beginning an operation makes its first step. -/
theorem beginProgram_eq {i : Instr} {op : HostOp} {p : Prog Result} (hp : program i = some (op, p)) (s : State)
    (hn : (p.flow (begin op s)).1 = none) : beginProgram op i p s = tickJob (reachedProgram op i p s) := by
  have hf : p.flow ((begin op s).setJob (some ⟨i, []⟩)) = (none, reachedProgram op i p s) := by
    rw [(setJob_aside _).flow (acts_true p), hn]; rfl
  have hpar : (reachedProgram op i p s).params = ((begin op s).setJob (some ⟨i, []⟩)).params :=
    (flow_outside p (begin op s)).params
  rw [tickJob_eq hp (l := []) rfl, beginProgram, tick_flow p _ (congrArg Prod.fst hf), hf, hpar]

/-- The steps of an operation begun: they make its transactions, each at most one, and leave what its program run whole
leaves. -/
theorem beginProgram_ticks {i : Instr} {op : HostOp} {p : Prog Result} (hp : program i = some (op, p)) (s : State)
    (hn : (p.flow (begin op s)).1 = none) :
    ∃ n, ticks (n + 1) (reachedProgram op i p s) = finish (p.run (begin op s)).1 (p.run (begin op s)).2 ∧
      AtMostOne (ticks n (reachedProgram op i p s)).trace (p.run (begin op s)).2.trace ∧
      (∀ k, k < n → AtMostOne (ticks k (reachedProgram op i p s)).trace (ticks (k + 1) (reachedProgram op i p s)).trace) ∧
      ∀ k, k ≤ n → ∃ l, Outside ((begin op s).setJob (some ⟨i, l⟩)) (ticks k (reachedProgram op i p s)) := by
  have hc : ∀ (r : Result) (u : State) (l : List (Option Byte)), u.pc.op = some op →
      conclude r (u.setJob (some ⟨i, l⟩)) = finish r u := fun r u l hu =>
    (conclude_finish (by show u.pc.op ≠ _; rw [hu]; exact fun h => (program_op hp).1 (by cases h; rfl)) r).trans rfl
  rcases flow_after p (begin op s) with ⟨a, h1, -⟩ | ⟨h1, h2, h3⟩
  · rw [hn] at h1; cases h1
  have hpar : (reachedProgram op i p s).params = (begin op s).params := (flow_outside p _).params
  obtain ⟨n, l', e, hlast, hone, hmid⟩ := steps_are hp p (reachedProgram op i p s) [] rfl rfl (by rw [hpar]; exact h2)
  have hrun : (p.after (reachedProgram op i p s).params []).run (reachedProgram op i p s) =
      ((p.run (begin op s)).1, (p.run (begin op s)).2.setJob (some ⟨i, []⟩)) := by
    rw [hpar, h3, reachedProgram, (setJob_aside _).run (acts_true _)]
  rw [hrun] at e hlast
  refine ⟨n, ?_, hlast, hone, fun k hk => ?_⟩
  · rw [e]; exact hc _ _ _ (run_outside p _).op
  · obtain ⟨l, g⟩ := hmid k hk
    exact ⟨l, Outside.trans ((flow_outside p (begin op s)).setJob _) g⟩

theorem reachedProgram_trace (op : HostOp) (i : Instr) (p : Prog Result) (s : State) :
    (reachedProgram op i p s).trace = s.trace := flow_trace p (begin op s)

/-- Every operation with a program makes at least one step. -/
theorem program_flow {i : Instr} {op : HostOp} {p : Prog Result} (hp : program i = some (op, p)) (s : State) :
    (p.flow s).1 = none := by
  cases i <;> cases hp <;> rfl

/-! ## The sequence of selectCard -/

/-- The steps of `selectCard` after its wait. -/
def IsStage (i : Instr) : Prop :=
  i = .reset ∨ i = .init ∨ i = .request ∨ i = .antiCollision ∨ ∃ u, i = .selectTag u

/-- How many steps of `selectCard` there are from one on. -/
def stagesFrom : Instr → Nat
  | .reset => 5
  | .init => 4
  | .request => 3
  | .antiCollision => 2
  | _ => 1

theorem nextStage_from {i j : Instr} {r : Result} (h : nextStage i r = some j) :
    stagesFrom j + 1 = stagesFrom i ∧ IsStage j := by
  unfold nextStage at h
  split at h
  · cases h
  · split at h <;> cases h <;> simp [stagesFrom, IsStage]

/-- Each of those operations has a program, with a step. -/
theorem IsStage.program {i : Instr} (h : IsStage i) :
    ∃ op p, program i = some (op, p) ∧ ∀ s : State, (p.flow s).1 = none := by
  rcases h with rfl | rfl | rfl | rfl | ⟨u, rfl⟩ <;> exact ⟨_, _, rfl, fun _ => rfl⟩

theorem stages_succ (n : Nat) {i : Instr} {op : HostOp} {p : Prog Result} (hp : program i = some (op, p)) (s : State) :
    stages (n + 1) i s = match nextStage i (p.run (s.setWork Work.empty)).1 with
      | some j => stages n j (p.run (s.setWork Work.empty)).2
      | none => finish (p.run (s.setWork Work.empty)).1 (p.run (s.setWork Work.empty)).2 := by
  rw [stages]; simp only [hp] <;> rfl

/-- Which job is held makes no difference to a step begun, nor to the sequence run whole. -/
theorem startStage_setJob (x : Option Job) {i : Instr} (hi : IsStage i) (s : State) :
    startStage i (s.setJob x) = startStage i s := by
  obtain ⟨op, p, hp, -⟩ := hi.program
  simp only [startStage, hp]; rfl

theorem stages_setJob (x : Option Job) (n : Nat) (i : Instr) (s : State) (hn : stagesFrom i ≤ n) (hi : IsStage i) :
    stages n i (s.setJob x) = stages n i s := by
  induction n generalizing i s with
  | zero => cases i <;> simp [stagesFrom] at hn
  | succ n ih =>
    obtain ⟨op, p, hp, -⟩ := hi.program
    have hr : p.run ((s.setJob x).setWork Work.empty) =
        ((p.run (s.setWork Work.empty)).1, (p.run (s.setWork Work.empty)).2.setJob x) :=
      (setJob_aside x).run (acts_true p) (s.setWork Work.empty)
    rw [stages_succ n hp, stages_succ n hp, hr]
    cases h : nextStage i (p.run (s.setWork Work.empty)).1 with
    | none => rfl
    | some j =>
      obtain ⟨h1, h2⟩ := nextStage_from h
      exact ih j _ (by omega) h2

/-- The end of a step of `selectCard` begins the next, or ends the operation. -/
theorem conclude_stage (h : u.pc.op = some .selectCard) (r : Result) (i : Instr) (l : List (Option Byte)) :
    conclude r (u.setJob (some ⟨i, l⟩)) =
      match nextStage i r with
      | some j => startStage j u
      | none => finish r u := by
  have hc : conclude r (u.setJob (some ⟨i, l⟩)) = match nextStage i r with
      | some j => startStage j (u.setJob (some ⟨i, l⟩))
      | none => finish r (u.setJob (some ⟨i, l⟩)) := by
    simp only [conclude, State.setJob_pc, h, State.setJob_job] <;> rfl
  rw [hc]
  cases hn : nextStage i r with
  | none => rfl
  | some j => exact startStage_setJob _ (nextStage_from hn).2 u

theorem ticks_add (a b : Nat) (s : State) : ticks (a + b) s = ticks b (ticks a s) := by
  induction a generalizing s with
  | zero => rw [Nat.zero_add]; rfl
  | succ a ih => rw [Nat.add_right_comm]; exact ih _

/-- An operation of `selectCard` reached has made no transaction. -/
theorem startStage_trace {i : Instr} (hi : IsStage i) (s : State) : (startStage i s).trace = s.trace := by
  obtain ⟨op, p, hp, hnone⟩ := hi.program
  simp only [startStage, hp]
  generalize hw : (s.setWork Work.empty).setJob (some ⟨i, []⟩) = w
  have h4 : p.flow w = (none, (p.flow w).2) := by rw [← hnone w]
  rw [h4]; show (p.flow w).2.trace = _; rw [flow_trace, ← hw]; rfl

/-- The operations of `selectCard` after its wait, one step at a time, are the sequence run whole. -/
theorem startStage_ticks (m : Nat) (i : Instr) (s : State) (hop : s.pc.op = some .selectCard) (hm : stagesFrom i ≤ m)
    (hi : IsStage i) :
    ∃ n, ticks (n + 1) (startStage i s) = stages m i s ∧
      (∀ k, k ≤ n → AtMostOne (ticks k (startStage i s)).trace (ticks (k + 1) (startStage i s)).trace) ∧
      ∀ k, k ≤ n → ∃ j l, IsStage j ∧ Outside (s.setJob (some ⟨j, l⟩)) (ticks k (startStage i s)) := by
  induction m generalizing i s with
  | zero => cases i <;> simp [stagesFrom] at hm
  | succ m ih =>
    obtain ⟨op, p, hp, hnone⟩ := hi.program
    generalize hs1 : s.setWork Work.empty = s1
    have hout1 : Outside s s1 := by rw [← hs1]; exact ⟨rfl, rfl, rfl, rfl, rfl, rfl, rfl, rfl, rfl, rfl, rfl⟩
    have hflow : p.flow (s1.setJob (some ⟨i, []⟩)) = ((p.flow s1).1, (p.flow s1).2.setJob (some ⟨i, []⟩)) :=
      (setJob_aside _).flow (acts_true p) s1
    have hs : startStage i s = (p.flow s1).2.setJob (some ⟨i, []⟩) := by
      simp only [startStage, hp, hs1, hflow, hnone]
    have hpar : (startStage i s).params = s1.params := by rw [hs]; exact (flow_outside p s1).params
    rcases flow_after p s1 with ⟨a, h1, -⟩ | ⟨-, h2, h3⟩
    · rw [hnone] at h1; cases h1
    -- this operation
    obtain ⟨n, l', e, hlast, hone, hmid⟩ := steps_are hp p (startStage i s) [] (by rw [hs]; rfl) rfl (by rw [hpar]; exact h2)
    have hrun : (p.after (startStage i s).params []).run (startStage i s) =
        ((p.run s1).1, (p.run s1).2.setJob (some ⟨i, []⟩)) := by
      rw [hpar, h3, hs, (setJob_aside _).run (acts_true _)]
    rw [hrun] at e hlast
    replace hlast : AtMostOne (ticks n (startStage i s)).trace (p.run s1).2.trace := hlast
    have hout : Outside s (p.run s1).2 := hout1.trans (run_outside p s1)
    have hstay : ∀ k, k ≤ n → ∃ j l, IsStage j ∧ Outside (s.setJob (some ⟨j, l⟩)) (ticks k (startStage i s)) := fun k hk => by
      obtain ⟨l, ho⟩ := hmid k hk
      refine ⟨i, l, hi, Outside.trans ?_ ho⟩
      rw [hs]; exact (hout1.trans (flow_outside p s1)).setJob _
    have hc : ticks (n + 1) (startStage i s) =
        match nextStage i (p.run s1).1 with
        | some j => startStage j (p.run s1).2
        | none => finish (p.run s1).1 (p.run s1).2 := by
      rw [e]; exact conclude_stage (u := (p.run s1).2) (hout.op.trans hop) _ i l'
    rw [stages_succ m hp, hs1]
    cases h : nextStage i (p.run s1).1 with
    | none =>
      rw [h] at hc
      refine ⟨n, hc, fun k hk => ?_, hstay⟩
      by_cases hkn : k < n
      · exact hone k hkn
      · obtain rfl : k = n := by omega
        rw [hc]; exact hlast
    | some j =>
      rw [h] at hc
      simp only [] at hc ⊢
      obtain ⟨h1, h2⟩ := nextStage_from h
      obtain ⟨n', e', hone', hmid'⟩ := ih j (p.run s1).2 (hout.op.trans hop) (by omega) h2
      have htr : (startStage j (p.run s1).2).trace = (p.run s1).2.trace := startStage_trace h2 _
      have hmore : ∀ d, ticks (n + 1 + d) (startStage i s) = ticks d (startStage j (p.run s1).2) := fun d => by
        rw [ticks_add, hc]
      refine ⟨n + 1 + n', ?_, fun k hk => ?_, fun k hk => ?_⟩
      · rw [Nat.add_assoc, hmore]; exact e'
      · by_cases hkn : k < n
        · exact hone k hkn
        by_cases hkn' : k = n
        · subst hkn'; rw [hc, htr]; exact hlast
        · obtain ⟨d, rfl⟩ : ∃ d, k = n + 1 + d := ⟨k - (n + 1), by omega⟩
          rw [hmore, Nat.add_assoc, hmore]; exact hone' d (by omega)
      · by_cases hkn : k ≤ n
        · exact hstay k hkn
        · obtain ⟨d, rfl⟩ : ∃ d, k = n + 1 + d := ⟨k - (n + 1), by omega⟩
          obtain ⟨j', l'', hj', ho⟩ := hmid' d (by omega)
          rw [hmore]
          exact ⟨j', l'', hj', Outside.trans (hout.setJob _) ho⟩

/-! ## Steps of the machine -/

/-- With no move scripted next, a step of the machine in the middle of an operation other than a wait is a tick. -/
theorem step_tick (hop : s.pc.op ≠ none) (hw : inWait s = false) (hi : ∀ m rest, s.inputs ≠ .move m :: rest) :
    step s = .next (tickJob s) := by
  have h1 : nextPlaced s = none := by
    simp only [nextPlaced]; split <;> simp [hop]
  have h2 : nextRequest s = none := by
    simp only [nextRequest]; split <;> simp [hop]
  have h3 : unscripted s = .next (tickJob s) := by
    simp [unscripted, atWaitPoint, hw, turn, Option.isSome_iff_ne_none, hop]
  rw [step, h1]
  cases hl : s.inputs with
  | nil => simp only [h2, h3]
  | cons x l =>
    cases x with
    | move m => exact absurd hl (hi m l)
    | request b => simp only [h2, h3]

/-- As many steps of the machine as ticks of an operation in progress. -/
theorem steps_ticks (n : Nat) (s : State)
    (h : ∀ k, k < n → (ticks k s).pc.op ≠ none ∧ inWait (ticks k s) = false ∧
      ∀ m rest, (ticks k s).inputs ≠ .move m :: rest) : steps n s = .next (ticks n s) := by
  induction n generalizing s with
  | zero => rfl
  | succ n ih =>
    obtain ⟨h1, h2, h3⟩ := h 0 (by omega)
    have h4 : step s = .next (tickJob s) := step_tick h1 h2 h3
    rw [steps, h4]
    exact ih _ fun k hk => h (k + 1) (by omega)

end Sys2Proof.Safety
end

