-- ==== Sys2Proof/Laws/Phase.lean ====
section
/-! SUPPORT. PHASE in the sequencer: every step of an operation makes it one more, but for the poll loops, which go back to the
read just made (10_state R21, R22). -/

namespace Sys2Proof.Safety

open Sys2Proof.Machine

variable {α β : Type} {s t : State}

/-- The acts up to the next step leave PHASE. -/
def StaysPut (p : Prog α) : Prop := ∀ s, (p.flow s).2.pc.phase = s.pc.phase

/-- The acts up to the next step leave PHASE, or count an iteration and go back by one, to another read. -/
def LoopsBack (p : Prog α) : Prop :=
  ∀ s, (p.flow s).2.pc.phase = s.pc.phase ∨
    ((p.flow s).1 = none ∧ (p.flow s).2.pc.phase = s.pc.phase - 1 ∧ (p.flow s).2.pc.iter = s.pc.iter + 1)

/-- Only the acts after a read go back. -/
def Paced : Prog α → Prop
  | .ret _ => True
  | .ask k => ∀ p, Paced (k p)
  | .act _ k => Paced k
  | .line k => StaysPut k ∧ Paced k
  | .write _ _ k => StaysPut k ∧ Paced k
  | .read _ k => ∀ b, LoopsBack (k b) ∧ Paced (k b)

/-- A program that is paced, and whose first acts do not go back. -/
def Forward (p : Prog α) : Prop := StaysPut p ∧ Paced p

theorem flow_bind (p : Prog α) (f : α → Prog β) (s : State) :
    (p.bind f).flow s = match p.flow s with
      | (some a, t) => (f a).flow t
      | (none, t) => (none, t) := by
  induction p generalizing s with
  | ret a => rfl
  | ask k ih => exact ih _ s
  | act a k ih => exact ih _
  | line k ih => rfl
  | write r v k ih => rfl
  | read r k ih => rfl

theorem StaysPut.bind {p : Prog α} (hp : StaysPut p) {f : α → Prog β} (hf : ∀ a, StaysPut (f a)) : StaysPut (p.bind f) := by
  intro s
  rw [flow_bind, ← hp s]
  obtain ⟨_ | a, t⟩ := p.flow s <;> [rfl; exact hf a t]

theorem LoopsBack.bind {p : Prog α} (hp : LoopsBack p) {f : α → Prog β} (hf : ∀ a, StaysPut (f a)) : LoopsBack (p.bind f) := by
  intro s
  rw [flow_bind]
  rcases hx : p.flow s with ⟨_ | a, t⟩ <;> have h := hp s <;> rw [hx] at h
  · rcases h with h | ⟨-, h⟩ <;> [exact .inl h; exact .inr ⟨rfl, h⟩]
  · rcases h with h | ⟨h, -⟩ <;> [exact .inl ((hf a t).trans h); cases h]

theorem Forward.bind {p : Prog α} (hp : Forward p) {f : α → Prog β} (hf : ∀ a, Forward (f a)) : Forward (p.bind f) := by
  refine ⟨hp.1.bind fun a => (hf a).1, ?_⟩
  replace hp := hp.2
  induction p with
  | ret a => exact (hf a).2
  | ask k ih => exact fun P => ih P (hp P)
  | act a k ih => exact ih hp
  | line k ih => exact ⟨hp.1.bind fun a => (hf a).1, ih hp.2⟩
  | write r v k ih => exact ⟨hp.1.bind fun a => (hf a).1, ih hp.2⟩
  | read r k ih => exact fun b => ⟨(hp b).1.bind fun a => (hf a).1, ih b (hp b).2⟩

theorem Forward.orRaise {p : Prog (Except ErrKind α)} (hp : Forward p) {f : α → Prog (Except ErrKind β)}
    (hf : ∀ a, Forward (f a)) : Forward (p.orRaise f) :=
  hp.bind fun x => by cases x <;> [exact ⟨fun _ => rfl, trivial⟩; exact hf _]

theorem Forward.ret (a : α) : Forward (.ret a) := ⟨fun _ => rfl, trivial⟩

theorem Forward.ask {k : Params → Prog α} (h : ∀ p, Forward (k p)) : Forward (.ask k) :=
  ⟨fun s => (h s.params).1 s, fun p => (h p).2⟩

theorem Forward.act {a : Act} (ha : a ≠ .back) {k : Prog α} (h : Forward k) : Forward (.act a k) :=
  ⟨fun s => (h.1 (a.run s)).trans (by cases a <;> first | exact absurd rfl ha | rfl), h.2⟩

theorem Forward.line {k : Prog α} (h : Forward k) : Forward (.line k) := ⟨fun _ => rfl, h⟩

theorem Forward.write {r : Reg} {v : Byte} {k : Prog α} (h : Forward k) : Forward (.write r v k) := ⟨fun _ => rfl, h⟩

theorem Forward.read {r : Reg} {k : Byte → Prog α} (h : ∀ b, Forward (k b)) : Forward (.read r k) :=
  ⟨fun _ => rfl, fun b => ⟨fun s => .inl ((h b).1 s), (h b).2⟩⟩

theorem Forward.ite (c : Prop) [Decidable c] {p q : Prog α} (hp : Forward p) (hq : Forward q) :
    Forward (if c then p else q) := by
  split_ifs <;> assumption

/-- The act is not the backward move. -/
def KeepsPhase : Act → Prop
  | .back => False
  | .note _ | .iter _ | .pstate _ | .uid _ | .cfg _ | .authd _ | .clearSession | .openSession _ _ => True

/-- A program without a backward move goes forward. -/
theorem Acts.forward {p : Prog α} (hp : Acts KeepsPhase p) : Forward p := by
  induction p with
  | ret a => exact .ret a
  | ask k ih => exact .ask fun p => ih p (hp p)
  | act a k ih => exact ⟨fun s => ((ih hp.2).1 _).trans (by cases a <;> first | exact hp.1.elim | rfl), (ih hp.2).2⟩
  | line k ih => exact (ih hp).line
  | write r v k ih => exact (ih hp).write
  | read r k ih => exact .read fun b => ih b (hp b)

/-! ## The operations go forward -/

theorem pollLoopProg_forward (r : Reg) (mask : Byte) (n : Nat) : Forward (pollLoopProg r mask n) := by
  induction n with
  | zero => exact .ret _
  | succ n ih =>
    refine ⟨fun _ => rfl, fun b => ?_⟩
    beta_reduce
    by_cases h : anySet b mask = true
    · rw [if_pos h]; exact ⟨fun _ => .inl rfl, trivial⟩
    by_cases hn : n = 0
    · rw [if_neg h, if_pos hn]; exact ⟨fun _ => .inl rfl, trivial⟩
    · rw [if_neg h, if_neg hn]
      obtain ⟨m, rfl⟩ := Nat.exists_eq_succ_of_ne_zero hn
      exact ⟨fun _ => .inr ⟨rfl, rfl, rfl⟩, ih.2⟩

theorem pollProg_forward (r : Reg) (mask : Byte) (n : Nat) : Forward (pollProg r mask n) :=
  .line ⟨fun _ => (pollLoopProg_forward r mask n).1 _, (pollLoopProg_forward r mask n).2⟩

theorem writeFifoProg_forward (l : List Byte) : Forward (writeFifoProg l) := by
  induction l with
  | nil => exact .ret _
  | cons b l ih => exact ih.write

theorem writeAllProg_forward (l : List (Reg × Byte)) : Forward (writeAllProg l) := by
  induction l with
  | nil => exact .ret _
  | cons x l ih => exact ih.write

theorem drainFifoProg_keepsPhase (rx : List Byte) (n : Nat) : Acts KeepsPhase (drainFifoProg rx n) := by
  induction n generalizing rx with
  | zero => trivial
  | succ n ih => exact fun b => ⟨trivial, ih _⟩

theorem setBitsProg_forward (r : Reg) (m : Byte) : Forward (setBitsProg r m) :=
  Acts.forward fun _ => ⟨trivial, trivial⟩

theorem clearBitsProg_forward (r : Reg) (m : Byte) : Forward (clearBitsProg r m) :=
  Acts.forward fun _ => ⟨trivial, trivial⟩

theorem flushFifoProg_forward : Forward flushFifoProg := .ask fun _ => setBitsProg_forward _ _

theorem writeCommandProg_forward (c : ChipCommand) : Forward (writeCommandProg c) := .ask fun _ => .write (.ret _)

theorem raiseProg_forward (e : ErrKind) : Forward (raiseProg e : Prog (Except ErrKind α)) :=
  ⟨fun _ => rfl, trivial⟩

theorem executeProg_forward (c : ChipCommand) (d : List Byte) : Forward (executeProg c d) := by
  have hs : Forward (executeStartProg c d) := by
    refine .act (by nofun) (.line (.act (by nofun) (.write ((clearBitsProg_forward _ _).bind fun _ =>
      flushFifoProg_forward.bind fun _ => (writeCommandProg_forward _).bind fun _ => (writeFifoProg_forward _).bind fun _ =>
      (writeCommandProg_forward _).bind fun _ => .line ?_))))
    cases c <;> first | exact setBitsProg_forward _ _ | exact .ret _
  have hr : Acts KeepsPhase receiveProg :=
    fun _ => ⟨trivial, fun _ => ⟨trivial, (drainFifoProg_keepsPhase _ _).bind fun _ => trivial⟩⟩
  have he : Acts KeepsPhase (executeResultProg c) :=
    fun _ => ⟨trivial, .ite _ ⟨trivial, trivial⟩ (by cases c <;> first | exact hr | exact ⟨trivial, trivial⟩)⟩
  exact hs.bind fun _ => (pollProg_forward _ _ _).bind fun _ => (clearBitsProg_forward _ _).bind fun _ =>
    .line (.ite _ he.forward (raiseProg_forward _))

theorem computeCrcProg_forward (d : List Byte) : Forward (computeCrcProg d) := by
  have hs : Forward (crcStartProg d) :=
    .act (by nofun) ((clearBitsProg_forward _ _).bind fun _ => flushFifoProg_forward.bind fun _ =>
      (writeFifoProg_forward _).bind fun _ => writeCommandProg_forward _)
  have hr : Acts KeepsPhase crcResultProg := fun _ => ⟨trivial, fun _ => ⟨trivial, trivial⟩⟩
  exact hs.bind fun _ => (pollProg_forward _ _ _).bind fun _ => .line (.ask fun _ => .ite _ (raiseProg_forward _) hr.forward)

theorem Forward.tested {p : Prog α} (h : Forward p) : Forward (testedProg p) := h.bind fun _ => .line (.ret _)

theorem sendWithCrcProg_forward (f : List Byte) : Forward (sendWithCrcProg f) :=
  (computeCrcProg_forward f).tested.orRaise fun _ => (executeProg_forward _ _).tested

theorem stopCryptoProg_forward : Forward stopCryptoProg :=
  (clearBitsProg_forward _ _).bind fun _ => .line (.act (by nofun) (.ret _))

theorem tornDown_forward (a : α) : Forward (tornDown a) :=
  Forward.bind (.ask fun _ => .ite _ stopCryptoProg_forward (.ret _)) fun _ => .ret _

theorem antiCollisionProg_forward : Forward antiCollisionProg := by
  refine .write ((executeProg_forward _ _).tested.bind fun r => ?_)
  rcases r with _ | x
  · exact .act (by nofun) (.ret _)
  · refine .line (.ite _ (.act (by nofun) (.ret _)) (.line ?_))
    cases acceptedUid x.data <;> [exact .act (by nofun) (.ret _); exact .line (.act (by nofun) (.act (by nofun) (.line (.ret _))))]

theorem authenticateProg_forward (mode block : Byte) (key : Bytes 6) (uid : Bytes 4) :
    Forward (authenticateProg mode block key uid) := by
  refine .line ((executeProg_forward _ _).tested.bind fun r => ?_)
  rcases r with _ | x
  · exact tornDown_forward _
  · exact .read fun _ => .act (by nofun) (.ask fun _ => .ite _ (tornDown_forward _)
      (.line (.act (by nofun) (.line (.ret _)))))

theorem readBlockProg_forward (block : Byte) : Forward (readBlockProg block) := by
  refine .line ((sendWithCrcProg_forward _).bind fun r => ?_)
  rcases r with _ | x
  · exact tornDown_forward _
  · exact .line (.ite _ (.line (.ret _)) (tornDown_forward _))

theorem writePhaseProg_forward (e : ErrKind) (f : List Byte) : Forward (writePhaseProg e f) := by
  refine (computeCrcProg_forward _).tested.bind fun c => ?_
  rcases c with _ | c
  · exact tornDown_forward _
  · refine (executeProg_forward _ _).tested.bind fun r => ?_
    rcases r with _ | x
    · exact tornDown_forward _
    · exact .ite _ (.ret _) (tornDown_forward _)

/-- Every operation that has a program goes forward. -/
theorem program_forward {i : Instr} {op : HostOp} {p : Prog Result} (hp : program i = some (op, p)) : Forward p := by
  cases i <;> cases hp <;> refine Forward.bind ?_ fun _ => .ret _
  case execute c d => exact executeProg_forward c d
  case computeCrc d => exact computeCrcProg_forward d
  case reset =>
    exact .line (.act (by nofun) ((writeCommandProg_forward _).bind fun _ => .line (.act (by nofun) (.act (by nofun) (.ret _)))))
  case init =>
    exact (writeAllProg_forward _).bind fun _ => .read fun _ => .act (by nofun) (.line (.ite _
      (.line (.act (by nofun) (.ret _))) (.write (.line (.act (by nofun) (.ret _))))))
  case request =>
    refine .write ((executeProg_forward _ _).tested.bind fun r => ?_)
    rcases r with _ | x
    · exact .ret _
    · exact .ite _ (.line (.act (by nofun) (.ret _))) (.ret _)
  case antiCollision => exact antiCollisionProg_forward
  case selectTag u =>
    exact .line (.ask fun _ => (sendWithCrcProg_forward _).orRaise fun _ =>
      .line (.act (by nofun) (.line (.act (by nofun) (.act (by nofun) (.line (.ret _)))))))
  case authenticate m b k u => exact authenticateProg_forward m b k u
  case readBlock b => exact readBlockProg_forward b
  case writeBlock b d =>
    exact .line ((writePhaseProg_forward _ _).orRaise fun _ => (writePhaseProg_forward _ _).orRaise fun _ => .line (.ret _))
  case stopCrypto => exact stopCryptoProg_forward

/-! ## One step -/

theorem Paced.after {p : Prog α} (h : Paced p) (P : Params) (l : List (Option Byte)) : Paced (p.after P l) := by
  induction p generalizing l with
  | ret a => trivial
  | ask k ih => exact ih P (h P) l
  | act a k ih => exact ih h l
  | line k ih => cases l <;> [exact h; exact ih h.2 _]
  | write r v k ih => cases l <;> [exact h; exact ih h.2 _]
  | read r k ih => cases l <;> [exact h; exact ih _ (h _).2 _]

/-- PHASE is one more in `t` than in `s`, or a poll loop has gone back to its read, which ITER has counted. -/
def Advanced (s t : State) : Prop :=
  t.pc.phase = s.pc.phase + 1 ∨ (t.pc.phase = s.pc.phase ∧ t.pc.iter = s.pc.iter + 1)

theorem regRead_pc (r : Reg) (s : State) : (regRead r s).2.pc = { s.pc with phase := s.pc.phase + 1 } := by
  simp only [regRead]; rw [regReadAt_state_eq]

/-- One tick of a paced program; one that goes back does not end it. -/
theorem Paced.tick {q : Prog α} (h : Paced q) (hq : atStep q = true) (s : State) :
    (q.tick s).2.pc.phase = s.pc.phase + 1 ∨
      ((q.tick s).1 = none ∧ (q.tick s).2.pc.phase = s.pc.phase ∧ (q.tick s).2.pc.iter = s.pc.iter + 1) := by
  cases q with
  | ret a => cases hq
  | ask k => cases hq
  | act a k => cases hq
  | line k => exact .inl (h.1 _)
  | write r v k => exact .inl (h.1 _)
  | read r k =>
    have hpc : ((regRead r s).2.take (some (regRead r s).1)).pc = { s.pc with phase := s.pc.phase + 1 } := regRead_pc r s
    rcases (h (regRead r s).1).1 ((regRead r s).2.take (some (regRead r s).1)) with h' | ⟨h0, h1, h2⟩
    · exact .inl (h'.trans (by rw [hpc]))
    · rw [hpc] at h1 h2; exact .inr ⟨h0, h1, h2⟩

theorem startStage_phase {i : Instr} (hi : IsStage i) (s : State) : (startStage i s).pc.phase = s.pc.phase := by
  obtain ⟨op, p, hp, hnone⟩ := hi.program
  simp only [startStage, hp]
  generalize hw : (s.setWork Work.empty).setJob (some ⟨i, []⟩) = w
  have h4 : p.flow w = (none, (p.flow w).2) := by rw [← hnone w]
  rw [h4]; show (p.flow w).2.pc.phase = _; rw [(program_forward hp).1 w, ← hw]; rfl

/-- A step of an operation in progress that does not end it makes PHASE one more, or goes back in a poll loop (10_state R22). -/
theorem tickJob_advanced {i : Instr} {l : List (Option Byte)} {op : HostOp} {p : Prog Result}
    (hp : program i = some (op, p)) (hj : s.job = some ⟨i, l⟩) (hq : atStep (p.after s.params l) = true)
    (ht : (tickJob s).pc.op ≠ none) : Advanced s (tickJob s) := by
  have hb := ((program_forward hp).2.after s.params l).tick hq s
  rw [tickJob_eq hp hj] at ht ⊢
  rcases hx : (p.after s.params l).tick s with ⟨_ | r, u⟩ <;> rw [hx] at hb ht
  · rcases hb with h | ⟨-, h⟩ <;> [exact .inl h; exact .inr h]
  · rcases hb with h | ⟨h, -⟩
    · refine .inl (Eq.trans ?_ h)
      simp only [reached, conclude] at ht ⊢
      split at ht
      · split at ht
        next hn => exact startStage_phase (nextStage_from hn).2 u
        next => exact absurd rfl ht
      · exact absurd rfl ht
    · cases h

end Sys2Proof.Safety
end

