-- ==== Sys2Proof/Laws/Progress.lean ====
section
/-! SUPPORT. What one step of an operation in progress leaves of the session registers: its program stands before a step with
the session as it was, or is at its end, or before the line that returns, with what the operation leaves. -/

namespace Sys2Proof.Safety

open Sys2Proof.Machine

variable {α β : Type} {s t u : State}

/-! ## Programs that keep a condition up to their end -/

/-- The state fits the place `q` of a program: `E` with its value at its end, and in the step that returns it, where an error
(`F`) is returned with `I` still true; `I` before. -/
def Lands (I : State → Prop) (E : α → State → Prop) (F : α → Bool) (q : Prog α) (t : State) : Prop :=
  match q with
  | .ret a => E a t
  | .line (.ret a) => E a t ∧ (F a = true → I t)
  | _ => I t

/-- The acts up to the next step lead from `I` to a state that fits the place reached. -/
def FlowKeeps (P : Params) (I : State → Prop) (E : α → State → Prop) (F : α → Bool) (p : Prog α) : Prop :=
  ∀ s, I s → Lands I E F (p.after P []) (p.flow s).2

/-- The program is at its end. -/
def atEnd : Prog α → Bool
  | .ret _ => true
  | _ => false

/-- After each of its steps, under the parameters `P`, the acts up to the next keep `I` up to the end, where they leave `E`. -/
def TicksKeep (P : Params) (I : State → Prop) (E : α → State → Prop) (F : α → Bool) : Prog α → Prop
  | .ret _ => True
  | .ask k => TicksKeep P I E F (k P)
  | .act _ k => TicksKeep P I E F k
  | .line k => (atEnd k = false → FlowKeeps P I E F k) ∧ TicksKeep P I E F k
  | .write _ _ k => FlowKeeps P I E F k ∧ TicksKeep P I E F k
  | .read _ k => ∀ b, FlowKeeps P I E F (k b) ∧ TicksKeep P I E F (k b)

/-- A condition on what no step and no quiet act writes, which fixes the parameters. -/
structure Steady (P : Params) (I : State → Prop) : Prop where
  params : ∀ s, I s → s.params = P
  line : ∀ s, I s → I (advance s)
  write : ∀ r v s, I s → I (regWrite r v s)
  read : ∀ r s, I s → I (regRead r s).2
  act : ∀ a s, Quiet a → I s → I (a.run s)
  take : ∀ b s, I s → I (s.take b)

variable {P : Params} {I : State → Prop} {E : α → State → Prop} {E' : β → State → Prop} {F : α → Bool} {F' : β → Bool}

/-- A program whose acts, up to its first step and after each, keep `I` up to its end, where `E` holds. -/
def Good (P : Params) (I : State → Prop) (E : α → State → Prop) (F : α → Bool) (p : Prog α) : Prop :=
  FlowKeeps P I E F p ∧ TicksKeep P I E F p

theorem Good.ret {a : α} (h : ∀ s, I s → E a s) : Good P I E F (.ret a) := ⟨h, trivial⟩

theorem Good.ask (hI : Steady P I) {k : Params → Prog α} (h : Good P I E F (k P)) : Good P I E F (.ask k) :=
  ⟨fun s hs => by have := h.1 s hs; rwa [← hI.params s hs] at this ⊢, h.2⟩

theorem Good.quiet (hI : Steady P I) {a : Act} (ha : Quiet a) {k : Prog α} (h : Good P I E F k) : Good P I E F (.act a k) :=
  ⟨fun s hs => h.1 (a.run s) (hI.act a s ha hs), h.2⟩

theorem Good.line {k : Prog α} (h : Good P I E F k) : Good P I E F (.line k) := by
  refine ⟨fun s hs => ?_, fun _ => h.1, h.2⟩
  cases k with
  | ret a => exact ⟨h.1 s hs, fun _ => hs⟩
  | ask k => exact hs
  | act a k => exact hs
  | line k => exact hs
  | write r v k => exact hs
  | read r k => exact hs

theorem Good.write {r : Reg} {v : Byte} {k : Prog α} (h : Good P I E F k) : Good P I E F (.write r v k) :=
  ⟨fun _ hs => hs, h⟩

theorem Good.read {r : Reg} {k : Byte → Prog α} (h : ∀ b, Good P I E F (k b)) : Good P I E F (.read r k) :=
  ⟨fun _ hs => hs, h⟩

theorem Good.ite (c : Prop) [Decidable c] {p q : Prog α} (h : c → Good P I E F p) (h' : ¬c → Good P I E F q) :
    Good P I E F (if c then p else q) := by
  split_ifs with hc <;> [exact h hc; exact h' hc]

/-- A program with quiet acts, and what follows it. -/
theorem Good.after_quiet (hI : Steady P I) {p : Prog β} (hp : Acts Quiet p) {f : β → Prog α} (hf : ∀ b, Good P I E F (f b)) :
    Good P I E F (p.bind f) := by
  induction p with
  | ret b => exact hf b
  | ask k ih => exact .ask hI (ih P (hp P))
  | act a k ih => exact .quiet hI hp.1 (ih hp.2)
  | line k ih => exact .line (ih hp)
  | write r v k ih => exact .write (ih hp)
  | read r k ih => exact .read fun b => ih b (hp b)

/-- A program, and a value made of its own, an error only of an error. -/
theorem Good.map {p : Prog β} (h : Good P I E' F' p) {f : β → α} (hf : ∀ b s, E' b s → E (f b) s)
    (he : ∀ b, F (f b) = true → F' b = true) : Good P I E F (p.bind fun b => .ret (f b)) := by
  have hafter : ∀ q : Prog β, (q.bind fun b => Prog.ret (f b)).after P [] = (q.after P []).bind fun b => .ret (f b) := by
    intro q
    induction q with
    | ask k ih => exact ih P
    | act a k ih => exact ih
    | _ => rfl
  have hstate : ∀ (q : Prog β) (s : State), ((q.bind fun b => Prog.ret (f b)).flow s).2 = (q.flow s).2 := by
    intro q
    induction q with
    | ask k ih => exact fun s => ih s.params s
    | act a k ih => exact fun s => ih (a.run s)
    | _ => exact fun _ => rfl
  have hlands : ∀ (q : Prog β) (t : State), Lands I E' F' q t → Lands I E F (q.bind fun b => .ret (f b)) t := by
    intro q t h
    cases q with
    | ret b => exact hf b t h
    | line k => cases k <;> first | exact ⟨hf _ t h.1, fun x => h.2 (he _ x)⟩ | exact h
    | _ => exact h
  have hflow : ∀ q : Prog β, FlowKeeps P I E' F' q → FlowKeeps P I E F (q.bind fun b => .ret (f b)) := by
    intro q hq s hs
    rw [hafter, hstate]; exact hlands _ _ (hq s hs)
  refine ⟨hflow p h.1, ?_⟩
  have ht := h.2
  clear h
  induction p with
  | ret b => trivial
  | ask k ih => exact ih P ht
  | act a k ih => exact ih ht
  | line k ih =>
    refine ⟨fun he => hflow k (ht.1 ?_), ih ht.2⟩
    cases k <;> exact he
  | write r v k ih => exact ⟨hflow k ht.1, ih ht.2⟩
  | read r k ih => exact fun b => ⟨hflow (k b) (ht b).1, ih b (ht b).2⟩

theorem Good.mono {E'' : α → State → Prop} {p : Prog α} (h : Good P I E F p) (hE : ∀ a t, E a t → E'' a t) :
    Good P I E'' F p := by
  have hid : (p.bind fun a => .ret a) = p := by
    clear h
    induction p with
    | ret a => rfl
    | ask k ih => exact congrArg Prog.ask (funext ih)
    | act a k ih => exact congrArg (Prog.act a) ih
    | line k ih => exact congrArg Prog.line ih
    | write r v k ih => exact congrArg (Prog.write r v) ih
    | read r k ih => exact congrArg (Prog.read r) (funext ih)
  have h' : Good P I E'' F (p.bind fun a => .ret (id a)) := h.map hE fun _ h => h
  rwa [show (fun a : α => Prog.ret (id a)) = fun a => .ret a from rfl, hid] at h'

/-- The rest of a program after some of its steps. -/
theorem TicksKeep.after {p : Prog α} (h : TicksKeep P I E F p) (l : List (Option Byte)) : TicksKeep P I E F (p.after P l) := by
  induction p generalizing l with
  | ret a => trivial
  | ask k ih => exact ih P h l
  | act a k ih => exact ih h l
  | line k ih => cases l <;> [exact h; exact ih h.2 _]
  | write r v k ih => cases l <;> [exact h; exact ih h.2 _]
  | read r k ih => cases l <;> [exact h; exact ih _ (h _).2 _]

/-- One tick of a program that stands before a step: what the step returned is kept, and the state fits the place reached,
which is the program's end exactly when the tick has a value. -/
theorem TicksKeep.tick (hI : Steady P I) (hE : ∀ a s b, E a s → E a ((advance s).take b)) {q : Prog α}
    (h : TicksKeep P I E F q) (hq : atStep q = true) (hp : s.params = P) (hs : Lands I E F q s) :
    ∃ b, (q.tick s).2.job = s.job.map (fun j => { j with took := j.took ++ [b] }) ∧
      Lands I E F (q.after P [b]) (q.tick s).2 ∧
      ((∃ a, (q.tick s).1 = some a ∧ q.after P [b] = .ret a) ∨ (q.tick s).1 = none ∧ atStep (q.after P [b]) = true) := by
  have reach : ∀ (k : Prog α) (u : State) (b : Option Byte), Outside s u →
      Lands I E F (k.after P []) (k.flow (u.take b)).2 →
      (k.flow (u.take b)).2.job = s.job.map (fun j => { j with took := j.took ++ [b] }) ∧
        Lands I E F (k.after P []) (k.flow (u.take b)).2 ∧
        ((∃ a, (k.flow (u.take b)).1 = some a ∧ k.after P [] = .ret a) ∨
          (k.flow (u.take b)).1 = none ∧ atStep (k.after P []) = true) := by
    intro k u b ho hl
    refine ⟨(flow_outside k _).job.trans (congrArg (Option.map _) ho.job), hl, ?_⟩
    have hf := flow_after k (u.take b)
    rw [show (u.take b).params = P from ho.params.trans hp] at hf
    rcases hf with ⟨a, h1, h2, -⟩ | ⟨h1, h2, -⟩ <;> [exact .inl ⟨a, h1, h2⟩; exact .inr ⟨h1, h2⟩]
  cases q with
  | ret a => cases hq
  | ask k => cases hq
  | act a k => cases hq
  | line k =>
    refine ⟨none, reach k (advance s) none (Runs.refl s).advance.outside ?_⟩
    cases k with
    | ret a => exact hE a s none hs.1
    | ask k => exact h.1 rfl _ (hI.take _ _ (hI.line s hs))
    | act a k => exact h.1 rfl _ (hI.take _ _ (hI.line s hs))
    | line k => exact h.1 rfl _ (hI.take _ _ (hI.line s hs))
    | write r v k => exact h.1 rfl _ (hI.take _ _ (hI.line s hs))
    | read r k => exact h.1 rfl _ (hI.take _ _ (hI.line s hs))
  | write r v k =>
    exact ⟨_, reach k (regWrite r v s) _ (regWrite_runs r v s).outside (h.1 _ (hI.take _ _ (hI.write r v s hs)))⟩
  | read r k =>
    exact ⟨_, reach (k (regRead r s).1) (regRead r s).2 (some (regRead r s).1) (regRead_runs r s).outside
      ((h (regRead r s).1).1 _ (hI.take _ _ (hI.read r s hs)))⟩

/-! ## The session registers -/

/-- `t` has the session registers, the flags, the lines, the parameters, the inputs and the OP of `s`, whatever job it holds. -/
def KeepsBut (s t : State) : Prop := Keeps s (t.setJob s.job)

theorem keepsBut_steady (s : State) : Steady s.params (KeepsBut s) where
  params _ h := h.params
  line t h := Keeps.advance h
  write r v t h := Keeps.trans h (regWrite_runs r v (t.setJob s.job)).keeps
  read r t h := by
    have h' := Keeps.trans h (regRead_runs r (t.setJob s.job)).keeps
    rwa [(setJob_aside s.job).read] at h'
  act a t ha h := by
    obtain ⟨a1, b, c, d, e, f, g, i, j, k, l, m, n, o, y, z⟩ := h
    cases a <;> first | exact ha.elim | exact ⟨a1, b, c, d, e, f, g, i, j, k, l, m, n, o, y, z⟩
  take b t h := h

/-- What an operation with a program leaves of the session registers of `s`, by its result (42_card_session R116 to R125). -/
def Leaves (s : State) : Instr → Result → State → Prop
  | .reset, r, t => r = .done ∧ KeepsBut { cleared s with cfg := .needsInit } t
  | .init, r, t => r = .done ∧ KeepsBut { s with cfg := .ready } t
  | .request, r, t =>
    (r = .done ∧ KeepsBut { s with pstate := .requested } t) ∨ (r = .error .cardNotPresentError ∧ KeepsBut s t)
  | .antiCollision, r, t =>
    (∃ u, r = .uid u ∧ KeepsBut { s with pstate := .identified, uid := some u } t) ∨
      ∃ e, r = .error e ∧ KeepsBut { s with pstate := .collided } t
  | .selectTag u, r, t =>
    (∃ b, r = .blocks b ∧ KeepsBut { s with pstate := .selected, uid := some u } t) ∨ ∃ e, r = .error e ∧ KeepsBut s t
  | .authenticate _ block key _, r, t =>
    (r = .auth .ok ∧
      KeepsBut { s with pstate := .authenticated, sector := some (sectorOf block), authd := true, key := some key } t) ∨
      ∃ a, a ≠ .ok ∧ r = .auth a ∧ KeepsBut (torn s) t
  | .readBlock _, r, t => (∃ d, r = .block d ∧ KeepsBut s t) ∨ ∃ e, r = .error e ∧ KeepsBut (torn s) t
  | .writeBlock _ _, r, t => (r = .done ∧ KeepsBut s t) ∨ ∃ e, r = .error e ∧ KeepsBut (torn s) t
  | .stopCrypto, r, t => r = .done ∧ KeepsBut (cleared s) t
  | _, _, t => KeepsBut s t

theorem stopCryptoProg_good (F : Unit → Bool) (s : State) :
    Good s.params (KeepsBut s) (fun _ t => KeepsBut (cleared s) t) F stopCryptoProg :=
  .after_quiet (keepsBut_steady s) (clearBitsProg_quiet _ _) fun _ => .line
    ⟨fun _ ht => Keeps.clearSession ht, trivial⟩

theorem tornDown_good (F : α → Bool) (s : State) (a : α) :
    Good s.params (KeepsBut s) (fun b t => b = a ∧ KeepsBut (torn s) t) F (tornDown a) := by
  refine Good.map (E' := fun _ t => KeepsBut (torn s) t) (F' := fun _ => true) (.ask (keepsBut_steady s) ?_)
    (fun _ t h => ⟨rfl, h⟩) fun _ _ => rfl
  simp only [torn]
  split
  · exact stopCryptoProg_good _ s
  · exact .ret fun _ h => h

/-- The last acts of a program, and its value. -/
theorem Good.last {p : Prog α} (a : α) (f : State → State) (hp : ∀ t, (p.flow t).2 = f t) (he : p.after P [] = .ret a)
    (ht : TicksKeep P I E F p) (h : ∀ t, I t → E a (f t)) : Good P I E F p :=
  ⟨fun t hs => by rw [he, hp]; exact h t hs, ht⟩

/-- The last acts of a program that returns its value, no error, in a step of its own. -/
theorem Good.returned {p : Prog α} (a : α) (f : State → State) (hp : ∀ t, (p.flow t).2 = f t)
    (he : p.after P [] = .line (.ret a)) (hF : F a = false) (ht : TicksKeep P I E F p) (h : ∀ t, I t → E a (f t)) :
    Good P I E F p :=
  ⟨fun t hs => by rw [he, hp]; exact ⟨h t hs, fun x => by rw [hF] at x; cases x⟩, ht⟩

/-- Nothing is asked of the step that returns. -/
theorem ticksKeep_return (a : α) : TicksKeep P I E F (.line (.ret a)) := ⟨nofun, trivial⟩

/-- The outcome is an error. -/
def isError : Except ErrKind α → Bool
  | .ok _ => false
  | .error _ => true

/-- The status is an error. -/
def isAuthError (a : AuthStatus) : Bool := (authErrKind a).isSome

/-- The result is an error. -/
def isErrorResult (r : Result) : Bool := (resultErrKind r).isSome

theorem requestProg_good (s : State) : Good s.params (KeepsBut s)
    (fun x t => (x = .ok () ∧ KeepsBut { s with pstate := .requested } t) ∨ (x = .error .cardNotPresentError ∧ KeepsBut s t)) isError
    requestProg := by
  have hI := keepsBut_steady s
  refine .write (.after_quiet hI (executeProg_quiet _ _).tested fun r => ?_)
  cases r with
  | error e => exact .ret fun _ h => .inr ⟨rfl, h⟩
  | ok x =>
    exact .ite _
      (fun _ => .line (.last (.ok ()) _ (fun _ => rfl) rfl trivial fun t h => .inl ⟨rfl, Keeps.setPState h _⟩))
      fun _ => .ret fun _ h => .inr ⟨rfl, h⟩

theorem antiCollisionProg_good (s : State) : Good s.params (KeepsBut s)
    (fun x t => (∃ u, x = .ok u ∧ KeepsBut { s with pstate := .identified, uid := some u } t) ∨
      ∃ e, x = .error e ∧ KeepsBut { s with pstate := .collided } t) isError antiCollisionProg := by
  have hI := keepsBut_steady s
  refine .write (.after_quiet hI (executeProg_quiet _ _).tested fun r => ?_)
  cases r with
  | error e => exact .last (.error e) _ (fun _ => rfl) rfl trivial fun t h => .inr ⟨e, rfl, Keeps.setPState h _⟩
  | ok x =>
    refine .line (.ite _
      (fun _ => .last (.error .checksumError) _ (fun _ => rfl) rfl trivial fun t h => .inr ⟨_, rfl, Keeps.setPState h _⟩)
      fun _ => .line ?_)
    cases acceptedUid x.data with
    | none => exact .last (.error .checksumError) _ (fun _ => rfl) rfl trivial fun t h => .inr ⟨_, rfl, Keeps.setPState h _⟩
    | some u =>
      exact .line (.returned (.ok u) _ (fun _ => rfl) rfl rfl (ticksKeep_return _) fun t h =>
        .inl ⟨u, rfl, (Keeps.setUid h (some u)).setPState .identified⟩)

theorem selectTagProg_good (u : Bytes 4) (s : State) : Good s.params (KeepsBut s)
    (fun x t => (∃ b, x = .ok b ∧ KeepsBut { s with pstate := .selected, uid := some u } t) ∨ ∃ e, x = .error e ∧ KeepsBut s t) isError
    (selectTagProg u) := by
  have hI := keepsBut_steady s
  refine .line (.ask hI (.after_quiet hI (sendWithCrcProg_quiet _) fun r => ?_))
  cases r with
  | error e => exact .ret fun _ h => .inr ⟨e, rfl, h⟩
  | ok x =>
    exact .line (.quiet hI (by trivial) (.line (.returned (.ok _) _ (fun _ => rfl) rfl rfl (ticksKeep_return _) fun t h =>
      .inl ⟨_, rfl, (Keeps.setUid h (some u)).setPState .selected⟩)))

theorem authenticateProg_good (mode block : Byte) (key : Bytes 6) (uid : Bytes 4) (s : State) : Good s.params (KeepsBut s)
    (fun a t => (a = .ok ∧
      KeepsBut { s with pstate := .authenticated, sector := some (sectorOf block), authd := true, key := some key } t) ∨
      (a ≠ .ok ∧ KeepsBut (torn s) t)) isAuthError (authenticateProg mode block key uid) := by
  have hI := keepsBut_steady s
  have htorn : ∀ a : AuthStatus, a ≠ .ok → Good s.params (KeepsBut s) (fun a t => (a = .ok ∧
      KeepsBut { s with pstate := .authenticated, sector := some (sectorOf block), authd := true, key := some key } t) ∨
      (a ≠ .ok ∧ KeepsBut (torn s) t)) isAuthError (tornDown a) := fun a ha =>
    (tornDown_good _ s a).mono fun b t ⟨hb, h⟩ => .inr ⟨by rw [hb]; exact ha, h⟩
  refine .line (.after_quiet hI (executeProg_quiet _ _).tested fun r => ?_)
  cases r with
  | error e => exact htorn _ nofun
  | ok x =>
    refine .read fun v => .quiet hI (by trivial) (.ask hI (.ite _ (fun _ => htorn _ nofun) fun _ => .line ?_))
    exact .returned .ok _ (fun _ => rfl) rfl rfl (ticksKeep_return _) fun t h => .inl ⟨rfl, Keeps.openSession h block key⟩

theorem readBlockProg_good (block : Byte) (s : State) : Good s.params (KeepsBut s)
    (fun x t => (∃ d, x = .ok d ∧ KeepsBut s t) ∨ ∃ e, x = .error e ∧ KeepsBut (torn s) t) isError
    (readBlockProg block) := by
  have hI := keepsBut_steady s
  refine .line (.after_quiet hI (sendWithCrcProg_quiet _) fun r => ?_)
  cases r with
  | error e => exact (tornDown_good _ s _).mono fun _ _ ⟨hb, h⟩ => .inr ⟨e, hb, h⟩
  | ok x =>
    exact .line (.ite _ (fun _ => .line (.ret fun _ h => .inl ⟨_, rfl, h⟩))
      fun _ => (tornDown_good _ s _).mono fun _ _ ⟨hb, h⟩ => .inr ⟨_, hb, h⟩)

/-- A phase of `writeBlock`, and what follows it. -/
theorem writePhaseProg_good (e : ErrKind) (f : List Byte) (s : State) {k : Unit → Prog (Except ErrKind Unit)}
    (hk : ∀ u, Good s.params (KeepsBut s)
      (fun x t => (x = .ok () ∧ KeepsBut s t) ∨ ∃ e, x = .error e ∧ KeepsBut (torn s) t) isError (k u)) :
    Good s.params (KeepsBut s) (fun x t => (x = .ok () ∧ KeepsBut s t) ∨ ∃ e, x = .error e ∧ KeepsBut (torn s) t) isError
      ((writePhaseProg e f).orRaise k) := by
  have hI := keepsBut_steady s
  have hassoc : ∀ {α β γ : Type} (p : Prog α) (g : α → Prog β) (h : β → Prog γ),
      (p.bind g).bind h = p.bind fun a => (g a).bind h := by
    intro α β γ p g h
    induction p with
    | ret a => rfl
    | ask k ih => exact congrArg Prog.ask (funext ih)
    | act a k ih => exact congrArg (Prog.act a) ih
    | line k ih => exact congrArg Prog.line ih
    | write r v k ih => exact congrArg (Prog.write r v) ih
    | read r k ih => exact congrArg (Prog.read r) (funext ih)
  have htorn : Good s.params (KeepsBut s)
      (fun x t => (x = .ok () ∧ KeepsBut s t) ∨ ∃ e, x = .error e ∧ KeepsBut (torn s) t) isError
      ((tornDown (Except.error e : Except ErrKind Unit)).orRaise k) := by
    rw [Prog.orRaise, tornDown, hassoc]
    exact (tornDown_good _ s _).mono fun _ _ ⟨hb, h⟩ => .inr ⟨e, hb, h⟩
  rw [Prog.orRaise, writePhaseProg, hassoc]
  refine .after_quiet hI (computeCrcProg_quiet _).tested fun c => ?_
  cases c with
  | error _ => exact htorn
  | ok c =>
    show Good _ _ _ _ (Prog.bind (Prog.bind _ _) _)
    rw [hassoc]
    refine .after_quiet hI (executeProg_quiet _ _).tested fun r => ?_
    cases r with
    | error _ => exact htorn
    | ok x =>
      simp only []
      split
      · exact hk ()
      · exact htorn

/-- Every operation with a program keeps the session registers as they are up to its end, where it leaves what `Leaves` says.
A `reset` does so once its line 1 has cleared AUTHD (`reset_begins`). -/
theorem program_good {i : Instr} {op : HostOp} {p : Prog Result} (hp : program i = some (op, p)) (s : State)
    (hr : i = .reset → s.authd = false) : Good s.params (KeepsBut s) (Leaves s i) isErrorResult p := by
  have hI := keepsBut_steady s
  cases i <;> cases hp
  case execute c d => exact .after_quiet hI (executeProg_quiet c d) fun _ => .ret fun _ h => h
  case computeCrc d => exact .after_quiet hI (computeCrcProg_quiet d) fun _ => .ret fun _ h => h
  case reset =>
    refine Good.map (E' := fun _ t => KeepsBut { cleared s with cfg := .needsInit } t) (F' := fun _ => false) (.line ?_) (fun _ t h => ⟨rfl, h⟩) nofun
    have h1 : Good s.params (KeepsBut s) (fun _ t => KeepsBut { cleared s with cfg := .needsInit } t)
        (fun _ => false) ((writeCommandProg .softReset).bind fun _ => .line <| .act .clearSession <| .act (.cfg .needsInit) <| .ret ()) :=
      .after_quiet hI (writeCommandProg_quiet _) fun _ =>
        .line (.last () _ (fun _ => rfl) rfl trivial fun t h => (Keeps.clearSession h).setCfg _)
    exact ⟨fun t h => h1.1 _ (by
      obtain ⟨a, b, c, d, e, f, g, i, j, k, l, m, n, o, y, z⟩ := h
      exact ⟨a, b, (hr rfl).symm, d, e, f, g, i, j, k, l, m, n, o, y, z⟩), h1.2⟩
  case init =>
    refine Good.map (E' := fun _ t => KeepsBut { s with cfg := .ready } t) (F' := fun _ => false) ?_ (fun _ t h => ⟨rfl, h⟩) nofun
    refine .after_quiet hI (writeAllProg_quiet _) fun _ => .read fun v => .quiet hI (by trivial) (.line (.ite _
      (fun _ => .line ?_) fun _ => .write (.line ?_))) <;>
      exact .last () _ (fun _ => rfl) rfl trivial fun t h => Keeps.setCfg h _
  case request =>
    refine (requestProg_good s).map (fun x t h => ?_) (fun x h => by cases x <;> first | rfl | cases h)
    rcases h with ⟨rfl, h⟩ | ⟨rfl, h⟩
    · exact .inl ⟨rfl, h⟩
    · exact .inr ⟨rfl, h⟩
  case antiCollision =>
    refine (antiCollisionProg_good s).map (fun x t h => ?_) (fun x h => by cases x <;> first | rfl | cases h)
    rcases h with ⟨u, rfl, h⟩ | ⟨e, rfl, h⟩
    · exact .inl ⟨u, rfl, h⟩
    · exact .inr ⟨e, rfl, h⟩
  case selectTag u =>
    refine (selectTagProg_good u s).map (fun x t h => ?_) (fun x h => by cases x <;> first | rfl | cases h)
    rcases h with ⟨b, rfl, h⟩ | ⟨e, rfl, h⟩
    · exact .inl ⟨b, rfl, h⟩
    · exact .inr ⟨e, rfl, h⟩
  case authenticate m b k u =>
    refine (authenticateProg_good m b k u s).map (fun x t h => ?_) (fun _ h => h)
    rcases h with ⟨rfl, h⟩ | ⟨hx, h⟩
    · exact .inl ⟨rfl, h⟩
    · exact .inr ⟨x, hx, rfl, h⟩
  case readBlock b =>
    refine (readBlockProg_good b s).map (fun x t h => ?_) (fun x h => by cases x <;> first | rfl | cases h)
    rcases h with ⟨d, rfl, h⟩ | ⟨e, rfl, h⟩
    · exact .inl ⟨d, rfl, h⟩
    · exact .inr ⟨e, rfl, h⟩
  case writeBlock b d =>
    refine Good.map (E' := fun x t => (x = .ok () ∧ KeepsBut s t) ∨ ∃ e, x = .error e ∧ KeepsBut (torn s) t)
      (F' := isError) (.line (writePhaseProg_good _ _ s fun _ => writePhaseProg_good _ _ s fun _ => .line (.ret fun _ h => .inl ⟨rfl, h⟩)))
      (fun x t h => ?_) (fun x h => by cases x <;> first | rfl | cases h)
    rcases h with ⟨rfl, h⟩ | ⟨e, rfl, h⟩
    · exact .inl ⟨rfl, h⟩
    · exact .inr ⟨e, rfl, h⟩
  case stopCrypto => exact (stopCryptoProg_good (fun _ => false) s).map (fun _ t h => ⟨rfl, h⟩) nofun

/-- The first step of a `reset` clears AUTHD and stands before its transaction. -/
theorem reset_begins {op : HostOp} {p : Prog Result} (hp : program .reset = some (op, p)) (s : State) :
    (p.tick s).1 = none ∧ KeepsBut { s with authd := false } (p.tick s).2 := by
  cases hp
  exact ⟨rfl, rfl, rfl, rfl, rfl, rfl, rfl, rfl, rfl, rfl, rfl, rfl, rfl, rfl, rfl, rfl, rfl⟩

/-- What an operation leaves, the next step leaves too. -/
theorem Leaves.lasts (s : State) (i : Instr) (r : Result) (t : State) (b : Option Byte) (h : Leaves s i r t) :
    Leaves s i r ((advance t).take b) := by
  have k : ∀ v, KeepsBut v t → KeepsBut v ((advance t).take b) := fun v hv =>
    (keepsBut_steady v).take b _ ((keepsBut_steady v).line t hv)
  cases i
  case reset | init | stopCrypto => exact ⟨h.1, k _ h.2⟩
  case request => rcases h with ⟨h1, h⟩ | ⟨h1, h⟩ <;> [exact .inl ⟨h1, k _ h⟩; exact .inr ⟨h1, k _ h⟩]
  case antiCollision | selectTag | readBlock =>
    rcases h with ⟨x, h1, h⟩ | ⟨x, h1, h⟩ <;> [exact .inl ⟨x, h1, k _ h⟩; exact .inr ⟨x, h1, k _ h⟩]
  case authenticate =>
    rcases h with ⟨h1, h⟩ | ⟨x, h1, h2, h⟩ <;> [exact .inl ⟨h1, k _ h⟩; exact .inr ⟨x, h1, h2, k _ h⟩]
  case writeBlock => rcases h with ⟨h1, h⟩ | ⟨x, h1, h⟩ <;> [exact .inl ⟨h1, k _ h⟩; exact .inr ⟨x, h1, k _ h⟩]
  all_goals exact k _ h

end Sys2Proof.Safety
end

