-- ==== Sys2Proof/Tests/Slice0.lean ====
section
/-! SUPPORT. Tests: the checks of WellFormed with an ill-formed term for each, words written out from the encoding tables of
30_encoding and 95_test_vectors V34, and one step for each vector of 95_test_vectors used. In a vector the chip's answers are
given in the order in which its transcript reads them, and the frames sent as byte 0 and byte 1 in one number. -/

namespace Sys2Proof.Tests

open Sys2Proof.Machine Sys2Proof.Safety

/-! ## Helpers -/

/-- Numbers as bytes. -/
def bytes (l : List Nat) : List Byte := l.map (BitVec.ofNat 8)

/-- The UID of the vectors, `DE AD BE EF`. -/
def uid : Bytes 4 := ⟨[0xDE#8, 0xAD#8, 0xBE#8, 0xEF#8], rfl⟩

/-- The key of the vectors, `FF FF FF FF FF FF`. -/
def key : Bytes 6 := ⟨[0xFF#8, 0xFF#8, 0xFF#8, 0xFF#8, 0xFF#8, 0xFF#8], rfl⟩

/-- The other key of the vectors, `A0 A1 A2 A3 A4 A5`. -/
def key2 : Bytes 6 := ⟨[0xA0#8, 0xA1#8, 0xA2#8, 0xA3#8, 0xA4#8, 0xA5#8], rfl⟩

/-- The data of the vectors, `00 01 .. 0F`. -/
def data : Bytes 16 := ⟨bytes (List.range 16), rfl⟩

/-- The engine in a state of the protocol, with scripted answers. -/
def engine (ps : PState) (cfg : Cfg) (answers : List Nat) : State :=
  { State.reset with pstate := ps, cfg := cfg, answers := bytes answers }

/-- The engine configured and with the UID of the vectors held. -/
def carded (ps : PState) (answers : List Nat) : State := { engine ps .ready answers with uid := some uid }

/-- The engine in a session authenticated for sector 1. -/
def session (answers : List Nat) : State :=
  { carded .authenticated answers with sector := some 1#6, authd := true, key := some key }

/-- A state in which the outside presents a host request next. -/
def asked (l : List Nat) (s : State) : State := { s with inputs := [.request (bytes l)] }

/-- The frames on the bus, byte 0 and byte 1 as one number. -/
def frames (s : State) : List Nat := s.trace.map fun x => x.b0.toNat * 256 + x.b1.toNat

/-- `o` is a next state with the result `r` after exactly the frames `fs`, all scripted answers used up, for which `c` holds. -/
def gives (o : Out) (r : Result) (fs : List Nat) (c : State → Bool) : Bool :=
  match o with
  | .next t => t.result == some r && frames t == fs && t.answers.isEmpty && t.pc == Pc.idle && c t
  | _ => false

/-- The session registers hold these values. -/
def holds (ps : PState) (sector : Option (BitVec 6)) (authd : Bool) (u : Option (Bytes 4)) (k : Option (Bytes 6)) (cfg : Cfg)
    (t : State) : Bool :=
  t.pstate == ps && t.sector == sector && t.authd == authd && t.uid == u && t.key == k && t.cfg == cfg

/-- `o` is the refusal `r`. -/
def refuses (o : Out) (r : Refusal) : Bool :=
  match o with
  | .refused x => x == r
  | _ => false

/-- `f` and `l` decode to `i` at the default parameters. -/
def reads (f : Format) (l : List Nat) (i : Instr) : Bool :=
  match decodeFrame defaultParams f (bytes l) with
  | .ok j => j == i
  | .error _ => false

/-- `f` and `l` decode to no instruction, for the reason `e`. -/
def rejects (f : Format) (l : List Nat) (e : DecodeError) : Bool :=
  match decodeFrame defaultParams f (bytes l) with
  | .ok _ => false
  | .error x => x == e

/-! ## Ill-formed operands -/

/-- A code of `encode` above 7 (43_access_codec R148, V29). -/
theorem test_wf_encode_code : (Instr.encode ⟨8#8, 0#8, 0#8, 0#8⟩).wf defaultParams = false := by decide

/-- A code of `getBit` above 7 (43_access_codec R148, V29), and `n` outside 1 to 3 (R141). -/
theorem test_wf_getBit :
    (Instr.getBit ⟨0#8, 9#8, 0#8, 0#8⟩ 1#8).wf defaultParams = false ∧
    (Instr.getBit ⟨0#8, 0#8, 0#8, 0#8⟩ 0#8).wf defaultParams = false ∧
    (Instr.getBit ⟨0#8, 0#8, 0#8, 0#8⟩ 4#8).wf defaultParams = false ∧
    (Instr.getBit ⟨7#8, 7#8, 7#8, 7#8⟩ 3#8).wf defaultParams = true := by decide

/-- A byte count of `decode` other than 3 and 4 (43_access_codec R144). -/
theorem test_wf_decode_length :
    (Instr.decode [0#8, 0#8]).wf defaultParams = false ∧ (Instr.decode [0#8, 0#8, 0#8, 0#8, 0#8]).wf defaultParams = false ∧
    (Instr.decode [0#8, 0#8, 0#8]).wf defaultParams = true := by decide

/-- A SELECT frame with a checksum byte it should not have, without the one it should have, and with a wrong one
(30_encoding R79; `DE ^ AD ^ BE ^ EF = 22`, V12). -/
theorem test_wf_select_checksum :
    (Instr.cardSelect uid (some 0x22#8) 0#8 0#8).wf defaultParams = false ∧
    (Instr.cardSelect uid none 0#8 0#8).wf { defaultParams with selectAppendBcc := true } = false ∧
    (Instr.cardSelect uid (some 0x23#8) 0#8 0#8).wf { defaultParams with selectAppendBcc := true } = false ∧
    (Instr.cardSelect uid (some 0x22#8) 0#8 0#8).wf { defaultParams with selectAppendBcc := true } = true := by decide

/-- The meaning refuses an ill-formed term too (V29). -/
theorem test_exec_refuses_ill_formed :
    refuses (exec (.encode ⟨8#8, 0#8, 0#8, 0#8⟩) State.reset) .malformed = true ∧
    refuses (exec (.getBit ⟨0#8, 9#8, 0#8, 0#8⟩ 1#8) State.reset) .malformed = true ∧
    refuses (exec (.decode [0#8, 0#8]) State.reset) .malformed = true ∧
    refuses (exec (.cardSelect uid (some 0x22#8) 0#8 0#8) State.reset) .malformed = true := by decide

/-! ## Words written out from the encoding tables -/

/-- The sixteen host requests: the select bytes of 30_encoding R83 and the operands of R86 (the bytes of 95_test_vectors
section 7). -/
theorem test_decode_hostop :
    reads .hostop [0x00, 0x0C, 0x26] (.execute .transceive [0x26#8]) ∧
    reads .hostop [0x01, 0x30, 0x04] (.computeCrc [0x30#8, 0x04#8]) ∧
    reads .hostop [0x02] .reset ∧ reads .hostop [0x03] .init ∧ reads .hostop [0x04] .request ∧
    reads .hostop [0x05] .antiCollision ∧
    reads .hostop [0x06, 0xDE, 0xAD, 0xBE, 0xEF] (.selectTag uid) ∧
    reads .hostop [0x07, 0x61, 0x04, 0xA0, 0xA1, 0xA2, 0xA3, 0xA4, 0xA5, 0xDE, 0xAD, 0xBE, 0xEF]
      (.authenticate 0x61#8 0x04#8 key2 uid) ∧
    reads .hostop [0x08, 0x07] (.readBlock 0x07#8) ∧
    reads .hostop [0x09, 0x04, 0, 1, 2, 3, 4, 5, 6, 7, 8, 9, 10, 11, 12, 13, 14, 15] (.writeBlock 0x04#8 data) ∧
    reads .hostop [0x0A] .stopCrypto ∧ reads .hostop [0x0B] .wait ∧
    reads .hostop [0x0C, 0x00, 0x00, 0x00, 0x04] (.encode ⟨0#8, 0#8, 0#8, 4#8⟩) ∧
    reads .hostop [0x0D, 0xFF, 0x07, 0x80] (.decode [0xFF#8, 0x07#8, 0x80#8]) ∧
    reads .hostop [0x0E, 6, 5, 1, 4, 3] (.getBit ⟨6#8, 5#8, 1#8, 4#8⟩ 3#8) ∧
    reads .hostop [0x0F] .selectCard := by decide

/-- The W rows: V34's write bytes. -/
theorem test_decode_bus_writes :
    reads .bus [0x02, 0x0F] (.wCommand 0x0F#8) ∧ reads .bus [0x04, 0xF7] (.wComIEn 0xF7#8) ∧
    reads .bus [0x08, 0x00] (.wComIrq 0x00#8) ∧ reads .bus [0x0A, 0x00] (.wDivIrq 0x00#8) ∧
    reads .bus [0x10, 0x05] (.wStatus2 0x05#8) ∧ reads .bus [0x12, 0x26] (.wFifoData 0x26#8) ∧
    reads .bus [0x14, 0x80] (.wFifoLevel 0x80#8) ∧ reads .bus [0x1A, 0x87] (.wBitFraming 0x87#8) ∧
    reads .bus [0x22, 0x3D] (.wMode 0x3D#8) ∧ reads .bus [0x28, 0x83] (.wTxControl 0x83#8) ∧
    reads .bus [0x2A, 0x40] (.wTxAuto 0x40#8) ∧ reads .bus [0x54, 0x8D] (.wTMode 0x8D#8) ∧
    reads .bus [0x56, 0x3E] (.wTPrescaler 0x3E#8) ∧ reads .bus [0x58, 0x00] (.wTReloadH 0x00#8) ∧
    reads .bus [0x5A, 0x1E] (.wTReloadL 0x1E#8) := by decide

/-- The R rows: V34's read bytes. -/
theorem test_decode_bus_reads :
    reads .bus [0x88, 0x00] .rComIrq ∧ reads .bus [0x8A, 0x00] .rDivIrq ∧ reads .bus [0x8C, 0x00] .rError ∧
    reads .bus [0x90, 0x00] .rStatus2 ∧ reads .bus [0x92, 0x00] .rFifoData ∧ reads .bus [0x94, 0x00] .rFifoLevel ∧
    reads .bus [0x98, 0x00] .rControl ∧ reads .bus [0x9A, 0x00] .rBitFraming ∧ reads .bus [0xA8, 0x00] .rTxControl ∧
    reads .bus [0xC2, 0x00] .rCrcResultH ∧ reads .bus [0xC4, 0x00] .rCrcResultL := by decide

/-- The plain BUS frames at addresses with no row of their own: V34's bytes of 0x3F, 0x00, and of MODE (0xA2) and ERROR
(0x0C) in the direction the table has no row for; and the frames R84 (c) rules out. -/
theorem test_decode_bus_plain :
    reads .bus [0x7E, 0xFF] (.busWrite 0x3F#6 0xFF#8) ∧ reads .bus [0xFE, 0x00] (.busRead 0x3F#6) ∧
    reads .bus [0x00, 0x01] (.busWrite 0x00#6 0x01#8) ∧ reads .bus [0x80, 0x00] (.busRead 0x00#6) ∧
    reads .bus [0xA2, 0x00] (.busRead 0x11#6) ∧ reads .bus [0x0C, 0x01] (.busWrite 0x06#6 0x01#8) ∧
    rejects .bus [0x03, 0x00] .busBitZeroSet ∧ rejects .bus [0x88, 0x01] .busReadValue := by decide

/-- The five chip commands (30_encoding R74), and a byte that is none (R84 b). -/
theorem test_decode_chipcmd :
    reads .chipcmd [0x00] .cmdIdle ∧ reads .chipcmd [0x03] .cmdCalcCrc ∧ reads .chipcmd [0x0C] .cmdTransceive ∧
    reads .chipcmd [0x0E] .cmdAuthenticate ∧ reads .chipcmd [0x0F] .cmdSoftReset ∧
    rejects .chipcmd [0x01] (.badChipCommand 0x01#8) := by decide

/-- The card frames (30_encoding R77 to R81; the frames of V12, V15, V19, V21, V5). -/
theorem test_decode_card :
    reads .card [0x26] .cardReqa ∧ reads .card [0x93, 0x20] .cardAnticoll ∧
    reads .card [0x93, 0x70, 0xDE, 0xAD, 0xBE, 0xEF, 0x3A, 0x70] (.cardSelect uid none 0x3A#8 0x70#8) ∧
    reads .card [0x93, 0x70, 0xDE, 0xAD, 0xBE, 0xEF, 0x22, 0xB9, 0x9C] (.cardSelect uid (some 0x22#8) 0xB9#8 0x9C#8) ∧
    reads .card [0x30, 0x04, 0x26, 0xEE] (.cardRead 0x04#8 0x26#8 0xEE#8) ∧
    reads .card [0xA0, 0x04, 0x7B, 0xF7] (.cardWrite 0x04#8 0x7B#8 0xF7#8) ∧
    reads .authFrame [0x60, 0x04, 0xFF, 0xFF, 0xFF, 0xFF, 0xFF, 0xFF, 0xDE, 0xAD, 0xBE, 0xEF]
      (.cardAuth 0x60#8 0x04#8 key uid) ∧
    reads .writeData [0, 1, 2, 3, 4, 5, 6, 7, 8, 9, 10, 11, 12, 13, 14, 15, 0x77, 0xF5]
      (.cardWriteData data 0x77#8 0xF5#8) := by decide

/-- The acknowledgement, whose high nibble "is ignored" (30_encoding R82), the ACCESS bytes (R88, V24) and the result codes
(60_exceptions R163). -/
theorem test_decode_answers :
    reads .ack [0x0A] .ack ∧ reads .ack [0xFA] .ack ∧ rejects .ack [0x04] .notAck ∧
    reads .access [0xE9, 0x64, 0xB1, 0x3C] (.access ⟨[0xE9#8, 0x64#8, 0xB1#8, 0x3C#8], rfl⟩) ∧
    reads .errcode [0] .errOk ∧ reads .errcode [1] .errTimeoutError ∧ reads .errcode [2] .errProtocolError ∧
    reads .errcode [3] .errChecksumError ∧ reads .errcode [4] .errCardNotPresentError ∧
    reads .errcode [5] .errAuthReadFailure ∧ reads .errcode [6] .errAuthFailure ∧
    reads .errcode [7] .errWriteNotAuthorizedError ∧ reads .errcode [8] .errWriteFailedError ∧
    reads .errcode [9] .errDataLengthError ∧ reads .errcode [10] .errAbandoned ∧
    rejects .errcode [11] (.badErrCode 11#8) := by decide

/-- Requests that are refused: the select 0x10 (V29, 30_encoding R84 a), a command outside the five (R84 b), a UID of three
bytes (R86). -/
theorem test_decode_rejects :
    rejects .hostop [0x10] (.badSelect 0x10#8) ∧ rejects .hostop [0x00, 0x05] (.badChipCommand 0x05#8) ∧
    rejects .hostop [0x06, 0xDE, 0xAD, 0xBE] .badLength ∧ rejects .hostop [] .empty := by decide

/-- The words as the opcode table numbers them: HOSTOP stopCrypto, the BUS rows W.ComIEn and R.Status2 with zero operands,
the CARD rows ANTICOLL and READ, the ACCESS row; and step runs what is placed (log entry 6). -/
theorem test_table_words :
    decodeTableWord 8 0x0A = some .stopCrypto ∧ decodeTableWord 16 0x0400 = some (.wComIEn 0#8) ∧
    decodeTableWord 16 0x9000 = some .rStatus2 ∧ decodeTableWord 16 0x9320 = some .cardAnticoll ∧
    decodeTableWord 16 0x3000 = some (.cardRead 0#8 0#8 0#8) ∧
    decodeTableWord 32 0xE964B13C = some (.access ⟨[0xE9#8, 0x64#8, 0xB1#8, 0x3C#8], rfl⟩) ∧
    gives (step (State.reset.withFetchWord 8 0x02)) .done [0x020F] (fun t => t.cfg == .needsInit) = true := by decide

/-! ## execute and computeCrc -/

/-- V1: 18 transactions, `{data = [04 00], validBits = 16}`. -/
theorem test_execute_transceive :
    gives (exec (.execute .transceive [0x26#8]) (engine .idle .needsReset [0x00, 0x00, 0x00, 0x30, 0x00, 0x00, 0x02,
      0x00, 0x04, 0x00])) (.transceived ⟨[0x04#8, 0x00#8], some 16⟩)
      [0x04F7, 0x8800, 0x0800, 0x9400, 0x1480, 0x0200, 0x1226, 0x020C, 0x9A00, 0x1A80, 0x8800, 0x9A00, 0x1A00, 0x8C00,
      0x9400, 0x9800, 0x9200, 0x9200] (holds .idle none false none none .needsReset) = true := by decide

/-- V4: a bit of 0x1B in the error register; nothing is read after it. -/
theorem test_execute_protocol_error :
    gives (exec (.execute .transceive [0x93#8, 0x20#8]) (engine .idle .needsReset [0x00, 0x00, 0x00, 0x20, 0x80, 0x08]))
      (.error .protocolError)
      [0x04F7, 0x8800, 0x0800, 0x9400, 0x1480, 0x0200, 0x1293, 0x1220, 0x020C, 0x9A00, 0x1A80, 0x8800, 0x9A00, 0x1A00,
      0x8C00] (holds .idle none false none none .needsReset) = true := by decide

/-- V6: low byte first. -/
theorem test_computeCrc_ready :
    gives (exec (.computeCrc [0x30#8, 0x04#8]) (engine .idle .needsReset [0x00, 0x00, 0x04, 0x26, 0xEE])) (.crc 0x26#8
      0xEE#8)
      [0x8A00, 0x0A00, 0x9400, 0x1480, 0x1230, 0x1204, 0x0203, 0x8A00, 0xC400, 0xC200] (holds .idle none false none none
      .needsReset) = true := by decide

set_option maxRecDepth 20000 in
/-- V7: never ready, the typed mode; 255 poll reads, and the result registers are not read. -/
theorem test_computeCrc_never_ready :
    gives (exec (.computeCrc [0x30#8, 0x04#8]) (engine .idle .needsReset (List.replicate 257 0))) (.error .timeoutError)
      ([0x8A00, 0x0A00, 0x9400, 0x1480, 0x1230, 0x1204, 0x0203] ++ List.replicate 255 0x8A00)
      (holds .idle none false none none .needsReset) = true := by decide

/-! ## The card session -/

/-- V8. -/
theorem test_reset :
    gives (exec .reset (engine .idle .needsReset [])) .done
      [0x020F] (holds .idle none false none none .needsInit) = true := by decide

/-- V9. -/
theorem test_init_antenna_off :
    gives (exec .init (engine .idle .needsInit [0x80])) .done
      [0x548D, 0x563E, 0x5A1E, 0x5800, 0x2A40, 0x223D, 0xA800, 0x2883] (holds .idle none false none none .ready) = true :=
      by decide

/-- V40. -/
theorem test_init_antenna_on :
    gives (exec .init (engine .idle .needsInit [0x83])) .done
      [0x548D, 0x563E, 0x5A1E, 0x5800, 0x2A40, 0x223D, 0xA800] (holds .idle none false none none .ready) = true := by
      decide

/-- V10. -/
theorem test_request_card :
    gives (exec .request (engine .idle .ready [0x00, 0x00, 0x07, 0x30, 0x87, 0x00, 0x02, 0x00, 0x04, 0x00])) .done
      [0x1A07, 0x04F7, 0x8800, 0x0800, 0x9400, 0x1480, 0x0200, 0x1226, 0x020C, 0x9A00, 0x1A87, 0x8800, 0x9A00, 0x1A07,
      0x8C00, 0x9400, 0x9800, 0x9200, 0x9200] (holds .requested none false none none .ready) = true := by decide

/-- V11: eight valid bits. -/
theorem test_request_no_card :
    gives (exec .request (engine .idle .ready [0x00, 0x00, 0x07, 0x00, 0x01, 0x87, 0x00, 0x00, 0x00, 0x00])) (.error
      .cardNotPresentError)
      [0x1A07, 0x04F7, 0x8800, 0x0800, 0x9400, 0x1480, 0x0200, 0x1226, 0x020C, 0x9A00, 0x1A87, 0x8800, 0x8800, 0x9A00,
      0x1A07, 0x8C00, 0x9400, 0x9800, 0x9200] (holds .idle none false none none .ready) = true := by decide

/-- V12. -/
theorem test_antiCollision_accepted :
    gives (exec .antiCollision (engine .requested .ready [0x00, 0x00, 0x00, 0x30, 0x80, 0x00, 0x05, 0x00, 0xDE, 0xAD,
      0xBE, 0xEF, 0x22])) (.uid uid)
      [0x1A00, 0x04F7, 0x8800, 0x0800, 0x9400, 0x1480, 0x0200, 0x1293, 0x1220, 0x020C, 0x9A00, 0x1A80, 0x8800, 0x9A00,
      0x1A00, 0x8C00, 0x9400, 0x9800, 0x9200, 0x9200, 0x9200, 0x9200, 0x9200] (holds .identified none false (some uid)
      none .ready) = true := by decide

/-- V13. -/
theorem test_antiCollision_mismatch :
    gives (exec .antiCollision (engine .requested .ready [0x00, 0x00, 0x00, 0x30, 0x80, 0x00, 0x05, 0x00, 0xDE, 0xAD,
      0xBE, 0xEF, 0x23])) (.error .checksumError)
      [0x1A00, 0x04F7, 0x8800, 0x0800, 0x9400, 0x1480, 0x0200, 0x1293, 0x1220, 0x020C, 0x9A00, 0x1A80, 0x8800, 0x9A00,
      0x1A00, 0x8C00, 0x9400, 0x9800, 0x9200, 0x9200, 0x9200, 0x9200, 0x9200] (holds .collided none false none none
      .ready) = true := by decide

/-- V15. -/
theorem test_selectTag :
    gives (exec (.selectTag uid) (carded .identified [0x00, 0x00, 0x04, 0x3A, 0x70, 0x00, 0x00, 0x00, 0x30, 0x80, 0x00,
      0x03, 0x00, 0x08, 0xB6, 0xDD])) (.blocks 0x08#8)
      [0x8A00, 0x0A00, 0x9400, 0x1480, 0x1293, 0x1270, 0x12DE, 0x12AD, 0x12BE, 0x12EF, 0x0203, 0x8A00, 0xC400, 0xC200,
      0x04F7, 0x8800, 0x0800, 0x9400, 0x1480, 0x0200, 0x1293, 0x1270, 0x12DE, 0x12AD, 0x12BE, 0x12EF, 0x123A, 0x1270,
      0x020C, 0x9A00, 0x1A80, 0x8800, 0x9A00, 0x1A00, 0x8C00, 0x9400, 0x9800, 0x9200, 0x9200, 0x9200] (holds .selected
      none false (some uid) none .ready) = true := by decide

/-- V46: not 24 valid bits; Selected with 0. -/
theorem test_selectTag_short :
    gives (exec (.selectTag uid) (carded .identified [0x00, 0x00, 0x04, 0x3A, 0x70, 0x00, 0x00, 0x00, 0x01, 0x80, 0x00,
      0x00, 0x00, 0x00])) (.blocks 0x00#8)
      [0x8A00, 0x0A00, 0x9400, 0x1480, 0x1293, 0x1270, 0x12DE, 0x12AD, 0x12BE, 0x12EF, 0x0203, 0x8A00, 0xC400, 0xC200,
      0x04F7, 0x8800, 0x0800, 0x9400, 0x1480, 0x0200, 0x1293, 0x1270, 0x12DE, 0x12AD, 0x12BE, 0x12EF, 0x123A, 0x1270,
      0x020C, 0x9A00, 0x1A80, 0x8800, 0x9A00, 0x1A00, 0x8C00, 0x9400, 0x9800, 0x9200] (holds .selected none false (some
      uid) none .ready) = true := by decide

/-- V16. -/
theorem test_authenticate_ok :
    gives (exec (.authenticate 0x60#8 0x04#8 key uid) (carded .selected [0x00, 0x00, 0x10, 0x00, 0x00, 0x00])) (.auth
      .ok)
      [0x0492, 0x8800, 0x0800, 0x9400, 0x1480, 0x0200, 0x1260, 0x1204, 0x12FF, 0x12FF, 0x12FF, 0x12FF, 0x12FF, 0x12FF,
      0x12DE, 0x12AD, 0x12BE, 0x12EF, 0x020E, 0x8800, 0x9A00, 0x1A00, 0x8C00, 0x9000] (holds .authenticated (some 1#6)
      true (some uid) (some key) .ready) = true := by decide

/-- V17: teardown. -/
theorem test_authenticate_failure :
    gives (exec (.authenticate 0x60#8 0x04#8 key uid) (carded .selected [0x00, 0x00, 0x10, 0x00, 0x00, 0x08, 0x08]))
      (.auth .failure)
      [0x0492, 0x8800, 0x0800, 0x9400, 0x1480, 0x0200, 0x1260, 0x1204, 0x12FF, 0x12FF, 0x12FF, 0x12FF, 0x12FF, 0x12FF,
      0x12DE, 0x12AD, 0x12BE, 0x12EF, 0x020E, 0x8800, 0x9A00, 0x1A00, 0x8C00, 0x9000, 0x9000, 0x1000] (holds .idle none
      false none none .ready) = true := by decide

/-- V19: the count 18 is clamped to 16. -/
theorem test_readBlock :
    gives (exec (.readBlock 0x04#8) (session [0x00, 0x00, 0x04, 0x26, 0xEE, 0x00, 0x00, 0x00, 0x30, 0x80, 0x00, 0x12,
      0x00, 0x10, 0x11, 0x12, 0x13, 0x14, 0x15, 0x16, 0x17, 0x18, 0x19, 0x1A, 0x1B, 0x1C, 0x1D, 0x1E, 0x1F])) (.block
      (bytes [16, 17, 18, 19, 20, 21, 22, 23, 24, 25, 26, 27, 28, 29, 30, 31]))
      [0x8A00, 0x0A00, 0x9400, 0x1480, 0x1230, 0x1204, 0x0203, 0x8A00, 0xC400, 0xC200, 0x04F7, 0x8800, 0x0800, 0x9400,
      0x1480, 0x0200, 0x1230, 0x1204, 0x1226, 0x12EE, 0x020C, 0x9A00, 0x1A80, 0x8800, 0x9A00, 0x1A00, 0x8C00, 0x9400,
      0x9800, 0x9200, 0x9200, 0x9200, 0x9200, 0x9200, 0x9200, 0x9200, 0x9200, 0x9200, 0x9200, 0x9200, 0x9200, 0x9200,
      0x9200, 0x9200, 0x9200] (holds .authenticated (some 1#6) true (some uid) (some key) .ready) = true := by decide

/-- V20: DataLengthError and teardown. -/
theorem test_readBlock_short :
    gives (exec (.readBlock 0x05#8) (session [0x00, 0x00, 0x04, 0xAF, 0xFF, 0x00, 0x00, 0x00, 0x30, 0x80, 0x00, 0x01,
      0x04, 0x04, 0x08])) (.error .dataLengthError)
      [0x8A00, 0x0A00, 0x9400, 0x1480, 0x1230, 0x1205, 0x0203, 0x8A00, 0xC400, 0xC200, 0x04F7, 0x8800, 0x0800, 0x9400,
      0x1480, 0x0200, 0x1230, 0x1205, 0x12AF, 0x12FF, 0x020C, 0x9A00, 0x1A80, 0x8800, 0x9A00, 0x1A00, 0x8C00, 0x9400,
      0x9800, 0x9200, 0x9000, 0x1000] (holds .idle none false none none .ready) = true := by decide

set_option maxRecDepth 20000 in
/-- V21: both phases acknowledged. -/
theorem test_writeBlock :
    gives (exec (.writeBlock 0x04#8 data) (session [0x00, 0x00, 0x04, 0x7B, 0xF7, 0x00, 0x00, 0x00, 0x30, 0x80, 0x00,
      0x01, 0x04, 0x0A, 0x00, 0x00, 0x04, 0x77, 0xF5, 0x00, 0x00, 0x00, 0x30, 0x80, 0x00, 0x01, 0x04, 0x0A])) .done
      [0x8A00, 0x0A00, 0x9400, 0x1480, 0x12A0, 0x1204, 0x0203, 0x8A00, 0xC400, 0xC200, 0x04F7, 0x8800, 0x0800, 0x9400,
      0x1480, 0x0200, 0x12A0, 0x1204, 0x127B, 0x12F7, 0x020C, 0x9A00, 0x1A80, 0x8800, 0x9A00, 0x1A00, 0x8C00, 0x9400,
      0x9800, 0x9200, 0x8A00, 0x0A00, 0x9400, 0x1480, 0x1200, 0x1201, 0x1202, 0x1203, 0x1204, 0x1205, 0x1206, 0x1207,
      0x1208, 0x1209, 0x120A, 0x120B, 0x120C, 0x120D, 0x120E, 0x120F, 0x0203, 0x8A00, 0xC400, 0xC200, 0x04F7, 0x8800,
      0x0800, 0x9400, 0x1480, 0x0200, 0x1200, 0x1201, 0x1202, 0x1203, 0x1204, 0x1205, 0x1206, 0x1207, 0x1208, 0x1209,
      0x120A, 0x120B, 0x120C, 0x120D, 0x120E, 0x120F, 0x1277, 0x12F5, 0x020C, 0x9A00, 0x1A80, 0x8800, 0x9A00, 0x1A00,
      0x8C00, 0x9400, 0x9800, 0x9200] (holds .authenticated (some 1#6) true (some uid) (some key) .ready) = true := by
      decide

/-- V22: no byte of the data is sent. -/
theorem test_writeBlock_not_authorized :
    gives (exec (.writeBlock 0x04#8 data) (session [0x00, 0x00, 0x04, 0x7B, 0xF7, 0x00, 0x00, 0x00, 0x30, 0x80, 0x00,
      0x01, 0x04, 0x04, 0x08])) (.error .writeNotAuthorizedError)
      [0x8A00, 0x0A00, 0x9400, 0x1480, 0x12A0, 0x1204, 0x0203, 0x8A00, 0xC400, 0xC200, 0x04F7, 0x8800, 0x0800, 0x9400,
      0x1480, 0x0200, 0x12A0, 0x1204, 0x127B, 0x12F7, 0x020C, 0x9A00, 0x1A80, 0x8800, 0x9A00, 0x1A00, 0x8C00, 0x9400,
      0x9800, 0x9200, 0x9000, 0x1000] (holds .idle none false none none .ready) = true := by decide

/-- V23. -/
theorem test_stopCrypto :
    gives (exec .stopCrypto (session [0x08])) .done
      [0x9000, 0x1000] (holds .idle none false none none .ready) = true := by decide

/-- V54: the other bits of STATUS2 are written back as read. -/
theorem test_stopCrypto_idle :
    gives (exec .stopCrypto (engine .idle .ready [0x05])) .done
      [0x9000, 0x1005] (holds .idle none false none none .ready) = true := by decide

/-- V29: requests whose precondition is false. -/
theorem test_refusals :
    refuses (exec .init State.reset) (.precondition .init) ∧ refuses (exec .request State.reset) (.precondition .request) ∧
    refuses (exec .request (engine .idle .needsInit [])) (.precondition .request) ∧
    refuses (exec .init (engine .idle .ready [])) (.precondition .init) ∧
    refuses (exec .antiCollision (engine .idle .ready [])) (.precondition .antiCollision) ∧
    refuses (exec .request (engine .requested .ready [])) (.precondition .request) ∧
    refuses (exec (.selectTag uid) (engine .requested .ready [])) (.precondition .selectTag) ∧
    refuses (exec .antiCollision (engine .collided .ready [])) (.precondition .antiCollision) ∧
    refuses (exec (.authenticate 0x60#8 4#8 key uid) (carded .identified [])) (.precondition .authenticate) ∧
    refuses (exec (.readBlock 4#8) (carded .selected [])) (.precondition .readBlock) ∧
    refuses (exec (.readBlock 8#8) (session [])) (.precondition .readBlock) ∧
    refuses (exec (.writeBlock 3#8 data) (session [])) (.precondition .writeBlock) ∧
    refuses (exec (.authenticate 0x60#8 4#8 key uid) (session [])) (.precondition .authenticate) := by decide

/-- V32: block addressing. -/
theorem test_block_addressing :
    dataBlockAddress 0 0 = 0 ∧ dataBlockAddress 0 3 = 0 ∧ dataBlockAddress 1 2 = 6 ∧ dataBlockAddress 1 4 = 5 ∧
    dataBlockAddress 15 2 = 62 ∧ trailerAddress 0 = 3 ∧ trailerAddress 63 = 255 ∧ sectorOf 0x04#8 = 1#6 ∧
    sectorOf 0x3F#8 = 15#6 ∧ sectorOf 0xFF#8 = 63#6 ∧ indexOf 0x07#8 = 3 ∧ indexOf 0x3E#8 = 2 := by decide

/-! ## The access codec -/

/-- V24, the source's example. -/
theorem test_encode :
    gives (exec (.encode ⟨6#8, 5#8, 1#8, 4#8⟩) State.reset) (.encoded 0xE9#8 0x64#8 0xB1#8 0x3C#8) [] (fun _ => true) := by
  decide

/-- V27. -/
theorem test_encode_again :
    gives (exec (.encode ⟨5#8, 2#8, 7#8, 0#8⟩) State.reset) (.encoded 0x9A#8 0x5A#8 0x56#8 0x96#8) [] (fun _ => true) := by
  decide

/-- V25: the source's example of three bytes. -/
theorem test_decode_three :
    gives (exec (.decode [0x80#8, 0x07#8, 0xFF#8]) State.reset) (.decoded ⟨6#8, 6#8, 6#8, 6#8⟩ false) [] (fun _ => true) := by
  decide

/-- V25: an `encode` image, and one whose byte 3 is the exclusive or while a nibble pair is inconsistent. -/
theorem test_decode_four :
    gives (exec (.decode [0xE9#8, 0x64#8, 0xB1#8, 0x3C#8]) State.reset) (.decoded ⟨6#8, 5#8, 1#8, 4#8⟩ true) []
      (fun _ => true) ∧
    gives (exec (.decode [0xE9#8, 0x6B#8, 0xB1#8, 0x33#8]) State.reset) (.decoded ⟨6#8, 5#8, 1#8, 4#8⟩ false) []
      (fun _ => true) := by decide

/-- V26. -/
theorem test_getBit :
    gives (exec (.getBit ⟨6#8, 5#8, 1#8, 4#8⟩ 1#8) State.reset) (.nibble 0x6#4) [] (fun _ => true) ∧
    gives (exec (.getBit ⟨6#8, 5#8, 1#8, 4#8⟩ 2#8) State.reset) (.nibble 0x1#4) [] (fun _ => true) ∧
    gives (exec (.getBit ⟨6#8, 5#8, 1#8, 4#8⟩ 3#8) State.reset) (.nibble 0xB#4) [] (fun _ => true) := by decide

/-- The ACCESS row on V25's third line: byte 3 is not the exclusive or. -/
theorem test_access :
    gives (exec (.access ⟨[0xFF#8, 0x07#8, 0x80#8, 0x69#8], rfl⟩) State.reset) (.decoded ⟨0#8, 0#8, 0#8, 4#8⟩ false) []
      (fun _ => true) := by decide

/-! ## The wait -/

/-- The engine after power-on with moves of the outside scripted. -/
def scripted (l : List Move) : State := { State.reset with inputs := l.map .move }

/-- V30: one timeout, then an edge. -/
theorem test_wait_timeout_then_edge :
    gives (exec .wait (scripted [.go, .go, .go, .timeout, .go, .go, .go, .line true, .sample, .line false, .sample, .go, .go]))
      .done [0x1226, 0x020C, 0x1A87, 0x1226, 0x020C, 0x1A87]
      (fun t => !t.watch && !t.signal && !t.irqPrev && t.cfg == .needsReset && t.inputs.isEmpty) = true := by decide

/-- V31: an edge during the arming is not lost, and the timeout is not enabled; P6: abandoned after two timeouts. -/
theorem test_wait_edges_and_abandonment :
    gives (exec .wait (scripted [.go, .line false, .sample, .go, .go, .timeout, .go, .go])) .done [0x1226, 0x020C, 0x1A87]
      (fun t => !t.watch && !t.signal) = true ∧
    gives (exec .wait (scripted [.go, .go, .go, .timeout, .go, .go, .go, .timeout, .go, .go, .go, .abandon, .go]))
      (.error .abandoned)
      [0x1226, 0x020C, 0x1A87, 0x1226, 0x020C, 0x1A87, 0x1226, 0x020C, 0x1A87] (fun t => !t.watch) = true := by decide

set_option maxRecDepth 20000 in
/-- P1 as the one request `0F`: the edge comes between the second and third write of the arming. -/
theorem test_selectCard :
    gives (exec .selectCard { scripted [.go, .go, .line true, .sample, .line false, .sample, .go, .go, .go] with
      answers := bytes [0x80, 0x00, 0x00, 0x07, 0x30, 0x87, 0x00, 0x02, 0x00, 0x04, 0x00, 0x00, 0x00, 0x00, 0x30, 0x80,
      0x00, 0x05, 0x00, 0xDE, 0xAD, 0xBE, 0xEF, 0x22, 0x00, 0x00, 0x04, 0x3A, 0x70, 0x00, 0x00, 0x00, 0x30, 0x80, 0x00,
      0x03, 0x00, 0x08, 0xB6, 0xDD] }) (.blocks 0x08#8) [0x1226, 0x020C, 0x1A87, 0x020F, 0x548D, 0x563E, 0x5A1E, 0x5800,
      0x2A40, 0x223D, 0xA800, 0x2883, 0x1A07, 0x04F7, 0x8800, 0x0800, 0x9400, 0x1480, 0x0200, 0x1226, 0x020C, 0x9A00,
      0x1A87, 0x8800, 0x9A00, 0x1A07, 0x8C00, 0x9400, 0x9800, 0x9200, 0x9200, 0x1A00, 0x04F7, 0x8800, 0x0800, 0x9400,
      0x1480, 0x0200, 0x1293, 0x1220, 0x020C, 0x9A00, 0x1A80, 0x8800, 0x9A00, 0x1A00, 0x8C00, 0x9400, 0x9800, 0x9200,
      0x9200, 0x9200, 0x9200, 0x9200, 0x8A00, 0x0A00, 0x9400, 0x1480, 0x1293, 0x1270, 0x12DE, 0x12AD, 0x12BE, 0x12EF,
      0x0203, 0x8A00, 0xC400, 0xC200, 0x04F7, 0x8800, 0x0800, 0x9400, 0x1480, 0x0200, 0x1293, 0x1270, 0x12DE, 0x12AD,
      0x12BE, 0x12EF, 0x123A, 0x1270, 0x020C, 0x9A00, 0x1A80, 0x8800, 0x9A00, 0x1A00, 0x8C00, 0x9400, 0x9800, 0x9200,
      0x9200, 0x9200] (fun t => holds .selected none false (some uid) none .ready t && !t.watch) = true := by decide

/-- A `selectCard` abandoned in its wait ends there (42_card_session R126). -/
theorem test_selectCard_abandoned :
    gives (exec .selectCard (scripted [.go, .go, .go, .abandon, .go])) (.error .abandoned) [0x1226, 0x020C, 0x1A87]
      (holds .idle none false none none .needsReset) = true := by decide

/-! ## One step at a time -/

/-- `o` is a next state of which `c` holds. -/
def goesOn (o : Out) (c : State → Bool) : Bool :=
  match o with
  | .next t => c t
  | _ => false

/-- V23 requested by the host: the read, after which T holds the byte; the write; and line 2, which clears the session and
ends it. PHASE counts the steps (10_state R22). -/
theorem test_steps_stopCrypto :
    goesOn (steps 1 (asked [0x0A] (session [0x08])))
      (fun t => t.pc == ⟨some .stopCrypto, 1, 0⟩ && frames t == [0x9000] && t.work.t == some 0x08#8 && t.authd) ∧
    goesOn (steps 2 (asked [0x0A] (session [0x08])))
      (fun t => t.pc == ⟨some .stopCrypto, 2, 0⟩ && frames t == [0x9000, 0x1000] && t.authd && t.result == none) ∧
    gives (steps 3 (asked [0x0A] (session [0x08]))) .done [0x9000, 0x1000] (holds .idle none false none none .ready) :=
  by decide

/-- V8 requested by the host: line 1 of `reset` clears AUTHD, line 2 is its transaction, line 3 does the rest. -/
theorem test_steps_reset :
    goesOn (steps 1 (asked [0x02] (session [])))
      (fun t => holds .authenticated (some 1#6) false (some uid) (some key) .ready t && t.pc == ⟨some .reset, 1, 0⟩ &&
        t.trace.isEmpty) ∧
    goesOn (steps 2 (asked [0x02] (session [])))
      (fun t => holds .authenticated (some 1#6) false (some uid) (some key) .ready t && t.pc == ⟨some .reset, 2, 0⟩ &&
        frames t == [0x020F]) ∧
    gives (steps 3 (asked [0x02] (session []))) .done [0x020F] (holds .idle none false none none .needsInit) := by decide

/-- What the steps of `computeCrc []` return up to the first read of its poll (41_crc R105 line 7): a read and a write of
DIVIRQ, of the flush register, the write of COMMAND, and `MATCHED <- false; ITER <- 0`. -/
def crcStarted : List (Option Byte) := [some 0#8, some 0#8, some 0#8, some 0#8, some 0#8, none]

/-- A `computeCrc []` in progress, its steps so far having returned `took`, at PHASE `phase`. -/
def computing (phase : Nat) (took : List (Option Byte)) (a : Nat) : State :=
  { engine .idle .needsReset [a] with pc := ⟨some .computeCrc, phase, 0⟩, job := some ⟨.computeCrc [], took⟩ }

/-- A read of 0x00 in the poll takes it back to the read, with ITER 1; a read of 0x04 goes on by one (10_state R21, R22). -/
theorem test_steps_poll :
    goesOn (step (computing 6 crcStarted 0x00)) (fun t => t.pc == ⟨some .computeCrc, 6, 1⟩ && frames t == [0x8A00] &&
      t.work.matched == some false && t.work.stat == some 0x00#8) ∧
    goesOn (step (computing 6 crcStarted 0x04)) (fun t => t.pc == ⟨some .computeCrc, 7, 1⟩ && frames t == [0x8A00] &&
      t.work.matched == some true) := by decide

/-- Line 10 of `computeCrc` writes CRCRES[0], and line 11 CRCRES[1] (41_crc R105; V6). -/
theorem test_steps_crcRes :
    goesOn (step (computing 8 (crcStarted ++ [some 0x04#8, none]) 0x26)) (fun t => t.pc == ⟨some .computeCrc, 9, 0⟩ &&
      frames t == [0xC400] && t.work.crcRes0 == some 0x26#8 && t.work.crcRes1 == none) ∧
    goesOn (step (computing 9 (crcStarted ++ [some 0x04#8, none, some 0x26#8]) 0xEE)) (fun t =>
      t.pc == ⟨some .computeCrc, 10, 0⟩ && frames t == [0xC200] && t.work.crcRes1 == some 0xEE#8 && t.result == none) := by
  decide

/-- A raise inside a sub-operation empties the working registers at once, before the enclosing operation's teardown
(60_exceptions R170 (2)): an `authenticate` whose `execute` reads 0x08 in the error register (V18's steps up to that read). -/
theorem test_steps_raise :
    goesOn (step { carded .selected [0x08] with
      pc := ⟨some .authenticate, 27, 1⟩
      work := { Work.empty with stat := some 0x10#8, matched := some true, t := some 0#8 }
      job := some ⟨.authenticate 0x60#8 0x04#8 key uid, [none, none] ++ List.replicate 19 (some 0#8) ++
        [none, none, some 0x10#8, some 0#8, some 0#8, none]⟩ })
      (fun t => t.pc == ⟨some .authenticate, 28, 1⟩ && frames t == [0x8C00] && t.work == Work.empty && t.result == none) := by
  decide

/-- The steps of a `selectCard` requested by the host: the transaction of its `reset`, and then line 3, after which `init` is
next (42_card_session R126); PHASE goes on counting. -/
theorem test_steps_selectCard :
    goesOn (step { State.reset with pc := ⟨some .selectCard, 8, 0⟩, job := some ⟨.reset, [none]⟩ })
      (fun t => t.pc == ⟨some .selectCard, 9, 0⟩ && frames t == [0x020F] && t.cfg == .needsReset) ∧
    goesOn (step { State.reset with pc := ⟨some .selectCard, 9, 0⟩, job := some ⟨.reset, [none, some 0#8]⟩ })
      (fun t => t.pc == ⟨some .selectCard, 10, 0⟩ && t.job == some ⟨.init, []⟩ && t.trace.isEmpty && t.cfg == .needsInit &&
        t.result == none) := by decide

/-- The last lines of a wait requested by the host: line 9 deregisters the watch, line 10 ends it, one step each
(44_presence_wait R154, R157). -/
theorem test_steps_waitEnd :
    goesOn (step { State.reset with pc := ⟨some .wait, 5, 0⟩, watch := true, job := some ⟨.wait, []⟩ })
      (fun t => t.pc == ⟨some .wait, 6, 0⟩ && !t.watch && t.result == none) ∧
    gives (step { State.reset with pc := ⟨some .wait, 6, 0⟩, job := some ⟨.wait, []⟩ }) .done [] (fun t => !t.watch) := by
  decide

/-! ## The other rows, each run alone -/

/-- The frames of the W rows with the value `v`, and of BUS.write (V34's write bytes). -/
theorem test_write_rows :
    gives (exec (.busWrite 0x3F#6 0xA5#8) State.reset) .done [0x7EA5] (fun _ => true) ∧
    gives (exec (.wCommand 0xA5#8) State.reset) .done [0x02A5] (fun _ => true) ∧
    gives (exec (.wComIEn 0xA5#8) State.reset) .done [0x04A5] (fun _ => true) ∧
    gives (exec (.wComIrq 0xA5#8) State.reset) .done [0x08A5] (fun _ => true) ∧
    gives (exec (.wDivIrq 0xA5#8) State.reset) .done [0x0AA5] (fun _ => true) ∧
    gives (exec (.wStatus2 0xA5#8) State.reset) .done [0x10A5] (fun _ => true) ∧
    gives (exec (.wFifoData 0xA5#8) State.reset) .done [0x12A5] (fun _ => true) ∧
    gives (exec (.wFifoLevel 0xA5#8) State.reset) .done [0x14A5] (fun _ => true) ∧
    gives (exec (.wBitFraming 0xA5#8) State.reset) .done [0x1AA5] (fun _ => true) ∧
    gives (exec (.wMode 0xA5#8) State.reset) .done [0x22A5] (fun _ => true) ∧
    gives (exec (.wTxControl 0xA5#8) State.reset) .done [0x28A5] (fun _ => true) ∧
    gives (exec (.wTxAuto 0xA5#8) State.reset) .done [0x2AA5] (fun _ => true) ∧
    gives (exec (.wTMode 0xA5#8) State.reset) .done [0x54A5] (fun _ => true) ∧
    gives (exec (.wTPrescaler 0xA5#8) State.reset) .done [0x56A5] (fun _ => true) ∧
    gives (exec (.wTReloadH 0xA5#8) State.reset) .done [0x58A5] (fun _ => true) ∧
    gives (exec (.wTReloadL 0xA5#8) State.reset) .done [0x5AA5] (fun _ => true) := by decide

/-- The frames of the R rows, and of BUS.read, and the value presented (V34's read bytes). -/
theorem test_read_rows :
    gives (exec (.busRead 0x3F#6) (engine .idle .needsReset [0xA5])) (.regValue 0xA5#8) [0xFE00] (fun _ => true) ∧
    gives (exec .rComIrq (engine .idle .needsReset [0xA5])) (.regValue 0xA5#8) [0x8800] (fun _ => true) ∧
    gives (exec .rDivIrq (engine .idle .needsReset [0xA5])) (.regValue 0xA5#8) [0x8A00] (fun _ => true) ∧
    gives (exec .rError (engine .idle .needsReset [0xA5])) (.regValue 0xA5#8) [0x8C00] (fun _ => true) ∧
    gives (exec .rStatus2 (engine .idle .needsReset [0xA5])) (.regValue 0xA5#8) [0x9000] (fun _ => true) ∧
    gives (exec .rFifoData (engine .idle .needsReset [0xA5])) (.regValue 0xA5#8) [0x9200] (fun _ => true) ∧
    gives (exec .rFifoLevel (engine .idle .needsReset [0xA5])) (.regValue 0xA5#8) [0x9400] (fun _ => true) ∧
    gives (exec .rControl (engine .idle .needsReset [0xA5])) (.regValue 0xA5#8) [0x9800] (fun _ => true) ∧
    gives (exec .rBitFraming (engine .idle .needsReset [0xA5])) (.regValue 0xA5#8) [0x9A00] (fun _ => true) ∧
    gives (exec .rTxControl (engine .idle .needsReset [0xA5])) (.regValue 0xA5#8) [0xA800] (fun _ => true) ∧
    gives (exec .rCrcResultH (engine .idle .needsReset [0xA5])) (.regValue 0xA5#8) [0xC200] (fun _ => true) ∧
    gives (exec .rCrcResultL (engine .idle .needsReset [0xA5])) (.regValue 0xA5#8) [0xC400] (fun _ => true) := by decide

/-- The chip commands: one write of COMMAND each (30_encoding R74). -/
theorem test_chip_commands :
    gives (exec .cmdIdle State.reset) .done [0x0200] (fun _ => true) ∧
    gives (exec .cmdCalcCrc State.reset) .done [0x0203] (fun _ => true) ∧
    gives (exec .cmdTransceive State.reset) .done [0x020C] (fun _ => true) ∧
    gives (exec .cmdAuthenticate State.reset) .done [0x020E] (fun _ => true) ∧
    gives (exec .cmdSoftReset State.reset) .done [0x020F] (fun _ => true) := by decide

/-- The card frames into the FIFO (30_encoding R77 to R81; the FIFODATA rows of V10, V12, V15, V16, V19, V21). -/
theorem test_card_frames :
    gives (exec .cardReqa State.reset) .done [0x1A07, 0x1226] (fun _ => true) ∧
    gives (exec .cardAnticoll State.reset) .done [0x1A00, 0x1293, 0x1220] (fun _ => true) ∧
    gives (exec (.cardSelect uid none 0x3A#8 0x70#8) State.reset) .done
      [0x1293, 0x1270, 0x12DE, 0x12AD, 0x12BE, 0x12EF, 0x123A, 0x1270] (fun _ => true) ∧
    gives (exec (.cardAuth 0x60#8 0x04#8 key uid) State.reset) .done
      [0x1260, 0x1204, 0x12FF, 0x12FF, 0x12FF, 0x12FF, 0x12FF, 0x12FF, 0x12DE, 0x12AD, 0x12BE, 0x12EF] (fun _ => true) ∧
    gives (exec (.cardRead 0x04#8 0x26#8 0xEE#8) State.reset) .done [0x1230, 0x1204, 0x1226, 0x12EE] (fun _ => true) ∧
    gives (exec (.cardWrite 0x04#8 0x7B#8 0xF7#8) State.reset) .done [0x12A0, 0x1204, 0x127B, 0x12F7] (fun _ => true) ∧
    gives (exec (.cardWriteData data 0x77#8 0xF5#8) State.reset) .done
      [0x1200, 0x1201, 0x1202, 0x1203, 0x1204, 0x1205, 0x1206, 0x1207, 0x1208, 0x1209, 0x120A, 0x120B, 0x120C, 0x120D,
        0x120E, 0x120F, 0x1277, 0x12F5] (fun _ => true) := by decide

/-- The acknowledgement (30_encoding R82) and the result codes (60_exceptions R163, R170): nothing of the session changes. -/
theorem test_results :
    gives (exec .ack (session [])) (.acked true) [] (fun t => t.pstate == .authenticated) ∧
    gives (exec .errOk (session [])) .done [] (fun t => t.pstate == .authenticated) ∧
    gives (exec .errTimeoutError (session [])) (.error .timeoutError) [] (fun t => t.pstate == .authenticated) ∧
    gives (exec .errProtocolError (session [])) (.error .protocolError) [] (fun t => t.authd) ∧
    gives (exec .errChecksumError (session [])) (.error .checksumError) [] (fun t => t.authd) ∧
    gives (exec .errCardNotPresentError (session [])) (.error .cardNotPresentError) [] (fun t => t.authd) ∧
    gives (exec .errAuthReadFailure (session [])) (.error .authReadFailure) [] (fun t => t.authd) ∧
    gives (exec .errAuthFailure (session [])) (.error .authFailure) [] (fun t => t.authd) ∧
    gives (exec .errWriteNotAuthorizedError (session [])) (.error .writeNotAuthorizedError) [] (fun t => t.authd) ∧
    gives (exec .errWriteFailedError (session [])) (.error .writeFailedError) [] (fun t => t.authd) ∧
    gives (exec .errDataLengthError (session [])) (.error .dataLengthError) [] (fun t => t.authd) ∧
    gives (exec .errAbandoned (session [])) (.error .abandoned) [] (fun t => t.authd) := by decide

/-! ## Witnesses: a concrete state and operands that meet the hypotheses of each obligation that has any -/

/-- A vector's outcome as the hypothesis of a statement: exec answers a next state with that result. -/
theorem exists_of_gives {o : Out} {r : Result} {fs : List Nat} {c : State → Bool} (h : gives o r fs c = true) :
    ∃ t, o = .next t ∧ t.result = some r := by
  unfold gives at h
  split at h
  · exact ⟨_, rfl, by simp at h; exact h.1.1.1.1⟩
  · simp at h

/-- O1: the default parameters are admissible, and so are those with SELECT_APPEND_BCC; operands at the edges of their ranges
are well formed, and a plain BUS frame has its own words at an address with no row. -/
theorem witness_decodeOfEncode :
    defaultParams.WF ∧ Params.WF { defaultParams with selectAppendBcc := true } ∧
    (∀ i ∈ [Instr.readBlock 0xFF#8, .busWrite 0x3F#6 0xFF#8, .busRead 0x00#6, .encode ⟨7#8, 7#8, 7#8, 7#8⟩,
        .getBit ⟨7#8, 7#8, 7#8, 7#8⟩ 1#8, .getBit ⟨0#8, 0#8, 0#8, 0#8⟩ 3#8, .decode [0#8, 0#8, 0#8],
        .decode [0#8, 0#8, 0#8, 0#8], .cardSelect uid none 0xFF#8 0x00#8],
      i.wf defaultParams = true ∧ i.ownWords defaultParams = true) ∧
    (Instr.cardSelect uid (some 0x22#8) 0#8 0#8).wf { defaultParams with selectAppendBcc := true } = true := by decide

/-- O2: a frame of each format but ACK that decodes. -/
theorem witness_encodeOfDecode :
    Format.bus ≠ .ack ∧ decodeFrame defaultParams .bus [0x02#8, 0x0F#8] = .ok (.wCommand 0x0F#8) ∧
    Format.hostop ≠ .ack ∧ decodeFrame defaultParams .hostop [0x0F#8] = .ok .selectCard ∧
    Format.card ≠ .ack ∧ decodeFrame defaultParams .card [0x30#8, 0x04#8, 0x26#8, 0xEE#8] = .ok (.cardRead 4#8 0x26#8 0xEE#8) ∧
    Format.errcode ≠ .ack ∧ decodeFrame defaultParams .errcode [10#8] = .ok .errAbandoned :=
  ⟨by decide, rfl, by decide, rfl, by decide, rfl, by decide, rfl⟩

/-- O5: selects 0x00, 0x0F, 0x10 and 0xFF presented to an idle engine. -/
theorem witness_unknownSelect :
    (∀ n ∈ [0x00, 0x0F, 0x10, 0xFF], (asked [n] State.reset).inputs = .request (BitVec.ofNat 8 n :: []) :: [] ∧
      (asked [n] State.reset).pc.op = none ∧ (asked [n] State.reset).placed = none) ∧
    0x10 ≤ (0x10#8).toNat ∧ 0x10 ≤ (0xFF#8).toNat ∧ (0x0F#8).toNat < 0x10 ∧ (0x00#8).toNat < 0x10 := by decide

/-- A state in which a row of the opcode table is placed by itself. -/
def holding (f : Format) (l : List Nat) (s : State) : State := { s with placed := some (f, bytes l) }

/-- O6: a host request that decodes and one that does not, taken by an idle engine; a row placed by itself that decodes and one
that does not. -/
theorem witness_stepRunsTheDecodedFrame :
    (asked [0x0A] (session [])).inputs = .request [0x0A#8] :: [] ∧ (asked [0x0A] (session [])).pc.op = none ∧
    (asked [0x0A] (session [])).placed = none ∧
    decodeFrame (asked [0x0A] (session [])).params .hostop [0x0A#8] = .ok .stopCrypto ∧
    decodeFrame (asked [0x10] (session [])).params .hostop [0x10#8] = .error (.badSelect 0x10#8) ∧
    (holding .bus [0x02, 0x0F] State.reset).placed = some (.bus, [0x02#8, 0x0F#8]) ∧
    (holding .bus [0x02, 0x0F] State.reset).pc.op = none ∧
    decodeFrame (holding .bus [0x02, 0x0F] State.reset).params .bus [0x02#8, 0x0F#8] = .ok (.wCommand 0x0F#8) ∧
    decodeFrame (holding .bus [0x03, 0x0F] State.reset).params .bus [0x03#8, 0x0F#8] = .error .busBitZeroSet :=
  ⟨rfl, rfl, rfl, rfl, rfl, rfl, rfl, rfl, rfl⟩

/-- O7: a scripted move, with nothing placed, and in the middle of an operation; and a scripted turn of a `computeCrc` in its
poll, which is the step it makes by itself. -/
theorem witness_stepMakesTheNextMove :
    (scripted [.sample, .go]).inputs = .move .sample :: [.move .go] ∧ (scripted [.sample, .go]).placed = none ∧
    ({ scripted [.go] with pc := ⟨some .wait, 1, 0⟩ } : State).pc.op ≠ none ∧
    (let s : State := { computing 6 crcStarted 0x00 with inputs := [.move .go] }
     s.inputs = .move .go :: [] ∧ s.pc.op ≠ none ∧ atWaitPoint s = false ∧ (∀ m more, ([] : List Input) ≠ .move m :: more) ∧
      goesOn (step s) (fun t => t.pc == ⟨some .computeCrc, 6, 1⟩ && frames t == [0x8A00]) = true) :=
  ⟨rfl, rfl, by decide, rfl, by decide, by decide, nofun, by decide⟩

/-- A wait in progress at the line `phase`: line 2, the arming, its wait point (phase 4). -/
def waiting (phase : Nat) (signal : Bool) : State :=
  { State.reset with pc := ⟨some .wait, phase, 0⟩, watch := true, signal := signal }

/-- The invariant of a state in the middle of an operation, in Idle. -/
theorem inv_of {s : State} {j : Job} {op : HostOp} {p : Prog Result} (hj : s.job = some j) (hp : program j.instr = some (op, p))
    (ho : s.pc.op = some op) (ha : atStep (p.after s.params j.took) = true)
    (hh : HeldState s (returning (p.after s.params j.took)) j.instr) (hw : s.watch = false) (hi : inWait s = false)
    (hs : s.authd = false ∧ s.pstate = .idle ∧ s.sector = none ∧ s.key = none ∧ s.uid = none ∧ s.rstOut = true) : Inv s := by
  obtain ⟨h1, h2, h3, h4, h5, h6⟩ := hs
  exact ⟨by simp [h1, h2], by simp [h3, h2], by simp [h4, h2], by simp [h5, h2], fun h => (by rw [ho] at h; cases h),
    by simp [hw, hi], fun _ _ => ⟨j, op, p, hj, hp, .inl ho, ha, hh⟩, h6⟩

/-- A wait in progress has the invariant. -/
theorem inv_waiting {phase : Nat} (signal : Bool) (h : phase ≤ 5) (l : List Input) :
    Inv { waiting phase signal with inputs := l } :=
  ⟨by simp [waiting, State.reset], by simp [waiting, State.reset], by simp [waiting, State.reset],
    by simp [waiting, State.reset], fun x => (by cases x), ⟨fun _ => ⟨rfl, h⟩, fun _ => rfl⟩, fun _ x => (by cases x), rfl⟩

/-- O8: a request presented to an engine with a wait in progress, at a line before the wait point and at the wait point;
the step answers a next state. A state with the invariant and a step for each of the ways PHASE goes on: a line of a wait, a
poll that reads again, by itself and in a scripted turn, a move of the line, and a timeout at the wait point. -/
theorem witness_busyEngineAcceptsNothing :
    (waiting 4 false).pc.op ≠ none ∧
    (asked [0x02] (waiting 1 false)).inputs = .request [0x02#8] :: [] ∧
    (asked [0x02] (waiting 1 false)).pc.op ≠ none ∧
    (∃ t, step (asked [0x02] (waiting 1 false)) = .next t) ∧ (∃ t, step (asked [0x02] (waiting 4 false)) = .next t) ∧
    (∀ s ∈ [{ waiting 1 false with inputs := [] }, computing 6 crcStarted 0x00,
        { computing 6 crcStarted 0x00 with inputs := [.move .go] }, { waiting 1 false with inputs := [.move .sample] },
        { waiting 4 false with inputs := [.move (.line false)] }, { waiting 4 false with inputs := [.move .timeout] }],
      Inv s ∧ s.pc.op ≠ none ∧ ∃ t, step s = .next t ∧ t.pc.op ≠ none) := by
  refine ⟨by decide, rfl, by decide, ⟨_, rfl⟩, ⟨_, rfl⟩, ?_⟩
  simp only [List.forall_mem_cons, List.not_mem_nil, false_implies, implies_true, and_true]
  exact ⟨⟨inv_waiting false (by decide) [], by decide, _, rfl, by decide⟩,
    ⟨inv_of rfl rfl rfl rfl trivial rfl rfl ⟨rfl, rfl, rfl, rfl, rfl, rfl⟩, by decide, _, rfl, by decide⟩,
    ⟨inv_of rfl rfl rfl rfl trivial rfl rfl ⟨rfl, rfl, rfl, rfl, rfl, rfl⟩, by decide, _, rfl, by decide⟩,
    ⟨inv_waiting false (by decide) _, by decide, _, rfl, by decide⟩,
    ⟨inv_waiting false (by decide) _, by decide, _, rfl, by decide⟩,
    ⟨inv_waiting false (by decide) _, by decide, _, rfl, by decide⟩⟩

/-- O9, O10, O13 to O17, O20 to O22, O24 to O27, O35, O42, O43, O45: an idle engine, after power-on and in every state of the
protocol. -/
theorem witness_idle :
    State.reset.pc.op = none ∧
    ∀ ps ∈ [PState.idle, .requested, .collided, .identified, .selected, .authenticated],
      (engine ps .ready []).pc.op = none := by decide

/-- O11, O19: scripted reads: the bits set already and clear already, a poll that matches and one that runs out. -/
theorem witness_scripted_reads :
    (setBits .bitFraming 0x80#8 (engine .idle .ready [0x87])).work.t = some 0x87#8 ∧
    (clearBits .status2 0x08#8 (engine .idle .ready [0x05])).work.t = some 0x05#8 ∧
    (poll .comIrq 0x31#8 2 (engine .idle .ready [0x44, 0x01])).1 = true ∧
    (poll .comIrq 0x31#8 2 (engine .idle .ready [0x44, 0x8E])).1 = false := by decide

/-- O12: a request exec answers, one it refuses and one it faults on, with no move of the outside next. -/
theorem witness_stepwiseIsWhole :
    (∀ l ∈ [[0x02], [0x03], [0x08, 0x04]], (asked l { session [] with sector := none }).pc.op = none ∧
      (asked l { session [] with sector := none }).placed = none ∧
      (asked l { session [] with sector := none }).inputs = .request (bytes l) :: []) ∧
    (∀ m more, ([] : List Input) ≠ .move m :: more) ∧
    decodeFrame defaultParams .hostop [0x02#8] = .ok .reset ∧ decodeFrame defaultParams .hostop [0x03#8] = .ok .init ∧
    decodeFrame defaultParams .hostop [0x08#8, 0x04#8] = .ok (.readBlock 0x04#8) ∧
    (∃ t, exec .reset { session [] with sector := none } = .next t) ∧
    exec .init { session [] with sector := none } = .refused (.precondition .init) ∧
    exec (.readBlock 0x04#8) { session [] with sector := none } = .fault (.noValue .sector) :=
  ⟨by decide, nofun, rfl, rfl, rfl, ⟨_, rfl⟩, rfl, rfl⟩

/-- O16: an acknowledgement whose high nibble is not 0, and the byte 0x0A with eight valid bits, which is none. -/
theorem witness_acknowledgement : Acked ⟨[0xFA#8], some 4⟩ ∧ ¬ Acked ⟨[0x0A#8], some 8⟩ := by
  constructor
  · exact ⟨rfl, _, _, rfl, by decide⟩
  · rintro ⟨h, -⟩
    simp at h

/-- O22, O23: `execute` answers with a result: Transceive (V1), and Idle with the timer flag on the third poll (V35). -/
theorem witness_executeResults :
    (∃ t, exec (.execute .transceive [0x26#8]) (engine .idle .needsReset
      [0x00, 0x00, 0x00, 0x30, 0x00, 0x00, 0x02, 0x00, 0x04, 0x00]) = .next t ∧ t.result = some (.transceived ⟨[0x04#8, 0x00#8], some 16⟩)) ∧
    (∃ t, exec (.execute .idle []) (engine .idle .needsReset
      [0x80, 0x00, 0x44, 0x30, 0x01, 0x00, 0x00]) = .next t ∧ t.result = some (.transceived ⟨[], none⟩)) :=
  ⟨exists_of_gives test_execute_transceive,
    exists_of_gives (fs := [0x0480, 0x8800, 0x0800, 0x9400, 0x1480, 0x0200, 0x0200, 0x8800, 0x8800, 0x8800, 0x9A00, 0x1A00, 0x8C00]) (c := fun _ => true) (by decide)⟩

/-- O23, O29: one whole byte and one byte with four valid bits, two whole bytes, and three: the counts of V33. -/
theorem witness_validBits :
    validBitsOf (receivedCount 0x00#8) (lastBitsOf 0x00#8) = 8 ∧ validBitsOf (receivedCount 0x01#8) (lastBitsOf 0x04#8) = 4 ∧
    validBitsOf (receivedCount 0x02#8) (lastBitsOf 0x00#8) = 16 ∧ validBitsOf (receivedCount 0x03#8) (lastBitsOf 0x00#8) = 24 ∧
    validBitsOf (receivedCount 0x10#8) (lastBitsOf 0xFF#8) = 127 ∧ validBitsOf (receivedCount 0x11#8) (lastBitsOf 0x00#8) = 128 :=
  by decide

/-- O21, O25, O26: `execute` ends with ProtocolError (V4), `computeCrc` with TimeoutError (V7) and, at the parameter value
stale, with a value all the same (V37). -/
theorem witness_subOperationErrors :
    (∃ t, exec (.execute .transceive [0x93#8, 0x20#8]) (engine .idle .needsReset
      [0x00, 0x00, 0x00, 0x20, 0x80, 0x08]) = .next t ∧ t.result = some (.error .protocolError)) ∧
    (∃ t, exec (.computeCrc [0x30#8, 0x04#8]) (engine .idle .needsReset (List.replicate 257 0)) = .next t ∧
      t.result = some (.error .timeoutError)) ∧
    ({ State.reset with params := { defaultParams with crcTimeoutMode := .stale } } : State).params.crcTimeoutMode = .stale :=
  ⟨exists_of_gives (fs := [0x04F7, 0x8800, 0x0800, 0x9400, 0x1480, 0x0200, 0x1293, 0x1220, 0x020C, 0x9A00, 0x1A80, 0x8800, 0x9A00,
      0x1A00, 0x8C00])
      (c := fun _ => true) (by decide),
    exists_of_gives test_computeCrc_never_ready, rfl⟩

/-- O28 to O34: a state of the protocol that meets each precondition. -/
theorem witness_preconditions :
    (engine .idle .needsInit []).pc.op = none ∧ (engine .idle .needsInit []).cfg = .needsInit ∧
    (engine .idle .ready []).pstate = .idle ∧ (engine .idle .ready []).cfg = .ready ∧
    (engine .requested .ready []).pstate = .requested ∧ (carded .identified []).pstate = .identified ∧
    (carded .selected []).pstate = .selected ∧ (session []).pc.op = none ∧ (session []).pstate = .authenticated ∧
    (session []).sector = some (BitVec.ofNat 6 ((0x04#8).toNat / 4)) ∧
    (session []).sector = some (BitVec.ofNat 6 ((0x07#8).toNat / 4)) ∧
    ({ session [] with sector := some 63#6 } : State).sector = some (BitVec.ofNat 6 ((0xFF#8).toNat / 4)) := by decide

/-- O30: five bytes whose fifth is the exclusive or of the first four (V12), the all-zero answer (V45), and one that is not
(V13). -/
theorem witness_antiCollision :
    (∃ a b c d : Byte, [0xDE#8, 0xAD#8, 0xBE#8, 0xEF#8, 0x22#8] = [a, b, c, d, a ^^^ b ^^^ c ^^^ d]) ∧
    (∃ a b c d : Byte, [0#8, 0#8, 0#8, 0#8, 0#8] = [a, b, c, d, a ^^^ b ^^^ c ^^^ d]) ∧
    ¬ ∃ a b c d : Byte, [0xDE#8, 0xAD#8, 0xBE#8, 0xEF#8, 0x23#8] = [a, b, c, d, a ^^^ b ^^^ c ^^^ d] := by
  refine ⟨⟨_, _, _, _, rfl⟩, ⟨_, _, _, _, rfl⟩, ?_⟩
  rintro ⟨a, b, c, d, h⟩
  simp only [List.cons.injEq] at h
  obtain ⟨rfl, rfl, rfl, rfl, h, -⟩ := h
  revert h
  decide

/-- O30, O31: the error of `execute` passed on (V44); SELECT with its checksum byte (V47). -/
theorem witness_session_branches :
    (∃ t, exec .antiCollision (engine .requested .ready
      [0x00, 0x00, 0x00, 0x30, 0x80, 0x08]) = .next t ∧ t.result = some (.error .protocolError)) ∧
    (∃ t, exec (.selectTag uid) { carded .identified
      [0x00, 0x00, 0x04, 0xB9, 0x9C, 0x00, 0x00, 0x00, 0x30, 0x80, 0x00, 0x03, 0x00, 0x08, 0xB6, 0xDD] with
        params := { defaultParams with selectAppendBcc := true } } = .next t ∧ t.result = some (.blocks 0x08#8)) :=
  ⟨exists_of_gives (fs := [0x1A00, 0x04F7, 0x8800, 0x0800, 0x9400, 0x1480, 0x0200, 0x1293, 0x1220, 0x020C, 0x9A00, 0x1A80, 0x8800,
      0x9A00, 0x1A00, 0x8C00])
      (c := fun t => t.pstate == .collided) (by decide),
    exists_of_gives (fs := [0x8A00, 0x0A00, 0x9400, 0x1480, 0x1293, 0x1270, 0x12DE, 0x12AD, 0x12BE, 0x12EF, 0x1222, 0x0203, 0x8A00,
      0xC400, 0xC200, 0x04F7, 0x8800, 0x0800, 0x9400, 0x1480, 0x0200, 0x1293, 0x1270, 0x12DE, 0x12AD, 0x12BE,
      0x12EF, 0x1222, 0x12B9, 0x129C, 0x020C, 0x9A00, 0x1A80, 0x8800, 0x9A00, 0x1A00, 0x8C00, 0x9400, 0x9800,
      0x9200, 0x9200, 0x9200])
      (c := fun t => t.pstate == .selected) (by decide)⟩

/-- O32: the status byte read as a rejection and as none, in both senses (V16, V17, V49). -/
theorem witness_authSense :
    AuthRejected defaultParams 0x08#8 ∧ ¬ AuthRejected defaultParams 0xF7#8 ∧
    AuthRejected { defaultParams with authOkSense := .bitSet } 0xF7#8 ∧
    ¬ AuthRejected { defaultParams with authOkSense := .bitSet } 0x08#8 := by
  simp [AuthRejected, defaultParams]

/-- O32: ReadFailure (V18), and Failure without teardown (V50). -/
theorem witness_authFailures :
    (∃ t, exec (.authenticate 0x61#8 0x04#8 key2 uid) (carded .selected
      [0x00, 0x00, 0x10, 0x00, 0x10, 0x00]) = .next t ∧ t.result = some (.auth .readFailure)) ∧
    (∃ t, exec (.authenticate 0x60#8 0x04#8 key uid) { carded .selected
      [0x00, 0x00, 0x10, 0x00, 0x00, 0x08] with params := { defaultParams with autoTeardown := false } } = .next t ∧
        t.result = some (.auth .failure)) :=
  ⟨exists_of_gives (fs := [0x0492, 0x8800, 0x0800, 0x9400, 0x1480, 0x0200, 0x1261, 0x1204, 0x12A0, 0x12A1, 0x12A2, 0x12A3, 0x12A4,
      0x12A5, 0x12DE, 0x12AD, 0x12BE, 0x12EF, 0x020E, 0x8800, 0x9A00, 0x1A00, 0x8C00, 0x9000, 0x1000])
      (c := fun t => t.pstate == .idle) (by decide),
    exists_of_gives (fs := [0x0492, 0x8800, 0x0800, 0x9400, 0x1480, 0x0200, 0x1260, 0x1204, 0x12FF, 0x12FF, 0x12FF, 0x12FF, 0x12FF,
      0x12FF, 0x12DE, 0x12AD, 0x12BE, 0x12EF, 0x020E, 0x8800, 0x9A00, 0x1A00, 0x8C00, 0x9000])
      (c := fun t => t.pstate == .selected) (by decide)⟩

set_option maxRecDepth 20000 in
/-- O34: the second phase fails (V52). -/
theorem witness_writeFailed :
    ∃ t, exec (.writeBlock 0x04#8 data) (session
      [0x00, 0x00, 0x04, 0x7B, 0xF7, 0x00, 0x00, 0x00, 0x30, 0x80, 0x00, 0x01, 0x04, 0xFA, 0x00, 0x00, 0x04, 0x77,
      0xF5, 0x00, 0x00, 0x00, 0x01, 0x80, 0x00, 0x00, 0x00, 0x00, 0x08])
        = .next t ∧ t.result = some (.error .writeFailedError) :=
  exists_of_gives (fs := [0x8A00, 0x0A00, 0x9400, 0x1480, 0x12A0, 0x1204, 0x0203, 0x8A00, 0xC400, 0xC200, 0x04F7, 0x8800, 0x0800,
      0x9400, 0x1480, 0x0200, 0x12A0, 0x1204, 0x127B, 0x12F7, 0x020C, 0x9A00, 0x1A80, 0x8800, 0x9A00, 0x1A00,
      0x8C00, 0x9400, 0x9800, 0x9200, 0x8A00, 0x0A00, 0x9400, 0x1480, 0x1200, 0x1201, 0x1202, 0x1203, 0x1204,
      0x1205, 0x1206, 0x1207, 0x1208, 0x1209, 0x120A, 0x120B, 0x120C, 0x120D, 0x120E, 0x120F, 0x0203, 0x8A00,
      0xC400, 0xC200, 0x04F7, 0x8800, 0x0800, 0x9400, 0x1480, 0x0200, 0x1200, 0x1201, 0x1202, 0x1203, 0x1204,
      0x1205, 0x1206, 0x1207, 0x1208, 0x1209, 0x120A, 0x120B, 0x120C, 0x120D, 0x120E, 0x120F, 0x1277, 0x12F5,
      0x020C, 0x9A00, 0x1A80, 0x8800, 0x9A00, 0x1A00, 0x8C00, 0x9400, 0x9800, 0x9200, 0x9000, 0x1000])
    (c := fun t => t.pstate == .idle) (by decide)

/-- O36: each precondition false, at the values next to the one that meets it. -/
theorem witness_preconditionsAreRefused :
    State.reset.pc.op = none ∧ State.reset.cfg ≠ .needsInit ∧ (engine .idle .ready []).cfg ≠ .needsInit ∧
    ((engine .requested .ready []).pstate ≠ .idle ∨ (engine .requested .ready []).cfg ≠ .ready) ∧
    ((engine .idle .needsInit []).pstate ≠ .idle ∨ (engine .idle .needsInit []).cfg ≠ .ready) ∧
    (engine .collided .ready []).pstate ≠ .requested ∧ (engine .requested .ready []).pstate ≠ .identified ∧
    (session []).pstate ≠ .selected ∧ (carded .selected []).pstate ≠ .authenticated ∧
    ((session []).sector = some 1#6 ∧ (1#6).toNat ≠ (0x08#8).toNat / 4 ∧ (1#6).toNat ≠ (0x03#8).toNat / 4) := by decide

/-- O37: the configuration after power-on, and each operation that is not gated answering a next state. -/
theorem witness_bringUpOrder :
    State.reset.pc.op = none ∧ State.reset.cfg = .needsReset ∧
    (∃ t, exec .stopCrypto State.reset = .next t) ∧ (∃ t, exec .wait State.reset = .next t) ∧
    (∃ t, exec (.computeCrc []) State.reset = .next t) ∧ (∃ t, exec (.execute .idle []) State.reset = .next t) ∧
    (∃ t, exec (.encode ⟨7#8, 7#8, 7#8, 7#8⟩) State.reset = .next t) ∧
    (∃ t, exec (.decode [0#8, 0#8, 0#8]) State.reset = .next t) ∧
    (∃ t, exec (.getBit ⟨7#8, 7#8, 7#8, 7#8⟩ 3#8) State.reset = .next t) ∧
    (∃ t, exec .antiCollision (engine .requested .ready []) = .next t) ∧
    (∃ t, exec (.selectTag uid) (carded .identified []) = .next t) ∧
    (∃ t, exec (.authenticate 0x60#8 4#8 key uid) (carded .selected []) = .next t) ∧
    (∃ t, exec (.readBlock 4#8) (session []) = .next t) ∧ (∃ t, exec (.writeBlock 4#8 data) (session []) = .next t) :=
  ⟨rfl, rfl, ⟨_, rfl⟩, ⟨_, rfl⟩, ⟨_, rfl⟩, ⟨_, rfl⟩, ⟨_, rfl⟩, ⟨_, rfl⟩, ⟨_, rfl⟩, ⟨_, rfl⟩, ⟨_, rfl⟩, ⟨_, rfl⟩, ⟨_, rfl⟩, ⟨_, rfl⟩⟩

/-- O38: a state in Authenticated with no SECTOR, and the fault there. -/
theorem witness_noValueIsAFault :
    ({ session [] with sector := none } : State).pc.op = none ∧
    ({ session [] with sector := none } : State).pstate = .authenticated ∧
    ({ session [] with sector := none } : State).sector = none ∧
    exec (.readBlock 4#8) { session [] with sector := none } = .fault (.noValue .sector) := ⟨rfl, rfl, rfl, rfl⟩

/-- O39: each of the three operations presents an error with AUTO_TEARDOWN and no watch (V17, V20, V22). -/
theorem witness_teardownOnEveryError :
    (session []).params.autoTeardown = true ∧ (session []).watch = false ∧ (carded .selected []).watch = false ∧
    (∃ t, exec (.authenticate 0x60#8 0x04#8 key uid) (carded .selected
      [0x00, 0x00, 0x10, 0x00, 0x00, 0x08, 0x08]) = .next t ∧ Failed t.result) ∧
    (∃ t, exec (.readBlock 0x05#8) (session
      [0x00, 0x00, 0x04, 0xAF, 0xFF, 0x00, 0x00, 0x00, 0x30, 0x80, 0x00, 0x01, 0x04, 0x04, 0x08]) = .next t ∧ Failed t.result) ∧
    (∃ t, exec (.writeBlock 0x04#8 data) (session
      [0x00, 0x00, 0x04, 0x7B, 0xF7, 0x00, 0x00, 0x00, 0x30, 0x80, 0x00, 0x01, 0x04, 0x04, 0x08]) = .next t ∧ Failed t.result) := by
  refine ⟨rfl, rfl, rfl, ?_, ?_, ?_⟩
  · obtain ⟨t, h, hr⟩ := exists_of_gives test_authenticate_failure
    exact ⟨t, h, by rw [hr]; exact ⟨_, _, rfl, rfl⟩⟩
  · obtain ⟨t, h, hr⟩ := exists_of_gives test_readBlock_short
    exact ⟨t, h, by rw [hr]; exact ⟨_, _, rfl, rfl⟩⟩
  · obtain ⟨t, h, hr⟩ := exists_of_gives test_writeBlock_not_authorized
    exact ⟨t, h, by rw [hr]; exact ⟨_, _, rfl, rfl⟩⟩

/-- O40: each card operation answers a next state. -/
theorem witness_cardOperationsAreBounded :
    (∃ t, exec .reset State.reset = .next t) ∧ (∃ t, exec .init (engine .idle .needsInit []) = .next t) ∧
    (∃ t, exec .request (engine .idle .ready []) = .next t) ∧
    (∃ t, exec .antiCollision (engine .requested .ready []) = .next t) ∧
    (∃ t, exec (.selectTag uid) (carded .identified []) = .next t) ∧
    (∃ t, exec (.authenticate 0x60#8 4#8 key uid) (carded .selected []) = .next t) ∧
    (∃ t, exec (.readBlock 4#8) (session []) = .next t) ∧ (∃ t, exec (.writeBlock 4#8 data) (session []) = .next t) ∧
    (∃ t, exec .stopCrypto (session []) = .next t) :=
  ⟨⟨_, rfl⟩, ⟨_, rfl⟩, ⟨_, rfl⟩, ⟨_, rfl⟩, ⟨_, rfl⟩, ⟨_, rfl⟩, ⟨_, rfl⟩, ⟨_, rfl⟩, ⟨_, rfl⟩⟩

/-- O42, O43, O45: codes and `n` at the ends of their ranges; three and four bytes, with the flag true and false in V25's tests
(`test_decode_three`, `test_decode_four`). -/
theorem witness_codecOperands :
    (⟨7#8, 7#8, 7#8, 7#8⟩ : BlocksAccess).inRange = true ∧ (⟨0#8, 0#8, 0#8, 0#8⟩ : BlocksAccess).inRange = true ∧
    1 ≤ (1#8).toNat ∧ (1#8).toNat ≤ 3 ∧ 1 ≤ (3#8).toNat ∧ (3#8).toNat ≤ 3 ∧ ([] : List Byte).length ≤ 1 ∧
    [0x3C#8].length ≤ 1 := by decide

/-- O44: `encode` answers a next state with four bytes (V24). -/
theorem witness_encodeProperties :
    ∃ t, exec (.encode ⟨6#8, 5#8, 1#8, 4#8⟩) State.reset = .next t ∧
      t.result = some (.encoded 0xE9#8 0x64#8 0xB1#8 0x3C#8) := exists_of_gives test_encode

/-- O46: four bytes decoded with the flag true (V27). -/
theorem witness_codecRoundTrip :
    ∃ t, exec (.decode [0xDE#8, 0x1B#8, 0x42#8, 0x87#8]) State.reset = .next t ∧
      t.result = some (.decoded ⟨1#8, 2#8, 4#8, 0#8⟩ true) :=
  exists_of_gives (fs := []) (c := fun _ => true) (by decide)

/-- O47: one code above 7, in each place, and `decode` answering. -/
theorem witness_outOfRangeCodes :
    7 < (8#8).toNat ∧ 7 < (0xFF#8).toNat ∧
    (∀ b ∈ [(⟨8#8, 0#8, 0#8, 0#8⟩ : BlocksAccess), ⟨0#8, 8#8, 0#8, 0#8⟩, ⟨0#8, 0#8, 8#8, 0#8⟩, ⟨0#8, 0#8, 0#8, 0xFF#8⟩],
      7 < b.b0.toNat ∨ 7 < b.b1.toNat ∨ 7 < b.b2.toNat ∨ 7 < b.b3.toNat) ∧
    ∃ t c ok, exec (.decode [0xFF#8, 0xFF#8, 0xFF#8]) State.reset = .next t ∧ t.result = some (.decoded c ok) :=
  ⟨by decide, by decide, by decide, _, _, _, rfl, rfl⟩

/-- O48: a falling edge with the watch registered, and each way there is none. -/
theorem witness_interruptAgentStep :
    ((waiting 4 false).watch = true ∧ (waiting 4 false).irqPrev = true ∧
      ({ waiting 4 false with irqIn := false } : State).irqIn = false) ∧
    State.reset.watch = false ∧ ({ State.reset with irqPrev := false } : State).irqPrev = false ∧
    State.reset.irqIn = true := by decide

/-- O49: the wait point with a signal and without. -/
theorem witness_waitPointChoices :
    atWaitPoint (waiting 4 true) = true ∧ (waiting 4 true).signal = true ∧ atWaitPoint (waiting 4 false) = true ∧
    (waiting 4 false).signal = false ∧ atWaitPoint (waiting 3 false) = false := by decide

/-- O50, O53, O57: the moves of a wait ended by an edge and by abandonment, after no and after one timeout; the edge sampled at
the wait point, in the last arming, and before the first line. -/
theorem witness_waitMoves :
    State.reset.pc.op = none ∧
    (∀ x ∈ [(0, 0, armedMoves defaultParams 0), (0, 3, []), (1, 0, armedMoves defaultParams 1),
        (1, 2, turns 3 ++ .move .timeout :: turns 1), (1, 3, turns 3 ++ [.move .timeout])],
      x.2.2 ++ turns x.2.1 = armedMoves defaultParams x.1) ∧
    ({ State.reset with inputs := armedMoves defaultParams 1 ++ [.move .abandon] ++ exitMoves defaultParams } :
        State).inputs = armedMoves defaultParams 1 ++ [.move .abandon] ++ exitMoves defaultParams ++ [] := by decide

/-- `reset` in progress in a session, requested by the host: AUTHD cleared, its one transaction next. -/
def resetting : State :=
  { session [] with pc := ⟨some .reset, 1, 0⟩, authd := false, job := some ⟨.reset, [none]⟩ }

/-- An `antiCollision` in progress whose one step left returns the UID (the answers of V12). -/
def returningUid : State :=
  { carded .identified [] with
    pc := ⟨some .antiCollision, 33, 1⟩
    job := some ⟨.antiCollision, [some 0#8, none] ++ List.replicate 9 (some 0#8) ++ [none, some 0#8, some 0#8, none] ++
      [some 0x30#8, some 0#8, some 0#8, none, some 0#8, none, some 5#8, some 0#8] ++
      (bytes [0xDE, 0xAD, 0xBE, 0xEF, 0x22]).map some ++ [none, none, none, none, none]⟩ }

/-- O51: a state of a session that has the invariant, from which a step goes on; a wait in progress; a `reset` in the middle;
and an `antiCollision` before the line that returns, where its PSTATE is what it leaves. -/
theorem witness_invariant :
    Inv (asked [0x0A] (session [])) ∧ (∃ t, step (asked [0x0A] (session [])) = .next t) ∧
    Inv (waiting 4 false) ∧ (∃ t, step (waiting 4 false) = .next t) ∧
    Inv resetting ∧ (∃ t, step resetting = .next t) ∧
    Inv returningUid ∧ (∃ t, step returningUid = .next t ∧ t.result = some (.uid uid)) := by
  have h : ∀ s : State, (s.authd = true ↔ s.pstate = .authenticated) → s.job = none →
      (s.authd = true ↔ s.pstate = .authenticated ∧ ∀ x l, s.job ≠ some ⟨.reset, x :: l⟩) :=
    fun s h hj => ⟨fun x => ⟨h.1 x, by rw [hj]; nofun⟩, fun x => h.2 x.1⟩
  refine ⟨⟨h _ (by decide) rfl, by decide, by decide, by decide, by decide, by decide, fun x => absurd rfl x, rfl⟩,
    ⟨_, rfl⟩, ⟨h _ (by decide) rfl, by decide, by decide, by decide, by decide, by decide, fun _ x => (by cases x), rfl⟩,
    ⟨_, rfl⟩, ⟨⟨fun x => (by cases x), fun x => absurd rfl (x.2 none [])⟩, by decide, by decide, by decide, by decide,
      by decide, fun _ _ => ⟨_, _, _, rfl, rfl, .inl rfl, rfl, nofun⟩, rfl⟩, ⟨_, rfl⟩, ?_, _, rfl, by decide⟩
  exact ⟨⟨fun x => (by cases x), fun x => absurd x.1 (by decide)⟩, by decide, by decide, by decide, by decide, by decide,
    fun _ _ => ⟨_, _, _, rfl, rfl, .inl rfl, by decide, rfl⟩, rfl⟩

/-- O54: timeouts, turns and samples on a line that stays high; a line held low with IRQ_PREV 0 (V31); and a line that rises
and stays high. -/
theorem witness_waitWithoutAnEdge :
    State.reset.pc.op = none ∧
    noFallingEdge true true (scripted [.go, .go, .go, .timeout, .sample, .line true]).inputs = true ∧
    noFallingEdge false false (scripted [.sample, .go, .go, .go, .sample, .timeout, .go]).inputs = true ∧
    noFallingEdge false false (scripted [.go, .sample, .line true, .sample, .go, .go, .sample]).inputs = true ∧
    noFallingEdge true true (scripted [.line false, .go, .sample]).inputs = false := by decide

/-- O56: a `selectCard` requested by the host, at the last line of its wait. -/
theorem witness_selectCardSteps :
    let s : State := { State.reset with pc := ⟨some .selectCard, 6, 0⟩, job := some ⟨.selectCard, []⟩ }
    s.pc.op = some .selectCard ∧ s.job = some ⟨.selectCard, []⟩ ∧
      s.pc.phase = deregisterPhase s.params + 1 ∧ ∀ m rest, s.inputs ≠ .move m :: rest :=
  ⟨rfl, rfl, rfl, nofun⟩

/-- O55, O56: a wait that ends, and one that stays at its wait point. -/
theorem witness_waitOutcomes :
    (∃ t, exec .wait (scripted [.go, .go, .go, .abandon, .go]) = .next t ∧ t.pc.op = none) ∧
    (∃ t, exec .wait State.reset = .next t ∧ t.pc.op ≠ none) :=
  ⟨⟨_, rfl, by decide⟩, ⟨_, rfl, by decide⟩⟩

/-- O58: a state with a transaction on its trace, from which a step goes on. -/
theorem witness_traceStaysLegal :
    (∀ x ∈ ({ asked [0x02] State.reset with trace := [⟨0x88#8, 0x00#8, 0x30#8⟩] } : State).trace, LegalXfer x) ∧
    ∃ t, step { asked [0x02] State.reset with trace := [⟨0x88#8, 0x00#8, 0x30#8⟩] } = .next t :=
  ⟨by simp [LegalXfer], ⟨_, rfl⟩⟩

/-- O59: a step that takes a host request, and one that runs a host request placed by itself. -/
theorem witness_onlyNineteenRegisters :
    (∀ f l, (asked [0x0A] State.reset).placed = some (f, l) → f = .hostop) ∧
    (∃ t, step (asked [0x0A] State.reset) = .next t) ∧
    (∀ f l, (holding .hostop [0x0A] State.reset).placed = some (f, l) → f = .hostop) ∧
    ∃ t, step (holding .hostop [0x0A] State.reset) = .next t :=
  ⟨nofun, ⟨_, rfl⟩, fun f l h => by cases h; rfl, ⟨_, rfl⟩⟩

/-- O60: `authenticate` with the result Ok (V16) sets AUTHD from clear. -/
theorem witness_sessionSecrets :
    (carded .selected []).authd = false ∧
    ∃ t, exec (.authenticate 0x60#8 0x04#8 key uid) (carded .selected
      [0x00, 0x00, 0x10, 0x00, 0x00, 0x00]) = .next t ∧ t.result = some (.auth .ok) :=
  ⟨rfl, exists_of_gives test_authenticate_ok⟩

end Sys2Proof.Tests
end

section
/-! SUPPORT. What a step does, by what comes next: a placed row, a scripted move, a host request, or nothing that can be taken
(10_state R22, 60_exceptions R169). -/

namespace Sys2Proof.Safety

open Sys2Proof.Machine

variable {s t : State} {i : Instr}

/-! ## Host requests -/

theorem noOperands_ok {ops : List Byte} {j : Instr} (h : noOperands j ops = .ok i) : i = j := by
  unfold noOperands at h
  split at h <;> cases h
  rfl

theorem orLength_ok {x : Option Instr} (h : orLength x = .ok i) : x = some i := by
  cases x <;> cases h
  rfl

/-- The operands of an operation decode to that operation. -/
theorem decodeOperands_format {p : Params} {op : HostOp} {ops : List Byte} (h : decodeOperands p op ops = .ok i) :
    i.format = .hostop := by
  cases op <;> simp only [decodeOperands] at h
  case reset | init | request | antiCollision | stopCrypto | wait | selectCard => rw [noOperands_ok h]; rfl
  case computeCrc => cases h; rfl
  case execute =>
    unfold decodeExecute at h
    split at h
    · split at h <;> cases h
      rfl
    · cases h
  case selectTag => obtain ⟨u, -, rfl⟩ := Option.map_eq_some_iff.1 (orLength_ok h); rfl
  case authenticate =>
    unfold decodeAuthOperands at h
    split at h
    · obtain ⟨k, -, hk⟩ := Option.bind_eq_some_iff.1 (orLength_ok h)
      obtain ⟨u, -, rfl⟩ := Option.map_eq_some_iff.1 hk
      rfl
    · cases h
  case readBlock => unfold decodeReadBlock at h; split at h <;> cases h; rfl
  case writeBlock =>
    unfold decodeWriteBlock at h
    split at h
    · obtain ⟨d, -, rfl⟩ := Option.map_eq_some_iff.1 (orLength_ok h); rfl
    · cases h
  case encode => unfold decodeEncode at h; split at h <;> cases h; rfl
  case decode => unfold decodeDecode at h; split at h <;> cases h; rfl
  case getBit => unfold decodeGetBit at h; split at h <;> cases h; rfl

/-- A HOSTOP frame decodes to a host request (30_encoding R70, R83). -/
theorem decodeFrame_hostop {p : Params} {l : List Byte} (h : decodeFrame p .hostop l = .ok i) : i.format = .hostop := by
  cases l with
  | nil => cases h
  | cons sel ops =>
    simp only [decodeFrame, decodeHostOp] at h
    split at h
    · exact decodeOperands_format h
    · cases h

/-! ## One step, by what comes next -/

theorem nextPlaced_busy (h : s.pc.op ≠ none) : nextPlaced s = none := by
  unfold nextPlaced
  split <;> simp [h]

theorem nextPlaced_none (h : s.placed = none) : nextPlaced s = none := by
  simp [nextPlaced, h]

/-- A row placed by itself in an idle engine is run by exec, or is refused. -/
theorem step_placed {f : Format} {l : List Byte} (hp : s.placed = some (f, l)) (hop : s.pc.op = none) :
    (∀ i, decodeFrame s.params f l = .ok i → step s = exec i (s.setPlaced none)) ∧
      ∀ e, decodeFrame s.params f l = .error e → step s = .refused (.undecodable e) := by
  have h : nextPlaced s = some (f, l, s.setPlaced none) := by simp [nextPlaced, hp, hop]
  exact ⟨fun i hd => by simp only [step, h, hd], fun e hd => by simp only [step, h, hd]⟩

/-- A scripted move is made. -/
theorem step_move {m : Move} {rest : List Input} (hp : nextPlaced s = none) (hi : s.inputs = .move m :: rest) :
    step s = .next (applyMove m (s.setInputs rest)) := by
  rw [step, hp]; simp only [hi]

/-- An idle engine begins the host's next request, or refuses it. -/
theorem step_request {l : List Byte} {rest : List Input} (hp : nextPlaced s = none) (hi : s.inputs = .request l :: rest)
    (hop : s.pc.op = none) :
    (∀ i, decodeFrame s.params .hostop l = .ok i → step s = beginRequest i (s.setInputs rest)) ∧
      ∀ e, decodeFrame s.params .hostop l = .error e → step s = .refused (.undecodable e) := by
  have h : nextRequest s = some (l, s.setInputs rest) := by simp [nextRequest, hi, hop]
  exact ⟨fun i hd => by simp only [step, hp, hi, h, hd], fun e hd => by simp only [step, hp, hi, h, hd]⟩

/-- With no move scripted and no request that can be taken, the step is the unscripted one. -/
theorem step_unscripted (hp : nextPlaced s = none) (hi : ∀ m rest, s.inputs ≠ .move m :: rest)
    (hr : ∀ l rest, s.inputs = .request l :: rest → s.pc.op ≠ none) : step s = unscripted s := by
  have h : nextRequest s = none := by
    unfold nextRequest
    split
    next l rest hl => simp [hr l rest hl]
    next => rfl
  rw [step, hp]
  cases hl : s.inputs with
  | nil => simp only [h]
  | cons x l =>
    cases x with
    | move m => exact absurd hl (hi m l)
    | request b => simp only [h]

/-- What a step that answers a next state does: exec of a placed row, a scripted move, a request begun, or the unscripted
step. -/
theorem step_cases (h : step s = .next t) :
    (∃ f l i, s.placed = some (f, l) ∧ s.pc.op = none ∧ decodeFrame s.params f l = .ok i ∧
      exec i (s.setPlaced none) = .next t) ∨
    (∃ m rest, s.inputs = .move m :: rest ∧ t = applyMove m (s.setInputs rest)) ∨
    (∃ l rest i, s.inputs = .request l :: rest ∧ s.pc.op = none ∧ decodeFrame s.params .hostop l = .ok i ∧
      beginRequest i (s.setInputs rest) = .next t) ∨
    ((∀ m rest, s.inputs ≠ .move m :: rest) ∧ unscripted s = .next t) := by
  by_cases hpl : ∃ f l, s.placed = some (f, l) ∧ s.pc.op = none
  · obtain ⟨f, l, hp, hop⟩ := hpl
    cases hd : decodeFrame s.params f l with
    | ok i => exact .inl ⟨f, l, i, hp, hop, hd, ((step_placed hp hop).1 i hd).symm.trans h⟩
    | error e => rw [(step_placed hp hop).2 e hd] at h; cases h
  have hn : nextPlaced s = none := by
    by_cases hop : s.pc.op = none
    · cases hp : s.placed with
      | none => exact nextPlaced_none hp
      | some x => exact absurd ⟨x.1, x.2, hp, hop⟩ hpl
    · exact nextPlaced_busy hop
  rcases hl : s.inputs with _ | ⟨⟨l⟩ | ⟨m⟩, rest⟩
  · rw [step_unscripted hn (by simp [hl]) (by simp [hl])] at h
    exact .inr (.inr (.inr ⟨nofun, h⟩))
  · by_cases hop : s.pc.op = none
    · cases hd : decodeFrame s.params .hostop l with
      | ok i => exact .inr (.inr (.inl ⟨l, rest, i, rfl, hop, hd, ((step_request hn hl hop).1 i hd).symm.trans h⟩))
      | error e => rw [(step_request hn hl hop).2 e hd] at h; cases h
    · rw [step_unscripted hn (by simp [hl]) fun _ _ _ => hop] at h
      exact .inr (.inr (.inr ⟨nofun, h⟩))
  · rw [step_move hn hl] at h
    cases h
    exact .inr (.inl ⟨m, rest, rfl, rfl⟩)

/-- Settles O3: the fields of `State.reset` are the table's. -/
theorem powerOnState : Obligations.PowerOnState := by
  unfold Obligations.PowerOnState
  exact ⟨rfl, rfl, rfl, rfl, rfl, rfl, rfl, rfl, rfl, rfl, rfl, rfl, rfl⟩

/-- Settles O6, by the equations of a step for a placed row and for a request. -/
theorem stepRunsTheDecodedFrame : Obligations.StepRunsTheDecodedFrame := by
  unfold Obligations.StepRunsTheDecodedFrame
  exact ⟨fun s f l hp hop => step_placed hp hop, fun s l rest hi hop hp => step_request (nextPlaced_none hp) hi hop⟩

end Sys2Proof.Safety
end

section
/-! SUPPORT. The session registers and PSTATE fit together (10_state R14, R23), in what an operation leaves and in every tick of its
program. -/

namespace Sys2Proof.Safety

open Sys2Proof.Machine

variable {α : Type} {s t u : State} {i j : Instr} {l : List (Option Byte)} {op : HostOp} {p : Prog Result} {r : Result}

/-! ## The session registers -/

/-- The session registers have a value exactly in the states that have them, and AUTHD is 1 exactly in Authenticated (10_state
R14, R23). -/
structure SessionFits (s : State) : Prop where
  authd_iff : s.authd = true ↔ s.pstate = .authenticated
  sector_iff : s.sector.isSome = true ↔ s.pstate = .authenticated
  key_iff : s.key.isSome = true ↔ s.pstate = .authenticated
  uid_iff : s.uid.isSome = true ↔ (s.pstate = .identified ∨ s.pstate = .selected ∨ s.pstate = .authenticated)

/-- Only the five session registers matter. -/
theorem SessionFits.congr (h : SessionFits s) (h1 : t.pstate = s.pstate) (h2 : t.authd = s.authd) (h3 : t.sector = s.sector)
    (h4 : t.key = s.key) (h5 : t.uid = s.uid) : SessionFits t :=
  ⟨by rw [h1, h2]; exact h.authd_iff, by rw [h1, h3]; exact h.sector_iff, by rw [h1, h4]; exact h.key_iff,
    by rw [h1, h5]; exact h.uid_iff⟩

theorem SessionFits.keeps (h : SessionFits s) (hk : Keeps s t) : SessionFits t :=
  h.congr hk.pstate hk.authd hk.sector hk.key hk.uid

theorem SessionFits.keepsBut (h : SessionFits s) (hk : KeepsBut s t) : SessionFits t :=
  h.congr hk.pstate hk.authd hk.sector hk.key hk.uid

/-- A cleared session fits, whatever it was before. -/
theorem cleared_fits (s : State) : SessionFits (cleared s) :=
  ⟨by simp [cleared], by simp [cleared], by simp [cleared], by simp [cleared]⟩

theorem SessionFits.torn (h : SessionFits s) : SessionFits (torn s) := by
  unfold Safety.torn
  split
  · exact cleared_fits s
  · exact h

/-- PSTATE moves between the states in which nothing has a value. -/
theorem SessionFits.setPState (h : SessionFits s) {x : PState} (hs : s.pstate = .idle ∨ s.pstate = .requested)
    (hx : x = .requested ∨ x = .collided) : SessionFits { s with pstate := x } := by
  obtain ⟨h1, h2, h3, h4⟩ := h
  constructor <;> rcases hs with hs | hs <;> rcases hx with rfl | rfl <;> simp_all

/-- The UID takes a value with Identified and Selected. -/
theorem SessionFits.setUid (h : SessionFits s) {x : PState} (u : Bytes 4)
    (hs : s.pstate = .requested ∨ s.pstate = .identified) (hx : x = .identified ∨ x = .selected) :
    SessionFits { s with pstate := x, uid := some u } := by
  obtain ⟨h1, h2, h3, h4⟩ := h
  constructor <;> rcases hs with hs | hs <;> rcases hx with rfl | rfl <;> simp_all

/-- The session opened from Selected. -/
theorem SessionFits.open (h : SessionFits s) (hs : s.pstate = .selected) (k : BitVec 6) (key : Bytes 6) :
    SessionFits { s with pstate := .authenticated, sector := some k, authd := true, key := some key } := by
  have hu := h.uid_iff
  rw [hs] at hu
  exact ⟨by simp, by simp, by simp, by simpa using hu⟩

/-! ## What an operation leaves -/

/-- What an operation begun in the state its precondition asks for leaves of the session registers fits. -/
theorem Leaves.fits (h : Leaves s i r t) (hs : i ≠ .reset → SessionFits s) (hh : HeldState s false i) : SessionFits t := by
  cases i
  case reset =>
    have hc : SessionFits { cleared s with cfg := .needsInit } := (cleared_fits s).congr rfl rfl rfl rfl rfl
    exact hc.keepsBut h.2
  all_goals replace hs := hs nofun
  case init => exact SessionFits.keepsBut (s := { s with cfg := .ready }) (hs.congr rfl rfl rfl rfl rfl) h.2
  case request =>
    rcases h with ⟨-, h⟩ | ⟨-, h⟩
    · exact (hs.setPState (.inl hh) (.inl rfl)).keepsBut h
    · exact hs.keepsBut h
  case antiCollision =>
    rcases h with ⟨u, -, h⟩ | ⟨e, -, h⟩
    · exact (hs.setUid u (.inl hh) (.inl rfl)).keepsBut h
    · exact (hs.setPState (.inr hh) (.inr rfl)).keepsBut h
  case selectTag =>
    rcases h with ⟨b, -, h⟩ | ⟨e, -, h⟩
    · exact (hs.setUid _ (.inr hh) (.inr rfl)).keepsBut h
    · exact hs.keepsBut h
  case authenticate =>
    rcases h with ⟨-, h⟩ | ⟨a, -, -, h⟩
    · exact (hs.open hh _ _).keepsBut h
    · exact hs.torn.keepsBut h
  case readBlock => rcases h with ⟨d, -, h⟩ | ⟨e, -, h⟩ <;> [exact hs.keepsBut h; exact hs.torn.keepsBut h]
  case writeBlock => rcases h with ⟨-, h⟩ | ⟨e, -, h⟩ <;> [exact hs.keepsBut h; exact hs.torn.keepsBut h]
  case stopCrypto => exact (cleared_fits s).keepsBut h.2
  all_goals exact hs.keepsBut h

/-- HELD looks at PSTATE and OP alone. -/
theorem HeldState.congr {b : Bool} (h : HeldState s b i) (h1 : t.pstate = s.pstate) (h2 : t.pc.op = s.pc.op) :
    HeldState t b i := by
  unfold HeldState at h ⊢
  rw [h1, h2]
  exact h

/-- An operation that ends with no error leaves the PSTATE it stands in before the line that returns. -/
theorem Leaves.held (h : Leaves s i r t) (hr : resultErrKind r = none) (hh : HeldState s false i) : HeldState t true i := by
  cases i
  case reset => exact fun _ => h.2.pstate
  case init => exact fun hop => h.2.pstate.trans (hh (h.2.op.symm.trans hop))
  case request => rcases h with ⟨-, h⟩ | ⟨rfl, -⟩ <;> [exact h.pstate; cases hr]
  case antiCollision | selectTag => rcases h with ⟨u, -, h⟩ | ⟨e, rfl, -⟩ <;> [exact h.pstate; cases hr]
  case authenticate =>
    rcases h with ⟨-, h⟩ | ⟨a, ha, rfl, -⟩
    · exact h.pstate
    · cases a with
      | ok => exact absurd rfl ha
      | readFailure => cases hr
      | failure => cases hr
  case readBlock => rcases h with ⟨d, -, h⟩ | ⟨e, rfl, -⟩ <;> [exact h.pstate.trans hh; cases hr]
  case writeBlock => rcases h with ⟨-, h⟩ | ⟨e, rfl, -⟩ <;> [exact h.pstate.trans hh; cases hr]
  all_goals trivial

/-- What a step of `selectCard` leaves is what the next one asks for (42_card_session R126). -/
theorem HeldState.next (h : HeldState s true i) (hop : s.pc.op = some .selectCard) (hn : nextStage i r = some j) :
    HeldState s false j := by
  unfold nextStage at hn
  split at hn
  · cases hn
  · split at hn <;> cases hn
    · exact fun _ => h rfl
    · exact h hop
    · exact h
    · exact h

/-- An instruction that is admitted is so in the PSTATE its precondition asks for (42_card_session R114). -/
theorem admitted_held {body : Out} (h : admitted i s body = .next t) (hu : u.pstate = s.pstate)
    (hop : u.pc.op ≠ some .selectCard) : HeldState u false i := by
  replace h := (accept_next h).2.2
  cases i
  case reset => exact nofun
  case init => exact fun h' => absurd h' hop
  case request | antiCollision | selectTag | authenticate =>
    simp only [precondition, require] at h
    split at h
    next hc => simp_all [HeldState]
    next => cases h
  case readBlock | writeBlock =>
    simp only [precondition, inSector] at h
    split at h
    next hc => exact hu.trans hc
    next => cases h
  all_goals trivial

/-- A program stands before its first step after nothing but a write of working registers, and that step is not the line that
returns. -/
theorem program_starts (hp : program i = some (op, p)) (s : State) :
    (∃ w, p.flow s = (none, s.setWork w)) ∧ atStep (p.after s.params []) = true ∧
      returning (p.after s.params []) = false := by
  refine ⟨⟨(p.flow s).2.work, ?_⟩, ?_, ?_⟩ <;> cases i <;> cases hp <;> rfl

/-- No line of `reset` is one that only returns. -/
theorem reset_never_returns (hp : program .reset = some (op, p)) (P : Params) (l : List (Option Byte)) (r : Result) :
    p.after P l ≠ .line (.ret r) := by
  cases hp
  rcases l with _ | ⟨x, _ | ⟨y, _ | ⟨z, l⟩⟩⟩ <;> nofun

/-! ## One tick -/

/-- What a tick leaves outside the program. -/
theorem tick_outside (q : Prog α) (s : State) (hq : atStep q = true) : ∃ b, Outside (s.take b) (q.tick s).2 := by
  obtain ⟨b, u, ht, -, -, ho, -⟩ := tick_eq q s hq
  refine ⟨b, ?_⟩
  have hu : Outside (s.take b) (u.take b) := by
    obtain ⟨h1, h2, h3, h4, h5, h6, h7, h8, h9, h10, h11⟩ := ho
    exact ⟨h1, h2, h3, h4, h5, h6, h7, h8, h9, h10, congrArg (Option.map _) h11⟩
  rw [ht]
  exact hu.trans (flow_outside _ _)

/-- Before a step that is no returning line, a state fits the program when `I` holds. -/
theorem lands_of {I : State → Prop} {E : α → State → Prop} {F : α → Bool} {q : Prog α} (hq : atStep q = true)
    (hn : ∀ a, q ≠ .line (.ret a)) : Lands I E F q t ↔ I t := by
  cases q with
  | ret a => cases hq
  | ask k => cases hq
  | act a k => cases hq
  | line k =>
    cases k with
    | ret a => exact absurd rfl (hn a)
    | _ => exact Iff.rfl
  | write r v k => exact Iff.rfl
  | read r k => exact Iff.rfl

/-- The program does not return: the line that does is not next. -/
theorem returning_false {q : Prog Result} (hn : ∀ r, q ≠ .line (.ret r)) : returning q = false := by
  cases q with
  | line k =>
    cases k with
    | ret a => exact absurd rfl (hn a)
    | _ => rfl
  | _ => rfl

/-- What a tick of the operation `i` from `s` leaves of the session, with `next` the rest of its program: at its end what the
operation leaves, and before that a state in which `next` stands where PSTATE says; a `reset` past its line 1 touches nothing
before its end. -/
def TickFits (s : State) (i : Instr) (next : Prog Result) (x : Option Result × State) : Prop :=
  (∃ r, x.1 = some r ∧ SessionFits x.2 ∧ (resultErrKind r = none → HeldState x.2 true i)) ∨
    (x.1 = none ∧ atStep next = true ∧ HeldState x.2 (returning next) i ∧ (i = .reset → KeepsBut s x.2) ∧
      (i ≠ .reset → SessionFits x.2))

/-- The session fits after a tick of an operation that stands where PSTATE says. -/
theorem tick_fits (hp : program i = some (op, p)) (hj : s.job = some ⟨i, l⟩) (hq : atStep (p.after s.params l) = true)
    (hh : HeldState s (returning (p.after s.params l)) i) (hs : i ≠ .reset → SessionFits s)
    (ha : i = .reset → s.authd = false) :
    ∃ b, ((p.after s.params l).tick s).2.job = some ⟨i, l ++ [b]⟩ ∧
      TickFits s i (p.after s.params (l ++ [b])) ((p.after s.params l).tick s) := by
  by_cases hn : ∃ r, p.after s.params l = .line (.ret r)
  · obtain ⟨r, hr⟩ := hn
    have hi : i ≠ .reset := fun h => reset_never_returns (h ▸ hp) s.params l r hr
    rw [hr] at hh ⊢
    refine ⟨none, ?_, .inl ⟨r, rfl, (hs hi).congr rfl rfl rfl rfl rfl, fun he => ?_⟩⟩
    · show s.job.map _ = _; rw [hj]; rfl
    · rw [returning, he] at hh; exact hh.congr rfl rfl
  replace hn := not_exists.1 hn
  rw [returning_false hn] at hh
  have hI := keepsBut_steady s
  have hself : KeepsBut s s := Keeps.refl s
  obtain ⟨b, hjob, hl, hend⟩ := ((program_good hp s ha).2.after l).tick hI (fun a t b => Leaves.lasts s i a t b) hq rfl
    ((lands_of hq hn).2 hself)
  rw [← after_append] at hl hend
  refine ⟨b, by rw [hjob, hj]; rfl, ?_⟩
  rcases hend with ⟨r, h1, h2⟩ | ⟨h1, h2⟩
  · rw [h2] at hl
    exact .inl ⟨r, h1, Leaves.fits hl hs hh, fun he => Leaves.held hl he hh⟩
  refine .inr ⟨h1, h2, ?_⟩
  by_cases hn' : ∃ r, p.after s.params (l ++ [b]) = .line (.ret r)
  · obtain ⟨r, hr⟩ := hn'
    have hi : i ≠ .reset := fun h => reset_never_returns (h ▸ hp) s.params _ r hr
    rw [hr] at hl ⊢
    obtain ⟨hl, hk⟩ := hl
    refine ⟨?_, fun h => absurd h hi, fun _ => Leaves.fits hl hs hh⟩
    cases he : resultErrKind r with
    | none => rw [returning, he]; exact Leaves.held hl he hh
    | some e =>
      have hk := hk (by rw [isErrorResult, he]; rfl)
      rw [returning, he]; exact hh.congr hk.pstate hk.op
  · replace hn' := not_exists.1 hn'
    rw [returning_false hn']
    have hk : KeepsBut s _ := (lands_of h2 hn').1 hl
    exact ⟨hh.congr hk.pstate hk.op, fun _ => hk, fun hi => (hs hi).keepsBut hk⟩

end Sys2Proof.Safety
end

section
/-! SUPPORT. The invariant, by how the engine stands: idle, in an operation that is no wait, or in a wait; and a step of the sequencer
in an operation that is no wait keeps it. -/

namespace Sys2Proof.Safety

open Sys2Proof.Machine

variable {s t : State} {i : Instr} {l : List (Option Byte)} {op : HostOp} {p : Prog Result} {r : Result}

/-! ## The invariant, by how the engine stands -/

/-- With no `reset` past its line 1 in progress, the session registers fit. -/
theorem Inv.fits (h : Inv s) (hj : ∀ x l, s.job ≠ some ⟨.reset, x :: l⟩) : SessionFits s :=
  ⟨h.authd_iff.trans ⟨And.left, fun hp => ⟨hp, hj⟩⟩, h.sector_iff, h.key_iff, h.uid_iff⟩

theorem Inv.fits_idle (h : Inv s) (hop : s.pc.op = none) : SessionFits s :=
  h.fits fun x l => by rw [(h.idle_pc hop).2.2]; nofun

/-- A job whose operation has no program is no `reset`. -/
theorem inWait_job (h : inWait s = true) (x : Option Byte) (l : List (Option Byte)) : s.job ≠ some ⟨.reset, x :: l⟩ := by
  intro hj
  simp [inWait, hj, waitStage, program] at h

theorem Inv.fits_wait (h : Inv s) (hw : inWait s = true) : SessionFits s := h.fits (inWait_job hw)

theorem Inv.unwatched (h : Inv s) (hw : inWait s = false) : s.watch = false := by
  have := h.watch_iff
  rw [hw] at this
  simpa using this

theorem inWait_idle (h : s.pc.op = none) : inWait s = false := by simp [inWait, h]

/-- An operation that has a program is no wait. -/
theorem inWait_program (hj : s.job = some ⟨i, l⟩) (hp : program i = some (op, p)) : inWait s = false := by
  simp [inWait, hj, waitStage, hp]

/-- An idle engine. -/
theorem Inv.of_idle (h : SessionFits s) (hpc : s.pc = Pc.idle) (hk : s.work = Work.empty) (hj : s.job = none)
    (hw : s.watch = false) (hr : s.rstOut = true) : Inv s where
  authd_iff := h.authd_iff.trans ⟨fun hp => ⟨hp, by rw [hj]; nofun⟩, And.left⟩
  sector_iff := h.sector_iff
  key_iff := h.key_iff
  uid_iff := h.uid_iff
  idle_pc _ := ⟨hpc, hk, hj⟩
  watch_iff := by rw [hw, inWait_idle (by rw [hpc]; rfl)]; simp
  running hop := absurd (by rw [hpc]; rfl) hop
  rst_high := hr

/-- The end of an operation. -/
theorem Inv.finish (h : SessionFits s) (hw : s.watch = false) (hr : s.rstOut = true) (r : Result) : Inv (finish r s) :=
  .of_idle (h.congr rfl rfl rfl rfl rfl) rfl rfl rfl hw hr

/-- The session registers as the invariant has them: a `reset` past its line 1 has cleared AUTHD and not yet the others. -/
structure Registers (s : State) : Prop where
  authd_iff : s.authd = true ↔ s.pstate = .authenticated ∧ ∀ x l, s.job ≠ some ⟨.reset, x :: l⟩
  sector_iff : s.sector.isSome = true ↔ s.pstate = .authenticated
  key_iff : s.key.isSome = true ↔ s.pstate = .authenticated
  uid_iff : s.uid.isSome = true ↔ (s.pstate = .identified ∨ s.pstate = .selected ∨ s.pstate = .authenticated)

theorem SessionFits.registers (h : SessionFits s) (hj : ∀ x l, s.job ≠ some ⟨.reset, x :: l⟩) : Registers s :=
  ⟨h.authd_iff.trans ⟨fun hp => ⟨hp, hj⟩, And.left⟩, h.sector_iff, h.key_iff, h.uid_iff⟩

/-- After line 1 of a `reset`. -/
theorem Inv.registers_reset {x : Option Byte} (h : Inv s) (hk : KeepsBut { s with authd := false } t)
    (hj : t.job = some ⟨.reset, x :: l⟩) : Registers t := by
  have hp : t.pstate = s.pstate := hk.pstate
  have ha : t.authd = false := hk.authd
  have h1 : t.sector = s.sector := hk.sector
  have h2 : t.key = s.key := hk.key
  have h3 : t.uid = s.uid := hk.uid
  refine ⟨?_, ?_, ?_, ?_⟩
  · rw [ha]; exact ⟨nofun, fun hn => absurd hj (hn.2 x l)⟩
  · rw [h1, hp]; exact h.sector_iff
  · rw [h2, hp]; exact h.key_iff
  · rw [h3, hp]; exact h.uid_iff

/-- An operation in progress that is no wait. -/
theorem Inv.of_running (h : Registers s) (hj : s.job = some ⟨i, l⟩) (hp : program i = some (op, p))
    (hop : s.pc.op = some op ∨ s.pc.op = some .selectCard) (hq : atStep (p.after s.params l) = true)
    (hh : HeldState s (returning (p.after s.params l)) i) (hw : s.watch = false) (hr : s.rstOut = true) : Inv s where
  authd_iff := h.authd_iff
  sector_iff := h.sector_iff
  key_iff := h.key_iff
  uid_iff := h.uid_iff
  idle_pc hn := by rcases hop with ho | ho <;> rw [ho] at hn <;> cases hn
  watch_iff := by rw [hw, inWait_program hj hp]; simp
  running _ _ := ⟨⟨i, l⟩, op, p, hj, hp, hop, hq, hh⟩
  rst_high := hr

/-- An operation that stands before its first step. -/
theorem Inv.of_starting (h : SessionFits s) (hj : s.job = some ⟨i, []⟩) (hp : program i = some (op, p))
    (hop : s.pc.op = some op ∨ s.pc.op = some .selectCard) (hh : HeldState s false i) (hw : s.watch = false)
    (hr : s.rstOut = true) : Inv s := by
  obtain ⟨-, hq, hret⟩ := program_starts hp s
  exact .of_running (h.registers fun x l he => by rw [hj] at he; cases he) hj hp hop hq (by rw [hret]; exact hh) hw hr

/-! ## The sequencer keeps the invariant -/

/-- A step of `selectCard` reached: it holds its job, and nothing but working registers is written. -/
theorem startStage_starts (hi : IsStage i) (s : State) : ∃ w, startStage i s = (s.setWork w).setJob (some ⟨i, []⟩) := by
  obtain ⟨op, p, hp, -⟩ := hi.program
  obtain ⟨⟨w, hf⟩, -⟩ := program_starts hp ((s.setWork Work.empty).setJob (some ⟨i, []⟩))
  exact ⟨w, by simp only [startStage, hp, hf]; rfl⟩

/-- A step of `selectCard` begun in the PSTATE its precondition asks for. -/
theorem Inv.startStage (h : SessionFits s) (hi : IsStage i) (hop : s.pc.op = some .selectCard) (hh : HeldState s false i)
    (hw : s.watch = false) (hr : s.rstOut = true) : Inv (startStage i s) := by
  obtain ⟨op, p, hp, -⟩ := hi.program
  obtain ⟨w, he⟩ := startStage_starts hi s
  rw [he]
  exact .of_starting (h.congr rfl rfl rfl rfl rfl) rfl hp (.inr hop) (hh.congr rfl rfl) hw hr

/-- The end of an operation, or of a step of `selectCard`, which begins the next. -/
theorem Inv.conclude (h : SessionFits s) (hj : s.job = some ⟨i, l⟩) (hh : resultErrKind r = none → HeldState s true i)
    (hw : s.watch = false) (hr : s.rstOut = true) : Inv (conclude r s) := by
  by_cases hop : s.pc.op = some .selectCard
  · have hs : s = s.setJob (some ⟨i, l⟩) := by rw [← hj]; rfl
    rw [hs, conclude_stage hop]
    cases hn : nextStage i r with
    | none => exact .finish h hw hr r
    | some j =>
      have he : resultErrKind r = none := by
        cases he : resultErrKind r with
        | none => rfl
        | some e => simp [nextStage, he] at hn
      exact .startStage h (nextStage_from hn).2 hop ((hh he).next hop hn) hw hr
  · rw [conclude_finish hop]
    exact .finish h hw hr r

/-- Before its line 1, `reset` is its program whole. -/
theorem program_reset_start (hp : program .reset = some (op, p)) (P : Params) : p.after P [] = p := by
  cases hp; rfl

/-- After its line 1, `reset` stands before its write. -/
theorem program_reset_write (hp : program .reset = some (op, p)) (P : Params) (b : Option Byte) :
    atStep (p.after P [b]) = true ∧ returning (p.after P [b]) = false := by
  cases hp; exact ⟨rfl, rfl⟩

/-- Line 1 of a `reset` in progress. -/
theorem Inv.reset_line (h : Inv s) (hp : program .reset = some (op, p)) (hj : s.job = some ⟨.reset, []⟩)
    (hop : s.pc.op = some op ∨ s.pc.op = some .selectCard) : Inv (tickJob s) := by
  obtain ⟨h1, hk⟩ := reset_begins hp s
  have hq := (program_starts hp s).2.1
  rw [program_reset_start hp] at hq
  obtain ⟨c, hout⟩ := tick_outside p s hq
  obtain ⟨hq', hret⟩ := program_reset_write hp (p.tick s).2.params c
  have hjob : (p.tick s).2.job = some ⟨.reset, [c]⟩ := hout.job.trans (by show s.job.map _ = _; rw [hj]; rfl)
  have hx : p.tick s = (none, (p.tick s).2) := by rw [← h1]
  rw [tickJob_eq hp hj, program_reset_start hp, hx]
  show Inv (p.tick s).2
  exact .of_running (h.registers_reset hk hjob) hjob hp (hop.imp hout.op.trans hout.op.trans) hq'
    (by rw [hret]; exact nofun) (hout.watch.trans (h.unwatched (inWait_program hj hp))) (hout.rstOut.trans h.rst_high)

/-- A step of the sequencer in the middle of an operation that is no wait. -/
theorem tickJob_inv (h : Inv s) (hop : s.pc.op ≠ none) (hw : inWait s = false) : Inv (tickJob s) := by
  obtain ⟨⟨i, l⟩, op, p, hj, hp, ho, hq, hh⟩ := h.running hop hw
  by_cases hfirst : i = .reset ∧ l = []
  · obtain ⟨rfl, rfl⟩ := hfirst
    exact h.reset_line hp hj ho
  have hreset : i = .reset → ∃ y l', l = y :: l' ∧ s.authd = false := by
    rintro rfl
    rcases l with _ | ⟨y, l'⟩
    · exact absurd ⟨rfl, rfl⟩ hfirst
    · exact ⟨y, l', rfl, Bool.eq_false_iff.2 fun ha => (h.authd_iff.1 ha).2 y l' hj⟩
  have hfits : i ≠ .reset → SessionFits s := fun hi => h.fits fun x l he =>
    hi (congrArg Job.instr (Option.some.inj (hj.symm.trans he)))
  obtain ⟨c, hout⟩ := tick_outside (p.after s.params l) s hq
  obtain ⟨b, htj, hend⟩ := tick_fits hp hj hq hh hfits fun hi => let ⟨_, _, _, ha⟩ := hreset hi; ha
  rw [tickJob_eq hp hj]
  generalize (p.after s.params l).tick s = x at *
  obtain ⟨v, t⟩ := x
  have htw : t.watch = false := hout.watch.trans (h.unwatched hw)
  have htr : t.rstOut = true := hout.rstOut.trans h.rst_high
  have htp : t.params = s.params := hout.params
  rcases hend with ⟨r, h1, hf, hn⟩ | ⟨h1, hq', hh', hk, hf⟩ <;> cases h1
  · exact .conclude hf htj hn htw htr
  · refine .of_running (i := i) ?_ htj hp (ho.imp hout.op.trans hout.op.trans) (htp ▸ hq') (htp ▸ hh') htw htr
    by_cases hi : i = .reset
    · subst hi
      obtain ⟨y, l', rfl, ha⟩ := hreset rfl
      have hs : { s with authd := false } = s := by rw [← ha]
      exact h.registers_reset (by rw [hs]; exact hk rfl) htj
    · exact (hf hi).registers fun x l' he => hi (congrArg Job.instr (Option.some.inj (htj.symm.trans he)))

end Sys2Proof.Safety
end

section
/-! SUPPORT. What an instruction run whole leaves: an operation that has a program, a row or a codec operation, and a wait. -/

namespace Sys2Proof.Safety

open Sys2Proof.Machine

variable {α : Type} {s t : State} {i : Instr} {op : HostOp} {p : Prog Result} {r : Result}

/-! ## Programs run whole -/

section
variable {P : Params} {I : State → Prop} {E : α → State → Prop} {F : α → Bool}

/-- A program that stands where `I` fits, run whole, ends with `E`. -/
theorem TicksKeep.run (hI : Steady P I) (hE : ∀ a s, E a s → E a (advance s)) {q : Prog α} (h : TicksKeep P I E F q)
    (hp : s.params = P) (hl : Lands I E F (q.after P []) (q.flow s).2) : E (q.run s).1 (q.run s).2 := by
  induction q generalizing s with
  | ret a => exact hl
  | ask k ih =>
    subst hp
    exact ih _ h rfl hl
  | act a k ih => exact ih h ((act_outside a s).params.trans hp) hl
  | line k ih =>
    by_cases hk : ∃ a, k = .ret a
    · obtain ⟨a, rfl⟩ := hk
      exact hE a s hl.1
    · have hs : I s := (lands_of rfl fun a he => hk ⟨a, Prog.line.inj he⟩).1 hl
      have hend : atEnd k = false := by
        cases k with
        | ret a => exact absurd ⟨a, rfl⟩ hk
        | _ => rfl
      exact ih h.2 hp (h.1 hend _ (hI.line s hs))
  | write r v k ih => exact ih h.2 hp (h.1 _ (hI.write r v s hl))
  | read r k ih =>
    exact ih _ (h (regRead r s).1).2 ((regRead_runs r s).params.trans hp) ((h (regRead r s).1).1 _ (hI.read r s hl))

end

/-- What an operation leaves does not depend on the job held. -/
theorem Leaves.setJob (h : Leaves s i r t) (x : Option Job) : Leaves s i r (t.setJob x) := by
  cases i <;> exact h

/-- An operation that has a program, run whole, leaves what its steps leave. -/
theorem run_leaves (hp : program i = some (op, p)) (s : State) : Leaves s i (p.run s).1 (p.run s).2 := by
  have main : ∀ u : State, (i = .reset → u.authd = false) → Leaves u i (p.run u).1 (p.run u).2 := fun u ha =>
    have hg := program_good hp u ha
    hg.2.run (keepsBut_steady u) (fun a t ht => (Leaves.lasts u i a t none ht).setJob t.job) rfl (hg.1 u (Keeps.refl u))
  by_cases hi : i = .reset
  · -- line 1 clears AUTHD, whatever it was
    subst hi
    have h := main (s.setAuthd false) fun _ => rfl
    cases hp
    exact h
  · exact main s fun h => absurd h hi

/-- An operation that has a program, as exec gives it. -/
theorem exec_program_next (hp : program i = some (op, p)) (h : exec i s = .next t) :
    s.pc.op = none ∧ t = finish (p.run (begin op s)).1 (p.run (begin op s)).2 := by
  rw [exec_program hp] at h
  obtain ⟨hop, -, h⟩ := admitted_next h
  cases h
  exact ⟨hop, rfl⟩

/-! ## Rows and the codec -/

/-- From `s` to `t` the engine came to rest and nothing else but the bus, the answers, and the result changed. -/
def Rests (s t : State) : Prop := Keeps { s with pc := Pc.idle, job := none } t ∧ t.work = Work.empty ∧ t.pc = Pc.idle

theorem Runs.rests {rows : List Row} (h : Runs s rows t) (r : Result) : Rests s (finish r t) := by
  obtain ⟨_, _, _, _, _, -, -, rfl⟩ := h
  exact ⟨⟨rfl, rfl, rfl, rfl, rfl, rfl, rfl, rfl, rfl, rfl, rfl, rfl, rfl, rfl, rfl, rfl⟩, rfl, rfl⟩

theorem finish_rests (r : Result) (s : State) : Rests s (finish r s) := (Runs.refl s).rests r

theorem Rests.of_begin (h : Rests (begin op s) t) : Rests s t := by
  obtain ⟨⟨a, b, c, d, e, f, g, i, j, k, l, m, n, o, y, z⟩, h⟩ := h
  exact ⟨⟨a, b, c, d, e, f, g, i, j, k, l, m, n, o, y, z⟩, h⟩

theorem presentDecoded_rests {b : List Byte} (h : presentDecoded b s = .next t) : Rests s t := by
  unfold presentDecoded at h
  split at h <;> cases h
  exact finish_rests _ s

theorem writeRow_rests {a : RegAddr} {v : Byte} (h : writeRow i a v s = .next t) : Rests s t := by
  obtain ⟨-, -, h⟩ := accept_next h
  rw [finish_eq, regWriteAt_eq] at h
  cases h
  exact ⟨⟨rfl, rfl, rfl, rfl, rfl, rfl, rfl, rfl, rfl, rfl, rfl, rfl, rfl, rfl, rfl, rfl⟩, rfl, rfl⟩

theorem readRow_rests {a : RegAddr} (h : readRow i a s = .next t) : Rests s t := by
  obtain ⟨-, -, h⟩ := accept_next h
  rw [finish_eq, regReadAt_state_eq] at h
  cases h
  exact ⟨⟨rfl, rfl, rfl, rfl, rfl, rfl, rfl, rfl, rfl, rfl, rfl, rfl, rfl, rfl, rfl, rfl⟩, rfl, rfl⟩

theorem commandRow_rests {c : ChipCommand} (h : commandRow i c s = .next t) : Rests s t := by
  obtain ⟨-, -, h⟩ := accept_next h
  cases h; exact (regWrite_runs _ _ s).rests _

theorem frameRow_rests {b : List Byte} (h : frameRow i b s = .next t) : Rests s t := by
  obtain ⟨-, -, h⟩ := accept_next h
  cases h; exact (writeFifo_runs b s).rests _

theorem framedRow_rests {v : Byte} {b : List Byte} (h : framedRow i v b s = .next t) : Rests s t := by
  obtain ⟨-, -, h⟩ := accept_next h
  cases h; exact ((regWrite_runs _ _ s).trans (writeFifo_runs b _)).rests _

theorem errorRow_rests {e : ErrKind} (h : errorRow i e s = .next t) : Rests s t := by
  obtain ⟨-, -, h⟩ := accept_next h
  cases h; exact finish_rests _ s

/-- An instruction that has no program and is no wait: a codec operation or a row run alone. -/
theorem exec_rests (hp : program i = none) (h1 : i ≠ .wait) (h2 : i ≠ .selectCard) (h : exec i s = .next t) : Rests s t := by
  cases i
  case wait => exact absurd rfl h1
  case selectCard => exact absurd rfl h2
  case encode | getBit => obtain ⟨-, -, h⟩ := accept_next h; cases h; exact (finish_rests _ (begin _ s)).of_begin
  case decode => exact (presentDecoded_rests (accept_next h).2.2).of_begin
  case access => exact presentDecoded_rests (accept_next h).2.2
  case ack | errOk => obtain ⟨-, -, h⟩ := accept_next h; cases h; exact finish_rests _ s
  case cmdIdle | cmdCalcCrc | cmdTransceive | cmdAuthenticate | cmdSoftReset => exact commandRow_rests h
  case cardSelect | cardAuth | cardRead | cardWrite | cardWriteData => exact frameRow_rests h
  case cardReqa | cardAnticoll => exact framedRow_rests h
  case errTimeoutError | errProtocolError | errChecksumError | errCardNotPresentError | errAuthReadFailure |
      errAuthFailure | errWriteNotAuthorizedError | errWriteFailedError | errDataLengthError | errAbandoned =>
    exact errorRow_rests h
  case busRead | rComIrq | rDivIrq | rError | rStatus2 | rFifoData | rFifoLevel | rControl | rBitFraming | rTxControl |
      rCrcResultH | rCrcResultL =>
    exact readRow_rests h
  case busWrite | wCommand | wComIEn | wComIrq | wDivIrq | wStatus2 | wFifoData | wFifoLevel | wBitFraming | wMode |
      wTxControl | wTxAuto | wTMode | wTPrescaler | wTReloadH | wTReloadL =>
    exact writeRow_rests h
  all_goals cases hp

/-! ## The end of a wait run whole -/

/-- From `s` to `t` no session was opened, and the watch, the reset line, the inputs and the row placed by itself are as they
were. -/
structure OpensNone (s t : State) : Prop where
  fits : SessionFits s → SessionFits t
  authd : t.authd = true → s.authd = true
  watch : t.watch = s.watch
  rstOut : t.rstOut = s.rstOut
  inputs : t.inputs = s.inputs
  placed : t.placed = s.placed

theorem Keeps.opensNone (h : Keeps s t) : OpensNone s t :=
  ⟨fun hs => hs.keeps h, fun ha => h.authd.symm.trans ha, h.watch, h.rstOut, h.inputs, h.placed⟩

/-- What the sequence of `selectCard` leaves: no session, and a UID in Identified and Selected. -/
theorem OpensNone.of_closed {x : PState} {y : Option (Bytes 4)}
    (h : Keeps { cleared s with cfg := .ready, pstate := x, uid := y } t) (hx : x ≠ .authenticated)
    (hy : y.isSome = true ↔ x = .identified ∨ x = .selected) : OpensNone s t := by
  have hp : t.pstate = x := h.pstate
  have ha : t.authd = false := h.authd
  have h1 : t.sector = none := h.sector
  have h2 : t.key = none := h.key
  have h3 : t.uid = y := h.uid
  refine ⟨fun _ => ⟨?_, ?_, ?_, ?_⟩, fun hc => ?_, h.watch, h.rstOut, h.inputs, h.placed⟩
  · simp [ha, hp, hx]
  · simp [h1, hp, hx]
  · simp [h2, hp, hx]
  · simp [h3, hp, hx, hy]
  · rw [ha] at hc; cases hc

/-- The last line of a wait that is run whole ends the operation and opens no session. -/
theorem endWait_whole (hj : s.job = none) : ∃ r v, endWait s = finish r v ∧ OpensNone s v := by
  simp only [endWait, hj]
  split_ifs
  · exact ⟨_, s, rfl, (Keeps.refl s).opensNone⟩
  · rw [stages_eq]
    have ho : ∀ {v : State}, OpensNone (advance s) v → OpensNone s v := fun h =>
      ⟨fun hs => h.fits (hs.congr rfl rfl rfl rfl rfl), h.authd, h.watch, h.rstOut, h.inputs, h.placed⟩
    rcases selectCardRest_keeps (advance s) with
      ⟨_, u, t, e, h⟩ | ⟨t, e, h⟩ | ⟨_, t, e, -, h⟩ | ⟨_, u, t, e, -, h⟩ <;> rw [e]
    · exact ⟨_, t, rfl, ho (.of_closed h nofun (by simp))⟩
    · exact ⟨_, t, rfl, ho (.of_closed (x := .idle) (y := none) h nofun (by simp))⟩
    · exact ⟨_, t, rfl, ho (.of_closed (y := none) h nofun (by simp))⟩
    · exact ⟨_, t, rfl, ho (.of_closed h nofun (by simp))⟩
  · exact ⟨_, s, rfl, (Keeps.refl s).opensNone⟩

/-- A wait as exec gives it is at its wait point, or was ended from its last line. -/
theorem exec_wait_next (hi : i = .wait ∨ i = .selectCard) (h : exec i s = .next t) : s.pc.op = none ∧
    ∃ op, inWait (waitBegin op s) = true ∧
      ((Waits (waitBegin op s) t ∧ atWaitPoint t = true) ∨
        ∃ u rest, Waits (waitBegin op s) u ∧ deregisterPhase u.params < u.pc.phase ∧ t = (endWait u).setInputs rest) := by
  rcases hi with rfl | rfl <;> obtain ⟨hop, -, h⟩ := admitted_next h <;> cases h
  · exact ⟨hop, .wait, rfl, waitRun_waits s.inputs (waitBegin .wait s) rfl rfl⟩
  · exact ⟨hop, .selectCard, rfl, waitRun_waits s.inputs (waitBegin .selectCard s) rfl rfl⟩

end Sys2Proof.Safety
end

section
/-! SUPPORT. Waits, moves of the outside, instructions and requests keep the invariant. -/

namespace Sys2Proof.Safety

open Sys2Proof.Machine

variable {s t : State} {i : Instr} {op : HostOp}

/-! ## A wait keeps the invariant -/

/-- A wait in progress. -/
theorem Inv.of_waiting (h : SessionFits s) (hw : inWait s = true) (hwatch : Watched s) (hr : s.rstOut = true) : Inv s where
  authd_iff := (h.registers (inWait_job hw)).authd_iff
  sector_iff := h.sector_iff
  key_iff := h.key_iff
  uid_iff := h.uid_iff
  idle_pc hop := absurd hop (inWait_op hw)
  watch_iff := by rw [hwatch, hw]; simp
  running _ hn := by rw [hw] at hn; cases hn
  rst_high := hr

theorem Inv.watched (h : Inv s) (hw : inWait s = true) : Watched s := by
  have := h.watch_iff
  rw [hw] at this
  rw [Watched, Bool.eq_iff_iff, decide_eq_true_iff]
  simpa using this

/-- A wait that goes on. -/
theorem Inv.waits (h : Inv s) (hw : inWait s = true) (hk : Waits s t) : Inv t :=
  .of_waiting ((h.fits_wait hw).congr hk.pstate hk.authd hk.sector hk.key hk.uid) ((inWait_congr hk.op hk.job).trans hw)
    (hk.watch (h.watched hw)) (hk.rstOut.trans h.rst_high)

/-- The last line of a wait, after line 9. -/
theorem endWait_inv (h : Inv s) (hw : inWait s = true) (hd : deregisterPhase s.params < s.pc.phase) : Inv (endWait s) := by
  have hf := h.fits_wait hw
  have hwatch : s.watch = false := by rw [h.watched hw]; simpa using hd
  cases hj : s.job with
  | none =>
    obtain ⟨r, v, he, hv⟩ := endWait_whole hj
    rw [he]
    exact .finish (hv.fits hf) (hv.watch.trans hwatch) (hv.rstOut.trans h.rst_high) r
  | some j =>
    simp only [endWait, hj]
    split_ifs with h1 h2
    · exact .finish hf hwatch h.rst_high _
    · exact .startStage (s := advance s) (hf.congr rfl rfl rfl rfl rfl) (.inl rfl) h2 nofun hwatch h.rst_high
    · exact .finish hf hwatch h.rst_high _

/-- A change of the lines, the agent's registers and the script. -/
theorem Inv.outside (h : Inv s) (signal irqPrev irqIn : Bool) (placed : Option (Format × List Byte)) (inputs : List Input)
    (freeIx : Nat) : Inv { s with
      signal := signal, irqPrev := irqPrev, irqIn := irqIn, placed := placed, inputs := inputs, freeIx := freeIx } := by
  obtain ⟨h1, h2, h3, h4, h5, h6, h7, h8⟩ := h
  exact ⟨h1, h2, h3, h4, h5, h6, h7, h8⟩

theorem Inv.setInputs (h : Inv s) (l : List Input) : Inv (s.setInputs l) :=
  h.outside s.signal s.irqPrev s.irqIn s.placed l s.freeIx

theorem Inv.setPlaced (h : Inv s) (x : Option (Format × List Byte)) : Inv (s.setPlaced x) :=
  h.outside s.signal s.irqPrev s.irqIn x s.inputs s.freeIx

theorem Inv.setFreeIx (h : Inv s) (n : Nat) : Inv (s.setFreeIx n) :=
  h.outside s.signal s.irqPrev s.irqIn s.placed s.inputs n

/-- A move of the outside. -/
theorem applyMove_inv (h : Inv s) (m : Move) : Inv (applyMove m s) := by
  cases hw : inWait s with
  | true =>
    rcases applyMove_waits m s hw with hk | ⟨he, hd⟩
    · exact h.waits hw hk
    · rw [he]; exact endWait_inv h hw hd
  | false =>
    have hat : atWaitPoint s = false := by simp [atWaitPoint, hw]
    cases m <;> simp only [applyMove, hat, Bool.false_and, Bool.false_eq_true, if_false]
    case line level => exact h.outside s.signal s.irqPrev level s.placed s.inputs s.freeIx
    case sample => exact h.outside _ _ s.irqIn s.placed s.inputs s.freeIx
    case go =>
      split
      next hop => rw [turn_other hw]; exact tickJob_inv h (Option.isSome_iff_ne_none.1 hop) hw
      next => exact h
    all_goals exact h

theorem turn_inv (h : Inv s) (hop : s.pc.op ≠ none) : Inv (turn s) := by
  have := applyMove_inv h .go
  rwa [applyMove, if_pos (Option.isSome_iff_ne_none.2 hop)] at this

/-! ## Instructions keep the invariant -/

/-- Line 1 of a wait, whichever job is held that is none of a program. -/
theorem waitBegin_inv (h : Inv s) (hop : s.pc.op = none) {j : Option Job} (hw : inWait ((waitBegin op s).setJob j) = true) :
    Inv ((waitBegin op s).setJob j) := by
  rw [waitBegin_eq] at hw ⊢
  exact .of_waiting ((h.fits_idle hop).congr rfl rfl rfl rfl rfl) hw (by simp [Watched, deregisterPhase]) h.rst_high

/-- Only an idle engine runs an instruction (10_state R22). -/
theorem exec_idle (h : exec i s = .next t) : s.pc.op = none := by
  obtain ⟨_, he, -⟩ := exec_accept i s
  rw [he] at h
  exact (accept_next h).1

/-- An instruction run whole. -/
theorem exec_inv (h : Inv s) (hx : exec i s = .next t) : Inv t := by
  rcases hp : program i with _ | ⟨op, p⟩
  · by_cases hi : i = .wait ∨ i = .selectCard
    · obtain ⟨hop, op, hw, ht⟩ := exec_wait_next hi hx
      have hj : (waitBegin op s).setJob none = waitBegin op s := by rw [waitBegin_eq]; rfl
      have hb : Inv (waitBegin op s) := hj ▸ waitBegin_inv h hop (hj.symm ▸ hw)
      rcases ht with ⟨hk, -⟩ | ⟨u, rest, hk, hd, rfl⟩
      · exact hb.waits hw hk
      · exact (endWait_inv (hb.waits hw hk) ((inWait_congr hk.op hk.job).trans hw) hd).setInputs rest
    · obtain ⟨h1, h2⟩ := not_or.1 hi
      obtain ⟨hk, hwork, hpc⟩ := exec_rests hp h1 h2 hx
      have hop := exec_idle hx
      have hw := h.unwatched (inWait_idle hop)
      exact .of_idle ((h.fits_idle hop).congr hk.pstate hk.authd hk.sector hk.key hk.uid) hpc hwork hk.job
        (hk.watch.trans hw) (hk.rstOut.trans h.rst_high)
  · rw [exec_program hp] at hx
    have hh := admitted_held (u := begin op s) hx rfl fun ho => (program_op hp).1 (Option.some.inj ho)
    obtain ⟨hop, -, hx⟩ := admitted_next hx
    cases hx
    have hout := run_outside p (begin op s)
    exact .finish ((run_leaves hp (begin op s)).fits (fun _ => (h.fits_idle hop).congr rfl rfl rfl rfl rfl) hh)
      (hout.watch.trans (h.unwatched (inWait_idle hop))) (hout.rstOut.trans h.rst_high) _

/-- A host request begun. -/
theorem beginRequest_inv (h : Inv s) (hx : beginRequest i s = .next t) : Inv t := by
  rcases hp : program i with _ | ⟨op, p⟩
  · by_cases h1 : i = .wait
    · subst h1
      obtain ⟨hop, -, hx⟩ := admitted_next hx
      cases hx
      exact waitBegin_inv h hop rfl
    by_cases h2 : i = .selectCard
    · subst h2
      obtain ⟨hop, -, hx⟩ := admitted_next hx
      cases hx
      exact waitBegin_inv h hop rfl
    · exact exec_inv h (by rwa [beginRequest_codec hp h1 h2] at hx)
  · rw [beginRequest_program hp] at hx
    obtain ⟨⟨w, hf⟩, -⟩ := program_starts hp (begin op s)
    have hr : reachedProgram op i p s = ((begin op s).setWork w).setJob (some ⟨i, []⟩) := by rw [reachedProgram, hf]
    rw [begin_eq] at hr
    have hh : HeldState (reachedProgram op i p s) false i :=
      admitted_held hx (by rw [hr]; rfl) fun ho => (program_op hp).1 (Option.some.inj (by rw [hr] at ho; exact ho))
    obtain ⟨hop, -, hx⟩ := admitted_next hx
    cases hx
    rw [beginProgram_eq hp s (by rw [hf])]
    have hstart : Inv (reachedProgram op i p s) := by
      rw [hr] at hh ⊢
      exact .of_starting ((h.fits_idle hop).congr rfl rfl rfl rfl rfl) rfl hp (.inl rfl) hh
        (h.unwatched (inWait_idle hop)) h.rst_high
    exact tickJob_inv hstart (by rw [hr]; nofun) (inWait_program (by rw [hr]; rfl) hp)

theorem unscripted_inv (h : Inv s) (hx : unscripted s = .next t) : Inv t := by
  unfold unscripted at hx
  split at hx <;> cases hx
  next hc => exact turn_inv h (Option.isSome_iff_ne_none.1 (Bool.and_eq_true_iff.1 hc).1)
  next => exact applyMove_inv (h.setFreeIx _) _

/-- Settles O51, by what comes next: a placed row, a move of the outside, a request, or the unscripted step. -/
theorem invariantIsKept : Obligations.InvariantIsKept := by
  unfold Obligations.InvariantIsKept
  intro s t h hs
  rcases step_cases hs with ⟨f, l, i, -, -, -, hx⟩ | ⟨m, rest, -, rfl⟩ | ⟨l, rest, i, -, -, -, hx⟩ | ⟨-, hx⟩
  · exact exec_inv (h.setPlaced none) hx
  · exact applyMove_inv (h.setInputs rest) m
  · exact beginRequest_inv (h.setInputs rest) hx
  · exact unscripted_inv h hx

/-- Settles O52: the state after power-on is idle, and no session register has a value. -/
theorem invariantAtReset : Obligations.InvariantAtReset := by
  unfold Obligations.InvariantAtReset
  exact .of_idle ⟨by decide, by decide, by decide, by decide⟩ rfl rfl rfl rfl rfl

end Sys2Proof.Safety
end

section
/-! SUPPORT. A step takes no request and no placed row but from an idle engine, addresses the nineteen registers alone, and moves
PHASE by one. -/

namespace Sys2Proof.Safety

open Sys2Proof.Machine

variable {α : Type} {s t u : State} {i : Instr}

/-! ## What is presented stays where it is -/

/-- From `s` to `t` the inputs and the row placed by itself are as they were. -/
def SameScript (s t : State) : Prop := t.inputs = s.inputs ∧ t.placed = s.placed

theorem SameScript.refl (s : State) : SameScript s s := ⟨rfl, rfl⟩

theorem SameScript.trans (h : SameScript s t) (h' : SameScript t u) : SameScript s u := ⟨h'.1.trans h.1, h'.2.trans h.2⟩

theorem Outside.sameScript (h : Outside s t) : SameScript s t := ⟨h.inputs, h.placed⟩

theorem tick_sameScript (q : Prog α) (s : State) : SameScript s (q.tick s).2 := by
  induction q generalizing s with
  | ret a => exact .refl s
  | ask k ih => exact ih _ s
  | act a k ih => exact (act_outside a s).sameScript.trans (ih _)
  | line k ih => exact SameScript.trans (t := (advance s).take none) ⟨rfl, rfl⟩ (flow_outside k _).sameScript
  | write r v k ih =>
    exact SameScript.trans (t := (regWrite r v s).take (some (Config.chipByte s.freeIx))) ⟨rfl, rfl⟩
      (flow_outside k _).sameScript
  | read r k ih =>
    exact SameScript.trans (t := (regRead r s).2.take (some (regRead r s).1)) (regRead_runs r s).outside.sameScript
      (flow_outside (k _) _).sameScript

theorem startStage_sameScript (hi : IsStage i) (s : State) : SameScript s (startStage i s) := by
  obtain ⟨w, he⟩ := startStage_starts hi s
  rw [he]
  exact ⟨rfl, rfl⟩

theorem reached_sameScript (x : Option Result × State) : SameScript x.2 (reached x) := by
  obtain ⟨_ | r, t⟩ := x
  · exact .refl t
  · show SameScript t (conclude r t)
    rw [conclude]
    split
    · split
      next hn => exact startStage_sameScript (nextStage_from hn).2 t
      next => exact ⟨rfl, rfl⟩
    · exact ⟨rfl, rfl⟩

theorem tickJob_sameScript (s : State) : SameScript s (tickJob s) := by
  rw [tickJob]
  split
  · split
    · exact (tick_sameScript _ s).trans (reached_sameScript _)
    · exact .refl s
  · exact .refl s

theorem endWait_sameScript (s : State) : SameScript s (endWait s) := by
  cases hj : s.job with
  | none =>
    obtain ⟨r, v, he, hv⟩ := endWait_whole hj
    rw [he]
    exact ⟨hv.inputs, hv.placed⟩
  | some j =>
    simp only [endWait, hj]
    split_ifs
    · exact ⟨rfl, rfl⟩
    · exact startStage_sameScript (.inl rfl) (advance s)
    · exact ⟨rfl, rfl⟩

theorem seqStep_sameScript (s : State) : SameScript s (seqStep s) := by
  have htake : SameScript s (takeSignal s) := by unfold takeSignal; split <;> exact ⟨rfl, rfl⟩
  unfold seqStep
  split
  · exact (regWrite_runs _ _ s).outside.sameScript
  · split
    · exact (regWrite_runs _ _ s).outside.sameScript
    · exact (regWrite_runs _ _ s).outside.sameScript
    · exact (regWrite_runs _ _ s).outside.sameScript
    · exact htake
    · split
      · exact (regWrite_runs _ _ s).outside.sameScript
      · split
        · exact ⟨rfl, rfl⟩
        · exact endWait_sameScript s

theorem turn_sameScript (s : State) : SameScript s (turn s) := by
  unfold turn
  split
  · exact seqStep_sameScript s
  · exact tickJob_sameScript s

/-- No move of the outside takes a request or a placed row. -/
theorem applyMove_sameScript (m : Move) (s : State) : SameScript s (applyMove m s) := by
  cases m <;> simp only [applyMove]
  case go => split <;> [exact turn_sameScript s; exact .refl s]
  case timeout | abandon => split <;> exact ⟨rfl, rfl⟩
  all_goals exact ⟨rfl, rfl⟩

theorem unscripted_sameScript (h : unscripted s = .next t) : SameScript s t := by
  unfold unscripted at h
  split at h <;> cases h
  · exact turn_sameScript s
  · exact SameScript.trans (t := s.setFreeIx (s.freeIx + 1)) ⟨rfl, rfl⟩ (applyMove_sameScript _ _)

theorem waitBegin_placed (op : HostOp) (s : State) : (waitBegin op s).placed = s.placed := by rw [waitBegin_eq]

theorem begin_placed (op : HostOp) (s : State) : (begin op s).placed = s.placed := by rw [begin_eq]

/-- No instruction places a row. -/
theorem exec_placed (h : exec i s = .next t) : t.placed = s.placed := by
  rcases hp : program i with _ | ⟨op, p⟩
  · by_cases hi : i = .wait ∨ i = .selectCard
    · obtain ⟨-, op, -, ⟨hk, -⟩ | ⟨u, rest, hk, -, rfl⟩⟩ := exec_wait_next hi h
      · exact hk.placed.trans (waitBegin_placed op s)
      · exact (endWait_sameScript u).2.trans (hk.placed.trans (waitBegin_placed op s))
    · obtain ⟨h1, h2⟩ := not_or.1 hi
      exact (exec_rests hp h1 h2 h).1.placed
  · obtain ⟨-, rfl⟩ := exec_program_next hp h
    exact (run_outside p (begin op s)).placed.trans (begin_placed op s)

theorem beginRequest_placed (h : beginRequest i s = .next t) : t.placed = s.placed := by
  rcases hp : program i with _ | ⟨op, p⟩
  · by_cases h1 : i = .wait
    · subst h1; cases (admitted_next h).2.2; exact waitBegin_placed .wait s
    by_cases h2 : i = .selectCard
    · subst h2; cases (admitted_next h).2.2; exact waitBegin_placed .selectCard s
    · exact exec_placed (by rwa [beginRequest_codec hp h1 h2] at h)
  · rw [beginRequest_program hp] at h
    cases (admitted_next h).2.2
    exact ((reached_sameScript _).2.trans (tick_sameScript p _).2).trans (begin_placed op s)

/-! ## The nineteen registers -/

theorem busAddr_writeByte0 (a : RegAddr) : busAddr (writeByte0 a) = a := by revert a; decide

theorem busAddr_readByte0 (a : RegAddr) : busAddr (readByte0 a) = a := by revert a; decide

/-- A row of a transcript is an access to a register of the engine. -/
theorem Row.Matches.known {P : Params} {row : Row} {x : Xfer} (h : row.Matches P x) : KnownRegister P x := by
  cases row with
  | wr r v => exact ⟨r, by rw [h.1, busAddr_writeByte0]⟩
  | rd r v => exact ⟨r, by rw [h.1, busAddr_readByte0]⟩

theorem Grows.known (h : Grows s t) : ∃ xs, t.trace = s.trace ++ xs ∧ ∀ x ∈ xs, KnownRegister s.params x := by
  obtain ⟨-, -, rows, xs, hs, ht⟩ := h
  refine ⟨xs, ht, fun x hx => ?_⟩
  obtain ⟨k, hk, rfl⟩ := List.mem_iff_getElem.1 hx
  have hlen : k < rows.length := hs.length_eq ▸ hk
  exact (List.forall₂_iff_get.1 hs).2 k hlen hk |>.known

theorem unscripted_grows (h : unscripted s = .next t) : Grows s t := by
  unfold unscripted at h
  split at h <;> cases h
  · exact turn_grows s
  · exact Grows.trans ((Grows.refl s).quiet (u := s.setFreeIx (s.freeIx + 1)) rfl rfl rfl) (applyMove_grows _ _)

/-- A step takes the row placed by itself, or leaves it. -/
theorem step_placed_next (h : step s = .next t) : t.placed = none ∨ t.placed = s.placed := by
  rcases step_cases h with ⟨f, l, i, -, -, -, hx⟩ | ⟨m, rest, -, rfl⟩ | ⟨l, rest, i, -, -, -, hx⟩ | ⟨-, hx⟩
  · exact .inl (exec_placed hx)
  · exact .inr (applyMove_sameScript m (s.setInputs rest)).2
  · exact .inr ((beginRequest_placed hx).trans (State.setInputs_placed rest s))
  · exact .inr (unscripted_sameScript hx).2

/-- A step that runs no row but a host request addresses the engine's own registers. -/
theorem step_grows (hpl : ∀ f l, s.placed = some (f, l) → f = .hostop) (h : step s = .next t) : Grows s t := by
  rcases step_cases h with ⟨f, l, i, hp, -, hd, hx⟩ | ⟨m, rest, -, rfl⟩ | ⟨l, rest, i, -, -, hd, hx⟩ | ⟨-, hx⟩
  · obtain rfl := hpl f l hp
    exact ((Grows.refl s).quiet (u := s.setPlaced none) rfl rfl rfl).trans (hostop_grows (decodeFrame_hostop hd) hx)
  · exact ((Grows.refl s).quiet (u := s.setInputs rest) rfl rfl rfl).trans (applyMove_grows m _)
  · exact ((Grows.refl s).quiet (u := s.setInputs rest) rfl rfl rfl).trans (beginRequest_grows (decodeFrame_hostop hd) hx)
  · exact unscripted_grows hx

/-- Settles O59: only the plain BUS rows name an address, and none of them is a host request; no step places a row. -/
theorem onlyNineteenRegisters : Obligations.OnlyNineteenRegisters := by
  unfold Obligations.OnlyNineteenRegisters
  intro s t hpl h
  refine ⟨fun f l hp => ?_, (step_grows hpl h).known⟩
  rcases step_placed_next h with hk | hk <;> rw [hk] at hp
  · cases hp
  · exact hpl f l hp

/-! ## A busy engine -/

theorem exec_busy (i : Instr) (h : s.pc.op ≠ none) : exec i s = .refused .busy := by
  obtain ⟨body, he, -⟩ := exec_accept i s
  rw [he, accept_busy h]

/-- How PHASE moves in a step that does not end the operation in progress: one on, back in a poll loop to the read just made,
not at all, or back to the arming (10_state R22). -/
def PhaseMoves (s t : State) : Prop :=
  Advanced s t ∨ (t.pc = s.pc ∧ atWaitPoint s = true) ∨ (t.pc.phase = armPhase s.params ∧ atWaitPoint s = true)

/-- The last line of a wait ends it, or goes on with the sequence of `selectCard`. -/
theorem endWait_phase (h : (endWait s).pc.op ≠ none) : (endWait s).pc.phase = s.pc.phase + 1 := by
  cases hj : s.job with
  | none => rw [(endWait_idle s hj).1] at h; exact absurd rfl h
  | some j =>
    simp only [endWait, hj] at h ⊢
    split_ifs at h ⊢
    · exact absurd rfl h
    · exact startStage_phase (.inl rfl) (advance s)
    · exact absurd rfl h

theorem takeSignal_pc (s : State) : (takeSignal s).pc = s.pc ∨ (takeSignal s).pc.phase = s.pc.phase + 1 := by
  unfold takeSignal
  split
  · exact .inr rfl
  · exact .inl rfl

/-- A turn of the sequencer. -/
theorem turn_phase (h : Inv s) (hop : s.pc.op ≠ none) (ht : (turn s).pc.op ≠ none) : PhaseMoves s (turn s) := by
  cases hw : inWait s with
  | true =>
    rw [turn_wait hw] at ht ⊢
    by_cases hp : s.pc.phase = waitPhase s.params
    · have hat : atWaitPoint s = true := by simp [atWaitPoint, hw, hp]
      rw [seqStep_point hp]
      exact (takeSignal_pc s).elim (fun h => .inr (.inl ⟨h, hat⟩)) fun h => .inl (.inl h)
    · rcases seqStep_nearer hp with he | ⟨-, he⟩
      · rw [he] at ht ⊢; exact .inl (.inl (endWait_phase ht))
      · exact .inl (.inl he)
  | false =>
    rw [turn_other hw] at ht ⊢
    obtain ⟨⟨i, l⟩, op, p, hj, hp, -, hq, -⟩ := h.running hop hw
    exact .inl (tickJob_advanced hp hj hq ht)

/-- A move of the outside; a move that is no turn of the sequencer can also leave the position. -/
theorem applyMove_phase (h : Inv s) (m : Move) (hop : s.pc.op ≠ none) (ht : (applyMove m s).pc.op ≠ none) :
    PhaseMoves s (applyMove m s) ∨ (applyMove m s).pc = s.pc ∧ m ≠ .go := by
  cases m <;> simp only [applyMove] at ht ⊢
  case line | sample => exact .inr ⟨rfl, nofun⟩
  case go =>
    rw [if_pos (Option.isSome_iff_ne_none.2 hop)] at ht ⊢
    exact .inl (turn_phase h hop ht)
  case timeout =>
    split
    next hc => exact .inl (.inr (.inr ⟨rfl, (Bool.and_eq_true_iff.1 hc).1⟩))
    next => exact .inr ⟨rfl, nofun⟩
  case abandon =>
    split
    · exact .inl (.inl (.inl rfl))
    · exact .inr ⟨rfl, nofun⟩

theorem unscripted_phase (h : Inv s) (hop : s.pc.op ≠ none) (hx : unscripted s = .next t) (ht : t.pc.op ≠ none) :
    PhaseMoves s t := by
  unfold unscripted at hx
  split at hx <;> cases hx
  next => exact turn_phase h hop ht
  next hc =>
    have hat : atWaitPoint s = true := by simpa [Option.isSome_iff_ne_none.2 hop] using hc
    rcases applyMove_phase (h.setFreeIx (s.freeIx + 1)) (Config.freeMove s.freeIx) hop ht with hm | ⟨hm, -⟩
    · exact hm
    · exact .inr (.inl ⟨hm, hat⟩)

/-- Settles O8: a busy engine takes nothing, and PHASE moves as it does in a turn of the sequencer, a move of the outside, or
the unscripted step. -/
theorem busyEngineAcceptsNothing : Obligations.BusyEngineAcceptsNothing := by
  unfold Obligations.BusyEngineAcceptsNothing
  refine ⟨fun i s h => exec_busy i h, fun s t l rest hi hop h => ?_, fun s t hinv hop h ht => ?_⟩
  · rw [step_unscripted (nextPlaced_busy hop) (by simp [hi]) fun _ _ _ => hop] at h
    exact unscripted_sameScript h
  · suffices hm : PhaseMoves s t ∨ t.pc = s.pc ∧ ∃ m rest, m ≠ .go ∧ s.inputs = .move m :: rest by
      rcases hm with ((h1 | h1) | h1 | h1) | ⟨h1, h2⟩
      · exact .inl h1
      · exact .inr (.inl h1)
      · exact .inr (.inr (.inl ⟨h1.1, .inl h1.2⟩))
      · exact .inr (.inr (.inr h1))
      · exact .inr (.inr (.inl ⟨h1, .inr h2⟩))
    rcases step_cases h with ⟨f, l, i, -, hn, -⟩ | ⟨m, rest, hi, rfl⟩ | ⟨l, rest, i, -, hn, -⟩ | ⟨-, hx⟩
    · exact absurd hn hop
    · rcases applyMove_phase (hinv.setInputs rest) m hop ht with hm | ⟨hm, hgo⟩
      · exact .inl hm
      · exact .inr ⟨hm, m, rest, hgo, hi⟩
    · exact absurd hn hop
    · exact .inl (unscripted_phase hinv hop hx ht)

end Sys2Proof.Safety
end

section
/-! SUPPORT. The steps of a host request are together the operation as exec gives it. -/

namespace Sys2Proof.Safety

open Sys2Proof.Machine

variable {s t : State} {i : Instr} {op : HostOp} {p : Prog Result}

/-! ## A request, one step at a time -/

/-- The first states of a run, each a step from the one before. -/
theorem steps_trail (f : Nat → State) (n : Nat) (h : ∀ k, k < n → step (f k) = .next (f (k + 1))) :
    steps n (f 0) = .next (f n) := by
  induction n generalizing f with
  | zero => rfl
  | succ n ih =>
    rw [steps, h 0 (by omega)]
    exact ih (fun k => f (k + 1)) fun k hk => h (k + 1) (by omega)

/-- A codec operation makes no transaction (10_state R18). -/
theorem codec_trace (hf : i.format = .hostop) (hp : program i = none) (h1 : i ≠ .wait) (h2 : i ≠ .selectCard)
    (h : exec i s = .next t) : t.trace = s.trace := by
  have hend : ∀ (r : Result) (op : HostOp), (finish r (begin op s)).trace = s.trace := fun r op => by rw [finish_eq, begin_eq]
  cases i
  case execute | computeCrc | reset | init | request | antiCollision | selectTag | authenticate | readBlock | writeBlock |
      stopCrypto => cases hp
  case wait => exact absurd rfl h1
  case selectCard => exact absurd rfl h2
  case encode | getBit => cases (accept_next h).2.2; exact hend _ _
  case decode =>
    have h := (accept_next h).2.2
    unfold presentDecoded at h
    split at h <;> cases h
    exact hend _ _
  all_goals cases hf

/-- A request of an operation that has a program: the steps of that program, from where it stands before its first. -/
theorem beginProgram_steps (hp : program i = some (op, p)) (s : State) (hi : ∀ m rest, s.inputs ≠ .move m :: rest) :
    ∃ n, ticks (n + 1) (reachedProgram op i p s) = finish (p.run (begin op s)).1 (p.run (begin op s)).2 ∧
      (∀ k, k ≤ n → AtMostOne (ticks k (reachedProgram op i p s)).trace (ticks (k + 1) (reachedProgram op i p s)).trace) ∧
      ∀ k, k ≤ n → (ticks k (reachedProgram op i p s)).result = none ∧
        (ticks k (reachedProgram op i p s)).pc.op = some op ∧
        step (ticks k (reachedProgram op i p s)) = .next (ticks (k + 1) (reachedProgram op i p s)) := by
  obtain ⟨n, hn, hlast, hone, hout⟩ := beginProgram_ticks hp s (program_flow hp _)
  have hstep : ∀ k, ticks (k + 1) (reachedProgram op i p s) = tickJob (ticks k (reachedProgram op i p s)) := fun k => by
    rw [ticks_add]; rfl
  refine ⟨n, hn, fun k hk => ?_, fun k hk => ?_⟩
  · by_cases hkn : k < n
    · exact hone k hkn
    · obtain rfl : k = n := by omega
      rw [hn]; exact hlast
  · obtain ⟨l, ho⟩ := hout k hk
    have hop : (ticks k (reachedProgram op i p s)).pc.op = some op := ho.op
    refine ⟨ho.result, hop, ?_⟩
    rw [hstep]
    refine step_tick (by rw [hop]; nofun) (inWait_program ho.job hp) fun m rest he => hi m rest ?_
    rw [ho.inputs, begin_eq] at he
    exact he

/-- The states of a request, from the one that holds it: then those of its operation, one tick after the other. -/
def trail (s v : State) : Nat → State
  | 0 => s
  | k + 1 => ticks (k + 1) v

/-- From `s` the steps are together the operation `i`, which ends in `t`: each makes at most one transaction, and after each but
the last the operation is in progress under its OP with no result. -/
def StepsWhole (i : Instr) (s t : State) : Prop :=
  ∃ n, steps (n + 1) s = .next t ∧
    ∀ k, k ≤ n → ∃ u v, steps k s = .next u ∧ steps (k + 1) s = .next v ∧ AtMostOne u.trace v.trace ∧
      (k < n → v.result = none ∧ v.pc.op ≠ none ∧ ∀ op p, program i = some (op, p) → v.pc.op = some op)

/-- An operation that is over in one step. -/
theorem StepsWhole.of_step (i : Instr) (h : step s = .next t) (ht : t.trace = s.trace) : StepsWhole i s t := by
  have h1 : steps 1 s = .next t := by rw [steps, h]; rfl
  refine ⟨0, h1, fun k hk => ?_⟩
  obtain rfl : k = 0 := by omega
  exact ⟨s, t, rfl, h1, .inl ht, nofun⟩

/-- An operation that has a program, begun in the step of its request. -/
theorem StepsWhole.of_program (hp : program i = some (op, p)) {rest : List Input}
    (hrest : ∀ m more, rest ≠ .move m :: more) (hstep : step s = .next (beginProgram op i p (s.setInputs rest))) :
    StepsWhole i s (finish (p.run (begin op (s.setInputs rest))).1 (p.run (begin op (s.setInputs rest))).2) := by
  obtain ⟨n, hn, hone, hmid⟩ := beginProgram_steps hp (s.setInputs rest) hrest
  have htr := reachedProgram_trace op i p (s.setInputs rest)
  rw [beginProgram_eq hp _ (program_flow hp _)] at hstep
  generalize reachedProgram op i p (s.setInputs rest) = v at *
  have hnext : ∀ k, k ≤ n → step (trail s v k) = .next (trail s v (k + 1)) := fun k hk => by
    cases k with
    | zero => exact hstep
    | succ k => exact (hmid (k + 1) hk).2.2
  have hsteps : ∀ k, k ≤ n + 1 → steps k s = .next (trail s v k) := fun k hk =>
    steps_trail (trail s v) k fun m hm => hnext m (by omega)
  refine ⟨n, (hsteps (n + 1) le_rfl).trans (by rw [trail, hn]), fun k hk => ?_⟩
  refine ⟨_, _, hsteps k (by omega), hsteps (k + 1) (by omega), ?_, fun hkn => ?_⟩
  · cases k with
    | zero => have h0 := hone 0 (by omega); rwa [ticks, htr] at h0
    | succ k => exact hone (k + 1) hk
  · obtain ⟨hr, ho, -⟩ := hmid (k + 1) (by omega)
    refine ⟨hr, fun hn => ?_, fun op' p' he => ?_⟩
    · exact Option.some_ne_none _ (ho.symm.trans hn)
    · cases hp.symm.trans he; exact ho

/-- Settles O12: the first step of the request is the first tick of the operation, and the ticks are its program run whole. -/
theorem stepwiseIsWhole : Obligations.StepwiseIsWhole := by
  unfold Obligations.StepwiseIsWhole
  intro s l rest i hop hpl hin hrest hd h1 h2
  have hstep : step s = beginRequest i (s.setInputs rest) := (step_request (nextPlaced_none hpl) hin hop).1 i hd
  show (∀ t, exec i (s.setInputs rest) = .next t → StepsWhole i s t) ∧
    (∀ r, exec i (s.setInputs rest) = .refused r → _) ∧ ∀ f, exec i (s.setInputs rest) = .fault f → _
  rcases hp : program i with _ | ⟨op, p⟩
  · -- the codec
    rw [beginRequest_codec hp h1 h2] at hstep
    refine ⟨fun t ht => ?_, fun r hr => hstep.trans hr, fun f hf => hstep.trans hf⟩
    exact .of_step i (hstep.trans ht) (codec_trace (s := s.setInputs rest) (decodeFrame_hostop hd) hp h1 h2 ht)
  · rw [beginRequest_program hp] at hstep
    rw [exec_program hp]
    rcases admitted_cases i (s.setInputs rest) with ha | ⟨r, ha⟩ | ⟨ha, -⟩ <;> rw [ha] at hstep ⊢
    · refine ⟨fun t ht => ?_, fun r h => (by cases h), fun f h => (by cases h)⟩
      cases ht
      exact .of_program hp hrest hstep
    · exact ⟨fun t h => (by cases h), fun r' hr => hstep.trans hr, fun f h => (by cases h)⟩
    · exact ⟨fun t h => (by cases h), fun r h => (by cases h), fun f hf => hstep.trans hf⟩

end Sys2Proof.Safety
end

section
/-! SUPPORT. Faults come from the preconditions of `readBlock` and `writeBlock` alone, and AUTHD from `authenticate` alone. -/

namespace Sys2Proof.Safety

open Sys2Proof.Machine

variable {s t : State} {i : Instr} {r : Result}

/-! ## Faults -/

/-- Every meaning admits its instruction and answers a next state, but for the two that decode bytes, which have no
precondition. -/
theorem exec_answers (i : Instr) (s : State) :
    (∃ u, exec i s = admitted i s (.next u)) ∨ ∃ b u, exec i s = accept i s (presentDecoded b u) := by
  cases i
  case decode b => exact .inr ⟨b, _, rfl⟩
  case access b => exact .inr ⟨b.val, s, rfl⟩
  all_goals exact .inl ⟨_, rfl⟩

theorem presentDecoded_no_fault (b : List Byte) (s : State) (f : Fault) : presentDecoded b s ≠ .fault f := by
  unfold presentDecoded
  split <;> nofun

theorem accept_fault {body : Out} {f : Fault} (h : accept i s body = .fault f) : body = .fault f := by
  unfold accept at h
  split_ifs at h
  exact h

/-- With no SECTOR, the precondition of `readBlock` and `writeBlock` is a fault. -/
theorem inSector_fault (hp : s.pstate = .authenticated) (hk : s.sector = none) (op : HostOp) (block : Byte) (body : Out) :
    inSector op block s body = .fault (.noValue .sector) := by
  simp [inSector, hp, hk]

/-- Settles O38: a fault comes from a precondition, and only that of `readBlock` and `writeBlock` reads a register. -/
theorem noValueIsAFault : Obligations.NoValueIsAFault := by
  unfold Obligations.NoValueIsAFault
  intro s block data hop
  refine ⟨fun hp hk => ⟨?_, ?_⟩, fun i f h => ?_⟩
  · exact (accept_idle (i := .readBlock block) hop rfl _).trans (inSector_fault hp hk _ _ _)
  · exact (accept_idle (i := .writeBlock block data) hop rfl _).trans (inSector_fault hp hk _ _ _)
  · rcases exec_answers i s with ⟨u, he⟩ | ⟨b, u, he⟩ <;> rw [he] at h
    · rcases admitted_cases i s with ha | ⟨r, ha⟩ | ⟨ha, -, hp, hk, hi⟩ <;> rw [ha] at h <;> cases h
      exact ⟨hi, hp, hk, rfl⟩
    · exact absurd (accept_fault h) (presentDecoded_no_fault b u f)

/-! ## AUTHD -/

/-- Of the operations that have a program only `authenticate` sets AUTHD, with Ok. -/
theorem Leaves.authd (h : Leaves s i r t) (h0 : s.authd = false) (h1 : t.authd = true) :
    (∃ m b k u, i = .authenticate m b k u) ∧ r = .auth .ok := by
  have htorn : (torn s).authd = false := by unfold torn; split <;> [rfl; exact h0]
  have hno : ∀ v : State, v.authd = false → ¬ KeepsBut v t := fun v hv hk => by
    have := hk.authd
    rw [State.setJob_authd, h1, hv] at this
    cases this
  cases i
  case authenticate m b k u =>
    rcases h with ⟨rfl, -⟩ | ⟨_, -, -, h⟩
    · exact ⟨⟨m, b, k, u, rfl⟩, rfl⟩
    · exact absurd h (hno _ htorn)
  case reset => exact absurd h.2 (hno _ rfl)
  case init => exact absurd h.2 (hno _ h0)
  case stopCrypto => exact absurd h.2 (hno _ rfl)
  case request => rcases h with ⟨-, h⟩ | ⟨-, h⟩ <;> exact absurd h (hno _ h0)
  case antiCollision | selectTag => rcases h with ⟨_, -, h⟩ | ⟨_, -, h⟩ <;> exact absurd h (hno _ h0)
  case readBlock => rcases h with ⟨_, -, h⟩ | ⟨_, -, h⟩ <;> [exact absurd h (hno _ h0); exact absurd h (hno _ htorn)]
  case writeBlock => rcases h with ⟨-, h⟩ | ⟨_, -, h⟩ <;> [exact absurd h (hno _ h0); exact absurd h (hno _ htorn)]
  all_goals exact absurd h (hno _ h0)

theorem begin_authd (op : HostOp) (s : State) : (begin op s).authd = s.authd := by rw [begin_eq]

theorem waitBegin_authd (op : HostOp) (s : State) : (waitBegin op s).authd = s.authd := by rw [waitBegin_eq]

/-- Only `authenticate` with Ok sets AUTHD (10_state R23). -/
theorem exec_authd (h : exec i s = .next t) (h0 : s.authd = false) (h1 : t.authd = true) :
    (∃ m b k u, i = .authenticate m b k u) ∧ t.result = some (.auth .ok) := by
  rcases hp : program i with _ | ⟨op, p⟩
  · exfalso
    suffices t.authd = true → s.authd = true by rw [this h1] at h0; cases h0
    by_cases hi : i = .wait ∨ i = .selectCard
    · obtain ⟨-, op, hw, ht⟩ := exec_wait_next hi h
      rw [← waitBegin_authd op s]
      rcases ht with ⟨hk, -⟩ | ⟨u, rest, hk, -, rfl⟩
      · exact fun ha => hk.authd.symm.trans ha
      · have hj : u.job = none := by rw [hk.job, waitBegin_eq]
        obtain ⟨r, v, he, hv⟩ := endWait_whole hj
        rw [he]
        exact fun ha => hk.authd.symm.trans (hv.authd ha)
    · obtain ⟨hi1, hi2⟩ := not_or.1 hi
      exact fun ha => (exec_rests hp hi1 hi2 h).1.authd.symm.trans ha
  · obtain ⟨-, rfl⟩ := exec_program_next hp h
    obtain ⟨hi, hr⟩ := (run_leaves hp (begin op s)).authd ((begin_authd op s).trans h0) h1
    exact ⟨hi, congrArg some hr⟩

end Sys2Proof.Safety
end

section
/-! SUPPORT. UID, KEY and AUTHD are read by nothing: the engine run from two states that differ in them alone answers two
states that differ in them alone. -/

namespace Sys2Proof.Safety

open Sys2Proof.Machine

variable {s s' t t' : State} {i : Instr} {op : HostOp}

/-! ## The updates of the state -/

theorem Blind.params (h : Blind s s') : s'.params = s.params := by obtain ⟨_, _, _, rfl⟩ := h; rfl
theorem Blind.pc (h : Blind s s') : s'.pc = s.pc := by obtain ⟨_, _, _, rfl⟩ := h; rfl
theorem Blind.work (h : Blind s s') : s'.work = s.work := by obtain ⟨_, _, _, rfl⟩ := h; rfl
theorem Blind.signal (h : Blind s s') : s'.signal = s.signal := by obtain ⟨_, _, _, rfl⟩ := h; rfl
theorem Blind.inputs (h : Blind s s') : s'.inputs = s.inputs := by obtain ⟨_, _, _, rfl⟩ := h; rfl
theorem Blind.job (h : Blind s s') : s'.job = s.job := by obtain ⟨_, _, _, rfl⟩ := h; rfl
theorem Blind.inWait (h : Blind s s') : inWait s' = inWait s := by obtain ⟨_, _, _, rfl⟩ := h; rfl
theorem Blind.atWaitPoint (h : Blind s s') : atWaitPoint s' = atWaitPoint s := by obtain ⟨_, _, _, rfl⟩ := h; rfl

/-- An update that says nothing of UID, KEY and AUTHD. -/
theorem Blind.map {f : State → State} (hf : ∀ s u k a, f { s with uid := u, key := k, authd := a } =
    { f s with uid := u, key := k, authd := a }) (h : Blind s s') : Blind (f s) (f s') := by
  obtain ⟨u, k, a, rfl⟩ := h
  exact ⟨u, k, a, hf s u k a⟩

theorem finish_blind (r : Result) (h : Blind s s') : Blind (finish r s) (finish r s') := h.map fun _ _ _ _ => rfl

theorem begin_blind (op : HostOp) (h : Blind s s') : Blind (begin op s) (begin op s') := h.map fun _ _ _ _ => rfl

theorem regWriteAt_blind (a : RegAddr) (v : Byte) (h : Blind s s') : Blind (regWriteAt a v s) (regWriteAt a v s') :=
  h.map fun _ _ _ _ => rfl

theorem regWrite_blind (r : Reg) (v : Byte) (h : Blind s s') : Blind (regWrite r v s) (regWrite r v s') :=
  h.map fun _ _ _ _ => rfl

theorem regReadAt_blind (a : RegAddr) (h : Blind s s') :
    (regReadAt a s).1 = (regReadAt a s').1 ∧ Blind (regReadAt a s).2 (regReadAt a s').2 := by
  obtain ⟨u, k, x, rfl⟩ := h
  have hr : regReadAt a { s with uid := u, key := k, authd := x } =
      ((regReadAt a s).1, { (regReadAt a s).2 with uid := u, key := k, authd := x }) := by
    obtain ⟨_, _, _, _, _, _, _, _, _, _, _, _, _, _, _, _, _, _, answers, _, _⟩ := s
    cases answers <;> rfl
  rw [hr]
  exact ⟨rfl, u, k, x, rfl⟩

theorem stages_blind (n : Nat) (i : Instr) (h : Blind s s') : Blind (stages n i s) (stages n i s') := by
  induction n generalizing i s s' with
  | zero => exact h
  | succ n ih =>
    rcases hp : program i with _ | ⟨op, p⟩
    · simpa only [stages, hp] using h
    · obtain ⟨hr, ht⟩ := run_blind p (h.map (f := State.setWork Work.empty) fun _ _ _ _ => rfl)
      simp only [stages, hp, ← hr]
      cases nextStage i (p.run (s.setWork Work.empty)).1 with
      | none => exact finish_blind _ ht
      | some j => exact ih j ht

/-! ## A wait run whole -/

/-- The two states differ in UID, KEY and AUTHD alone, and hold no operation run one step at a time. -/
def BlindWhole (s s' : State) : Prop := s.job = none ∧ Blind s s'

theorem endWait_blind (h : BlindWhole s s') : BlindWhole (endWait s) (endWait s') := by
  obtain ⟨hj, hb⟩ := h
  obtain ⟨-, -, -, hidle, -⟩ := endWait_idle s hj
  refine ⟨hidle, ?_⟩
  simp only [endWait, hb.work, hb.pc, hb.job, hj]
  split_ifs
  · exact finish_blind _ hb
  · exact stages_blind 5 .reset (hb.map (f := advance) fun _ _ _ _ => rfl)
  · exact finish_blind _ hb

theorem takeSignal_blind (h : Blind s s') : Blind (takeSignal s) (takeSignal s') := by
  simp only [takeSignal, h.signal]
  split
  · exact h.map (f := fun s => leaveLoop .done (s.setSignal false)) fun _ _ _ _ => rfl
  · exact h

theorem seqStep_blind (h : BlindWhole s s') : BlindWhole (seqStep s) (seqStep s') := by
  refine ⟨?_, ?_⟩
  · rcases seqStep_waits s with hw | ⟨he, -⟩
    · exact hw.job.trans h.1
    · rw [he]; exact (endWait_blind h).1
  have hb := h.2
  simp only [seqStep, hb.params, hb.pc]
  split
  · exact regWrite_blind _ _ hb
  split
  · exact regWrite_blind _ _ hb
  · exact regWrite_blind _ _ hb
  · exact regWrite_blind _ _ hb
  · exact takeSignal_blind hb
  split
  · exact regWrite_blind _ _ hb
  split
  · exact hb.map (f := deregister) fun _ _ _ _ => rfl
  · exact (endWait_blind h).2

theorem turn_blind (h : BlindWhole s s') : BlindWhole (turn s) (turn s') := by
  have hj : s'.job = none := h.2.job.trans h.1
  simp only [turn, h.2.inWait, tickJob, h.1, hj]
  split
  · exact seqStep_blind h
  · exact h

theorem BlindWhole.map {f : State → State} (h : BlindWhole s s') (hj : (f s).job = s.job)
    (hf : ∀ s u k a, f { s with uid := u, key := k, authd := a } = { f s with uid := u, key := k, authd := a }) :
    BlindWhole (f s) (f s') := ⟨hj.trans h.1, h.2.map hf⟩

theorem applyMove_blind (m : Move) (h : BlindWhole s s') : BlindWhole (applyMove m s) (applyMove m s') := by
  have hb := h.2
  cases m <;> simp only [applyMove, hb.pc, hb.atWaitPoint, hb.signal, hb.params]
  case line => exact h.map rfl fun _ _ _ _ => rfl
  case sample => exact h.map rfl fun _ _ _ _ => rfl
  case go => split <;> [exact turn_blind h; exact h]
  case timeout => split <;> [exact h.map rfl fun _ _ _ _ => rfl; exact h]
  case abandon => split <;> [exact h.map rfl fun _ _ _ _ => rfl; exact h]

theorem settle_blind (n : Nat) (h : BlindWhole s s') : BlindWhole (settle n s) (settle n s') := by
  induction n generalizing s s' with
  | zero => exact h
  | succ n ih =>
    simp only [settle, h.2.pc, h.2.atWaitPoint]
    split
    · exact h
    · exact ih (seqStep_blind h)

theorem waitRun_blind (l : List Input) (h : BlindWhole s s') : BlindWhole (waitRun l s) (waitRun l s') := by
  induction l generalizing s s' with
  | nil =>
    simp only [waitRun, h.2.params]
    exact settle_blind _ (h.map rfl fun _ _ _ _ => rfl)
  | cons x rest ih =>
    cases x with
    | request b =>
      simp only [waitRun, h.2.params]
      exact settle_blind _ (h.map rfl fun _ _ _ _ => rfl)
    | move m =>
      have hm := applyMove_blind m h
      simp only [waitRun, hm.2.pc]
      split
      · exact hm.map rfl fun _ _ _ _ => rfl
      · exact ih hm

theorem waitBegin_blind (op : HostOp) (h : Blind s s') : BlindWhole (waitBegin op s) (waitBegin op s') :=
  ⟨rfl, h.map fun _ _ _ _ => rfl⟩

/-! ## exec -/

/-- If the first outcome answers a next state, the second answers one that differs from it in UID, KEY and AUTHD alone. -/
def BlindOut (o o' : Out) : Prop := ∀ t, o = .next t → ∃ t', o' = .next t' ∧ Blind t t'

theorem BlindOut.next (h : Blind t t') : BlindOut (.next t) (.next t') := fun v hv => by
  cases hv
  exact ⟨t', rfl, h⟩

theorem accept_blind {body body' : Out} (h : Blind s s') (hb : BlindOut body body') :
    BlindOut (accept i s body) (accept i s' body') := by
  intro t ht
  obtain ⟨hop, hw, ht⟩ := accept_next ht
  rw [accept_idle (h.pc ▸ hop) (h.params ▸ hw)]
  exact hb t ht

theorem admitted_blind {body body' : Out} (h : Blind s s') (hb : BlindOut body body') :
    BlindOut (admitted i s body) (admitted i s' body') := by
  intro t ht
  have he : admitted i s' body' = body' := by
    obtain ⟨u, k, a, rfl⟩ := h
    have hany := admitted_any ht body'
    cases i <;> exact hany
  rw [he]
  exact hb t (admitted_next ht).2.2

theorem presentDecoded_blind (b : List Byte) (h : Blind s s') : BlindOut (presentDecoded b s) (presentDecoded b s') := by
  unfold presentDecoded
  split
  · exact .next (finish_blind _ h)
  · exact fun _ ht => by cases ht

/-- A row that presents a result and does nothing else. -/
theorem present_blind (r : Result) (h : Blind s s') :
    BlindOut (accept i s (.next (finish r s))) (accept i s' (.next (finish r s'))) :=
  accept_blind h (.next (finish_blind r h))

theorem writeRow_blind {a a' : RegAddr} (v : Byte) (h : Blind s s') (ha : a' = a) :
    BlindOut (writeRow i a v s) (writeRow i a' v s') :=
  ha ▸ accept_blind h (.next (finish_blind _ (regWriteAt_blind a' v h)))

theorem readRow_blind {a a' : RegAddr} (h : Blind s s') (ha : a' = a) : BlindOut (readRow i a s) (readRow i a' s') := by
  subst ha
  obtain ⟨hr, ht⟩ := regReadAt_blind a' h
  refine accept_blind h (.next ?_)
  rw [← hr]
  exact finish_blind _ ht

theorem writeFifo_blind (l : List Byte) (h : Blind s s') : Blind (writeFifo l s) (writeFifo l s') :=
  (run_blind (writeFifoProg l) h).2

theorem commandRow_blind (c : ChipCommand) (h : Blind s s') : BlindOut (commandRow i c s) (commandRow i c s') :=
  accept_blind h (.next (finish_blind _ (run_blind (writeCommandProg c) h).2))

theorem frameRow_blind {l l' : List Byte} (h : Blind s s') (hl : l' = l) : BlindOut (frameRow i l s) (frameRow i l' s') :=
  hl ▸ accept_blind h (.next (finish_blind _ (writeFifo_blind l' h)))

theorem framedRow_blind (v : Byte) (l : List Byte) (h : Blind s s') : BlindOut (framedRow i v l s) (framedRow i v l s') :=
  accept_blind h (.next (finish_blind _ (writeFifo_blind l (regWrite_blind _ v h))))

theorem exec_program_blind {p : Prog Result} (hp : program i = some (op, p)) (h : Blind s s') :
    BlindOut (exec i s) (exec i s') := by
  obtain ⟨hr, ht⟩ := run_blind p (begin_blind op h)
  rw [exec_program hp, exec_program hp, ← hr]
  exact admitted_blind h (.next (finish_blind _ ht))

theorem exec_wait_blind (i : Instr) (op : HostOp) (h : Blind s s') :
    BlindOut (admitted i s (.next (waitRun s.inputs (waitBegin op s))))
      (admitted i s' (.next (waitRun s'.inputs (waitBegin op s')))) := by
  rw [h.inputs]
  exact admitted_blind h (.next (waitRun_blind _ (waitBegin_blind op h)).2)

/-- No instruction reads UID, KEY or AUTHD. -/
theorem exec_blind (i : Instr) (h : Blind s s') : BlindOut (exec i s) (exec i s') := by
  rcases hp : program i with _ | ⟨op, p⟩
  case some => exact exec_program_blind hp h
  cases i
  case wait => exact exec_wait_blind .wait .wait h
  case selectCard => exact exec_wait_blind .selectCard .selectCard h
  case encode | getBit => exact accept_blind h (.next (finish_blind _ (begin_blind _ h)))
  case decode b => exact accept_blind h (presentDecoded_blind b (begin_blind _ h))
  case access b => exact accept_blind h (presentDecoded_blind b.val h)
  case ack | errOk | errTimeoutError | errProtocolError | errChecksumError | errCardNotPresentError |
      errAuthReadFailure | errAuthFailure | errWriteNotAuthorizedError | errWriteFailedError | errDataLengthError |
      errAbandoned =>
    exact present_blind _ h
  case cmdIdle | cmdCalcCrc | cmdTransceive | cmdAuthenticate | cmdSoftReset => exact commandRow_blind _ h
  case cardReqa | cardAnticoll => exact framedRow_blind _ _ h
  case cardSelect => exact frameRow_blind h (by rw [h.params])
  case cardAuth | cardRead | cardWrite | cardWriteData => exact frameRow_blind h rfl
  case busRead => exact readRow_blind h rfl
  case rComIrq | rDivIrq | rError | rStatus2 | rFifoData | rFifoLevel | rControl | rBitFraming | rTxControl |
      rCrcResultH | rCrcResultL =>
    exact readRow_blind h (by rw [h.params])
  case busWrite => exact writeRow_blind _ h rfl
  case wCommand | wComIEn | wComIrq | wDivIrq | wStatus2 | wFifoData | wFifoLevel | wBitFraming | wMode | wTxControl |
      wTxAuto | wTMode | wTPrescaler | wTReloadH | wTReloadL =>
    exact writeRow_blind _ h (by rw [h.params])
  all_goals cases hp

/-- Settles O60: only `authenticate` opens a session, and two states that differ in UID, KEY and AUTHD alone stay so. -/
theorem sessionSecretsAreNeverRead : Obligations.SessionSecretsAreNeverRead := by
  unfold Obligations.SessionSecretsAreNeverRead
  refine ⟨fun i s t => exec_authd, fun i s t u k a h => ?_⟩
  obtain ⟨t', ht, _, _, _, rfl⟩ := exec_blind i ⟨u, k, a, rfl⟩ t h
  exact ⟨_, ht, rfl, rfl, rfl, rfl, rfl⟩

end Sys2Proof.Safety
end

section
/-! SUPPORT. A register access run alone, and the read-modify-writes (20_memory R51, R52, R54, R55). -/

namespace Sys2Proof.Safety

open Sys2Proof.Machine

variable {s : State} {i : Instr}

/-! ## The read-modify-writes -/

/-- T takes the byte read (20_memory R54). -/
theorem setBits_work_t (r : Reg) (m : Byte) (s : State) : (setBits r m s).work.t = some (regRead r s).1 := rfl

/-- T takes the byte read (20_memory R55). -/
theorem clearBits_work_t (r : Reg) (m : Byte) (s : State) : (clearBits r m s).work.t = some (regRead r s).1 := rfl

/-- Settles O11: both are the read and then the write, and the mask 0xFF keeps every bit of a byte. -/
theorem bitWritesReadFirst : Obligations.BitWritesReadFirst := by
  unfold Obligations.BitWritesReadFirst
  refine fun r m s => ⟨⟨_, setBits_runs r m s, setBits_work_t r m s⟩, _, ?_, clearBits_work_t r m s⟩
  have hmask (b : Byte) : b &&& 0xFF#8 = b := BitVec.and_allOnes
  rw [hmask]
  exact clearBits_runs r m s

/-! ## A register access run alone -/

/-- The answer to a read is the next byte of the script, if there is one (20_memory R57). -/
theorem chipAnswer_isScripted (s : State) : Scripted s.answers [(chipAnswer s).1] := by
  cases h : s.answers <;> simp [Scripted, chipAnswer, h]

/-- A read uses up the next byte of the script, if there is one (20_memory R57). -/
theorem chipAnswer_answers (s : State) : (chipAnswer s).2.answers = s.answers.drop 1 := by
  cases h : s.answers <;> simp [chipAnswer, h]

/-- `RegWrite`, ended with success: one write frame (20_memory R51). -/
theorem regWriteAt_ended (a : RegAddr) (v : Byte) (s : State) :
    Ended s .done [writeXfer a v (Config.chipByte s.freeIx)] 0 (finish .done (regWriteAt a v s)) :=
  ⟨s.freeIx + 1, by rw [finish_eq, regWriteAt_eq]; rfl⟩

/-- `RegRead`, ended with its value: one read frame (20_memory R52). -/
theorem regReadAt_ended (a : RegAddr) (s : State) :
    Ended s (.regValue (regReadAt a s).1) [readXfer a (regReadAt a s).1] 1
      (finish (.regValue (regReadAt a s).1) (regReadAt a s).2) :=
  ⟨(chipAnswer s).2.freeIx, by rw [finish_eq, regReadAt_state_eq, chipAnswer_answers]; rfl⟩

/-- An instruction that means the write of `v` to the register at `a` makes that write and no other change. -/
theorem exec_writeRow_ended {a : RegAddr} {v : Byte} (hop : s.pc.op = none) (he : exec i s = writeRow i a v s)
    (hw : i.wf s.params = true) : ∃ r t, exec i s = .next t ∧ Ended s .done [writeXfer a v r] 0 t :=
  ⟨_, _, he.trans (writeRow_idle hop hw a v), regWriteAt_ended a v s⟩

/-- An instruction that means the read of the register at `a` makes that read, presents its byte, and makes no other change. -/
theorem exec_readRow_ended {a : RegAddr} (hop : s.pc.op = none) (he : exec i s = readRow i a s)
    (hw : i.wf s.params = true) :
    ∃ v t, exec i s = .next t ∧ Ended s (.regValue v) [readXfer a v] 1 t ∧ Scripted s.answers [v] :=
  ⟨_, _, he.trans (readRow_idle hop hw a), regReadAt_ended a s, chipAnswer_isScripted s⟩

/-- Settles O9: each of the sixteen rows means the write of its register. -/
theorem registerWritesComplete : Obligations.RegisterWritesComplete := by
  unfold Obligations.RegisterWritesComplete
  intro s a v hop
  simp only [List.forall_mem_cons, List.not_mem_nil, false_imp_iff, implies_true, and_true]
  and_intros <;> exact exec_writeRow_ended hop rfl rfl

/-- Settles O10: each of the twelve rows means the read of its register. -/
theorem registerReadsComplete : Obligations.RegisterReadsComplete := by
  unfold Obligations.RegisterReadsComplete
  intro s a hop
  simp only [List.forall_mem_cons, List.not_mem_nil, false_imp_iff, implies_true, and_true]
  and_intros <;> exact exec_readRow_ended hop rfl rfl

end Sys2Proof.Safety
end

section
/-! SUPPORT. The encoder and the decoder agree (30_encoding): first the tables the decoder looks a byte up in and the operand groups
it reads, then each format, in both directions. -/

namespace Sys2Proof.Safety

open Sys2Proof.Machine

variable {α β : Type} {p : Params} {i : Instr} {l : List Byte}

/-! ## The tables -/

/-- The entry a table is looked up for has the key asked for. -/
theorem key_of_find? [DecidableEq β] {f : α → β} {t : List α} {k : β} {a : α}
    (h : t.find? (fun x => f x == k) = some a) : f a = k := by
  simpa using List.find?_some h

/-- An entry of a table is found by its own key when no two keys are equal. -/
theorem find?_key [DecidableEq β] {f : α → β} {t : List α} {a : α} (hf : ∀ x ∈ t, f x = f a → x = a) (ha : a ∈ t) :
    t.find? (fun x => f x == f a) = some a := by
  cases h : t.find? (fun x => f x == f a) with
  | none => simpa using List.find?_eq_none.1 h a ha
  | some x => rw [hf x (List.mem_of_find?_eq_some h) (key_of_find? h)]

theorem mem_regAll (r : Reg) : r ∈ Reg.all := by cases r <;> decide

theorem mem_chipCommandAll (c : ChipCommand) : c ∈ ChipCommand.all := by cases c <;> decide

theorem regAddr_inj (hp : p.WF) {r r' : Reg} (h : p.regAddr r = p.regAddr r') : r = r' :=
  List.inj_on_of_nodup_map hp.1 (mem_regAll r) (mem_regAll r') h

theorem cmdCode_inj (hp : p.WF) {c c' : ChipCommand} (h : p.cmdCode c = p.cmdCode c') : c = c' :=
  List.inj_on_of_nodup_map hp.2 (mem_chipCommandAll c) (mem_chipCommandAll c') h

theorem chipCommandOf_cmdCode (hp : p.WF) (c : ChipCommand) : chipCommandOf p (p.cmdCode c) = some c :=
  find?_key (fun _ _ => cmdCode_inj hp) (mem_chipCommandAll c)

theorem cmdCode_of_chipCommandOf {b : Byte} {c : ChipCommand} (h : chipCommandOf p b = some c) : p.cmdCode c = b :=
  key_of_find? h

theorem namedWrite_regAddr (hp : p.WF) {r : Reg} (hr : r ∈ writeRows) : namedWrite p (p.regAddr r) = some r :=
  find?_key (fun _ _ => regAddr_inj hp) hr

theorem namedRead_regAddr (hp : p.WF) {r : Reg} (hr : r ∈ readRows) : namedRead p (p.regAddr r) = some r :=
  find?_key (fun _ _ => regAddr_inj hp) hr

theorem regAddr_of_namedWrite {a : RegAddr} {r : Reg} (h : namedWrite p a = some r) : p.regAddr r = a :=
  key_of_find? h

theorem regAddr_of_namedRead {a : RegAddr} {r : Reg} (h : namedRead p a = some r) : p.regAddr r = a :=
  key_of_find? h

/-! ## Operand groups -/

theorem exactBytes_eq_some {n : Nat} {b : Bytes n} : exactBytes n l = some b ↔ b.val = l := by
  unfold exactBytes
  split
  next h => simp [Subtype.ext_iff, eq_comm]
  next h => simp only [reduceCtorEq, false_iff]; rintro rfl; exact h b.2

theorem exactBytes_val {n : Nat} (b : Bytes n) : exactBytes n b.val = some b := exactBytes_eq_some.2 rfl

theorem orLength_eq_ok {x : Option Instr} : orLength x = .ok i ↔ x = some i :=
  ⟨orLength_ok, by rintro rfl; rfl⟩

/-- The operands of `authenticate` and of the AUTH frame: two bytes, six of key and four of UID (30_encoding R80, R86). -/
theorem decodeAuthOperands_eq_ok {make : Byte → Byte → Bytes 6 → Bytes 4 → Instr} :
    decodeAuthOperands make l = .ok i ↔
      ∃ mode block key uid, l = mode :: block :: (key.val ++ uid.val) ∧ i = make mode block key uid := by
  constructor
  · intro h
    unfold decodeAuthOperands at h
    split at h
    next mode block rest =>
      obtain ⟨key, hk, h⟩ := Option.bind_eq_some_iff.1 (orLength_ok h)
      obtain ⟨uid, hu, rfl⟩ := Option.map_eq_some_iff.1 h
      rw [exactBytes_eq_some] at hk hu
      exact ⟨mode, block, key, uid, by rw [hk, hu, List.take_append_drop], rfl⟩
    next => cases h
  · rintro ⟨mode, block, key, uid, rfl, rfl⟩
    simp [decodeAuthOperands, orLength_eq_ok, List.take_left' key.2, List.drop_left' key.2, exactBytes_val]

/-- The payload of a write: sixteen bytes and the CRC (30_encoding R81). -/
theorem decodeWriteData_eq_ok :
    decodeWriteData l = .ok i ↔ ∃ d lo hi, l = d.val ++ [lo, hi] ∧ i = .cardWriteData d lo hi := by
  constructor
  · intro h
    unfold decodeWriteData at h
    split at h
    next lo hi hl =>
      obtain ⟨d, hd, rfl⟩ := Option.map_eq_some_iff.1 (orLength_ok h)
      exact ⟨d, lo, hi, by rw [exactBytes_eq_some.1 hd, ← hl, List.take_append_drop], rfl⟩
    next => cases h
  · rintro ⟨d, lo, hi, rfl, rfl⟩
    simp [decodeWriteData, orLength_eq_ok, List.take_left' d.2, List.drop_left' d.2, exactBytes_val]

/-! ## Host requests -/

theorem decodeHostOp_code (p : Params) (op : HostOp) (ops : List Byte) :
    decodeHostOp p (op.code :: ops) = decodeOperands p op ops := by
  have h : HostOp.all.find? (fun o => o.code == op.code) = some op := by cases op <;> rfl
  simp only [decodeHostOp, h]

/-- The operands of an operation decode to the request that encodes to its select byte and those operands. -/
theorem encode_of_decodeOperands {op : HostOp} {ops : List Byte} (h : decodeOperands p op ops = .ok i) :
    encode p i = op.code :: ops := by
  cases op <;> simp only [decodeOperands] at h
  case reset | init | request | antiCollision | stopCrypto | wait | selectCard =>
    unfold noOperands at h
    split at h <;> cases h
    next he => rw [List.isEmpty_iff.1 he]; rfl
  case computeCrc => cases h; rfl
  case execute =>
    unfold decodeExecute at h
    split at h
    next c d =>
      split at h <;> cases h
      next hc => rw [← cmdCode_of_chipCommandOf hc]; rfl
    next => cases h
  case selectTag =>
    obtain ⟨u, hu, rfl⟩ := Option.map_eq_some_iff.1 (orLength_ok h)
    rw [← exactBytes_eq_some.1 hu]; rfl
  case authenticate => obtain ⟨m, b, k, u, rfl, rfl⟩ := decodeAuthOperands_eq_ok.1 h; rfl
  case readBlock => unfold decodeReadBlock at h; split at h <;> cases h; rfl
  case writeBlock =>
    unfold decodeWriteBlock at h
    split at h
    next b d =>
      obtain ⟨d', hd, rfl⟩ := Option.map_eq_some_iff.1 (orLength_ok h)
      rw [← exactBytes_eq_some.1 hd]; rfl
    next => cases h
  case encode => unfold decodeEncode at h; split at h <;> cases h; rfl
  case decode => unfold decodeDecode at h; split at h <;> cases h; rfl
  case getBit => unfold decodeGetBit at h; split at h <;> cases h; rfl

theorem encode_of_decodeHostOp (h : decodeHostOp p l = .ok i) : encode p i = l := by
  unfold decodeHostOp at h
  split at h
  · cases h
  next sel ops =>
    split at h
    next op hop => rw [encode_of_decodeOperands h, key_of_find? hop]
    next => cases h

/-- A host request with well-formed operands is read back from its select byte and its operands. -/
theorem decodeHostOp_encode (hp : p.WF) (hf : i.format = .hostop) (hw : i.wf p = true) :
    decodeHostOp p (encode p i) = .ok i := by
  cases i <;> cases hf <;> refine (decodeHostOp_code p _ _).trans ?_
  case execute c d => simp [decodeOperands, decodeExecute, chipCommandOf_cmdCode hp]
  case selectTag u => simp [decodeOperands, orLength_eq_ok, exactBytes_val]
  case authenticate m b k u => exact decodeAuthOperands_eq_ok.2 ⟨m, b, k, u, rfl, rfl⟩
  case writeBlock b d => simp [decodeOperands, decodeWriteBlock, orLength_eq_ok, exactBytes_val]
  case decode x =>
    have hx : x.length = 3 ∨ x.length = 4 := by simpa [Instr.wf] using hw
    exact if_pos hx
  all_goals rfl

/-! ## BUS frames -/

theorem writeByte0_busAddr {b0 : Byte} (h0 : b0.getLsbD 0 = false) (h7 : b0.getLsbD 7 = false) :
    writeByte0 (busAddr b0) = b0 := by revert b0; decide

theorem readByte0_busAddr {b0 : Byte} (h0 : b0.getLsbD 0 = false) (h7 : b0.getLsbD 7 = true) :
    readByte0 (busAddr b0) = b0 := by revert b0; decide

/-- Bit 0 of a frame is clear (30_encoding R73). -/
theorem writeByte0_bit0 (a : RegAddr) : (writeByte0 a).getLsbD 0 = false := by revert a; decide

theorem readByte0_bit0 (a : RegAddr) : (readByte0 a).getLsbD 0 = false := by revert a; decide

theorem readByte0_bit7 (a : RegAddr) : (readByte0 a).getLsbD 7 = true := by revert a; decide

theorem encode_writeInstr (p : Params) (r : Reg) (v : Byte) :
    (writeInstr p r v).format = .bus ∧ encode p (writeInstr p r v) = writeFrame (p.regAddr r) v := by
  cases r <;> exact ⟨rfl, rfl⟩

theorem encode_readInstr (p : Params) (r : Reg) :
    (readInstr p r).format = .bus ∧ encode p (readInstr p r) = readFrame (p.regAddr r) := by
  cases r <;> exact ⟨rfl, rfl⟩

theorem decodeBus_writeFrame (p : Params) (a : RegAddr) (v : Byte) :
    decodeBus p (writeFrame a v) = .ok ((namedWrite p a).elim (.busWrite a v) fun r => writeInstr p r v) := by
  unfold decodeBus writeFrame
  simp only [writeByte0_bit0, writeByte0_bit7, busAddr_writeByte0, Bool.false_eq_true, if_false]
  cases namedWrite p a <;> rfl

theorem decodeBus_readFrame (p : Params) (a : RegAddr) :
    decodeBus p (readFrame a) = .ok ((namedRead p a).elim (.busRead a) (readInstr p)) := by
  unfold decodeBus readFrame
  simp only [readByte0_bit0, readByte0_bit7, busAddr_readByte0, Bool.false_eq_true, if_false, if_true]
  cases namedRead p a <;> rfl

theorem decodeBus_writeRow (hp : p.WF) {r : Reg} (hr : r ∈ writeRows) (v : Byte) :
    decodeBus p (writeFrame (p.regAddr r) v) = .ok (writeInstr p r v) := by
  rw [decodeBus_writeFrame, namedWrite_regAddr hp hr]; rfl

theorem decodeBus_readRow (hp : p.WF) {r : Reg} (hr : r ∈ readRows) :
    decodeBus p (readFrame (p.regAddr r)) = .ok (readInstr p r) := by
  rw [decodeBus_readFrame, namedRead_regAddr hp hr]; rfl

/-- A BUS frame decodes to a write or a read of its address, named or plain. -/
theorem encode_of_decodeBus (h : decodeBus p l = .ok i) : i.format = .bus ∧ encode p i = l := by
  rcases l with _ | ⟨b0, _ | ⟨b1, _ | ⟨b2, l⟩⟩⟩
  case nil | cons.nil | cons.cons.cons => cases h
  unfold decodeBus at h
  dsimp only at h
  split at h
  · cases h
  next h0 =>
  replace h0 := Bool.eq_false_of_not_eq_true h0
  split at h
  next h7 =>
    split at h
    next h1 =>
      have hl : [b0, b1] = readFrame (busAddr b0) := by rw [readFrame, readByte0_busAddr h0 h7, h1]
      rw [hl]
      split at h <;> cases h
      next r hr => rw [← regAddr_of_namedRead hr]; exact encode_readInstr p r
      next => exact ⟨rfl, rfl⟩
    next => cases h
  next h7 =>
    have hl : [b0, b1] = writeFrame (busAddr b0) b1 := by
      rw [writeFrame, writeByte0_busAddr h0 (Bool.eq_false_of_not_eq_true h7)]
    rw [hl]
    split at h <;> cases h
    next r hr => rw [← regAddr_of_namedWrite hr]; exact encode_writeInstr p r b1
    next => exact ⟨rfl, rfl⟩

/-- A BUS frame is read back from its address and its direction (30_encoding R71 to R73). -/
theorem decodeBus_encode (hp : p.WF) (hf : i.format = .bus) (ho : i.ownWords p = true) :
    decodeBus p (encode p i) = .ok i := by
  cases i <;> cases hf
  case busWrite a v =>
    refine (decodeBus_writeFrame p a v).trans ?_
    rw [Option.isNone_iff_eq_none.1 ho]; rfl
  case busRead a =>
    refine (decodeBus_readFrame p a).trans ?_
    rw [Option.isNone_iff_eq_none.1 ho]; rfl
  case rComIrq | rDivIrq | rError | rStatus2 | rFifoData | rFifoLevel | rControl | rBitFraming | rTxControl |
      rCrcResultH | rCrcResultL =>
    exact decodeBus_readRow hp (by decide)
  all_goals exact decodeBus_writeRow hp (by decide) _

/-! ## The other formats -/

/-- A UID as its four bytes. -/
theorem uid_eq (uid : Bytes 4) : ∃ a b c d, uid = ⟨[a, b, c, d], rfl⟩ := by
  obtain ⟨l, hl⟩ := uid
  match l, hl with
  | [a, b, c, d], _ => exact ⟨a, b, c, d, rfl⟩

theorem decodeChipCmd_encode (hp : p.WF) (hf : i.format = .chipcmd) : decodeChipCmd p (encode p i) = .ok i := by
  cases i <;> cases hf <;> simp only [encode, decodeChipCmd, chipCommandOf_cmdCode hp]

theorem decodeCard_encode (p : Params) (hf : i.format = .card) : decodeCard (encode p i) = .ok i := by
  cases i <;> cases hf
  case cardSelect uid bcc lo hi =>
    obtain ⟨a, b, c, d, rfl⟩ := uid_eq uid
    cases bcc <;> rfl
  all_goals rfl

theorem decodeErrCode_encode (p : Params) (hf : i.format = .errcode) : decodeErrCode (encode p i) = .ok i := by
  cases i <;> cases hf <;> rfl

theorem encode_of_decodeChipCmd (h : decodeChipCmd p l = .ok i) : i.format = .chipcmd ∧ encode p i = l := by
  unfold decodeChipCmd at h
  split at h
  case h_1 b => split at h <;> cases h <;> next hc => exact ⟨rfl, by rw [← cmdCode_of_chipCommandOf hc]; rfl⟩
  all_goals cases h

theorem encode_of_decodeCard (h : decodeCard l = .ok i) : i.format = .card ∧ encode p i = l := by
  unfold decodeCard at h
  split at h <;> cases h <;> exact ⟨rfl, rfl⟩

theorem encode_errRows (p : Params) : ∀ r ∈ errRows, r.2.format = .errcode ∧ encode p r.2 = [r.1] := by
  simp only [errRows, List.forall_mem_cons, List.not_mem_nil, false_imp_iff, implies_true, and_true]
  and_intros <;> rfl

theorem encode_of_decodeErrCode (h : decodeErrCode l = .ok i) : i.format = .errcode ∧ encode p i = l := by
  unfold decodeErrCode at h
  split at h
  case h_1 b =>
    split at h <;> cases h
    next r hr =>
      rw [← key_of_find? hr]
      exact encode_errRows p r (List.mem_of_find?_eq_some hr)
  all_goals cases h

/-! ## The round trips -/

/-- Settles O1, format by format. -/
theorem decodeOfEncode : Obligations.DecodeOfEncode := by
  unfold Obligations.DecodeOfEncode
  intro p i hp hw ho
  cases hf : i.format
  case hostop => exact decodeHostOp_encode hp hf hw
  case bus => exact decodeBus_encode hp hf ho
  case chipcmd => exact decodeChipCmd_encode hp hf
  case card => exact decodeCard_encode p hf
  case errcode => exact decodeErrCode_encode p hf
  case authFrame =>
    cases i <;> cases hf
    next m b k u => exact decodeAuthOperands_eq_ok.2 ⟨m, b, k, u, rfl, rfl⟩
  case writeData =>
    cases i <;> cases hf
    next d lo hi => exact decodeWriteData_eq_ok.2 ⟨d, lo, hi, rfl, rfl⟩
  case ack => cases i <;> cases hf; rfl
  case access =>
    cases i <;> cases hf
    next x => exact orLength_eq_ok.2 (Option.map_eq_some_iff.2 ⟨x, exactBytes_val x, rfl⟩)

/-- Settles O2, format by format. -/
theorem encodeOfDecode : Obligations.EncodeOfDecode := by
  unfold Obligations.EncodeOfDecode
  intro p f l i hf h
  cases f
  case hostop => exact ⟨decodeFrame_hostop h, encode_of_decodeHostOp h⟩
  case bus => exact encode_of_decodeBus h
  case chipcmd => exact encode_of_decodeChipCmd h
  case card => exact encode_of_decodeCard h
  case errcode => exact encode_of_decodeErrCode h
  case authFrame => obtain ⟨m, b, k, u, rfl, rfl⟩ := decodeAuthOperands_eq_ok.1 h; exact ⟨rfl, rfl⟩
  case writeData => obtain ⟨d, lo, hi, rfl, rfl⟩ := decodeWriteData_eq_ok.1 h; exact ⟨rfl, rfl⟩
  case access =>
    obtain ⟨x, hx, rfl⟩ := Option.map_eq_some_iff.1 (orLength_ok h)
    exact ⟨rfl, exactBytes_eq_some.1 hx⟩
  case ack => exact absurd rfl hf

end Sys2Proof.Safety
end

section
/-! SUPPORT. A select byte that is no operation's, and what can be refused as undecodable (30_encoding R84). -/

namespace Sys2Proof.Safety

open Sys2Proof.Machine

variable {p : Params} {s : State} {i : Instr}

/-! ## Selects -/

theorem hostOp_code_lt (op : HostOp) : op.code.toNat < 0x10 := by cases op <;> decide

theorem exists_hostOp_code {b : Byte} (h : b.toNat < 0x10) : ∃ op : HostOp, op.code = b := by
  have : ∀ b : Byte, b.toNat < 0x10 → ∃ op ∈ HostOp.all, op.code = b := by decide
  obtain ⟨op, -, hop⟩ := this b h
  exact ⟨op, hop⟩

theorem decodeHostOp_badSelect {sel : Byte} (h : 0x10 ≤ sel.toNat) (ops : List Byte) :
    decodeHostOp p (sel :: ops) = .error (.badSelect sel) := by
  have hnone : HostOp.all.find? (fun o => o.code == sel) = none :=
    List.find?_eq_none.2 fun op _ hop => by
      have := hostOp_code_lt op
      rw [beq_iff_eq.1 hop] at this
      omega
  simp only [decodeHostOp, hnone]

theorem noOperands_error {ops : List Byte} {e : DecodeError} (h : noOperands i ops = .error e) : e = .badLength := by
  unfold noOperands at h
  split at h <;> cases h
  rfl

theorem orLength_error {x : Option Instr} {e : DecodeError} (h : orLength x = .error e) : e = .badLength := by
  cases x <;> cases h
  rfl

/-- Operands are rejected for their number, or for a chip command outside the five (30_encoding R84 b, R86). -/
theorem decodeOperands_error {op : HostOp} {ops : List Byte} {e : DecodeError} (h : decodeOperands p op ops = .error e) :
    e = .badLength ∨ ∃ c, e = .badChipCommand c := by
  cases op <;> simp only [decodeOperands] at h
  case execute =>
    unfold decodeExecute at h
    split at h
    · split at h <;> cases h
      exact .inr ⟨_, rfl⟩
    · cases h; exact .inl rfl
  case computeCrc => cases h
  case reset | init | request | antiCollision | stopCrypto | wait | selectCard => exact .inl (noOperands_error h)
  case selectTag => exact .inl (orLength_error h)
  case authenticate =>
    unfold decodeAuthOperands at h
    split at h
    · exact .inl (orLength_error h)
    · cases h; exact .inl rfl
  case readBlock => unfold decodeReadBlock at h; split at h <;> cases h; exact .inl rfl
  case writeBlock =>
    unfold decodeWriteBlock at h
    split at h
    · exact .inl (orLength_error h)
    · cases h; exact .inl rfl
  case encode => unfold decodeEncode at h; split at h <;> cases h; exact .inl rfl
  case decode => unfold decodeDecode at h; split at h <;> cases h; exact .inl rfl
  case getBit => unfold decodeGetBit at h; split at h <;> cases h; exact .inl rfl

/-! ## What a meaning refuses -/

theorem accept_undecodable {body : Out} {e : DecodeError} (h : accept i s body = .refused (.undecodable e)) :
    body = .refused (.undecodable e) := by
  unfold accept at h
  split at h
  · cases h
  · split at h
    · exact h
    · cases h

theorem admitted_next_decodable (t : State) (e : DecodeError) : admitted i s (.next t) ≠ .refused (.undecodable e) := by
  intro h
  replace h := accept_undecodable h
  rcases precondition_cases i s with hp | ⟨op, hp⟩ | ⟨hp, -⟩ <;> rw [hp] at h <;> cases h

theorem presentDecoded_decodable (l : List Byte) (e : DecodeError) : presentDecoded l s ≠ .refused (.undecodable e) := by
  unfold presentDecoded
  split <;> nofun

theorem exec_decodable (i : Instr) (s : State) (e : DecodeError) : exec i s ≠ .refused (.undecodable e) := by
  rcases exec_answers i s with ⟨u, he⟩ | ⟨b, u, he⟩ <;> rw [he]
  · exact admitted_next_decodable u e
  · exact fun h => presentDecoded_decodable b e (accept_undecodable h)

/-- A request that decodes is never refused as undecodable. -/
theorem beginRequest_decodable (i : Instr) (s : State) (e : DecodeError) : beginRequest i s ≠ .refused (.undecodable e) := by
  rcases hp : program i with _ | ⟨op, q⟩
  · by_cases h1 : i = .wait
    · subst h1; exact admitted_next_decodable _ e
    by_cases h2 : i = .selectCard
    · subst h2; exact admitted_next_decodable _ e
    · rw [beginRequest_codec hp h1 h2]; exact exec_decodable i s e
  · rw [beginRequest_program hp]; exact admitted_next_decodable _ e

/-- Settles O5: a select of 0x10 or more is the code of no operation, and below it only the operands can be rejected. -/
theorem unknownSelectIsRefused : Obligations.UnknownSelectIsRefused := by
  unfold Obligations.UnknownSelectIsRefused
  intro s b l rest hi hop hp
  obtain ⟨hok, herr⟩ := step_request (nextPlaced_none hp) hi hop
  refine ⟨fun hb => herr _ (decodeHostOp_badSelect hb l), fun hb => ?_⟩
  obtain ⟨op, rfl⟩ := exists_hostOp_code hb
  refine ⟨op, rfl, ?_⟩
  have hd : decodeFrame s.params .hostop (op.code :: l) = decodeOperands s.params op l := decodeHostOp_code s.params op l
  cases h : decodeOperands s.params op l with
  | ok i => rw [hok i (hd.trans h)]; exact beginRequest_decodable i _ _
  | error e =>
    rw [herr e (hd.trans h)]
    rcases decodeOperands_error h with rfl | ⟨c, rfl⟩ <;> nofun

/-- Settles O4: each word is decoded. -/
theorem writtenWordsDecode : Obligations.WrittenWordsDecode := by
  unfold Obligations.WrittenWordsDecode
  exact ⟨rfl, rfl, rfl, rfl, rfl, rfl, rfl, rfl, rfl⟩

end Sys2Proof.Safety
end

section
/-! SUPPORT. The frames on the bus are legal (30_encoding R84 c). -/

namespace Sys2Proof.Safety

open Sys2Proof.Machine

variable {s t : State} {i : Instr} {x : Xfer}

theorem legalXfer_write {a : RegAddr} (h : x.b0 = writeByte0 a) : LegalXfer x := by
  refine ⟨by rw [h, writeByte0_bit0], fun h7 => ?_⟩
  rw [h, writeByte0_bit7] at h7
  cases h7

theorem legalXfer_read {a : RegAddr} (h : x.b0 = readByte0 a) (h1 : x.b1 = 0x00#8) : LegalXfer x :=
  ⟨by rw [h, readByte0_bit0], fun _ => h1⟩

theorem Row.Matches.legal {P : Params} {row : Row} (h : row.Matches P x) : LegalXfer x := by
  cases row with
  | wr r v => exact legalXfer_write h.1
  | rd r v => exact legalXfer_read h.1 h.2.1

theorem PlainXfer.legal (h : PlainXfer i x) : LegalXfer x := by
  rcases h with ⟨a, v, -, h0⟩ | ⟨a, -, h0, h1⟩
  · exact legalXfer_write h0
  · exact legalXfer_read h0 h1

theorem Shows.legal {P : Params} {rows : List Row} {xs : List Xfer} (h : Shows P rows xs) : ∀ x ∈ xs, LegalXfer x := by
  induction h with
  | nil => nofun
  | cons hx _ ih => exact List.forall_mem_cons.2 ⟨hx.legal, ih⟩

/-- From `s` to `t` the trace grew by legal frames, and the parameters and RST_OUT did not change. -/
def GrowsLegally (s t : State) : Prop :=
  t.params = s.params ∧ t.rstOut = s.rstOut ∧ ∃ xs, (∀ x ∈ xs, LegalXfer x) ∧ t.trace = s.trace ++ xs

theorem Grows.legally (h : Grows s t) : GrowsLegally s t := by
  obtain ⟨hp, hr, rows, xs, hs, ht⟩ := h
  exact ⟨hp, hr, xs, Shows.legal hs, ht⟩

theorem exec_growsLegally (h : exec i s = .next t) : GrowsLegally s t := by
  rcases exec_grows h with hg | ⟨hp, hr, x, hx, ht⟩
  · exact hg.legally
  · exact ⟨hp, hr, [x], by simpa using hx.legal, ht⟩

theorem step_growsLegally (h : step s = .next t) : GrowsLegally s t := by
  rcases step_cases h with ⟨f, l, i, -, -, -, hx⟩ | ⟨m, rest, -, rfl⟩ | ⟨l, rest, i, -, -, hd, hx⟩ | ⟨-, hx⟩
  · have hx := exec_growsLegally hx
    rwa [GrowsLegally, State.setPlaced_params, State.setPlaced_rstOut, State.setPlaced_trace] at hx
  · exact (((Grows.refl s).quiet (u := s.setInputs rest) rfl rfl rfl).trans (applyMove_grows m _)).legally
  · exact (((Grows.refl s).quiet (u := s.setInputs rest) rfl rfl rfl).trans
      (beginRequest_grows (decodeFrame_hostop hd) hx)).legally
  · exact (unscripted_grows hx).legally

/-- Settles O58: a step appends legal frames to a trace of legal frames. -/
theorem traceStaysLegal : Obligations.TraceStaysLegal := by
  unfold Obligations.TraceStaysLegal
  intro s t hs h
  obtain ⟨hp, hr, xs, hx, ht⟩ := step_growsLegally h
  rw [ht]
  exact ⟨List.forall_mem_append.2 ⟨hs, hx⟩, ⟨xs, rfl⟩, hp, hr⟩

end Sys2Proof.Safety
end

section
/-! SUPPORT. Rows run alone: chip commands, card frames, the acknowledgement and the access bytes; and `encode`. -/

namespace Sys2Proof.Safety

open Sys2Proof.Machine

variable {s : State} {i : Instr}

/-! ## Writes to named registers -/

theorem exec_commandRow_ends {c : ChipCommand} (hop : s.pc.op = none) (he : exec i s = commandRow i c s)
    (hw : i.wf s.params = true) : ∃ t, exec i s = .next t ∧ EndsWith s .done [.wr .command (s.params.cmdCode c)] t :=
  ⟨_, he.trans (commandRow_idle hop hw c), (regWrite_runs .command _ s).ended .done⟩

theorem exec_frameRow_ends {l : List Byte} (hop : s.pc.op = none) (he : exec i s = frameRow i l s)
    (hw : i.wf s.params = true) : ∃ t, exec i s = .next t ∧ EndsWith s .done (fifoRows l) t :=
  ⟨_, he.trans (frameRow_idle hop hw l), (writeFifo_runs l s).ended .done⟩

theorem exec_framedRow_ends {v : Byte} {l : List Byte} (hop : s.pc.op = none) (he : exec i s = framedRow i v l s)
    (hw : i.wf s.params = true) : ∃ t, exec i s = .next t ∧ EndsWith s .done (.wr .bitFraming v :: fifoRows l) t :=
  ⟨_, he.trans (framedRow_idle hop hw v l), ((regWrite_runs .bitFraming v s).trans (writeFifo_runs l _)).ended .done⟩

/-- Settles O13: each of the five rows means the write of its code. -/
theorem chipCommandsComplete : Obligations.ChipCommandsComplete := by
  unfold Obligations.ChipCommandsComplete
  intro s hop
  simp only [List.forall_mem_cons, List.not_mem_nil, false_imp_iff, implies_true, and_true]
  and_intros <;> exact exec_commandRow_ends hop rfl rfl

/-- Settles O14: each row means the load of its bytes, the first two after their framing. -/
theorem cardFramesComplete : Obligations.CardFramesComplete := by
  unfold Obligations.CardFramesComplete
  intro s mode block lo hi key uid data hop
  simp only [List.forall_mem_cons, List.not_mem_nil, false_imp_iff, implies_true, and_true]
  refine ⟨exec_framedRow_ends hop rfl rfl, exec_framedRow_ends hop rfl rfl, exec_frameRow_ends hop rfl ?_,
    exec_frameRow_ends hop rfl rfl, exec_frameRow_ends hop rfl rfl, exec_frameRow_ends hop rfl rfl,
    exec_frameRow_ends hop rfl rfl⟩
  exact decide_eq_true rfl

/-! ## Results without a transaction -/

/-- An operation that only presents a result. -/
theorem finish_ended (r : Result) (s : State) : Ended s r [] 0 (finish r s) :=
  ⟨s.freeIx, by rw [finish_eq, List.append_nil, List.drop_zero]⟩

theorem finish_begin (r : Result) (op : HostOp) (s : State) : finish r (begin op s) = finish r s := by
  rw [finish_eq, finish_eq, begin_eq]

theorem ackedBy_eq_true (x : Transceived) : ackedBy x = true ↔ Acked x := by
  obtain ⟨_ | ⟨d, rest⟩, v⟩ := x <;> simp [ackedBy, Acked]

/-- Settles O16: the test is the rule's, and the response of the row passes it. -/
theorem acknowledgementTest : Obligations.AcknowledgementTest := by
  unfold Obligations.AcknowledgementTest
  exact ⟨ackedBy_eq_true, fun s hop => ⟨_, accept_idle hop rfl _, finish_ended _ s⟩⟩

/-- Settles O17: both present what the four bytes decode to. -/
theorem accessBytesAreDecoded : Obligations.AccessBytesAreDecoded := by
  unfold Obligations.AccessBytesAreDecoded
  intro s x0 x1 x2 x3 hop
  refine ⟨_, _, _, accept_idle hop rfl _, ?_, finish_ended _ s⟩
  refine (accept_idle (i := .decode [x0, x1, x2, x3]) hop rfl _).trans ?_
  exact congrArg Host.Outcome.next (finish_begin _ .decode s)

/-! ## The bits of `encode` -/

/-- Bit `k` of a low nibble. -/
theorem nibbles_bit_low (lo hi : BitVec 4) (k : Fin 4) : (nibbles lo hi).getLsbD k = lo.getLsbD k := by
  have hk : k.val < 8 := by omega
  simp [nibbles, hk]

/-- Bit `k` of a high nibble. -/
theorem nibbles_bit_high (lo hi : BitVec 4) (k : Fin 4) : (nibbles lo hi).getLsbD (k + 4) = hi.getLsbD k := by
  have hk4 : k.val + 4 < 8 := by omega
  simp [nibbles, hk4]

theorem not_nibble_bit (v : BitVec 4) (k : Fin 4) : (~~~v).getLsbD k = !v.getLsbD k := by simp

/-- Bit `k` of `getBit` is that bit of code `k` (43_access_codec R141). -/
theorem getBitOf_bit (b : BlocksAccess) (n : Nat) (k : Fin 4) :
    (getBitOf b n).getLsbD k = ([b.b0, b.b1, b.b2, b.b3].getD k 0#8).getLsbD (n - 1) := by
  fin_cases k <;> simp [getBitOf, bitAt]

theorem exec_encode {b : BlocksAccess} (hop : s.pc.op = none) (hb : b.inRange = true) :
    exec (.encode b) s =
      .next (finish (.encoded (encodeAccess b).1 (encodeAccess b).2.1 (encodeAccess b).2.2.1 (encodeAccess b).2.2.2) s) :=
  (accept_idle (i := .encode b) hop hb _).trans (congrArg Host.Outcome.next (finish_begin _ .encode s))

/-- Settles O43: each byte is two nibbles, and each nibble holds one bit of the four codes. -/
theorem encodeCompletes : Obligations.EncodeCompletes := by
  unfold Obligations.EncodeCompletes
  intro s b hop hb
  refine ⟨_, _, _, _, _, exec_encode hop hb, finish_ended _ s, fun k => ?_, rfl⟩
  simp only [encodeAccess, nibbles_bit_low, nibbles_bit_high, not_nibble_bit, getBitOf_bit, and_self]

end Sys2Proof.Safety
end

section
/-! SUPPORT. CommandTransceiver (40_transceiver): a bounded poll by its last read, what a run of R90 is from its error checks on,
and `execute` as such a run with its outcome presented. -/

namespace Sys2Proof.Safety

open Sys2Proof.Machine

variable {p : Params} {c : ChipCommand} {d vs : List Byte} {rows : List Row} {out : Except ErrKind Transceived}
  {s s' t t' : State}

/-- Settles O18: the five rows of the table. -/
theorem masksOfCommands : Obligations.MasksOfCommands := by
  unfold Obligations.MasksOfCommands
  exact ⟨rfl, rfl, rfl, rfl, rfl⟩

/-! ## A bounded poll -/

theorem polled_iter (r : Reg) (mask : Byte) (s : State) : (polled r mask s).pc.iter = s.pc.iter + 1 := by
  simp only [polled, regRead, regReadAt_state_eq]; rfl

/-- A poll loop ends with an iteration in a state `u`, reached by reads none of which meets the stop mask; it is the last that
the bound allows, if it does not meet the mask either. -/
theorem pollLoop_last (r : Reg) (mask : Byte) (n : Nat) (s : State) :
    ∃ (early : List Byte) (u : State), Runs s (early.map (.rd r)) u ∧ u.pc.iter = s.pc.iter + early.length ∧
      (∀ v ∈ early, v &&& mask = 0#8) ∧ early.length ≤ n ∧ (anySet (regRead r u).1 mask = false → early.length = n) ∧
      pollLoop r mask (n + 1) s = (anySet (regRead r u).1 mask, polled r mask u) := by
  induction n generalizing s with
  | zero =>
    refine ⟨[], s, .refl s, rfl, nofun, le_rfl, fun _ => rfl, ?_⟩
    rw [pollLoop_succ, if_pos rfl]
    cases anySet (regRead r s).1 mask <;> rfl
  | succ n ih =>
    rw [pollLoop_succ, if_neg n.succ_ne_zero]
    cases hm : anySet (regRead r s).1 mask with
    | true => exact ⟨[], s, .refl s, rfl, nofun, Nat.zero_le _, by simp [hm], by simp [hm]⟩
    | false =>
      obtain ⟨early, u, hu, hi, he, hl, hx, hp⟩ := ih ((polled r mask s).setPc
        ⟨(polled r mask s).pc.op, (polled r mask s).pc.phase - 1, (polled r mask s).pc.iter⟩)
      refine ⟨(regRead r s).1 :: early, u, ((polled_runs r mask s).setPc _ _).trans hu, ?_, ?_, ?_, ?_, hp⟩
      · rw [hi, State.setPc_pc, polled_iter, List.length_cons]; omega
      · exact List.forall_mem_cons.2 ⟨anySet_eq_false.1 hm, he⟩
      · exact Nat.succ_le_succ hl
      · exact fun h => congrArg (· + 1) (hx h)

/-- Settles O19: with bound 0 nothing is read, and otherwise the reads are those before the last iteration and its own. -/
theorem pollStopsAtTheFirstMatch : Obligations.PollStopsAtTheFirstMatch := by
  unfold Obligations.PollStopsAtTheFirstMatch
  intro r mask bound s
  have h0 := ((Runs.refl s).setWork { s.work with matched := some false }).setPc (s.pc.phase + 1) 0
  rw [poll_eq]
  cases bound with
  | zero => exact ⟨[], h0, rfl, le_rfl, nofun, rfl, nofun, nofun, fun _ => ⟨rfl, nofun⟩⟩
  | succ n =>
    obtain ⟨early, u, hu, hi, he, hl, hx, hp⟩ := pollLoop_last r mask n
      ((s.setWork { s.work with matched := some false }).setPc ⟨s.pc.op, s.pc.phase + 1, 0⟩)
    have hlen : (early ++ [(regRead r u).1]).length = early.length + 1 := List.length_append
    rw [hp]
    refine ⟨early ++ [(regRead r u).1], ?_, ?_, ?_, ?_, rfl, ?_, fun hm => ?_, fun hm => ?_⟩
    · rw [List.map_append]; exact (h0.trans hu).trans (polled_runs r mask u)
    · rw [polled_iter, hi, hlen, State.setPc_pc, Nat.zero_add]
    · omega
    · omega
    · exact fun _ => List.getLast?_concat.symm
    · exact ⟨early, _, rfl, he, anySet_eq_true.1 hm, by omega⟩
    · exact ⟨by rw [hlen, hx hm], List.forall_mem_append.2 ⟨he, by simpa using anySet_eq_false.1 hm⟩⟩

/-! ## The runs of R90 -/

theorem PollMatched.length_pos {mask : Byte} {n : Nat} (h : PollMatched mask n vs) : 1 ≤ vs.length := by
  obtain ⟨early, v, rfl, -⟩ := h; simp

theorem PollMatched.length_le {mask : Byte} {n : Nat} (h : PollMatched mask n vs) : vs.length ≤ n := by
  obtain ⟨_, _, -, -, -, h⟩ := h; exact h

theorem PollMatched.not_exhausted {mask : Byte} {n : Nat} (h : PollMatched mask n vs) : ¬ PollExhausted mask n vs := by
  obtain ⟨early, v, rfl, -, hv, -⟩ := h
  exact fun hx => hv (hx.2 v (by simp))

/-- A run of R90 from its two error checks on (R96, R97): the poll ran out and nothing follows; or the error register is read,
with a bit of 0x1B and then nothing, or with none and then a value. -/
theorem ExecuteRun.checks (h : ExecuteRun p c d vs rows out) :
    ∃ a1 a2 a3 a4 tail, rows = executePolledRows p c d a1 a2 a3 vs a4 ++ tail ∧
      (PollExhausted ((masks c).2 ||| 0x01#8) 2000 vs ∧ out = .error .timeoutError ∧ tail = [] ∨
        PollMatched ((masks c).2 ||| 0x01#8) 2000 vs ∧ ∃ e more, tail = .rd .error e :: more ∧
          (e &&& 0x1B#8 ≠ 0#8 ∧ out = .error .protocolError ∧ more = [] ∨ e &&& 0x1B#8 = 0#8 ∧ ∃ r, out = .ok r)) := by
  cases h with
  | timeout a1 a2 a3 a4 _ hv => exact ⟨a1, a2, a3, a4, [], (List.append_nil _).symm, .inl ⟨hv, rfl, rfl⟩⟩
  | protocol a1 a2 a3 a4 e _ hv he => exact ⟨a1, a2, a3, a4, _, rfl, .inr ⟨hv, e, [], rfl, .inl ⟨he, rfl, rfl⟩⟩⟩
  | received a1 a2 a3 a4 e _ _ _ _ _ hv he =>
    exact ⟨a1, a2, a3, a4, _, List.append_assoc _ _ _, .inr ⟨hv, e, _, rfl, .inr ⟨he, _, rfl⟩⟩⟩
  | other a1 a2 a3 a4 e _ _ hv he => exact ⟨a1, a2, a3, a4, _, rfl, .inr ⟨hv, e, [], rfl, .inr ⟨he, _, rfl⟩⟩⟩

/-- The rows up to the clearing of the start-send bit (R102). -/
theorem executePolledRows_length (p : Params) (c : ChipCommand) (d : List Byte) (a1 a2 a3 : Byte) (vs : List Byte) (a4 : Byte) :
    (executePolledRows p c d a1 a2 a3 vs a4).length = d.length + vs.length + if c = .transceive then 11 else 9 := by
  simp only [executePolledRows, executeStartRows, clearRows, setRows, fifoRows, List.length_append, List.length_map,
    List.length_cons, List.length_nil]
  split_ifs <;> simp only [List.length_cons, List.length_nil] <;> omega

theorem ExecuteRun.timeout_reads (h : ExecuteRun p c d vs rows (.error .timeoutError)) : vs.length = 2000 := by
  cases h with
  | timeout _ _ _ _ _ hv => exact hv.1

/-- The transactions of an `execute` after the start-send bit is cleared, by its outcome (R97 to R100). -/
def rowsAfterPoll (c : ChipCommand) : Except ErrKind Transceived → Nat
  | .error .timeoutError => 0
  | .error _ => 1
  | .ok r => if c = .transceive then r.data.length + 3 else 1

/-- The number of rows of a run of R90 (R102). -/
theorem ExecuteRun.length (h : ExecuteRun p c d vs rows out) :
    rows.length = (d.length + vs.length + if c = .transceive then 11 else 9) + rowsAfterPoll c out := by
  cases h with
  | timeout => rw [executePolledRows_length]; rfl
  | protocol => rw [List.length_append, executePolledRows_length]; rfl
  | received _ _ _ _ _ _ _ _ data hc =>
    simp only [List.length_append, executePolledRows_length, List.length_map, rowsAfterPoll, if_pos hc, List.length_cons,
      List.length_nil]
    omega
  | other _ _ _ _ _ _ hc =>
    rw [List.length_append, executePolledRows_length, rowsAfterPoll, if_neg hc, if_neg hc]; rfl

/-! ## execute, requested by the host -/

/-- A run of an operation with an outcome, presented. -/
theorem Runs.presented {α : Type} {op : HostOp} {r : Res α} (h : Runs (begin op s) rows r.state) (f : α → Result) :
    EndsWith s (resultOf f (outcome r)) rows (present f r) := by
  cases r <;> exact Runs.ended_begin h _

/-- `execute` is a run of R90 with its outcome presented. -/
theorem exec_execute_ends (c : ChipCommand) (d : List Byte) (hop : s.pc.op = none) :
    ∃ vs rows out t, ExecuteRun s.params c d vs rows out ∧ exec (.execute c d) s = .next t ∧
      EndsWith s (resultOf .transceived out) rows t := by
  obtain ⟨vs, rows, hr, hs⟩ := executeBody_runs c d (begin .execute s)
  exact ⟨vs, rows, _, _, hr, accept_idle (i := .execute c d) hop rfl _, hs.presented .transceived⟩

theorem EndsWith.result {r : Result} (h : EndsWith s r rows t) : t.result = some r := by
  obtain ⟨_, -, -, _, rfl⟩ := h; rfl

theorem resultOf_transceived {r : Transceived} (h : resultOf .transceived out = .transceived r) : out = .ok r := by
  cases out <;> cases h; rfl

theorem resultOf_error {e : ErrKind} (h : resultOf .transceived out = .error e) : out = .error e := by
  cases out <;> cases h; rfl

/-- Settles O20: `executeBody_runs`, and what is presented at its end. -/
theorem executeCompletes : Obligations.ExecuteCompletes := by
  unfold Obligations.ExecuteCompletes
  intro c d s hop
  obtain ⟨vs, rows, out, t, hr, ht, he⟩ := exec_execute_ends c d hop
  exact ⟨vs, rows, out, t, hr, ht, fun _ h => by subst h; exact he, fun _ h => by subst h; exact he⟩

/-- Settles O21: the three ways of `ExecuteRun.checks`. -/
theorem executeErrorChecks : Obligations.ExecuteErrorChecks := by
  unfold Obligations.ExecuteErrorChecks
  intro c d s hop
  obtain ⟨vs, rows, out, t, hr, ht, he⟩ := exec_execute_ends c d hop
  obtain ⟨a1, a2, a3, a4, tail, rfl, ⟨hx, rfl, rfl⟩ | ⟨hm, e, more, rfl, h⟩⟩ := hr.checks
  · exact ⟨a1, a2, a3, a4, vs, [], _, t, ht, he, by rw [hx.1]; omega, hx.1.le, ⟨fun _ => hx, fun _ => rfl⟩, fun _ => rfl,
      fun hne => absurd rfl hne, fun e h => by cases h; exact .inl rfl⟩
  · have hnx : ¬ (vs.length = 2000 ∧ ∀ v ∈ vs, v &&& ((masks c).2 ||| 0x01#8) = 0#8) := hm.not_exhausted
    refine ⟨a1, a2, a3, a4, vs, _, _, t, ht, he, hm.length_pos, hm.length_le, ?_⟩
    rcases h with ⟨hb, rfl, rfl⟩ | ⟨hb, r, rfl⟩
    · exact ⟨⟨nofun, fun h => absurd h hnx⟩, nofun, fun _ => ⟨e, [], rfl, ⟨fun _ => hb, fun _ => rfl⟩, fun _ => rfl⟩,
        fun e h => by cases h; exact .inr rfl⟩
    · exact ⟨⟨nofun, fun h => absurd h hnx⟩, nofun, fun _ => ⟨e, more, rfl, ⟨nofun, fun h => absurd hb h⟩, nofun⟩, nofun⟩

/-- Settles O22: a transaction a row. -/
theorem executeCounts : Obligations.ExecuteCounts := by
  unfold Obligations.ExecuteCounts
  intro c d s hop
  obtain ⟨vs, rows, out, t, hr, ht, he⟩ := exec_execute_ends c d hop
  have hres := he.result
  obtain ⟨xs, hx, -, _, hxs⟩ := he
  have hlen := hx.length_eq.symm.trans hr.length
  refine ⟨vs, rows, out, xs, t, hr, hx, ht, by rw [hxs], fun r h => ?_, fun h => ?_, fun h => ?_⟩
  · obtain rfl := resultOf_transceived (Option.some.inj (hres.symm.trans h))
    rw [hlen, rowsAfterPoll]; split_ifs <;> omega
  · obtain rfl := resultOf_error (Option.some.inj (hres.symm.trans h))
    rw [hlen]; split_ifs <;> rfl
  · obtain rfl := resultOf_error (Option.some.inj (hres.symm.trans h))
    rw [hlen, hr.timeout_reads]; split_ifs <;> rfl

/-- The value a run of R90 answers: for Transceive, the bytes received and the count of their valid bits (R98 to R101). -/
theorem ExecuteRun.value {r : Transceived} (h : ExecuteRun p c d vs rows (.ok r)) :
    c ≠ .transceive ∧ r = ⟨[], none⟩ ∨
      c = .transceive ∧ 1 ≤ r.data.length ∧ r.data.length ≤ 16 ∧ ∃ lastBits, lastBits ≤ 7 ∧
        r.validBits = some (if lastBits = 0 then r.data.length * 8 else (r.data.length - 1) * 8 + lastBits) := by
  cases h with
  | other _ _ _ _ _ _ hc => exact .inl ⟨hc, rfl⟩
  | received _ _ _ _ _ level control _ data hc _ _ hn =>
    refine .inr ⟨hc, ?_, ?_, (control &&& 0x07#8).toNat, Nat.and_le_right, ?_⟩
    · show 1 ≤ data.length
      omega
    · show data.length ≤ 16
      omega
    · simp only [← BitVec.toNat_inj, BitVec.toNat_ofNat, Nat.zero_mod]

/-- Settles O23: the count is a multiple of 8 just when no last bits are given. -/
theorem receivedLengths : Obligations.ReceivedLengths := by
  unfold Obligations.ReceivedLengths
  intro c d s t r hx hres
  obtain ⟨hop, -⟩ := admitted_next (i := .execute c d) hx
  obtain ⟨vs, rows, out, t', hr, ht, he⟩ := exec_execute_ends c d hop
  obtain rfl := Host.Outcome.next.inj (hx.symm.trans ht)
  obtain rfl := resultOf_transceived (Option.some.inj (he.result.symm.trans hres))
  obtain ⟨hc, rfl⟩ | ⟨rfl, h1, h16, lastBits, hl, hv⟩ := hr.value
  · exact ⟨fun _ => rfl, fun h => absurd h hc⟩
  · refine ⟨fun h => absurd rfl h, fun _ => ⟨h1, h16, _, lastBits, rfl, hl, hv, ?_⟩⟩
    simp only [hv, Option.some.injEq]
    split_ifs <;> omega

/-- The state `s` once an operation has ended in it, with the result `r`, the transactions `xs` made, and the answers `as` and
the free values from `k` on still to come. -/
def endedState (s : State) (r : Result) (xs : List Xfer) (as : List Byte) (k : Nat) : State :=
  { s with
    pc := Pc.idle
    work := Work.empty
    job := none
    result := some r
    trace := s.trace ++ xs
    answers := as
    freeIx := k }

/-- Two runs in parallel from the start of an operation, each ended. -/
theorem Par.ended {op : HostOp} (h : Par (begin op s) (begin op s') t t') (r : Result) :
    ∃ xs as k, finish r t = endedState s r xs as k ∧ finish r t' = endedState s' r xs as k := by
  obtain ⟨xs, as, k, _, _, _, _, _, _, rfl, rfl⟩ := h
  exact ⟨xs, as, k, by rw [finish_eq, begin_eq, endedState], by rw [finish_eq, begin_eq, endedState]⟩

/-- `execute` by its program. -/
theorem exec_execute (c : ChipCommand) (d : List Byte) (hop : s.pc.op = none) :
    exec (.execute c d) s =
      .next (finish (resultOf .transceived ((executeProg c d).run (begin .execute s)).1)
        ((executeProg c d).run (begin .execute s)).2) :=
  (accept_idle (i := .execute c d) hop rfl _).trans (congrArg Host.Outcome.next (present_of _ _))

/-- `execute` is a program with quiet acts: from two idle states with the same parameters and answers it does the same. -/
theorem exec_execute_agree (c : ChipCommand) (d : List Byte) (ha : Agree s s') (hop : s.pc.op = none)
    (hop' : s'.pc.op = none) :
    ∃ r xs as k, exec (.execute c d) s = .next (endedState s r xs as k) ∧
      exec (.execute c d) s' = .next (endedState s' r xs as k) := by
  have hb : Agree (begin .execute s) (begin .execute s') := ha
  obtain ⟨hv, hp⟩ := run_par (executeProg_quiet c d) (.refl hb) hb
  obtain ⟨xs, as, k, ht, ht'⟩ := hp.ended (resultOf .transceived ((executeProg c d).run (begin .execute s)).1)
  rw [exec_execute c d hop, exec_execute c d hop', ← hv, ht, ht']
  exact ⟨_, xs, as, k, rfl, rfl⟩

/-- Settles O24: the two states have the same parameters and answers. -/
theorem executeIgnoresTheSession : Obligations.ExecuteIgnoresTheSession := by
  unfold Obligations.ExecuteIgnoresTheSession
  intro c d s ps k au u ky cf w sg hop
  obtain ⟨r, xs, as, n, h, h'⟩ := exec_execute_agree c d (s := s)
    (s' := { s with pstate := ps, sector := k, authd := au, uid := u, key := ky, cfg := cf, watch := w, signal := sg })
    ⟨rfl, rfl, rfl⟩ hop hop
  exact ⟨_, h, ⟨rfl, rfl, rfl, rfl, rfl, rfl, rfl, rfl⟩, h'⟩

end Sys2Proof.Safety
end

section
/-! SUPPORT. CrcEngine (41_crc): `computeCrc` as a run of R105 with its outcome presented, and the number of its transactions. -/

namespace Sys2Proof.Safety

open Sys2Proof.Machine

variable {p : Params} {d vs : List Byte} {rows : List Row} {out : Except ErrKind (Byte × Byte)} {s : State}

/-! ## The runs of R105 -/

/-- The poll of R105 makes 1 to 255 reads (41_crc R107). -/
theorem CrcRun.reads (h : CrcRun p d vs rows out) : 1 ≤ vs.length ∧ vs.length ≤ 255 := by
  have hall (hv : PollExhausted 0x04#8 255 vs) : 1 ≤ vs.length ∧ vs.length ≤ 255 := by rw [hv.1]; decide
  cases h with
  | timeout _ _ _ hv => exact hall hv
  | result _ _ _ _ _ hv =>
    rcases hv with hm | ⟨hv, -⟩
    · exact ⟨hm.length_pos, hm.length_le⟩
    · exact hall hv

/-- The rows up to the end of the poll: five, one a byte written and one a poll read (41_crc R106, R107). -/
theorem crcPolledRows_length (p : Params) (d : List Byte) (a1 a2 : Byte) (vs : List Byte) :
    (crcPolledRows p d a1 a2 vs).length = d.length + vs.length + 5 := by
  simp only [crcPolledRows, clearRows, setRows, fifoRows, List.length_append, List.length_map, List.length_cons,
    List.length_nil]
  omega

/-- A run of R105 that answers an error ran out of its 255 reads in the typed mode and read no result register (R108). -/
theorem CrcRun.error_length {e : ErrKind} (h : CrcRun p d vs rows (.error e)) :
    e = .timeoutError ∧ p.crcTimeoutMode = .typed ∧ rows.length = d.length + 260 := by
  cases h with
  | timeout _ _ _ hv hm => exact ⟨rfl, hm, by rw [crcPolledRows_length, hv.1]⟩

/-- A run of R105 that answers a value read the two result registers after its poll (R109). -/
theorem CrcRun.ok_length {c : Byte × Byte} (h : CrcRun p d vs rows (.ok c)) : rows.length = d.length + vs.length + 7 := by
  cases h with
  | result => rw [List.length_append, crcPolledRows_length]; rfl

/-- In the stale mode every run of R105 answers a value (R108). -/
theorem CrcRun.stale_length (h : CrcRun p d vs rows out) (hm : p.crcTimeoutMode = .stale) :
    rows.length = d.length + vs.length + 7 := by
  cases out with
  | ok c => exact h.ok_length
  | error e =>
    obtain ⟨-, htyped, -⟩ := h.error_length
    exact absurd (hm.symm.trans htyped) nofun

/-! ## computeCrc, requested by the host -/

/-- The two bytes of a CRC as the result presented, low first (41_crc R109). -/
def crcResultOf (c : Byte × Byte) : Result := .crc c.1 c.2

theorem resultOf_crc {low high : Byte} (h : resultOf crcResultOf out = .crc low high) : out = .ok (low, high) := by
  cases out <;> cases h; rfl

theorem resultOf_crc_error {e : ErrKind} (h : resultOf crcResultOf out = .error e) : out = .error e := by
  cases out <;> cases h; rfl

/-- `computeCrc` is a run of R105 with its outcome presented. -/
theorem exec_computeCrc_ends (d : List Byte) (hop : s.pc.op = none) :
    ∃ vs rows out t, CrcRun s.params d vs rows out ∧ exec (.computeCrc d) s = .next t ∧
      EndsWith s (resultOf crcResultOf out) rows t := by
  obtain ⟨vs, rows, hr, hs⟩ := computeCrcBody_runs d (begin .computeCrc s)
  exact ⟨vs, rows, _, _, hr, accept_idle (i := .computeCrc d) hop rfl _, hs.presented crcResultOf⟩

/-- Settles O25: `computeCrcBody_runs`, and what is presented at its end. -/
theorem computeCrcCompletes : Obligations.ComputeCrcCompletes := by
  unfold Obligations.ComputeCrcCompletes
  intro d s hop
  obtain ⟨vs, rows, out, t, hr, ht, he⟩ := exec_computeCrc_ends d hop
  exact ⟨vs, rows, out, t, hr, ht, fun _ _ h => by subst h; exact he, fun _ h => by subst h; exact he⟩

/-- Settles O26: a transaction a row, and the rows counted by the outcome. -/
theorem computeCrcCounts : Obligations.ComputeCrcCounts := by
  unfold Obligations.ComputeCrcCounts
  intro d s hop
  obtain ⟨vs, rows, out, t, hr, ht, he⟩ := exec_computeCrc_ends d hop
  have hres := he.result
  obtain ⟨xs, hx, -, _, hxs⟩ := he
  obtain ⟨hpos, hle⟩ := hr.reads
  refine ⟨vs, rows, out, xs, t, hr, hx, ht, by rw [hxs], hpos, hle, ?_, fun low high h => ?_, fun e h => ?_⟩
  all_goals rw [← hx.length_eq]
  · exact hr.stale_length
  · obtain rfl := resultOf_crc (Option.some.inj (hres.symm.trans h))
    exact hr.ok_length
  · obtain rfl := resultOf_crc_error (Option.some.inj (hres.symm.trans h))
    obtain ⟨htimeout, -, hlen⟩ := hr.error_length
    exact ⟨htimeout, hlen⟩

end Sys2Proof.Safety
end

section
/-! SUPPORT. Block addresses (42_card_session R127), and when an operation of CardSession is admitted (R114). -/

namespace Sys2Proof.Safety

open Sys2Proof.Machine

variable {s t : State} {op : HostOp} {block : Byte} {body : Out} {c : Bool}

/-! ## Block addresses -/

theorem sectorOf_toNat (block : Byte) : (sectorOf block).toNat = block.toNat / 4 := by
  have := block.isLt
  rw [sectorOf_eq, BitVec.toNat_ofNat, Nat.mod_eq_of_lt (by omega)]

/-- Settles O41: quotient and remainder by 4, and the index of a data block is below 3. -/
theorem blockAddressing : Obligations.BlockAddressing := by
  unfold Obligations.BlockAddressing
  refine ⟨fun block => ⟨sectorOf_toNat block, rfl, ?_⟩, fun sector k => ⟨rfl, rfl, ?_, fun sector' => ?_⟩⟩
  · rw [sectorOf_toNat, indexOf]; omega
  · rw [dataBlockAddress]; omega
  · rw [dataBlockAddress, trailerAddress]; omega

/-! ## Preconditions -/

theorem require_admits (h : c = true) : require op c body = body := by rw [require, if_pos h]

theorem require_refuses (h : c = false) : require op c body = .refused (.precondition op) := by
  rw [require, h]; rfl

theorem inSector_admits (hp : s.pstate = .authenticated) (hk : s.sector = some (sectorOf block)) :
    inSector op block s body = body := by
  simp [inSector, hp, hk]

theorem inSector_refuses
    (h : s.pstate ≠ .authenticated ∨ ∃ k : BitVec 6, s.sector = some k ∧ k.toNat ≠ block.toNat / 4) :
    inSector op block s body = .refused (.precondition op) := by
  by_cases hp : s.pstate = .authenticated
  · obtain ⟨k, hk, hne⟩ := h.resolve_left (not_not_intro hp)
    have hsector : k ≠ sectorOf block := fun he => hne (he ▸ sectorOf_toNat block)
    simp [inSector, hp, hk, hsector]
  · simp [inSector, hp]

/-- `readBlock` and `writeBlock` answer a next state only in the session of the block's sector. -/
theorem inSector_next (h : inSector op block s body = .next t) :
    s.pstate = .authenticated ∧ s.sector = some (sectorOf block) := by
  unfold inSector at h
  split at h
  next hp =>
    split at h
    next => cases h
    next k hk =>
      split at h
      next he => exact ⟨hp, he ▸ hk⟩
      next => cases h
  next => cases h

/-- Settles O36: each precondition is the one R114 gives its operation. -/
theorem preconditionsAreRefused : Obligations.PreconditionsAreRefused := by
  unfold Obligations.PreconditionsAreRefused
  refine fun s mode block key uid data hop => ⟨fun h => ?_, fun h => ?_, fun h => ?_, fun h => ?_, fun h => ?_, fun h => ⟨?_, ?_⟩⟩
  · exact (accept_idle (i := .init) hop rfl _).trans (require_refuses (beq_false_of_ne h))
  · exact (accept_idle (i := .request) hop rfl _).trans
      (require_refuses (Bool.and_eq_false_iff.2 (h.imp beq_false_of_ne beq_false_of_ne)))
  · exact (accept_idle (i := .antiCollision) hop rfl _).trans (require_refuses (beq_false_of_ne h))
  · exact (accept_idle (i := .selectTag uid) hop rfl _).trans (require_refuses (beq_false_of_ne h))
  · exact (accept_idle (i := .authenticate mode block key uid) hop rfl _).trans (require_refuses (beq_false_of_ne h))
  · exact (accept_idle (i := .readBlock block) hop rfl _).trans (inSector_refuses h)
  · exact (accept_idle (i := .writeBlock block data) hop rfl _).trans (inSector_refuses h)

end Sys2Proof.Safety
end

section
/-! SUPPORT. CardSession (42_card_session): each operation as a run on the bus, what its outcome does to the session registers, and the
whole of it as exec gives it. -/

namespace Sys2Proof.Safety

open Sys2Proof.Machine

variable {s t u : State} {rows : List Row}

/-! ## init and stopCrypto -/

/-- `init` by the byte of TXCONTROL (42_card_session R117). -/
theorem initBody_runs (s : State) : ∃ v u,
    Runs s (initRows ++ [.rd .txControl v] ++ (if v &&& 0x03#8 = 0x03#8 then [] else [.wr .txControl (v ||| 0x03#8)])) u ∧
      initBody s = u.setCfg .ready := by
  have h : Runs s (initRows ++ _) _ := (writeAll_runs initWrites s).thenRead .txControl
  simp only [initBody_eq, rfOnBits]
  refine ⟨(regRead .txControl (writeAll initWrites s)).1, ?_⟩
  by_cases hv : (regRead .txControl (writeAll initWrites s)).1 &&& 0x03#8 = 0x03#8
  · refine ⟨_, ?_, if_pos hv⟩
    rw [if_pos hv, List.append_nil]
    exact (h.setWork _).advance.advance
  · refine ⟨_, ?_, if_neg hv⟩
    rw [if_neg hv]
    exact ((h.setWork _).advance.thenWrite .txControl _).advance

/-- Settles O28: the six writes, the read of TXCONTROL, and the write of it or none. -/
theorem initCompletes : Obligations.InitCompletes := by
  unfold Obligations.InitCompletes
  intro s hop hc
  obtain ⟨v, u, hu, he⟩ := initBody_runs (begin .init s)
  refine ⟨v, _, (accept_idle (i := .init) hop rfl _).trans (require_admits (beq_iff_eq.2 hc)), ?_⟩
  rw [he]
  exact hu.ended_update .done (State.setCfg .ready) (by intros; rfl) rfl rfl rfl

/-- Settles O35: STATUS2 read and written, and then the session cleared. -/
theorem stopCryptoCompletes : Obligations.StopCryptoCompletes := by
  unfold Obligations.StopCryptoCompletes
  intro s hop
  obtain ⟨a, u, hu, he⟩ := stopCryptoBody_runs (begin .stopCrypto s)
  refine ⟨a, _, accept_idle (i := .stopCrypto) hop rfl _, ?_⟩
  show EndsWith _ _ _ (finish _ (stopCryptoBody _))
  rw [he]
  exact hu.ended_update .done State.clearSession (by intros; rfl) rfl rfl rfl

/-! ## request and antiCollision -/

/-- A frame sent with a framing of its own. -/
theorem framedExecute_runs (v : Byte) (d : List Byte) (s : State) : ∃ vs rows,
    ExecuteRun s.params .transceive d vs rows (outcome (executeBody .transceive d (regWrite .bitFraming v s))) ∧
      Runs s (.wr .bitFraming v :: rows) (executeBody .transceive d (regWrite .bitFraming v s)).state := by
  obtain ⟨vs, rows, hr, hs⟩ := executeBody_runs .transceive d (regWrite .bitFraming v s)
  exact ⟨vs, rows, hr, (regWrite_runs .bitFraming v s).trans hs⟩

/-- `request` by the outcome of its `execute` (42_card_session R118, R129). -/
theorem requestBody_runs (s : State) : ∃ vs rows out u,
    ExecuteRun s.params .transceive reqaFrame vs rows out ∧ Runs s (.wr .bitFraming 0x07#8 :: rows) u ∧
      ((∃ r, out = .ok r ∧ r.validBits = some 16) → requestBody s = .ok () (u.setPState .requested)) ∧
      (¬ (∃ r, out = .ok r ∧ r.validBits = some 16) → requestBody s = .err .cardNotPresentError u) := by
  obtain ⟨vs, rows, hr, hs⟩ := framedExecute_runs 0x07#8 reqaFrame s
  rw [requestBody_eq]
  generalize executeBody .transceive reqaFrame (regWrite .bitFraming 0x07#8 s) = x at hr hs ⊢
  cases x with
  | err e u => exact ⟨vs, rows, _, advance u, hr, hs.advance, fun ⟨_, h, _⟩ => (by cases h), fun _ => rfl⟩
  | ok r u =>
    by_cases h16 : r.validBits = some 16
    · exact ⟨vs, rows, _, advance (advance u), hr, hs.advance.advance, fun _ => by simp [h16],
        fun h => absurd ⟨r, rfl, h16⟩ h⟩
    · exact ⟨vs, rows, _, advance u, hr, hs.advance, fun ⟨_, h, h'⟩ => (by cases h; exact absurd h' h16),
        fun _ => by simp [h16]⟩

/-- Settles O29, by `requestBody_runs`. -/
theorem requestCompletes : Obligations.RequestCompletes := by
  unfold Obligations.RequestCompletes
  intro s hop hp hc
  obtain ⟨vs, rows, out, u, hr, hu, hok, herr⟩ := requestBody_runs (begin .request s)
  refine ⟨vs, rows, out, _, hr, (accept_idle (i := .request) hop rfl _).trans (require_admits (by simp [hp, hc])),
    fun h => ?_, fun h => ?_⟩
  · rw [hok h]
    exact hu.ended_update .done (State.setPState .requested) (by intros; rfl) rfl rfl rfl
  · rw [herr h]
    exact hu.ended_begin _

theorem length_of_acceptedUid {l : List Byte} {x : Bytes 4} (h : acceptedUid l = some x) : l.length = 5 := by
  unfold acceptedUid at h
  split at h
  · rfl
  · cases h

/-- `antiCollision` by the outcome of its `execute` (42_card_session R119, R129). -/
theorem antiCollisionBody_runs (s : State) : ∃ vs rows out u,
    ExecuteRun s.params .transceive anticollFrame vs rows out ∧ Runs s (.wr .bitFraming 0x00#8 :: rows) u ∧
      (∀ e, out = .error e → antiCollisionBody s = .err e (u.setPState .collided)) ∧
      (∀ r x, out = .ok r → acceptedUid r.data = some x →
        antiCollisionBody s = .ok x ((u.setUid (some x)).setPState .identified)) ∧
      (∀ r, out = .ok r → acceptedUid r.data = none →
        antiCollisionBody s = .err .checksumError (u.setPState .collided)) := by
  obtain ⟨vs, rows, hr, hs⟩ := framedExecute_runs 0x00#8 anticollFrame s
  rw [antiCollisionBody_eq]
  generalize executeBody .transceive anticollFrame (regWrite .bitFraming 0x00#8 s) = x at hr hs ⊢
  cases x with
  | err e u => exact ⟨vs, rows, _, advance u, hr, hs.advance, fun _ h => (by cases h; rfl), nofun, nofun⟩
  | ok r u =>
    cases hx : acceptedUid r.data with
    | some x =>
      refine ⟨vs, rows, _, advance (advance (advance (advance (advance u)))), hr, hs.advance.advance.advance.advance.advance,
        nofun, fun r' y h h' => ?_, fun r' h h' => ?_⟩ <;> cases h
      · cases hx.symm.trans h'
        simp only [length_of_acceptedUid hx, hx, ne_eq, not_true_eq_false, if_false]; rfl
      · cases hx.symm.trans h'
    | none =>
      by_cases hl : r.data.length = 5
      · refine ⟨vs, rows, _, advance (advance (advance u)), hr, hs.advance.advance.advance, nofun, fun r' y h h' => ?_,
          fun r' h h' => ?_⟩ <;> cases h
        · cases hx.symm.trans h'
        · simp only [hl, hx, ne_eq, not_true_eq_false, if_false]
      · refine ⟨vs, rows, _, advance (advance u), hr, hs.advance.advance, nofun, fun r' y h h' => ?_,
          fun r' h h' => ?_⟩ <;> cases h
        · cases hx.symm.trans h'
        · simp only [hl, ne_eq, not_false_eq_true, if_true]

/-- Settles O30, by `antiCollisionBody_runs`. -/
theorem antiCollisionCompletes : Obligations.AntiCollisionCompletes := by
  unfold Obligations.AntiCollisionCompletes
  intro s hop hp
  obtain ⟨vs, rows, out, u, hr, hu, herr, hok, hbad⟩ := antiCollisionBody_runs (begin .antiCollision s)
  have hcollided : ∀ e, EndsWith { s with pstate := .collided } (.error e) (.wr .bitFraming 0x00#8 :: rows)
      (finish (.error e) (u.setPState .collided)) := fun e =>
    hu.ended_update _ (State.setPState .collided) (by intros; rfl) rfl rfl rfl
  refine ⟨vs, rows, out, _, hr, (accept_idle (i := .antiCollision) hop rfl _).trans (require_admits (beq_iff_eq.2 hp)),
    fun e h => ?_, fun r a b c d h hd => ?_, fun r h hd => ?_⟩
  · rw [herr e h]
    exact hcollided e
  · rw [hok r _ h (by rw [hd]; exact acceptedUid_some a b c d)]
    exact hu.ended_update _ (fun u => (u.setUid (some _)).setPState .identified) (by intros; rfl) rfl rfl rfl
  · rw [hbad r h (acceptedUid_none hd)]
    exact hcollided _

/-! ## selectTag -/

/-- `selectTag` by the outcome of what it sends (42_card_session R120, R129). -/
theorem selectTagBody_runs (uid : Bytes 4) (s : State) : ∃ rows out u,
    SentWithCrc s.params (selectFrame s.params uid) rows out ∧ Runs s rows u ∧
      (∀ e, out = .error e → selectTagBody uid s = .err e u) ∧
      (∀ r, out = .ok r → selectTagBody uid s =
        .ok (if r.validBits = some 24 then r.data.headD 0#8 else 0#8) ((u.setUid (some uid)).setPState .selected)) := by
  obtain ⟨rows, hr, hs⟩ := sendWithCrc_runs (selectFrame (advance s).params uid) (advance s)
  rw [selectTagBody_eq]
  generalize sendWithCrc (selectFrame (advance s).params uid) (advance s) = x at hr hs ⊢
  have h0 : Runs s [] (advance s) := (Runs.refl s).advance
  cases x with
  | err e u => exact ⟨rows, _, u, hr, h0.trans hs, fun _ h => (by cases h; rfl), nofun⟩
  | ok r u =>
    exact ⟨rows, _, _, hr, (((h0.trans hs).advance.setWork _).advance).advance, nofun, fun _ h => (by cases h; rfl)⟩

/-- Settles O31, by `selectTagBody_runs`. -/
theorem selectTagCompletes : Obligations.SelectTagCompletes := by
  unfold Obligations.SelectTagCompletes
  intro s uid hop hp
  obtain ⟨rows, out, u, hr, hu, herr, hok⟩ := selectTagBody_runs uid (begin .selectTag s)
  have hselected : ∀ b, EndsWith { s with pstate := .selected, uid := some uid } (.blocks b) rows
      (finish (.blocks b) ((u.setUid (some uid)).setPState .selected)) := fun b =>
    hu.ended_update _ (fun u => (u.setUid (some uid)).setPState .selected) (by intros; rfl) rfl rfl rfl
  refine ⟨rows, out, _, hr, (accept_idle (i := .selectTag uid) hop rfl _).trans (require_admits (beq_iff_eq.2 hp)),
    fun e h => ?_, fun r b rest h hd hv => ?_, fun r h hv => ?_⟩
  · rw [herr e h]
    exact hu.ended_begin _
  · rw [hok r h, if_pos hv, hd]
    exact hselected b
  · rw [hok r h, if_neg hv]
    exact hselected 0#8

/-! ## authenticate -/

/-- The result an ended operation presents is the one it is ended with. -/
theorem EndsWith.represent {r : Result} (h : EndsWith s r rows (finish r u)) (r' : Result) :
    EndsWith s r' rows (finish r' u) := by
  obtain ⟨xs, hx, hs, k, he⟩ := h
  exact ⟨xs, hx, hs, k, congrArg (State.setResult (some r')) he⟩

/-- A run of an operation, teardown, and the end, whatever is presented. -/
theorem Runs.ended_teardown_any {op : HostOp} (h : Runs (begin op s) rows u) :
    ∃ a, ∀ r, EndsWith (torn s) r (rows ++ teardownRows s.params a) (finish r (teardown u)) := by
  obtain ⟨a, ha⟩ := h.ended_teardown .done
  exact ⟨a, ha.represent⟩

/-- `authenticate` by the outcome of its `execute` and the byte of STATUS2 (42_card_session R121, R133). -/
theorem authenticateBody_runs (mode block : Byte) (key : Bytes 6) (uid : Bytes 4) (s : State) : ∃ vs rows out a u,
    ExecuteRun s.params .authenticate (authFrame mode block key uid) vs rows out ∧
      (∀ e, out = .error e → Runs s rows u ∧ authenticateBody mode block key uid s = (.readFailure, teardown u)) ∧
      (∀ r, out = .ok r → Runs s (rows ++ [.rd .status2 a]) u ∧
        (AuthRejected s.params a → authenticateBody mode block key uid s = (.failure, teardown u)) ∧
        (¬ AuthRejected s.params a → authenticateBody mode block key uid s = (.ok, u.openSession block key))) := by
  obtain ⟨vs, rows, hr, hs⟩ := executeBody_runs .authenticate (authFrame mode block key uid) (advance s)
  have h0 : Runs s [] (advance s) := (Runs.refl s).advance
  rw [authenticateBody_eq]
  generalize executeBody .authenticate (authFrame mode block key uid) (advance s) = x at hr hs ⊢
  cases x with
  | err e u => exact ⟨vs, rows, _, 0#8, advance u, hr, fun _ _ => ⟨(h0.trans hs).advance, rfl⟩, nofun⟩
  | ok r u =>
    replace hs : Runs (advance s) rows u := hs
    have hread := ((h0.trans hs).advance.thenRead .status2).setWork
      { (regRead .status2 (advance u)).2.work with t := some (regRead .status2 (advance u)).1 }
    have hparams := hread.params
    simp only []
    generalize (regRead .status2 (advance u)).2.setWork _ = v at hread hparams ⊢
    rw [hparams]
    by_cases hf : AuthRejected s.params (regRead .status2 (advance u)).1
    · exact ⟨vs, rows, _, _, v, hr, nofun, fun _ _ => ⟨hread, fun _ => if_pos ((authFailed_iff _ _).2 hf), fun h => absurd hf h⟩⟩
    · exact ⟨vs, rows, _, _, advance (advance v), hr, nofun, fun _ _ => ⟨hread.advance.advance, fun h => absurd h hf,
        fun _ => if_neg fun h => hf ((authFailed_iff _ _).1 h)⟩⟩

/-- Settles O32, by `authenticateBody_runs`. -/
theorem authenticateCompletes : Obligations.AuthenticateCompletes := by
  unfold Obligations.AuthenticateCompletes
  refine ⟨⟨rfl, rfl, rfl, rfl, rfl, rfl⟩, fun s mode block key uid hop hp => ?_⟩
  obtain ⟨vs, rows, out, a, u, hr, herr, hok⟩ := authenticateBody_runs mode block key uid (begin .authenticate s)
  have hexec : exec (.authenticate mode block key uid) s = .next (finish _ _) :=
    (accept_idle (i := .authenticate mode block key uid) hop rfl _).trans (require_admits (beq_iff_eq.2 hp))
  cases out with
  | error e =>
    obtain ⟨hu, he⟩ := herr e rfl
    obtain ⟨b, hb⟩ := hu.ended_teardown_any
    refine ⟨vs, rows, _, a, b, _, hr, hexec, fun _ _ => ?_, nofun, nofun⟩
    rw [he]
    exact hb _
  | ok r =>
    obtain ⟨hu, hrej, hopen⟩ := hok r rfl
    obtain ⟨b, hb⟩ := hu.ended_teardown_any
    refine ⟨vs, rows, _, a, b, _, hr, hexec, nofun, fun _ _ hf => ?_, fun _ _ hf => ?_⟩
    · rw [hrej hf]
      exact hb _
    · rw [hopen hf, ← sectorOf_eq]
      exact hu.ended_update _ (State.openSession block key) (by intros; rfl) rfl rfl rfl

/-! ## readBlock and writeBlock -/

/-- `readBlock` by the outcome of what it sends (42_card_session R122). -/
theorem readBlockBody_runs (block : Byte) (s : State) : ∃ rows out u,
    SentWithCrc s.params (readFrameBytes block) rows out ∧ Runs s rows u ∧
      (∀ e, out = .error e → readBlockBody block s = .err e (teardown u)) ∧
      (∀ r, out = .ok r → r.data.length = 16 → readBlockBody block s = .ok r.data u) ∧
      (∀ r, out = .ok r → r.data.length ≠ 16 → readBlockBody block s = .err .dataLengthError (teardown u)) := by
  obtain ⟨rows, hr, hs⟩ := sendWithCrc_runs (readFrameBytes block) (advance s)
  have h0 : Runs s [] (advance s) := (Runs.refl s).advance
  rw [readBlockBody_eq]
  generalize sendWithCrc (readFrameBytes block) (advance s) = x at hr hs ⊢
  cases x with
  | err e u => exact ⟨rows, _, u, hr, h0.trans hs, fun _ h => (by cases h; rfl), nofun, nofun⟩
  | ok r u =>
    by_cases h16 : r.data.length = 16
    · exact ⟨rows, _, advance (advance u), hr, (h0.trans hs).advance.advance, nofun,
        fun _ h _ => (by cases h; exact if_pos h16), fun _ h h' => (by cases h; exact absurd h16 h')⟩
    · exact ⟨rows, _, advance u, hr, (h0.trans hs).advance, nofun,
        fun _ h h' => (by cases h; exact absurd h' h16), fun _ h _ => (by cases h; exact if_neg h16)⟩

/-- Settles O33, by `readBlockBody_runs`. -/
theorem readBlockCompletes : Obligations.ReadBlockCompletes := by
  unfold Obligations.ReadBlockCompletes
  intro s block hop hp hk
  rw [← sectorOf_eq] at hk
  obtain ⟨rows, out, u, hr, hu, herr, hok, hbad⟩ := readBlockBody_runs block (begin .readBlock s)
  obtain ⟨a, ha⟩ := hu.ended_teardown_any
  refine ⟨rows, out, a, _, hr, (accept_idle (i := .readBlock block) hop rfl _).trans (inSector_admits hp hk),
    fun e h => ?_, fun r h h16 => ?_, fun r h h16 => ?_⟩
  · rw [herr e h]
    exact ha _
  · rw [hok r h h16]
    exact hu.ended_begin _
  · rw [hbad r h h16]
    exact ha _

theorem writePhase_of_ok {f : List Byte} {r : Transceived} (h : sendWithCrc f s = .ok r t) (e : ErrKind) :
    writePhase e f s = if ackedBy r then .ok () t else .err e (teardown t) := by
  rw [sendWithCrc_eq] at h
  rw [writePhase_eq]
  cases hc : computeCrcBody f s with
  | err e' u => rw [hc] at h; cases h
  | ok c u =>
    rw [hc] at h
    obtain ⟨v, hv, rfl⟩ := tested_ok h
    simp only [hv]

theorem writePhase_of_err {f : List Byte} {e' : ErrKind} (h : sendWithCrc f s = .err e' t) (e : ErrKind) :
    writePhase e f s = .err e (teardown t) := by
  rw [sendWithCrc_eq] at h
  rw [writePhase_eq]
  cases hc : computeCrcBody f s with
  | err e'' u => rw [hc] at h; cases h; rfl
  | ok c u =>
    rw [hc] at h
    obtain ⟨v, hv, rfl⟩ := tested_err h
    simp only [hv]

/-- A phase of `writeBlock` succeeds just when what it sends is acknowledged (42_card_session R123). -/
theorem writePhase_runs (e : ErrKind) (f : List Byte) (s : State) : ∃ rows out u,
    SentWithCrc s.params f rows out ∧ Runs s rows u ∧
      ((∃ r, out = .ok r ∧ Acked r) → writePhase e f s = .ok () u) ∧
      (¬ (∃ r, out = .ok r ∧ Acked r) → writePhase e f s = .err e (teardown u)) := by
  obtain ⟨rows, hr, hs⟩ := sendWithCrc_runs f s
  refine ⟨rows, _, _, hr, hs, ?_⟩
  cases hx : sendWithCrc f s with
  | err e' u => exact ⟨fun ⟨_, h, _⟩ => (by cases h), fun _ => writePhase_of_err hx e⟩
  | ok r u =>
    rw [writePhase_of_ok hx e]
    exact ⟨fun ⟨_, h, ha⟩ => (by cases h; exact if_pos ((ackedBy_eq_true r).2 ha)),
      fun h => if_neg fun ha => h ⟨r, rfl, (ackedBy_eq_true r).1 ha⟩⟩

/-- Settles O34: `writePhase_runs` for the first phase, and for the second when the first is acknowledged. -/
theorem writeBlockCompletes : Obligations.WriteBlockCompletes := by
  unfold Obligations.WriteBlockCompletes
  intro s block data hop hp hk
  rw [← sectorOf_eq] at hk
  have h0 : Runs (begin .writeBlock s) [] (advance (begin .writeBlock s)) := (Runs.refl _).advance
  obtain ⟨rows, out, u, hr, hu, hok, herr⟩ :=
    writePhase_runs .writeNotAuthorizedError (writeFrameBytes block) (advance (begin .writeBlock s))
  replace hu := h0.trans hu
  have hexec : exec (.writeBlock block data) s = .next (present _ (writeBlockBody block data (begin .writeBlock s))) :=
    (accept_idle (i := .writeBlock block data) hop rfl _).trans (inSector_admits hp hk)
  rw [writeBlockBody_eq] at hexec
  by_cases hack : ∃ r, out = .ok r ∧ Acked r
  · obtain ⟨rows2, out2, u2, hr2, hu2, hok2, herr2⟩ := writePhase_runs .writeFailedError data.val u
    rw [hu.params] at hr2
    replace hu2 := hu.trans hu2
    obtain ⟨a, ha⟩ := hu2.ended_teardown_any
    rw [hok hack] at hexec
    refine ⟨rows, out, rows2, out2, a, _, hr, hexec, fun h => absurd hack h, fun _ => ⟨hr2, fun h => ?_, fun h => ?_⟩⟩
    · rw [bindRes, herr2 h]
      exact ha _
    · rw [bindRes, hok2 h]
      exact hu2.advance.ended_begin _
  · obtain ⟨a, ha⟩ := hu.ended_teardown_any
    rw [herr hack] at hexec
    exact ⟨rows, out, [], .error .timeoutError, a, _, hr, hexec, fun _ => ha _, fun h => absurd h hack⟩

/-! ## Teardown -/

/-- The last row of a transcript is the last transaction. -/
theorem Shows.last {p : Params} {row : Row} {xs : List Xfer} (h : Shows p (rows ++ [row]) xs) :
    ∃ x, xs.getLast? = some x ∧ row.Matches p x := by
  have h' := List.forall₂_reverse_iff.2 h
  rw [List.reverse_append] at h'
  cases hx : xs.reverse with
  | nil => rw [hx] at h'; cases h'
  | cons x ys =>
    rw [hx] at h'
    cases h' with
    | cons hm _ => exact ⟨x, by rw [← List.head?_reverse, hx]; rfl, hm⟩

/-- What teardown leaves at the end of an operation (42_card_session R125, 70_reset_and_hazards R211). -/
theorem EndsWith.finished {r : Result} {a : Byte} (h : EndsWith (torn s) r (rows ++ teardownRows s.params a) t)
    (ht : s.params.autoTeardown = true) (hw : s.watch = false) :
    Finished t ∧ ∃ v r, v &&& 0x08#8 = 0#8 ∧ t.trace.getLast? = some (writeXfer (s.params.regAddr .status2) v r) := by
  have htorn : torn s = cleared s := if_pos ht
  have hrows : rows ++ teardownRows s.params a = rows ++ [.rd .status2 a] ++ [.wr .status2 (a &&& ~~~0x08#8)] := by
    rw [teardownRows, if_pos ht, List.append_assoc]; rfl
  rw [htorn, hrows] at h
  obtain ⟨xs, hx, -, k, rfl⟩ := h
  obtain ⟨⟨b0, b1, r⟩, hlast, rfl, rfl⟩ := Shows.last hx
  refine ⟨⟨rfl, rfl, rfl, hw, rfl, rfl, rfl⟩, a &&& ~~~0x08#8, r, ?_, ?_⟩
  · rw [BitVec.and_assoc, show ~~~0x08#8 &&& 0x08#8 = 0#8 from rfl, BitVec.and_zero]
  · rw [List.getLast?_append, hlast]; rfl

/-- A result that is no error is no failure. -/
theorem not_failed {r : Result} (h : t.result = some r) (hr : resultErrKind r = none) : ¬ Failed t.result := by
  rintro ⟨x, e, hx, he⟩
  cases h.symm.trans hx
  cases hr.symm.trans he

/-- Settles O39: every error of the three ends after teardown. -/
theorem teardownOnEveryError : Obligations.TeardownOnEveryError := by
  unfold Obligations.TeardownOnEveryError
  intro s t i hi ht hw h hfail
  have hop : s.pc.op = none := exec_idle h
  rcases hi with ⟨m, b, k, u, rfl⟩ | ⟨b, rfl⟩ | ⟨b, d, rfl⟩
  · have hp : s.pstate = .selected := admitted_held (u := s) h rfl (by rw [hop]; nofun)
    obtain ⟨-, hall⟩ := authenticateCompletes
    obtain ⟨vs, rows, out, a, b, t', -, ht', herr, hrej, hok⟩ := hall s m b k u hop hp
    obtain rfl := Host.Outcome.next.inj (h.symm.trans ht')
    cases out with
    | error e => exact (herr e rfl).finished ht hw
    | ok r =>
      by_cases hf : AuthRejected s.params a
      · exact (hrej r rfl hf).finished ht hw
      · exact absurd hfail (not_failed (hok r rfl hf).result rfl)
  · obtain ⟨hp, hk⟩ := inSector_next (accept_next h).2.2
    obtain ⟨rows, out, a, t', -, ht', herr, hok, hbad⟩ := readBlockCompletes s b hop hp (by rw [hk, sectorOf_eq])
    obtain rfl := Host.Outcome.next.inj (h.symm.trans ht')
    cases out with
    | error e => exact (herr e rfl).finished ht hw
    | ok r =>
      by_cases h16 : r.data.length = 16
      · exact absurd hfail (not_failed (hok r rfl h16).result rfl)
      · exact (hbad r rfl h16).finished ht hw
  · obtain ⟨hp, hk⟩ := inSector_next (accept_next h).2.2
    obtain ⟨rows, out, rows2, out2, a, t', -, ht', hfirst, hsecond⟩ :=
      writeBlockCompletes s b d hop hp (by rw [hk, sectorOf_eq])
    obtain rfl := Host.Outcome.next.inj (h.symm.trans ht')
    by_cases hack : ∃ r, out = .ok r ∧ Acked r
    · obtain ⟨-, hbad, hok⟩ := hsecond hack
      by_cases hack2 : ∃ r, out2 = .ok r ∧ Acked r
      · exact absurd hfail (not_failed (hok hack2).result rfl)
      · exact (hbad hack2).finished ht hw
    · exact (hfirst hack).finished ht hw

end Sys2Proof.Safety
end

section
/-! SUPPORT. `selectCard` (42_card_session R126): its wait is a `wait` under another OP, its later steps run whole are the
instructions one after the other, and requested by the host they are made one at a time. -/

namespace Sys2Proof.Safety

open Sys2Proof.Machine

variable {α : Type} {s s' t u v w : State} {i : Instr} {r : Result} {rest : List Input}

/-! ## What the sequence does not look at -/

/-- `s` without what belongs to the operation in progress and what is presented: position, working registers, result, inputs,
job. -/
def bared (s : State) : State :=
  { s with pc := Pc.idle, work := Work.empty, result := none, inputs := [], job := none }

/-- An update that looks at nothing that is bared. -/
theorem bared_map {f : State → State} (hf : ∀ s, bared (f s) = bared (f (bared s))) (h : bared s = bared s') :
    bared (f s) = bared (f s') := by rw [hf, h, ← hf]

@[simp] theorem bared_advance (s : State) : bared (advance s) = bared s := rfl
@[simp] theorem bared_setPc (p : Pc) (s : State) : bared (s.setPc p) = bared s := rfl
@[simp] theorem bared_setInputs (l : List Input) (s : State) : bared (s.setInputs l) = bared s := rfl
@[simp] theorem bared_finish (r : Result) (s : State) : bared (finish r s) = bared s := rfl

theorem bared_params (h : bared s = bared s') : s.params = s'.params := by
  have hp : (bared s).params = (bared s').params := by rw [h]
  exact hp

theorem act_bared (a : Act) (h : bared s = bared s') : bared (a.run s) = bared (a.run s') :=
  bared_map (fun _ => by cases a <;> rfl) h

theorem regRead_bared (r : Reg) (h : bared s = bared s') :
    (regRead r s).1 = (regRead r s').1 ∧ bared (regRead r s).2 = bared (regRead r s').2 := by
  have hr : ∀ s, (regRead r s).1 = (regRead r (bared s)).1 ∧ bared (regRead r s).2 = bared (regRead r (bared s)).2 := by
    -- only the chip's answers decide the byte
    rintro ⟨_, _, _, _, _, _, _, _, _, _, _, _, _, _, _, _, _, _, _ | _, _, _⟩ <;> exact ⟨rfl, rfl⟩
  exact ⟨by rw [(hr s).1, h, ← (hr s').1], by rw [(hr s).2, h, ← (hr s').2]⟩

/-- No program looks at what is bared. -/
theorem run_bared (p : Prog α) (h : bared s = bared s') :
    (p.run s).1 = (p.run s').1 ∧ bared (p.run s).2 = bared (p.run s').2 := by
  induction p generalizing s s' with
  | ret a => exact ⟨rfl, h⟩
  | ask k ih =>
    have hp : s.params = s'.params := bared_params h
    simp only [Prog.run, hp]
    exact ih _ h
  | act a k ih => exact ih (act_bared a h)
  | line k ih => exact ih (bared_map (f := advance) (fun _ => rfl) h)
  | write r v k ih => exact ih (bared_map (f := regWrite r v) (fun _ => rfl) h)
  | read r k ih =>
    obtain ⟨hv, ht⟩ := regRead_bared r h
    simp only [Prog.run, hv]
    exact ih _ ht

/-- Two ends of an operation that differ in what is bared differ in the inputs alone. -/
theorem finish_bared (r : Result) (h : bared s = bared s') : (finish r s).setInputs s'.inputs = finish r s' := by
  have he : ∀ s : State, finish r s = ((bared s).setResult (some r)).setInputs s.inputs := fun _ => rfl
  rw [he, he, h]; rfl

/-! ## The later steps as instructions -/

/-- A step of `selectCard` run whole and the instruction it is, from states that differ in what is bared: the same result, and
what follows it or the end. -/
theorem stage_exec (hi : IsStage i) (hop : s.pc.op = none) (hadm : ∀ body, precondition i s body = body)
    (h : bared v = bared s) (n : Nat) : ∃ op r u v', exec i s = .next (finish r u) ∧ Leaves (begin op s) i r u ∧
      u.inputs = s.inputs ∧ bared v' = bared u ∧ (∀ j, nextStage i r = some j → stages (n + 1) i v = stages n j v') ∧
      (nextStage i r = none → (stages (n + 1) i v).setInputs s.inputs = finish r u) := by
  obtain ⟨op, p, hp, -⟩ := hi.program
  have hwf : i.wf s.params = true := by rcases hi with rfl | rfl | rfl | rfl | ⟨u, rfl⟩ <;> rfl
  have hb : bared (v.setWork Work.empty) = bared (begin op s) := h
  obtain ⟨hr, ht⟩ := run_bared p hb
  have hin : (p.run (begin op s)).2.inputs = s.inputs := (run_outside p (begin op s)).inputs
  refine ⟨op, _, (p.run (begin op s)).2, (p.run (v.setWork Work.empty)).2, ?_, run_leaves hp _, hin, ht, fun j hj => ?_,
    fun hn => ?_⟩
  · rw [exec_program hp]
    exact (accept_idle hop hwf _).trans (hadm _)
  · rw [stages_succ n hp, hr, hj]
  · rw [stages_succ n hp, hr, hn, ← hin]
    exact finish_bared _ ht

theorem andThen_finish (hr : resultErrKind r = none) (u : State) (f : State → Out) :
    andThen (.next (finish r u)) f = f (finish r u) := by
  cases r with
  | error e => cases hr
  | _ => rfl

theorem andThen_error (e : ErrKind) (u : State) (f : State → Out) :
    andThen (.next (finish (.error e) u)) f = .next (finish (.error e) u) := rfl

/-- Only an error and the last step have none after them. -/
theorem Leaves.last (hi : IsStage i) (hl : Leaves s i r t) (hn : nextStage i r = none) :
    (∃ e, r = .error e) ∨ ∃ x, i = .selectTag x := by
  rcases hi with rfl | rfl | rfl | rfl | ⟨x, rfl⟩
  · obtain ⟨rfl, -⟩ := hl; cases hn
  · obtain ⟨rfl, -⟩ := hl; cases hn
  · obtain ⟨rfl, -⟩ | ⟨rfl, -⟩ := hl
    · cases hn
    · exact .inl ⟨_, rfl⟩
  · obtain ⟨x, rfl, -⟩ | ⟨e, rfl, -⟩ := hl
    · cases hn
    · exact .inl ⟨e, rfl⟩
  · exact .inr ⟨x, rfl⟩

theorem resultErrKind_of_nextStage {j : Instr} (h : nextStage i r = some j) : resultErrKind r = none := by
  unfold nextStage at h
  split at h
  · cases h
  · assumption

/-- An instruction of the sequence and what is requested after it are the steps run whole from it on, when what is requested
after it is the steps from the next on. -/
theorem andThen_stage {f : State → Out} (hi : IsStage i) (hne : ∀ x, i ≠ .selectTag x) (hop : s.pc.op = none)
    (hadm : ∀ body, precondition i s body = body) (h : bared v = bared s) (n : Nat)
    (hnext : ∀ op r u v' j, Leaves (begin op s) i r u → bared v' = bared (finish r u) → nextStage i r = some j →
      f (finish r u) = .next ((stages n j v').setInputs u.inputs)) :
    andThen (exec i s) f = .next ((stages (n + 1) i v).setInputs s.inputs) := by
  obtain ⟨op, r, u, v', he, hl, hin, hv, hsome, hnone⟩ := stage_exec hi hop hadm h n
  rw [he]
  cases hn : nextStage i r with
  | some j => rw [andThen_finish (resultErrKind_of_nextStage hn), hnext op r u v' j hl hv hn, hsome j hn, hin]
  | none =>
    obtain ⟨e, rfl⟩ := (hl.last hi hn).resolve_right fun ⟨x, hx⟩ => hne x hx
    rw [andThen_error, hnone hn]

/-- The last step. -/
theorem selectTag_stages (x : Bytes 4) (hop : s.pc.op = none) (hp : s.pstate = .identified) (h : bared v = bared s) :
    exec (.selectTag x) s = .next ((stages 1 (.selectTag x) v).setInputs s.inputs) := by
  obtain ⟨_, r, u, _, he, hl, -, -, -, hlast⟩ := stage_exec (.inr (.inr (.inr (.inr ⟨x, rfl⟩)))) hop
    (fun _ => require_admits (beq_iff_eq.2 hp)) h 0
  have hn : nextStage (.selectTag x) r = none := by rcases hl with ⟨_, rfl, -⟩ | ⟨_, rfl, -⟩ <;> rfl
  rw [he, hlast hn]

/-! What each step leaves that the next one requires. -/

theorem Leaves.after_reset (h : Leaves s .reset r t) : r = .done ∧ t.pstate = .idle ∧ t.cfg = .needsInit := by
  obtain ⟨hr, hk⟩ := h
  exact ⟨hr, hk.pstate, hk.cfg⟩

theorem Leaves.after_init (h : Leaves s .init r t) : r = .done ∧ t.pstate = s.pstate ∧ t.cfg = .ready := by
  obtain ⟨hr, hk⟩ := h
  exact ⟨hr, hk.pstate, hk.cfg⟩

theorem Leaves.after_request (h : Leaves s .request r t) :
    (r = .done ∧ t.pstate = .requested) ∨ r = .error .cardNotPresentError := by
  obtain ⟨hr, hk⟩ | ⟨hr, -⟩ := h
  · exact .inl ⟨hr, hk.pstate⟩
  · exact .inr hr

theorem Leaves.after_antiCollision (h : Leaves s .antiCollision r t) :
    (∃ x, r = .uid x ∧ t.pstate = .identified) ∨ ∃ e, r = .error e := by
  obtain ⟨x, hr, hk⟩ | ⟨e, hr, -⟩ := h
  · exact .inl ⟨x, hr, hk.pstate⟩
  · exact .inr ⟨e, hr⟩

/-- The later steps of `selectCard` run whole are the five instructions, one after the other. -/
theorem resetToSelect_eq (hop : w.pc.op = none) (h : bared v = bared w) :
    resetToSelect w = .next ((stages 5 .reset v).setInputs w.inputs) := by
  refine andThen_stage (.inl rfl) nofun hop (fun _ => rfl) h 4 fun _ r1 u1 v1 _ l1 b1 n1 => ?_
  obtain ⟨rfl, hp1, hc1⟩ := l1.after_reset
  cases n1
  refine andThen_stage (s := finish .done u1) (.inr (.inl rfl)) nofun rfl (fun _ => require_admits (beq_iff_eq.2 hc1)) b1 3
    fun _ r2 u2 v2 _ l2 b2 n2 => ?_
  obtain ⟨rfl, hp2, hc2⟩ := l2.after_init
  rw [begin_pstate, finish_pstate, hp1] at hp2
  cases n2
  refine andThen_stage (s := finish .done u2) (.inr (.inr (.inl rfl))) nofun rfl (fun _ => require_admits (by simp [hp2, hc2])) b2 2
    fun _ r3 u3 v3 _ l3 b3 n3 => ?_
  obtain ⟨rfl, hp3⟩ | rfl := l3.after_request <;> cases n3
  refine andThen_stage (s := finish .done u3) (.inr (.inr (.inr (.inl rfl)))) nofun rfl
    (fun _ => require_admits (beq_iff_eq.2 hp3)) b3 1 fun _ r4 u4 v4 _ l4 b4 n4 => ?_
  obtain ⟨x, rfl, hp4⟩ | ⟨e, rfl⟩ := l4.after_antiCollision <;> cases n4
  exact selectTag_stages x (s := finish (.uid x) u4) rfl hp4 b4

/-! ## The wait under another OP -/

/-- A `wait` run whole is in progress. -/
def Waiting (s : State) : Prop := s.pc.op = some .wait ∧ s.job = none

/-- The same as the wait of a `selectCard`. -/
def asSelectCard (s : State) : State := s.setPc { s.pc with op := some .selectCard }

theorem asSelectCard_params (s : State) : (asSelectCard s).params = s.params := rfl
theorem asSelectCard_phase (s : State) : (asSelectCard s).pc.phase = s.pc.phase := rfl
theorem asSelectCard_signal (s : State) : (asSelectCard s).signal = s.signal := rfl

theorem Waiting.inWait (h : Waiting s) : inWait s = true ∧ inWait (asSelectCard s) = true := by
  obtain ⟨hop, hj⟩ := h
  constructor <;> simp [Machine.inWait, asSelectCard, hop, hj, waitStage]

/-- From `s` to `t`, and from `s` under the other OP to `t'`: the wait goes on in both, or both make their last line. -/
def GoesAlike (s t t' : State) : Prop :=
  (Waiting t ∧ t' = asSelectCard t) ∨ (t = endWait s ∧ t' = endWait (asSelectCard s))

theorem seqStep_alike (h : Waiting s) : GoesAlike s (seqStep s) (seqStep (asSelectCard s)) := by
  simp only [seqStep, asSelectCard_params, asSelectCard_phase]
  split
  · exact .inl ⟨h, rfl⟩
  split
  · exact .inl ⟨h, rfl⟩
  · exact .inl ⟨h, rfl⟩
  · exact .inl ⟨h, rfl⟩
  · cases hs : s.signal <;> simp only [takeSignal, asSelectCard_signal, hs, Bool.false_eq_true, if_false, if_true] <;>
      exact .inl ⟨h, rfl⟩
  next k _ =>
    split
    · exact .inl ⟨h, rfl⟩
    · by_cases hk : k = s.params.waitEpilogue.length
      · simp only [hk, if_true]; exact .inl ⟨h, rfl⟩
      · simp only [hk, if_false]; exact .inr ⟨rfl, rfl⟩

theorem applyMove_alike (m : Move) (h : Waiting s) : GoesAlike s (applyMove m s) (applyMove m (asSelectCard s)) := by
  obtain ⟨hw, hw'⟩ := h.inWait
  cases m
  case line | sample => exact .inl ⟨h, rfl⟩
  case go => rw [applyMove_go hw, applyMove_go hw']; exact seqStep_alike h
  case timeout | abandon =>
    simp only [applyMove, atWaitPoint, hw, hw', asSelectCard_params, asSelectCard_phase, asSelectCard_signal]
    split <;> exact .inl ⟨h, rfl⟩

/-- The wait is in progress in `t`, and under the other OP in `t'`, or both were ended by their last line. -/
def EndsAlike (t t' : State) : Prop :=
  (Waiting t ∧ t' = asSelectCard t) ∨
    ∃ u rest, Waiting u ∧ t = (endWait u).setInputs rest ∧ t' = (endWait (asSelectCard u)).setInputs rest

theorem settle_idle (n : Nat) (h : s.pc.op = none) : settle n s = s := by
  cases n with
  | zero => rfl
  | succ n => rw [settle, h]; rfl

theorem endWait_setInputs (s : State) : (endWait s).setInputs s.inputs = endWait s := by
  rw [← (endWait_sameScript s).1]; rfl

theorem settle_alike (n : Nat) (h : Waiting s) : EndsAlike (settle n s) (settle n (asSelectCard s)) := by
  induction n generalizing s with
  | zero => exact .inl ⟨h, rfl⟩
  | succ n ih =>
    obtain ⟨hw, hw'⟩ := h.inWait
    have hop : s.pc.op.isNone = false ∧ (asSelectCard s).pc.op.isNone = false := ⟨by rw [h.1]; rfl, rfl⟩
    simp only [settle, hop, atWaitPoint, hw, hw', asSelectCard_params, asSelectCard_phase, Bool.false_or]
    split
    · exact .inl ⟨h, rfl⟩
    · rcases seqStep_alike h with ⟨ht, ht'⟩ | ⟨ht, ht'⟩
      · rw [ht']; exact ih ht
      · have hidle : (endWait s).pc.op = none ∧ (endWait (asSelectCard s)).pc.op = none :=
          ⟨congrArg Pc.op (endWait_idle s h.2).1, congrArg Pc.op (endWait_idle (asSelectCard s) h.2).1⟩
        rw [ht, ht', settle_idle n hidle.1, settle_idle n hidle.2]
        exact .inr ⟨s, s.inputs, h, (endWait_setInputs s).symm, (endWait_setInputs (asSelectCard s)).symm⟩

theorem waitRun_alike (l : List Input) (h : Waiting s) : EndsAlike (waitRun l s) (waitRun l (asSelectCard s)) := by
  induction l generalizing s with
  | nil => exact settle_alike (s := s.setInputs []) _ h
  | cons x l ih =>
    cases x with
    | request b => exact settle_alike (s := s.setInputs (.request b :: l)) _ h
    | move m =>
      rcases applyMove_alike m h with ⟨ht, ht'⟩ | ⟨ht, ht'⟩
      · rw [waitRun_move (by rw [ht.1]; nofun), waitRun_move (by rw [ht']; nofun), ht']
        exact ih ht
      · rw [waitRun_last (by rw [ht, (endWait_idle s h.2).1]; rfl),
          waitRun_last (by rw [ht', (endWait_idle (asSelectCard s) h.2).1]; rfl), ht, ht']
        exact .inr ⟨s, l, h, rfl, rfl⟩

/-! ## The last line of the wait -/

theorem endWait_abandoned (h : s.work.waitOut = some .abandoned) : endWait s = finish (.error .abandoned) s := by
  rw [endWait, if_pos h]; rfl

/-- A `selectCard` run whole goes on with its later steps. -/
theorem endWait_stages (h : s.work.waitOut ≠ some .abandoned) (hop : s.pc.op = some .selectCard) (hj : s.job = none) :
    endWait s = stages 5 .reset (advance s) := by
  rw [endWait, if_neg h, if_pos hop, hj]

/-- A `selectCard` requested by the host begins the first of them. -/
theorem endWait_starts (h : s.work.waitOut ≠ some .abandoned) (hop : s.pc.op = some .selectCard) {j : Job}
    (hj : s.job = some j) : endWait s = startStage .reset (advance s) := by
  rw [endWait, if_neg h, if_pos hop, hj]

theorem endWait_done (h : s.work.waitOut ≠ some .abandoned) (hop : s.pc.op = some .wait) : endWait s = finish .done s := by
  rw [endWait, if_neg h, if_neg (by rw [hop]; nofun)]

/-- After a `wait` that has ended, the five instructions give what the last line of the wait of a `selectCard` gives. -/
theorem endWait_resetToSelect (h : Waiting u) (rest : List Input) :
    andThen (.next ((endWait u).setInputs rest)) resetToSelect = .next ((endWait (asSelectCard u)).setInputs rest) := by
  by_cases ha : u.work.waitOut = some .abandoned
  · rw [endWait_abandoned ha, endWait_abandoned (s := asSelectCard u) ha]; rfl
  · rw [endWait_done ha h.1, endWait_stages (s := asSelectCard u) ha rfl h.2]
    have hgo : ∀ f, andThen (.next ((finish .done u).setInputs rest)) f = f ((finish .done u).setInputs rest) := fun _ => rfl
    rw [hgo, resetToSelect_eq (v := advance (asSelectCard u)) rfl (by simp [asSelectCard]), State.setInputs_inputs]

/-! ## The later steps one at a time -/

/-- From the last line of the wait of a `selectCard` requested by the host the steps are those of its later operations. -/
theorem step_lastLine (hop : s.pc.op = some .selectCard) (hj : s.job = some ⟨.selectCard, []⟩)
    (hp : s.pc.phase = deregisterPhase s.params + 1) (hi : ∀ m rest, s.inputs ≠ .move m :: rest) :
    step s = .next (endWait s) := by
  have hw : inWait s = true := by simp [inWait, hop, hj, waitStage, program]
  have hat : atWaitPoint s = false := by simp [atWaitPoint, hw, hp, deregisterPhase]; omega
  have hbusy : s.pc.op ≠ none := by rw [hop]; nofun
  rw [step_unscripted (nextPlaced_busy hbusy) hi fun _ _ _ => hbusy]
  simp only [unscripted, hop, hat, turn_wait hw, seqStep_last hp, Option.isSome_some, Bool.not_false, Bool.and_self, if_true]

/-- Later steps of `selectCard` in progress are steps of the machine. -/
theorem steps_stages (n : Nat) (hop : s.pc.op = some .selectCard) (hi : ∀ m rest, s.inputs ≠ .move m :: rest)
    (h : ∀ k, k < n → ∃ j l, IsStage j ∧ Outside (s.setJob (some ⟨j, l⟩)) (ticks k t)) : steps n t = .next (ticks n t) := by
  refine steps_ticks n t fun k hk => ?_
  obtain ⟨j, l, hj, ho⟩ := h k hk
  obtain ⟨op, p, hp, -⟩ := hj.program
  refine ⟨?_, inWait_program ho.job hp, fun m rest he => hi m rest (ho.inputs.symm.trans he)⟩
  rw [ho.op]
  exact fun hn => by rw [State.setJob_pc, hop] at hn; cases hn

/-- From `s` the steps lead to `t`, each with at most one transaction, a `selectCard` in progress until the last. -/
def StepsTo (s t : State) : Prop :=
  ∃ n, steps (n + 1) s = .next t ∧
    ∀ k, k ≤ n → ∃ u v, steps k s = .next u ∧ steps (k + 1) s = .next v ∧ AtMostOne u.trace v.trace ∧
      (k < n → v.pc.op = some .selectCard)

theorem stepsTo_lastLine (hop : s.pc.op = some .selectCard) (hj : s.job = some ⟨.selectCard, []⟩)
    (hp : s.pc.phase = deregisterPhase s.params + 1) (hi : ∀ m rest, s.inputs ≠ .move m :: rest) :
    StepsTo s (endWait (s.setJob none)) := by
  have hstep := step_lastLine hop hj hp hi
  have hsucc : ∀ k, steps (k + 1) s = steps k (endWait s) := fun k => by rw [steps, hstep]
  by_cases ha : s.work.waitOut = some .abandoned
  · rw [endWait_abandoned ha] at hsucc
    rw [endWait_abandoned (s := s.setJob none) ha, finish_setJob]
    refine ⟨0, hsucc 0, fun k hk => ?_⟩
    obtain rfl : k = 0 := by omega
    exact ⟨s, _, rfl, hsucc 0, .inl rfl, nofun⟩
  · have hreset : IsStage .reset := .inl rfl
    have hwhole : endWait (s.setJob none) = stages 5 .reset (advance s) :=
      (endWait_stages (s := s.setJob none) ha hop rfl).trans (stages_setJob none 5 .reset (advance s) le_rfl hreset)
    rw [endWait_starts ha hop hj] at hsucc
    obtain ⟨n, hn, hone, hmid⟩ := startStage_ticks 5 .reset (advance s) hop le_rfl hreset
    have htrace : (startStage .reset (advance s)).trace = s.trace := startStage_trace hreset _
    generalize startStage .reset (advance s) = v at hsucc hn hone hmid htrace
    have hsteps : ∀ k, k ≤ n + 1 → steps (k + 1) s = .next (ticks k v) := fun k hk =>
      (hsucc k).trans (steps_stages (s := advance s) k hop hi fun m hm => hmid m (by omega))
    refine ⟨n + 1, (hsteps _ le_rfl).trans (by rw [hn, hwhole]), fun k hk => ?_⟩
    cases k with
    | zero =>
      obtain ⟨j, l, -, ho⟩ := hmid 0 (by omega)
      exact ⟨s, v, rfl, hsteps 0 (by omega), .inl htrace, fun _ => ho.op.trans hop⟩
    | succ k =>
      refine ⟨_, _, hsteps k (by omega), hsteps (k + 1) (by omega), hone k (by omega), fun hk => ?_⟩
      obtain ⟨j, l, -, ho⟩ := hmid (k + 1) (by omega)
      exact ho.op.trans hop

/-- Settles O56: the waits go alike up to their last line, which goes on with the later steps. -/
theorem selectCardIsTheSequence : Obligations.SelectCardIsTheSequence := by
  unfold Obligations.SelectCardIsTheSequence
  refine ⟨fun s w h => ?_, fun s hop hj hp hi => stepsTo_lastLine hop hj hp hi⟩
  obtain ⟨hop, -, h⟩ := admitted_next (i := .wait) h
  obtain rfl := Host.Outcome.next.inj h
  have hexec : exec .selectCard s = .next (waitRun s.inputs (asSelectCard (waitBegin .wait s))) :=
    accept_idle (i := .selectCard) hop rfl _
  rw [hexec]
  rcases waitRun_alike s.inputs (s := waitBegin .wait s) ⟨rfl, rfl⟩ with ⟨hw, ht⟩ | ⟨u, rest, hu, hw, ht⟩ <;> rw [ht]
  · exact ⟨fun hn => absurd (hw.1.symm.trans hn) nofun, fun _ => rfl⟩
  · rw [hw]
    exact ⟨fun _ => (endWait_resetToSelect hu rest).symm, fun hn => absurd (congrArg Pc.op (endWait_idle u hu.2).1) hn⟩

/-! ## selectCard to its end -/

/-- A falling edge sampled and, at the wait point, the signal taken. -/
def taken (s : State) : State := leaveLoop .done ((edged s).setSignal false)

theorem taken_params (s : State) : (taken s).params = s.params := rfl
theorem taken_op (s : State) : (taken s).pc.op = s.pc.op := rfl
theorem taken_phase (s : State) : (taken s).pc.phase = s.pc.phase + 1 := rfl
theorem taken_waitOut (s : State) : (taken s).work.waitOut = some .done := rfl
theorem taken_job (s : State) : (taken s).job = s.job := rfl

theorem applyMove_taken (hw : inWait s = true) (hp : s.pc.phase = waitPhase s.params) : applyMove .go (edged s) = taken s := by
  have hw' : inWait (edged s) = true := hw
  have hp' : (edged s).pc.phase = waitPhase (edged s).params := hp
  rw [applyMove_go hw', seqStep_point hp']; rfl

/-- What line 9 leaves after the epilogue. -/
theorem deregister_fields (s : State) : (deregister s).watch = false ∧ (deregister s).work.waitOut = s.work.waitOut ∧
    (deregister s).pc.op = s.pc.op ∧ (deregister s).job = s.job := ⟨rfl, rfl, rfl, rfl⟩

/-- A wait whose edge is sampled up to its wait point is run to its last line. -/
theorem waitRun_edge_exits (n j : Nat) (before : List Input) (hb : before ++ turns j = armedMoves s.params n)
    (hw : inWait s = true) (ht : s.watch = true) (hp : s.pc.phase = 1) (hs : s.signal = false) (hj : s.job = none) :
    ∃ x, waitRun (before ++ edgeMoves ++ turns j ++ turns 1 ++ exitMoves s.params ++ rest) s = (endWait x).setInputs rest ∧
      x.work.waitOut = some .done ∧ x.pc.op = s.pc.op ∧ x.job = none ∧ x.watch = false := by
  obtain ⟨u, hu, hrun, hphase, -, huw⟩ :=
    waitRun_armed_edge s n j before (turns 1 ++ exitMoves s.params ++ rest) hb hw ht hp hs
  have ho := hrun.outside
  have hyp : (taken u).params = s.params := (taken_params u).trans ho.params
  have hyop : (taken u).pc.op = s.pc.op := (taken_op u).trans ho.op
  have hyj : (taken u).job = none := (taken_job u).trans (ho.job.trans hj)
  have hyw : inWait (taken u) = true := (inWait_congr hyop (hyj.trans hj.symm)).trans hw
  have hyphase : (taken u).pc.phase = waitPhase (taken u).params + 1 := by rw [hyp, taken_phase, hphase]
  have hgo : applyMove .go (edged u) = taken u := applyMove_taken huw (by rw [hphase, ho.params])
  have hone : ∀ l, waitRun (turns 1 ++ l) (edged u) = waitRun l (taken u) := fun l =>
    (waitRun_move (m := .go) (by rw [hgo]; exact inWait_op hyw)).trans (congrArg (waitRun l) hgo)
  -- lines 8 to 10
  have hout := taken_waitOut u
  generalize taken u = y at *
  obtain ⟨-, a2, -, -, -, -, a7, a8, -⟩ := writeAll_fields y.params.waitEpilogue y
  obtain ⟨d1, d2, d3, d4⟩ := deregister_fields (writeAll y.params.waitEpilogue y)
  have hexit := waitRun_exits y rest hyw hyphase (congrArg Pc.op (endWait_idle _ (d4.trans (a8.trans hyj))).1)
  refine ⟨_, ?_, d2.trans ((congrArg Work.waitOut a7).trans hout), d3.trans (a2.trans hyop), d4.trans (a8.trans hyj), d1⟩
  rw [hyp] at hexit
  simp only [List.append_assoc] at hu ⊢
  rw [hu, hone, hexit, exited]

/-- What the later steps of `selectCard` leave of the session, whatever their result. -/
theorem Keeps.session {q : PState} {x : Option (Bytes 4)} (h : Keeps { cleared s with cfg := .ready, pstate := q, uid := x } t) :
    t.cfg = .ready ∧ t.authd = false ∧ t.sector = none ∧ t.key = none ∧ t.pstate = q ∧ t.uid = x :=
  ⟨h.cfg, h.authd, h.sector, h.key, h.pstate, h.uid⟩

/-- The later steps of `selectCard` end it with a card selected or with the error of the first that raised. -/
theorem stages_ends (s : State) : ∃ r t, stages 5 .reset s = finish r t ∧
    t.cfg = .ready ∧ t.authd = false ∧ t.sector = none ∧ t.key = none ∧
      ((∃ b, r = .blocks b ∧ t.pstate = .selected ∧ t.uid.isSome = true) ∨
        (r = .error .cardNotPresentError ∧ t.pstate = .idle) ∨
        ∃ e, r = .error e ∧ (e = .timeoutError ∨ e = .protocolError ∨ e = .checksumError) ∧
          (t.pstate = .collided ∨ t.pstate = .identified)) := by
  rw [stages_eq]
  rcases selectCardRest_keeps s with ⟨b, u, t, he, hk⟩ | ⟨t, he, hk⟩ | ⟨e, t, he, hkind, hk⟩ | ⟨e, u, t, he, hkind, hk⟩ <;>
    rw [he]
  · obtain ⟨hc, ha, hs, hkey, hp, hu⟩ := hk.session
    exact ⟨_, t, rfl, hc, ha, hs, hkey, .inl ⟨b, rfl, hp, by rw [hu]; rfl⟩⟩
  · obtain ⟨hc, ha, hs, hkey, hp, -⟩ := hk.session
    exact ⟨_, t, rfl, hc, ha, hs, hkey, .inr (.inl ⟨rfl, hp⟩)⟩
  · obtain ⟨hc, ha, hs, hkey, hp, -⟩ := hk.session
    exact ⟨_, t, rfl, hc, ha, hs, hkey, .inr (.inr ⟨e, rfl, hkind, .inl hp⟩)⟩
  · obtain ⟨hc, ha, hs, hkey, hp, -⟩ := hk.session
    exact ⟨_, t, rfl, hc, ha, hs, hkey, .inr (.inr ⟨e, rfl, hkind.imp_right .inl, .inr hp⟩)⟩

/-- Settles O57: the wait is run to its last line, and `stages_ends` has the ends of the later steps. -/
theorem selectCardCompletes : Obligations.SelectCardCompletes := by
  unfold Obligations.SelectCardCompletes
  intro s n j before rest hop hb hin
  have hparams : (waitBegin .selectCard s).params = s.params := by rw [waitBegin_eq]
  rw [← hparams] at hb hin
  obtain ⟨x, hx, hout, hxop, hxj, hxw⟩ := waitRun_edge_exits (rest := rest) n j before hb rfl rfl rfl rfl rfl
  have hexec : exec .selectCard s = .next (waitRun s.inputs (waitBegin .selectCard s)) :=
    accept_idle (i := .selectCard) hop rfl _
  have hwatch : (endWait x).watch = false := (endWait_idle x hxj).2.2.1.trans hxw
  obtain ⟨r, t, he, hc, ha, hs, hk, hend⟩ := stages_ends (advance x)
  rw [endWait_stages (by rw [hout]; nofun) hxop hxj, he] at hx hwatch
  rw [hin, hx] at hexec
  refine ⟨_, hexec, rfl, rfl, hwatch, hc, ha, hs, hk, rfl, ?_⟩
  simpa using hend

end Sys2Proof.Safety
end

section
/-! SUPPORT. AccessBitsCodec (43_access_codec): `getBit`, `encode` and `decode` by the bits of a code and the nibbles of a byte, and
that `encode` and `decode` undo each other. -/

namespace Sys2Proof.Safety

open Sys2Proof.Machine

variable {b : BlocksAccess} {i : Instr} {l tail : List Byte} {s t : State} {x0 x1 x2 x3 : Byte}

/-! ## Nibbles -/

theorem lowNibble_bit (v : Byte) (k : Fin 4) : (lowNibble v).getLsbD k = v.getLsbD k := by
  simp [lowNibble]

theorem highNibble_bit (v : Byte) (k : Fin 4) : (highNibble v).getLsbD k = v.getLsbD (k + 4) := by
  simp [highNibble, Nat.add_comm]

/-- Nibbles with the same four bits are the same. -/
theorem nibble_ext {x y : BitVec 4} (h : ∀ k : Fin 4, x.getLsbD k = y.getLsbD k) : x = y :=
  BitVec.eq_of_getLsbD_eq fun k hk => h ⟨k, hk⟩

@[simp] theorem lowNibble_nibbles (lo hi : BitVec 4) : lowNibble (nibbles lo hi) = lo :=
  nibble_ext fun k => by rw [lowNibble_bit, nibbles_bit_low]

@[simp] theorem highNibble_nibbles (lo hi : BitVec 4) : highNibble (nibbles lo hi) = hi :=
  nibble_ext fun k => by rw [highNibble_bit, nibbles_bit_high]

theorem nibbles_lowNibble_highNibble (v : Byte) : nibbles (lowNibble v) (highNibble v) = v := by
  refine BitVec.eq_of_getLsbD_eq fun k hk => ?_
  by_cases h : k < 4
  · exact (nibbles_bit_low _ _ ⟨k, h⟩).trans (lowNibble_bit v ⟨k, h⟩)
  · obtain ⟨j, rfl⟩ := Nat.exists_eq_add_of_le' (Nat.le_of_not_lt h)
    have hj : j < 4 := by omega
    exact (nibbles_bit_high _ _ ⟨j, hj⟩).trans (highNibble_bit v ⟨j, hj⟩)

/-! ## Codes -/

theorem inRange_iff : b.inRange = true ↔ b.b0.toNat ≤ 7 ∧ b.b1.toNat ≤ 7 ∧ b.b2.toNat ≤ 7 ∧ b.b3.toNat ≤ 7 := by
  simp [BlocksAccess.inRange, and_assoc]

theorem codeOf_bits (c1 c2 c3 : BitVec 4) (k : Nat) :
    (codeOf c1 c2 c3 k).getLsbD 0 = c1.getLsbD k ∧ (codeOf c1 c2 c3 k).getLsbD 1 = c2.getLsbD k ∧
      (codeOf c1 c2 c3 k).getLsbD 2 = c3.getLsbD k := by
  simp [codeOf]

/-- A code is 0 to 7: the shifts put three bits and no more. -/
theorem codeOf_le (c1 c2 c3 : BitVec 4) (k : Nat) : (codeOf c1 c2 c3 k).toNat ≤ 7 := by
  have three : ∀ x y z : Bool, ((BitVec.ofBool x).setWidth 8 ||| ((BitVec.ofBool y).setWidth 8 <<< 1)
      ||| ((BitVec.ofBool z).setWidth 8 <<< 2)).toNat ≤ 7 := by decide
  exact three _ _ _

/-- A byte of at most 7 has no bit but the low three. -/
theorem code_ext {v w : Byte} (hv : v.toNat ≤ 7) (hw : w.toNat ≤ 7) (h0 : v.getLsbD 0 = w.getLsbD 0)
    (h1 : v.getLsbD 1 = w.getLsbD 1) (h2 : v.getLsbD 2 = w.getLsbD 2) : v = w := by
  have high : ∀ {x : Byte} {k : Nat}, x.toNat ≤ 7 → 3 ≤ k → x.getLsbD k = false := fun {x k} hx hk =>
    Nat.testBit_lt_two_pow (Nat.lt_of_lt_of_le (Nat.lt_succ_of_le hx) (Nat.pow_le_pow_right (n := 2) (by decide) hk))
  refine BitVec.eq_of_getLsbD_eq fun k _ => ?_
  match k with
  | 0 => exact h0
  | 1 => exact h1
  | 2 => exact h2
  | k + 3 => rw [high hv (Nat.le_add_left 3 k), high hw (Nat.le_add_left 3 k)]

/-- A code in range is what its three bits make. -/
theorem codeOf_eq {v : Byte} {c1 c2 c3 : BitVec 4} {k : Nat} (hv : v.toNat ≤ 7) (h1 : c1.getLsbD k = v.getLsbD 0)
    (h2 : c2.getLsbD k = v.getLsbD 1) (h3 : c3.getLsbD k = v.getLsbD 2) : codeOf c1 c2 c3 k = v := by
  obtain ⟨g1, g2, g3⟩ := codeOf_bits c1 c2 c3 k
  exact code_ext (codeOf_le c1 c2 c3 k) hv (g1.trans h1) (g2.trans h2) (g3.trans h3)

theorem decodeCodes_inRange (x1 x2 : Byte) : (decodeCodes x1 x2).inRange = true :=
  inRange_iff.2 ⟨codeOf_le _ _ _ _, codeOf_le _ _ _ _, codeOf_le _ _ _ _, codeOf_le _ _ _ _⟩

/-- The bits of decoded code `k` are bit `k` of each of the three true nibbles (43_access_codec R144). -/
theorem decodeCodes_bits (x1 x2 : Byte) (k : Fin 4) :
    let c := [(decodeCodes x1 x2).b0, (decodeCodes x1 x2).b1, (decodeCodes x1 x2).b2, (decodeCodes x1 x2).b3].getD k 0#8
    c.getLsbD 0 = x1.getLsbD (k + 4) ∧ c.getLsbD 1 = x2.getLsbD k ∧ c.getLsbD 2 = x2.getLsbD (k + 4) := by
  rw [← highNibble_bit x1, ← highNibble_bit x2, ← lowNibble_bit x2]
  fin_cases k <;> exact codeOf_bits _ _ _ _

/-- The three nibbles of decoded codes are the three true nibbles they were read from. -/
theorem getBitOf_decodeCodes (x1 x2 : Byte) :
    getBitOf (decodeCodes x1 x2) 1 = highNibble x1 ∧ getBitOf (decodeCodes x1 x2) 2 = lowNibble x2 ∧
      getBitOf (decodeCodes x1 x2) 3 = highNibble x2 := by
  refine ⟨nibble_ext fun k => ?_, nibble_ext fun k => ?_, nibble_ext fun k => ?_⟩
  · rw [getBitOf_bit, highNibble_bit]; exact (decodeCodes_bits x1 x2 k).1
  · rw [getBitOf_bit, lowNibble_bit]; exact (decodeCodes_bits x1 x2 k).2.1
  · rw [getBitOf_bit, highNibble_bit]; exact (decodeCodes_bits x1 x2 k).2.2

/-! ## The round trips -/

/-- `valid` (43_access_codec R145): four bytes, the fourth the exclusive or, and three complemented nibble pairs. -/
theorem validAccess_iff : validAccess (x0 :: x1 :: x2 :: tail) = true ↔
    tail = [x0 ^^^ x1 ^^^ x2] ∧ lowNibble x0 = ~~~(highNibble x1) ∧ highNibble x0 = ~~~(lowNibble x2) ∧
      lowNibble x1 = ~~~(highNibble x2) := by
  rcases tail with _ | ⟨x3, _ | ⟨x4, tail⟩⟩
  · simp [validAccess]
  · simp only [validAccess, Bool.and_eq_true, beq_iff_eq, List.cons.injEq, and_true]
    exact ⟨fun ⟨⟨⟨h0, h0'⟩, h1⟩, hx⟩ => ⟨hx, h0, h0', h1⟩, fun ⟨hx, h0, h0', h1⟩ => ⟨⟨⟨h0, h0'⟩, h1⟩, hx⟩⟩
  · simp [validAccess]

/-- What `encode` makes is valid (43_access_codec R143, R146). -/
theorem validAccess_encodeAccess (b : BlocksAccess) :
    validAccess [(encodeAccess b).1, (encodeAccess b).2.1, (encodeAccess b).2.2.1, (encodeAccess b).2.2.2] = true := by
  simp [validAccess_iff, encodeAccess]

/-- The codes are read back (43_access_codec R146). -/
theorem decodeCodes_encodeAccess (hb : b.inRange = true) :
    decodeCodes (encodeAccess b).2.1 (encodeAccess b).2.2.1 = b := by
  have bit := fun (k : Fin 4) (n : Nat) => getBitOf_bit b n k
  obtain ⟨h0, h1, h2, h3⟩ := inRange_iff.1 hb
  simp only [decodeCodes, encodeAccess, lowNibble_nibbles, highNibble_nibbles]
  rw [codeOf_eq (k := 0) h0 (bit 0 1) (bit 0 2) (bit 0 3),
    codeOf_eq (k := 1) h1 (bit 1 1) (bit 1 2) (bit 1 3),
    codeOf_eq (k := 2) h2 (bit 2 1) (bit 2 2) (bit 2 3),
    codeOf_eq (k := 3) h3 (bit 3 1) (bit 3 2) (bit 3 3)]

/-- Valid bytes are made again from the codes read from them (43_access_codec R146). -/
theorem encodeAccess_decodeCodes (h : validAccess [x0, x1, x2, x3] = true) :
    encodeAccess (decodeCodes x1 x2) = (x0, x1, x2, x3) := by
  obtain ⟨hx, h0, h0', h1⟩ := validAccess_iff.1 h
  obtain ⟨g1, g2, g3⟩ := getBitOf_decodeCodes x1 x2
  simp only [encodeAccess, g1, g2, g3, ← h0, ← h0', ← h1, nibbles_lowNibble_highNibble, List.cons.inj hx]

/-! ## The three operations -/

theorem exec_getBit {n : Byte} (hop : s.pc.op = none) (hw : (Instr.getBit b n).wf s.params = true) :
    exec (.getBit b n) s = .next (finish (.nibble (getBitOf b n.toNat)) s) :=
  (accept_idle hop hw _).trans (congrArg Host.Outcome.next (finish_begin _ .getBit s))

/-- An `encode` that answers was of codes in range. -/
theorem exec_encode_next (h : exec (.encode b) s = .next t) : b.inRange = true ∧
    t.result = some (.encoded (encodeAccess b).1 (encodeAccess b).2.1 (encodeAccess b).2.2.1 (encodeAccess b).2.2.2) := by
  obtain ⟨-, hb, ht⟩ := accept_next h
  cases ht
  exact ⟨hb, rfl⟩

theorem exec_decode (hop : s.pc.op = none) (ht : tail.length ≤ 1) :
    exec (.decode (x0 :: x1 :: x2 :: tail)) s =
      .next (finish (.decoded (decodeCodes x1 x2) (validAccess (x0 :: x1 :: x2 :: tail))) s) := by
  have hend : ∀ r, (Host.Outcome.next (finish r (begin .decode s)) : Out) = .next (finish r s) := fun r =>
    congrArg _ (finish_begin r .decode s)
  rcases tail with _ | ⟨x3, _ | ⟨x4, tail⟩⟩
  · exact (accept_idle (i := .decode [x0, x1, x2]) hop rfl _).trans (hend _)
  · exact (accept_idle (i := .decode [x0, x1, x2, x3]) hop rfl _).trans (hend _)
  · simp at ht

/-- A `decode` that answers was of three or four bytes. -/
theorem exec_decode_next (h : exec (.decode l) s = .next t) :
    ∃ x0 x1 x2 tail, l = x0 :: x1 :: x2 :: tail ∧
      t.result = some (.decoded (decodeCodes x1 x2) (validAccess (x0 :: x1 :: x2 :: tail))) := by
  obtain ⟨hop, hw, -⟩ := accept_next h
  have hl : l.length = 3 ∨ l.length = 4 := by simpa [Instr.wf] using hw
  match l with
  | [] | [_] | [_, _] => simp at hl
  | x0 :: x1 :: x2 :: tail =>
    have htail : tail.length ≤ 1 := by simp only [List.length_cons] at hl; omega
    rw [exec_decode hop htail] at h
    cases h
    exact ⟨x0, x1, x2, tail, rfl, rfl⟩

/-- An idle engine refuses as malformed exactly the ill-formed operands (60_exceptions R169). -/
theorem exec_malformed_iff (hop : s.pc.op = none) : exec i s = .refused .malformed ↔ i.wf s.params = false := by
  obtain ⟨body, he, hbody⟩ := exec_accept i s
  cases hw : i.wf s.params
  · simp [he, accept_malformed hop hw]
  · simp [he, accept_idle hop hw, hbody hw]

/-! ## The obligations -/

/-- Settles O44: what `encode` presents is valid, and its codes can be read back, so no two codes give the same bytes. -/
theorem encodeProperties : Obligations.EncodeProperties := by
  unfold Obligations.EncodeProperties
  refine ⟨fun s t b x0 x1 x2 x3 h hr => ?_, fun s t u b c hb hc hr => ?_⟩
  · rw [(exec_encode_next h).2] at hr
    cases hr
    obtain ⟨hx, h0, h0', h1⟩ := validAccess_iff.1 (validAccess_encodeAccess b)
    exact ⟨(List.cons.inj hx).1, h0, h0', h1⟩
  · obtain ⟨hb, htr⟩ := exec_encode_next hb
    obtain ⟨hc, hur⟩ := exec_encode_next hc
    rw [htr, hur] at hr
    injection Option.some.inj hr with _ h1 h2 _
    rw [← decodeCodes_encodeAccess hb, h1, h2, decodeCodes_encodeAccess hc]

/-- Settles O45: the codes are in range and have the bits of the true nibbles with either flag, and the flag is `valid`. -/
theorem decodeCompletes : Obligations.DecodeCompletes := by
  unfold Obligations.DecodeCompletes
  intro s x0 x1 x2 tail hop ht
  refine ⟨_, _, _, exec_decode hop ht, finish_ended _ s, fun _ => ⟨decodeCodes_inRange x1 x2, ?_⟩, validAccess_iff⟩
  exact decodeCodes_bits x1 x2

/-- Settles O46: the two round trips of the codec, each operation run on what the other presents. -/
theorem codecRoundTrip : Obligations.CodecRoundTrip := by
  unfold Obligations.CodecRoundTrip
  refine ⟨fun s b hop hb => ?_, fun s t x0 x1 x2 x3 b hop h hr => ?_⟩
  · refine ⟨_, _, _, _, _, _, exec_encode hop hb, rfl, exec_decode rfl (Nat.le_refl 1), ?_⟩
    rw [validAccess_encodeAccess, decodeCodes_encodeAccess hb]
    rfl
  · rw [exec_decode (tail := [x3]) hop (Nat.le_refl 1)] at h
    cases h
    injection Option.some.inj hr with hb hok
    subst hb
    refine ⟨_, exec_encode rfl (decodeCodes_inRange x1 x2), ?_⟩
    rw [encodeAccess_decodeCodes hok]
    rfl

/-- Settles O47: each refusal is that of ill-formed operands, and `decodeCodes` makes codes in range. -/
theorem outOfRangeCodesAreRefused : Obligations.OutOfRangeCodesAreRefused := by
  unfold Obligations.OutOfRangeCodesAreRefused
  intro s b n l i hop
  refine ⟨fun h => ?_, fun h => ?_, fun h3 h4 => ?_, fun t c ok h hr => ?_, (exec_malformed_iff hop).symm⟩
  · have hb : b.inRange = false := Bool.eq_false_iff.2 fun hb => by
      have := inRange_iff.1 hb
      omega
    exact ⟨(exec_malformed_iff hop).2 hb, (exec_malformed_iff hop).2 (by simp [Instr.wf, hb])⟩
  · refine (exec_malformed_iff hop).2 (Bool.eq_false_iff.2 fun hw => ?_)
    simp only [Instr.wf, Bool.and_eq_true, decide_eq_true_eq] at hw
    omega
  · exact (exec_malformed_iff hop).2 (by simp [Instr.wf, h3, h4])
  · obtain ⟨x0, x1, x2, tail, -, hres⟩ := exec_decode_next h
    rw [hres] at hr
    cases hr
    exact inRange_iff.1 (decodeCodes_inRange x1 x2)

/-- Settles O42: bit `k` of the nibble is that bit of code `k`. -/
theorem getBitCompletes : Obligations.GetBitCompletes := by
  unfold Obligations.GetBitCompletes
  intro s b n hop hb h1 h3
  exact ⟨_, _, exec_getBit hop (by simp [Instr.wf, hb, h1, h3]), finish_ended _ s, getBitOf_bit b _ 0, getBitOf_bit b _ 1,
    getBitOf_bit b _ 2, getBitOf_bit b _ 3⟩

end Sys2Proof.Safety
end

section
/-! SUPPORT. `wait` (44_presence_wait R154): how it ends once its loop is left, that it stays at its wait point while no signal is
set, and the moves of the outside (R152, R153, R156). -/

namespace Sys2Proof.Safety

open Sys2Proof.Machine

variable {s t u : State} {o : WaitOut} {rows : List Row} {l rest : List Input}

/-! ## From the end of the loop to the end of the wait -/

/-- `s` after a wait: the flags of the wait clear, IRQ_PREV and IRQ_IN as the outside left them, and the moves still to come. -/
def afterWait (irqPrev irqIn : Bool) (rest : List Input) (s : State) : State :=
  { s with watch := false, signal := false, irqPrev := irqPrev, irqIn := irqIn, inputs := rest }

/-- A run on the bus does not look at the lines, the flags of the wait and the script of moves. -/
theorem runs_afterWait (h : Runs s rows t) (irqPrev irqIn : Bool) (rest : List Input) :
    Runs (afterWait irqPrev irqIn rest s) rows (afterWait irqPrev irqIn rest t) := by
  obtain ⟨xs, k, phase, iter, work, hx, hs, rfl⟩ := h
  exact ⟨xs, k, phase, iter, work, hx, hs, rfl⟩

/-- Line 1 of a wait makes no transaction. -/
theorem waitBegin_runs (irqPrev irqIn : Bool) (rest : List Input) (s : State) :
    Runs (begin .wait (afterWait irqPrev irqIn rest s)) [] (afterWait irqPrev irqIn rest (waitBegin .wait s)) :=
  (Runs.refl _).advance

/-- What line 10 presents. -/
def exitResult : WaitOut → Result
  | .done => .done
  | .abandoned => .error .abandoned

theorem endWait_exitResult (h : s.work.waitOut = some o) (hop : s.pc.op = some .wait) :
    endWait s = finish (exitResult o) s := by
  cases o with
  | done => exact endWait_done (by rw [h]; nofun) hop
  | abandoned => exact endWait_abandoned h

/-- The end of the loop, from the wait point: the outcome is noted, no signal is left, and the agent and the line are as the
outside left them. -/
def leftLoop (o : WaitOut) (irqPrev irqIn : Bool) (u : State) : State :=
  leaveLoop o { u with signal := false, irqPrev := irqPrev, irqIn := irqIn }

theorem leftLoop_params (irqPrev irqIn : Bool) (u : State) : (leftLoop o irqPrev irqIn u).params = u.params := rfl

theorem leftLoop_phase (irqPrev irqIn : Bool) (u : State) : (leftLoop o irqPrev irqIn u).pc.phase = u.pc.phase + 1 := rfl

theorem leftLoop_inWait (irqPrev irqIn : Bool) (u : State) : inWait (leftLoop o irqPrev irqIn u) = inWait u := rfl

/-- After the loop there are the writes of the epilogue; line 9 and line 10 make no transaction. -/
theorem exited_leftLoop (hop : u.pc.op = some .wait) (irqPrev irqIn : Bool) (rest : List Input) :
    (exited (leftLoop o irqPrev irqIn u)).setInputs rest = finish (exitResult o)
      (afterWait irqPrev irqIn rest (writeAll u.params.waitEpilogue (leftLoop o irqPrev irqIn u))) := by
  obtain ⟨-, ha, -, -, -, -, hwork, -⟩ := writeAll_fields u.params.waitEpilogue (leftLoop o irqPrev irqIn u)
  have hend := endWait_exitResult (s := deregister (writeAll u.params.waitEpilogue (leftLoop o irqPrev irqIn u)))
    (congrArg Work.waitOut hwork) (ha.trans hop)
  rw [exited, leftLoop_params, hend]
  obtain ⟨_, _, _, _, _, -, -, hv⟩ := writeAll_runs u.params.waitEpilogue (leftLoop o irqPrev irqIn u)
  rw [hv]; rfl

/-- The exit lines end a `wait` that was brought to its wait point by the transactions `rows`: those of the epilogue follow, and
the outcome is presented. -/
theorem waitRun_leftLoop (hrun : Runs (waitBegin .wait s) rows u) (hphase : u.pc.phase = waitPhase s.params)
    (irqPrev irqIn : Bool) (rest : List Input) :
    EndsWith (afterWait irqPrev irqIn rest s) (exitResult o) (rows ++ writeRowsOf s.params.waitEpilogue)
      (waitRun (exitMoves s.params ++ rest) (leftLoop o irqPrev irqIn u)) := by
  have hout := hrun.outside
  have hw : inWait u = true := inWait_congr hout.op hout.job
  rw [waitBegin_eq] at hout
  have hop : u.pc.op = some .wait := hout.op
  have hpar : u.params = s.params := hout.params
  have hexit := exited_leftLoop (o := o) hop irqPrev irqIn rest
  have hidle : (exited (leftLoop o irqPrev irqIn u)).pc.op = none := by
    rw [← State.setInputs_pc rest, hexit]; rfl
  have hmoves := waitRun_exits (leftLoop o irqPrev irqIn u) rest ((leftLoop_inWait _ _ u).trans hw)
    (by rw [leftLoop_phase, leftLoop_params, hphase, hpar]) hidle
  rw [leftLoop_params, hpar, hexit, hpar] at hmoves
  rw [hmoves]
  have hloop : Runs (begin .wait (afterWait irqPrev irqIn rest s)) rows
      (afterWait irqPrev irqIn rest (leftLoop o irqPrev irqIn u)) :=
    (((waitBegin_runs irqPrev irqIn rest s).trans (runs_afterWait hrun irqPrev irqIn rest)).setWork _).advance
  exact (hloop.trans (runs_afterWait (writeAll_runs s.params.waitEpilogue _) irqPrev irqIn rest)).ended_begin _

/-! ## The wait point -/

/-- The sequencer takes the signal at the wait point and stays there without one. -/
theorem applyMove_go_point (h : atWaitPoint s = true) : applyMove .go s = takeSignal s := by
  rw [applyMove_go (Bool.and_eq_true_iff.1 h).1, seqStep_point (atWaitPoint_phase h)]

theorem applyMove_abandon_point (h : atWaitPoint s = true) : applyMove .abandon s = leaveLoop .abandoned s := by
  simp only [applyMove, h, if_true]

theorem atWaitPoint_of_phase (hw : inWait s = true) (hp : s.pc.phase = waitPhase s.params) : atWaitPoint s = true := by
  simp [atWaitPoint, hw, hp]

theorem waitBegin_params (op : HostOp) (s : State) : (waitBegin op s).params = s.params := by rw [waitBegin_eq]

theorem exec_wait (hop : s.pc.op = none) : exec .wait s = .next (waitRun s.inputs (waitBegin .wait s)) :=
  accept_idle (i := .wait) hop rfl _

/-- Settles O50: the edge is kept up to the wait point, where the signal ends the loop. -/
theorem waitCompletes : Obligations.WaitCompletes := by
  unfold Obligations.WaitCompletes
  intro s n j before rest hop hb hin
  obtain ⟨u, hu, hrun, hphase, -, hw⟩ := waitRun_armed_edge (waitBegin .wait s) n j before
    (turns 1 ++ exitMoves s.params ++ rest) (by rw [waitBegin_params, hb]) rfl rfl rfl rfl
  have hgo : applyMove .go (edged u) = leftLoop .done false false u :=
    applyMove_taken hw (by rw [hphase, hrun.params])
  rw [waitBegin_params] at hrun hphase
  have hlast : waitRun (turns 1 ++ (exitMoves s.params ++ rest)) (edged u) =
      waitRun (exitMoves s.params ++ rest) (leftLoop .done false false u) := by
    rw [← hgo]; exact waitRun_move (by rw [hgo]; exact inWait_op hw)
  refine ⟨_, exec_wait hop, ?_⟩
  simp only [List.append_assoc] at hu hin
  rw [hin, hu, hlast]
  exact waitRun_leftLoop hrun hphase false false rest

/-- Settles O53: at the wait point the abandonment ends the loop. -/
theorem abandonedWaitEnds : Obligations.AbandonedWaitEnds := by
  unfold Obligations.AbandonedWaitEnds
  intro s n rest hop hin
  obtain ⟨u, hu, hrun, hphase, -, hw, hsig, -⟩ := waitRun_armed (waitBegin .wait s) n
    (.move .abandon :: (exitMoves s.params ++ rest)) rfl rfl rfl
  have hout := hrun.outside
  rw [waitBegin_eq] at hout
  have habandon : applyMove .abandon u = leftLoop .abandoned s.irqPrev s.irqIn u := by
    have hlines : ({ u with signal := false, irqPrev := s.irqPrev, irqIn := s.irqIn } : State) = u := by
      rw [← hsig, ← show u.irqPrev = s.irqPrev from hout.irqPrev, ← show u.irqIn = s.irqIn from hout.irqIn]
    rw [applyMove_abandon_point (atWaitPoint_of_phase hw (by rw [hphase, hrun.params])), leftLoop, hlines]
  have hlast := waitRun_move (s := u) (m := .abandon) (rest := exitMoves s.params ++ rest)
    (by rw [habandon]; exact inWait_op hw)
  refine ⟨_, exec_wait hop, ?_⟩
  simp only [List.append_assoc, List.cons_append, List.nil_append] at hin
  rw [waitBegin_params] at hu hrun hphase
  rw [hin, hu, hlast, habandon]
  exact waitRun_leftLoop hrun hphase s.irqPrev s.irqIn rest

/-! ## A wait without a signal -/

/-- A `wait` run whole, from line 2 to its wait point, whose agent has seen no falling edge. -/
structure Unsignalled (s : State) : Prop where
  waiting : Waiting s
  first : 1 ≤ s.pc.phase
  last : s.pc.phase ≤ waitPhase s.params
  watch : s.watch = true
  signal : s.signal = false

/-- A turn makes the next register write, or leaves the wait at its wait point. -/
theorem seqStep_unsignalled (h : Unsignalled s) :
    Unsignalled (seqStep s) ∧ (seqStep s).irqPrev = s.irqPrev ∧ (seqStep s).irqIn = s.irqIn := by
  obtain ⟨hw, hfirst, hlast, hwatch, hsig⟩ := h
  rcases Nat.lt_or_eq_of_le hlast with hlt | heq
  · have hk : s.pc.phase - 1 < (s.params.waitPrologue ++ armWrites).length := by
      simp only [waitPhase, armPhase, List.length_append, armWrites, List.length_cons, List.length_nil] at hlt ⊢
      omega
    have hline := lineWrite_start s.params _ hk
    rw [Nat.add_sub_cancel' hfirst, List.getElem?_eq_getElem hk] at hline
    rw [seqStep_write hline]
    exact ⟨⟨hw, Nat.le_add_left 1 _, hlt, hwatch, hsig⟩, rfl, rfl⟩
  · have hstay : seqStep s = s := by rw [seqStep_point heq, takeSignal, hsig]; rfl
    rw [hstay]
    exact ⟨⟨hw, hfirst, hlast, hwatch, hsig⟩, rfl, rfl⟩

theorem settle_unsignalled (n : Nat) (h : Unsignalled s) : Unsignalled (settle n s) := by
  induction n generalizing s with
  | zero => exact h
  | succ n ih =>
    rw [settle]
    split
    · exact h
    · exact ih (seqStep_unsignalled h).1

theorem Unsignalled.setInputs (h : Unsignalled s) (l : List Input) : Unsignalled (s.setInputs l) :=
  ⟨h.waiting, h.first, h.last, h.watch, h.signal⟩

/-- A move that is no falling edge and no abandonment sets no signal. -/
theorem applyMove_unsignalled {m : Move} (h : Unsignalled s)
    (hm : noFallingEdge s.irqPrev s.irqIn (.move m :: rest) = true) :
    Unsignalled (applyMove m s) ∧ noFallingEdge (applyMove m s).irqPrev (applyMove m s).irqIn rest = true := by
  cases m with
  | line b => exact ⟨⟨h.waiting, h.first, h.last, h.watch, h.signal⟩, hm⟩
  | sample =>
    obtain ⟨hedge, hrest⟩ := Bool.and_eq_true_iff.1 hm
    have hsignal : (agentStep s).signal = false := by
      simpa [agentStep, h.watch, h.signal, imp_iff_not_or] using hedge
    exact ⟨⟨h.waiting, h.first, h.last, h.watch, hsignal⟩, hrest⟩
  | go =>
    obtain ⟨hu, hprev, hin⟩ := seqStep_unsignalled h
    rw [applyMove_go h.waiting.inWait.1, hprev, hin]
    exact ⟨hu, hm⟩
  | timeout =>
    simp only [applyMove]
    split
    · exact ⟨⟨h.waiting, Nat.le_add_left 1 _, Nat.le_add_right _ 3, h.watch, h.signal⟩, hm⟩
    · exact ⟨h, hm⟩
  | abandon => cases hm

theorem waitRun_unsignalled (h : Unsignalled s) (hl : noFallingEdge s.irqPrev s.irqIn l = true) :
    Unsignalled (waitRun l s) := by
  induction l generalizing s with
  | nil => exact settle_unsignalled _ (h.setInputs _)
  | cons x l ih =>
    cases x with
    | request b => exact settle_unsignalled _ (h.setInputs _)
    | move m =>
      obtain ⟨hu, hrest⟩ := applyMove_unsignalled h hl
      rw [waitRun_move (inWait_op hu.waiting.inWait.1)]
      exact ih hu hrest

/-- Settles O54: a wait that has not ended is at its wait point, and one with no signal has not ended. -/
theorem waitWithoutAnEdgeGoesOn : Obligations.WaitWithoutAnEdgeGoesOn := by
  unfold Obligations.WaitWithoutAnEdgeGoesOn
  intro s hop hl
  have hbegin : Unsignalled (waitBegin .wait s) := ⟨⟨rfl, rfl⟩, Nat.le_refl 1, Nat.le_add_left 1 _, rfl, rfl⟩
  have hu := waitRun_unsignalled hbegin (by rw [waitBegin_eq]; exact hl)
  refine ⟨_, exec_wait hop, hu.waiting.1, ?_, hu.watch, hu.signal⟩
  rcases waitRun_waits s.inputs (waitBegin .wait s) rfl rfl with ⟨-, hpoint⟩ | ⟨v, rest, hk, -, he⟩
  · exact hpoint
  · have hend : (waitRun s.inputs (waitBegin .wait s)).pc.op = none := by
      rw [he, State.setInputs_pc, (endWait_idle v hk.job).1]; rfl
    rw [hu.waiting.1] at hend
    cases hend

/-- Settles O55: what a wait in progress leaves alone (`Waits`), and what its last line does. -/
theorem waitTouchesOnlyItsFlags : Obligations.WaitTouchesOnlyItsFlags := by
  unfold Obligations.WaitTouchesOnlyItsFlags
  intro s t h
  obtain ⟨-, -, h⟩ := admitted_next h
  cases h
  have hbegin : Watched (waitBegin .wait s) := by simp [waitBegin_eq, Watched, deregisterPhase]
  rcases waitRun_waits s.inputs (waitBegin .wait s) rfl rfl with ⟨hk, hpoint⟩ | ⟨u, rest, hk, hlast, he⟩
  · generalize waitRun s.inputs (waitBegin .wait s) = t at hk hpoint ⊢
    rw [waitBegin_eq] at hk hbegin
    have hwatch : t.watch = true := by
      rw [hk.watch hbegin, atWaitPoint_phase hpoint, decide_eq_true_iff, deregisterPhase]
      omega
    exact ⟨.inr ⟨hk.op, hpoint, hk.result⟩, iff_of_true hwatch hk.op, hk.pstate, hk.sector, hk.authd, hk.uid, hk.key, hk.cfg,
      hk.rstOut, hk.params, hk.answers, hk.trace⟩
  · rw [he]
    rw [waitBegin_eq] at hk hbegin
    have hwatch : u.watch = false := by rw [hk.watch hbegin]; simpa using hlast
    obtain ⟨hend, hanswers, htrace, hresult⟩ := endWait_wait hk.op
    obtain ⟨xs, hxs, hwrites⟩ := hk.trace
    refine ⟨.inl ⟨hend.op, ?_⟩, ?_, hend.pstate.trans hk.pstate, hend.sector.trans hk.sector, hend.authd.trans hk.authd,
      hend.uid.trans hk.uid, hend.key.trans hk.key, hend.cfg.trans hk.cfg, hend.rstOut.trans hk.rstOut,
      hend.params.trans hk.params, hanswers.trans hk.answers, xs, htrace.trans hxs, hwrites⟩
    · rw [State.setInputs_result, hresult]
      split_ifs
      · exact .inr rfl
      · exact .inl rfl
    · exact iff_of_false (by rw [State.setInputs_watch, hend.watch, hwatch]; nofun)
        (by rw [State.setInputs_pc, hend.op]; nofun)

/-! ## Moves of the outside -/

/-- Settles O7: a turn away from the wait point is what the unscripted step does. -/
theorem stepMakesTheNextMove : Obligations.StepMakesTheNextMove := by
  unfold Obligations.StepMakesTheNextMove
  refine ⟨fun s m rest hi h => step_move (h.elim nextPlaced_none nextPlaced_busy) hi, fun s rest hi hop hat hrest => ?_⟩
  have hsome : s.pc.op.isSome = true := Option.isSome_iff_ne_none.2 hop
  calc step s = .next (applyMove .go (s.setInputs rest)) := step_move (nextPlaced_busy hop) hi
    _ = .next (turn (s.setInputs rest)) := by simp [applyMove, hsome]
    _ = unscripted (s.setInputs rest) := (if_pos (Bool.and_eq_true_iff.2 ⟨hsome, congrArg (!·) hat⟩)).symm
    _ = step (s.setInputs rest) := (step_unscripted (s := s.setInputs rest) (nextPlaced_busy hop) hrest fun _ _ _ => hop).symm

/-- Settles O48, by whether the agent's step sees a falling edge with the watch registered. -/
theorem interruptAgentStep : Obligations.InterruptAgentStep := by
  unfold Obligations.InterruptAgentStep
  refine fun s => ⟨fun hwatch hprev hin => ?_, fun h => ?_⟩
  · simp [agentStep, hwatch, hprev, hin, State.setSignal, State.setIrqPrev]
  · have hno : (s.watch && s.irqPrev && !s.irqIn) = false := by
      rcases h with h | h | h <;> simp [h]
    simp only [agentStep, hno, Bool.or_false]; rfl

/-- Settles O49: the signal is taken or is not there, and the other moves are enabled as R156 and R158 say. -/
theorem waitPointChoices : Obligations.WaitPointChoices := by
  unfold Obligations.WaitPointChoices
  intro s hat
  refine ⟨fun hs => ?_, fun hs => ?_, fun hs => ?_, fun hs => ?_, applyMove_abandon_point hat⟩
  · rw [applyMove_go_point hat, takeSignal, if_pos hs]; rfl
  · rw [applyMove_go_point hat, takeSignal, hs]; rfl
  · exact if_pos (by rw [hat, hs]; rfl)
  · exact if_neg (by rw [hat, hs]; nofun)

end Sys2Proof.Safety
end

section
/-! SUPPORT. The result codes (60_exceptions): a row of R163 run alone. -/

namespace Sys2Proof.Safety

open Sys2Proof.Machine

variable {s : State} {i : Instr}

/-- An instruction that means `raise e` and has the code of `e` as its one byte (60_exceptions R163): it presents that kind and
makes no other change (R170). -/
theorem exec_errorRow_ended {e : ErrKind} (hop : s.pc.op = none) (he : exec i s = errorRow i e s)
    (hw : i.wf s.params = true) (hc : encode s.params i = [e.code]) :
    ∃ t, exec i s = .next t ∧ Ended s (.error e) [] 0 t ∧ encode s.params i = [e.code] :=
  ⟨_, he.trans (errorRow_idle hop hw e), finish_ended _ s, hc⟩

/-- Settles O15: Ok presents success, and each of the other ten rows means `raise` of its kind. -/
theorem errorCodesComplete : Obligations.ErrorCodesComplete := by
  unfold Obligations.ErrorCodesComplete
  intro s hop
  simp only [List.forall_mem_cons, List.not_mem_nil, false_imp_iff, implies_true, and_true]
  refine ⟨⟨_, accept_idle hop rfl _, finish_ended .done s, rfl⟩, ?_⟩
  and_intros <;> exact exec_errorRow_ended hop rfl rfl rfl

end Sys2Proof.Safety
end

section
/-! SUPPORT. Bring-up (70_reset_and_hazards R192, R195): the operation `reset`, and what looks at CFG. Every host operation but
`reset`, `init`, `request` and `selectCard` makes the same run whatever CFG is, and leaves it as it was. -/

namespace Sys2Proof.Safety

open Sys2Proof.Machine

variable {s t : State} {i : Instr} {op : HostOp} {p : Prog Result} {body : Out} {x : Cfg}

/-! ## The operation reset -/

/-- `reset` makes one write, and AUTHD, which line 1 clears before it, is cleared with the session after it. -/
theorem resetBody_runs (s : State) : ∃ u,
    Runs s [.wr .command (s.params.cmdCode .softReset)] u ∧ resetBody s = u.clearSession.setCfg .needsInit :=
  ⟨_, ((Runs.refl s).advance.thenCommand .softReset).advance, by
    simp only [resetBody_eq, writeCommand_eq, regWrite, regWriteAt_eq]; rfl⟩

/-- Settles O27, by `resetBody_runs`. -/
theorem resetCompletes : Obligations.ResetCompletes := by
  unfold Obligations.ResetCompletes
  intro s hop
  obtain ⟨u, hu, he⟩ := resetBody_runs (begin .reset s)
  refine ⟨_, accept_idle (i := .reset) hop rfl _, ?_⟩
  show EndsWith _ _ _ (finish _ (resetBody _))
  rw [he]
  exact hu.ended_update .done (fun u => u.clearSession.setCfg .needsInit) (by intros; rfl) rfl rfl rfl

/-! ## What CFG refuses -/

theorem exec_init_refused (hop : s.pc.op = none) (h : s.cfg ≠ .needsInit) :
    exec .init s = .refused (.precondition .init) :=
  (accept_idle (i := .init) hop rfl _).trans (require_refuses (beq_false_of_ne h))

theorem exec_request_refused (hop : s.pc.op = none) (h : s.cfg ≠ .ready) :
    exec .request s = .refused (.precondition .request) :=
  (accept_idle (i := .request) hop rfl _).trans (require_refuses (Bool.and_eq_false_iff.2 (.inr (beq_false_of_ne h))))

/-- An operation that has ended has left an idle engine, and of CFG what it says. -/
theorem EndsWith.idle_cfg {r : Result} {rows : List Row} (h : EndsWith s r rows t) : t.pc.op = none ∧ t.cfg = s.cfg := by
  obtain ⟨_, -, -, _, rfl⟩ := h
  exact ⟨rfl, rfl⟩

/-! ## A wait does not look at CFG -/

/-- A wait goes on, or its last line has left the engine idle. -/
theorem seqStep_waiting (h : Waiting s) : Waiting (seqStep s) ∨ (seqStep s).pc.op = none := by
  rcases seqStep_waits s with hw | ⟨he, -⟩
  · exact .inl ⟨hw.op.trans h.1, hw.job.trans h.2⟩
  · exact .inr (by rw [he, (endWait_idle s h.2).1]; rfl)

theorem applyMove_waiting (h : Waiting s) (m : Move) : Waiting (applyMove m s) ∨ (applyMove m s).pc.op = none := by
  rcases applyMove_waits m s h.inWait.1 with hw | ⟨he, -⟩
  · exact .inl ⟨hw.op.trans h.1, hw.job.trans h.2⟩
  · exact .inr (by rw [he, (endWait_idle s h.2).1]; rfl)

theorem endWait_setCfg (h : Waiting s) : endWait (s.setCfg x) = (endWait s).setCfg x := by
  by_cases ha : s.work.waitOut = some .abandoned
  · rw [endWait_abandoned ha, endWait_abandoned (s := s.setCfg x) ha]; rfl
  · rw [endWait_done ha h.1, endWait_done (s := s.setCfg x) ha h.1]; rfl

theorem takeSignal_setCfg (x : Cfg) (s : State) : takeSignal (s.setCfg x) = (takeSignal s).setCfg x := by
  rw [takeSignal, takeSignal, apply_ite (State.setCfg x)]; rfl

theorem seqStep_setCfg (h : Waiting s) : seqStep (s.setCfg x) = (seqStep s).setCfg x := by
  simp only [seqStep, State.setCfg_params, State.setCfg_pc]
  split
  · rfl
  split
  · rfl
  · rfl
  · rfl
  · exact takeSignal_setCfg x s
  split
  · rfl
  · rw [apply_ite (State.setCfg x), endWait_setCfg h]; rfl

theorem atWaitPoint_setCfg (x : Cfg) (s : State) : atWaitPoint (s.setCfg x) = atWaitPoint s := rfl

theorem applyMove_setCfg (h : Waiting s) (m : Move) : applyMove m (s.setCfg x) = (applyMove m s).setCfg x := by
  cases m
  case line | sample => rfl
  case go => rw [applyMove_go h.inWait.1, applyMove_go (s := s.setCfg x) h.inWait.1, seqStep_setCfg h]
  case timeout | abandon => rw [applyMove, applyMove, apply_ite (State.setCfg x)]; rfl

theorem settle_setCfg (n : Nat) (h : Waiting s) : settle n (s.setCfg x) = (settle n s).setCfg x := by
  induction n generalizing s with
  | zero => rfl
  | succ n ih =>
    simp only [settle, atWaitPoint_setCfg, State.setCfg_pc, seqStep_setCfg h]
    split_ifs
    · rfl
    · rcases seqStep_waiting h with hw | hidle
      · exact ih hw
      · rw [settle_idle n hidle, settle_idle (s := (seqStep s).setCfg x) n hidle]

theorem waitRun_setCfg (l : List Input) (h : Waiting s) : waitRun l (s.setCfg x) = (waitRun l s).setCfg x := by
  induction l generalizing s with
  | nil => exact settle_setCfg (s := s.setInputs []) _ h
  | cons y l ih =>
    cases y with
    | request b => exact settle_setCfg (s := s.setInputs (.request b :: l)) _ h
    | move m =>
      simp only [waitRun, applyMove_setCfg h, State.setCfg_pc]
      split_ifs with hidle
      · rfl
      · exact ih ((applyMove_waiting h m).resolve_right fun hn => hidle (by rw [hn]; rfl))

/-! ## Which operations look at CFG -/

/-- Of the operations that have a program, only the three that bring the card up look at CFG or write it (R195). -/
theorem program_keepsCfg (hp : program i = some (op, p)) (hreset : i ≠ .reset) (hinit : i ≠ .init) (hreq : i ≠ .request) :
    Acts KeepsCfg p := by
  cases i <;> cases hp
  case reset => exact absurd rfl hreset
  case init => exact absurd rfl hinit
  case request => exact absurd rfl hreq
  case execute c d => exact ((executeProg_quiet c d).mono fun _ => Quiet.keepsCfg).bind fun _ => trivial
  case computeCrc d => exact ((computeCrcProg_quiet d).mono fun _ => Quiet.keepsCfg).bind fun _ => trivial
  case antiCollision => exact antiCollisionProg_keepsCfg.bind fun _ => trivial
  case selectTag u => exact (selectTagProg_keepsCfg u).bind fun _ => trivial
  case authenticate m b k u => exact (authenticateProg_keepsCfg m b k u).bind fun _ => trivial
  case readBlock b => exact (readBlockProg_keepsCfg b).bind fun _ => trivial
  case writeBlock b d => exact (writeBlockProg_keepsCfg b d).bind fun _ => trivial
  case stopCrypto => exact stopCryptoProg_keepsCfg.bind fun _ => trivial

/-- Only the preconditions of `init` and `request` name CFG (42_card_session R114). -/
theorem admitted_setCfg (x : Cfg) (hinit : i ≠ .init) (hreq : i ≠ .request) :
    admitted i (s.setCfg x) body = admitted i s body := by
  cases i
  case init => exact absurd rfl hinit
  case request => exact absurd rfl hreq
  all_goals rfl

theorem presentDecoded_setCfg {b : List Byte} (h : presentDecoded b s = .next t) :
    presentDecoded b (s.setCfg x) = .next (t.setCfg x) := by
  unfold presentDecoded at h ⊢
  split at h <;> cases h
  rfl

/-- A host operation that answers a next state answers the same from any other CFG, but for CFG itself. -/
theorem exec_setCfg (hf : i.format = .hostop) (hreset : i ≠ .reset) (hinit : i ≠ .init) (hreq : i ≠ .request)
    (hsel : i ≠ .selectCard) (h : exec i s = .next t) (x : Cfg) : exec i (s.setCfg x) = .next (t.setCfg x) := by
  rcases hp : program i with _ | ⟨op, p⟩
  · cases i
    case wait =>
      obtain ⟨hop, -, h⟩ := admitted_next h
      cases h
      rw [exec_wait (s := s.setCfg x) hop]
      exact congrArg Host.Outcome.next (waitRun_setCfg (s := waitBegin .wait s) s.inputs ⟨rfl, rfl⟩)
    case encode | getBit =>
      obtain ⟨hop, hw, h⟩ := accept_next h
      cases h
      exact accept_idle (s := s.setCfg x) hop hw _
    case decode b =>
      obtain ⟨hop, hw, h⟩ := accept_next h
      exact (accept_idle (s := s.setCfg x) hop hw _).trans (presentDecoded_setCfg (s := begin .decode s) h)
    case selectCard => exact absurd rfl hsel
    case execute | computeCrc | reset | init | request | antiCollision | selectTag | authenticate | readBlock | writeBlock |
        stopCrypto => cases hp
    all_goals cases hf
  · obtain ⟨-, rfl⟩ := exec_program_next hp h
    rw [exec_program hp] at h
    have hrun : p.run (begin op (s.setCfg x)) = ((p.run (begin op s)).1, (p.run (begin op s)).2.setCfg x) :=
      (setCfg_aside x).run (program_keepsCfg hp hreset hinit hreq) (begin op s)
    rw [exec_program hp, admitted_setCfg x hinit hreq, admitted_any h, hrun]
    rfl

/-- Settles O37: each of the three asks for a CFG that only the one before it leaves, and the run from the CFG there is says
that an operation which looks at none leaves it. -/
theorem bringUpOrder : Obligations.BringUpOrder := by
  unfold Obligations.BringUpOrder
  refine ⟨rfl, fun s hop hc => ⟨?_, ?_⟩, fun s hop => ?_, fun s t i cf hf hreset hinit hreq hsel h => ?_⟩
  · exact exec_init_refused hop (by rw [hc]; nofun)
  · exact exec_request_refused hop (by rw [hc]; nofun)
  · obtain ⟨t, ht, hend⟩ := resetCompletes s hop
    obtain ⟨htop, htc⟩ := hend.idle_cfg
    obtain ⟨_, u, hu, hend⟩ := initCompletes t htop htc
    obtain ⟨huop, huc⟩ := hend.idle_cfg
    exact ⟨t, ht, htop, htc, exec_request_refused htop (by rw [htc]; nofun), u, hu, huop, huc,
      exec_init_refused huop (by rw [huc]; nofun)⟩
  · have hany := exec_setCfg hf hreset hinit hreq hsel h
    have hsame : t = t.setCfg s.cfg := Host.Outcome.next.inj (h.symm.trans (hany s.cfg))
    exact ⟨by rw [hsame, State.setCfg_cfg], hany cf⟩

end Sys2Proof.Safety
end

section
/-! SUPPORT. Forward progress (70_reset_and_hazards R210): how many transactions a program makes at most, whatever the chip answers. -/

namespace Sys2Proof.Safety

open Sys2Proof.Machine

variable {α β : Type} {k m n : Nat} {s t : State} {rows : List Row} {P : Params}

/-- Run whole, from whatever state, the program makes at most `n` transactions. -/
def Within (n : Nat) (p : Prog α) : Prop := ∀ s, (p.run s).2.trace.length ≤ s.trace.length + n

/-! ## The parts of a program -/

/-- A run makes a transaction a row. -/
theorem Runs.trace_length (h : Runs s rows t) : t.trace.length = s.trace.length + rows.length := by
  obtain ⟨xs, _, _, _, _, hx, -, rfl⟩ := h
  rw [hx.length_eq, List.length_append]

theorem Within.mono {p : Prog α} (h : Within m p) (hmn : m ≤ n) : Within n p := fun s =>
  (h s).trans (Nat.add_le_add_left hmn _)

theorem Within.ret (a : α) : Within n (.ret a) := fun _ => Nat.le_add_right _ n

theorem Within.ask {k : Params → Prog α} (h : ∀ p, Within n (k p)) : Within n (.ask k) := fun s => h _ s

theorem Within.act (a : Act) {k : Prog α} (h : Within n k) : Within n (.act a k) := fun s => act_trace a s ▸ h (a.run s)

theorem Within.line {k : Prog α} (h : Within n k) : Within n (.line k) := fun s => h (advance s)

theorem Within.write (r : Reg) (v : Byte) {k : Prog α} (h : Within n k) : Within (n + 1) (.write r v k) := fun s => by
  have hk := h (regWrite r v s)
  rwa [(regWrite_runs r v s).trace_length, List.length_singleton, Nat.add_assoc, Nat.add_comm 1] at hk

theorem Within.read (r : Reg) {k : Byte → Prog α} (h : ∀ b, Within n (k b)) : Within (n + 1) (.read r k) := fun s => by
  have hk := h (regRead r s).1 (regRead r s).2
  rwa [(regRead_runs r s).trace_length, List.length_singleton, Nat.add_assoc, Nat.add_comm 1] at hk

theorem Within.ite (c : Prop) [Decidable c] {p q : Prog α} (hp : Within n p) (hq : Within n q) :
    Within n (if c then p else q) := by
  split_ifs <;> assumption

/-- A program and then another, which makes at most `n`. -/
theorem Within.bind (n : Nat) {p : Prog α} {f : α → Prog β} (hp : Within m p) (hf : ∀ a, Within n (f a)) (hk : m + n ≤ k) :
    Within k (p.bind f) := fun s => by
  have hfirst := hp s
  have hsecond := hf (p.run s).1 (p.run s).2
  rw [run_bind]
  omega

theorem Within.orRaise (n : Nat) {p : Prog (Except ErrKind α)} {f : α → Prog (Except ErrKind β)} (hp : Within m p)
    (hf : ∀ a, Within n (f a)) (hk : m + n ≤ k) : Within k (p.orRaise f) :=
  .bind n hp (fun x => by cases x <;> [exact .ret _; exact hf _]) hk

theorem Within.tested {p : Prog α} (hp : Within n p) : Within n (testedProg p) :=
  .bind 0 hp (fun _ => .line <| .ret _) le_rfl

/-! ## The sub-operations -/

/-- A sub-operation that is a run of at most `n` rows. -/
theorem Within.of_runs {p : Prog (Except ErrKind α)}
    (h : ∀ s, ∃ rows, rows.length ≤ n ∧ Runs s rows (Res.of (p.run s)).state) : Within n p := fun s => by
  obtain ⟨rows, hn, hs⟩ := h s
  rw [res_state_of] at hs
  exact hs.trace_length.le.trans (Nat.add_le_add_left hn _)

/-- One `execute` makes at most 30 transactions besides its FIFO writes and the 2000 reads of its poll (40_transceiver R102). -/
theorem ExecuteRun.length_le {c : ChipCommand} {d vs : List Byte} {out : Except ErrKind Transceived}
    (h : ExecuteRun P c d vs rows out) : rows.length ≤ d.length + 2030 := by
  have hreads : vs.length ≤ 2000 := by
    obtain ⟨_, _, _, _, _, -, ⟨hx, -⟩ | ⟨hm, -⟩⟩ := h.checks <;> [exact hx.1.le; exact hm.length_le]
  have hafter : rowsAfterPoll c out ≤ 19 := by
    cases out with
    | error e => cases e <;> simp [rowsAfterPoll]
    | ok r =>
      rw [rowsAfterPoll]
      obtain ⟨hc, -⟩ | ⟨hc, -, h16, -⟩ := h.value <;> simp only [hc, if_true, if_false] <;> omega
  have hlen := h.length
  split_ifs at hlen <;> omega

theorem executeProg_within (c : ChipCommand) (d : List Byte) : Within (d.length + 2030) (executeProg c d) :=
  .of_runs fun s => by
    obtain ⟨_, rows, hr, hs⟩ := executeBody_runs c d s
    exact ⟨rows, hr.length_le, hs⟩

/-- One `computeCrc` makes at most 7 transactions besides its FIFO writes and the 255 reads of its poll (41_crc R111). -/
theorem CrcRun.length_le {d vs : List Byte} {out : Except ErrKind (Byte × Byte)} (h : CrcRun P d vs rows out) :
    rows.length ≤ d.length + 262 := by
  obtain ⟨-, hreads⟩ := h.reads
  cases out with
  | error e => obtain ⟨-, -, hlen⟩ := h.error_length; omega
  | ok c => have hlen := h.ok_length; omega

theorem computeCrcProg_within (d : List Byte) : Within (d.length + 262) (computeCrcProg d) :=
  .of_runs fun s => by
    obtain ⟨_, rows, hr, hs⟩ := computeCrcBody_runs d s
    exact ⟨rows, hr.length_le, hs⟩

theorem withCrc_length (f : List Byte) (c : Byte × Byte) : (withCrc f c).length = f.length + 2 := List.length_append

/-- A frame sent with its CRC. -/
theorem executeProg_withCrc_within (f : List Byte) (c : Byte × Byte) :
    Within (f.length + 2032) (testedProg (executeProg .transceive (withCrc f c))) :=
  (executeProg_within _ _).tested.mono (by rw [withCrc_length])

theorem sendWithCrcProg_within (f : List Byte) : Within (2 * f.length + 2294) (sendWithCrcProg f) :=
  .orRaise _ (computeCrcProg_within f).tested (executeProg_withCrc_within f) (by omega)

theorem teardownRows_length_le (p : Params) (a : Byte) : (teardownRows p a).length ≤ 2 := by
  unfold teardownRows
  split
  · exact le_rfl
  · exact Nat.zero_le 2

theorem tornDown_within (a : α) : Within 2 (tornDown a) := fun s => by
  obtain ⟨b, u, hu, he⟩ := teardown_runs s
  have htrace : (teardown s).trace = u.trace := by rw [he]; split <;> rfl
  rw [tornDown_run, htrace, hu.trace_length]
  exact Nat.add_le_add_left (teardownRows_length_le _ b) _

/-! ## The operations of CardSession (42_card_session R135) -/

theorem writeCommandProg_within (c : ChipCommand) : Within 1 (writeCommandProg c) := .ask fun _ => .write _ _ <| .ret _

theorem resetProg_within : Within 1 resetProg :=
  .line <| .act _ <| .bind 0 (writeCommandProg_within _) (fun _ => .line <| .act _ <| .act _ <| .ret _) le_rfl

theorem writeAllProg_within (l : List (Reg × Byte)) : Within l.length (writeAllProg l) := fun s => by
  rw [← List.length_map fun x : Reg × Byte => Row.wr x.1 x.2]
  exact (writeAll_runs l s).trace_length.le

theorem initProg_within : Within 8 initProg :=
  .bind 2 (writeAllProg_within initWrites) (fun _ => .read _ fun _ => .act _ <| .line <|
    .ite _ (.line <| .act _ <| .ret _) (.write _ _ <| .line <| .act _ <| .ret _)) le_rfl

theorem requestProg_within : Within 2032 requestProg := by
  refine .write _ _ <| .bind 0 (executeProg_within _ _).tested (fun r => ?_) (by decide)
  rcases r with _ | x
  · exact .ret _
  · exact .ite _ (.line <| .act _ <| .ret _) (.ret _)

theorem antiCollisionProg_within : Within 2033 antiCollisionProg := by
  refine .write _ _ <| .bind 0 (executeProg_within _ _).tested (fun r => ?_) (by decide)
  rcases r with _ | x
  · exact .act _ <| .ret _
  · refine .line <| .ite _ (.act _ <| .ret _) (.line ?_)
    cases acceptedUid x.data with
    | none => exact .act _ <| .ret _
    | some u => exact .line <| .act _ <| .act _ <| .line <| .ret _

theorem selectFrame_length_le (p : Params) (uid : Bytes 4) : (selectFrame p uid).length ≤ 7 := by
  simp only [selectFrame, List.length_append, uid.2, List.length_cons, List.length_nil]
  split_ifs <;> simp

theorem selectTagProg_within (uid : Bytes 4) : Within 2308 (selectTagProg uid) := by
  refine .line <| .ask fun p => ?_
  have hlen := selectFrame_length_le p uid
  exact .orRaise 0 (sendWithCrcProg_within _) (fun r => .line <| .act _ <| .line <| .act _ <| .act _ <| .line <| .ret _)
    (by omega)

theorem authFrame_length (mode block : Byte) (key : Bytes 6) (uid : Bytes 4) : (authFrame mode block key uid).length = 12 := by
  simp only [authFrame, List.length_append, key.2, uid.2, List.length_cons, List.length_nil]

theorem authenticateProg_within (mode block : Byte) (key : Bytes 6) (uid : Bytes 4) :
    Within 2045 (authenticateProg mode block key uid) := by
  refine .line <| .bind 3 (executeProg_within _ _).tested (fun r => ?_) (by rw [authFrame_length])
  rcases r with _ | x
  · exact (tornDown_within _).mono (by decide)
  · exact .read _ fun _ => .act _ <| .ask fun _ => .ite _ (tornDown_within _) (.line <| .act _ <| .line <| .ret _)

theorem readBlockProg_within (block : Byte) : Within 2300 (readBlockProg block) := by
  refine .line <| .bind 2 (sendWithCrcProg_within (readFrameBytes block)) (fun r => ?_) le_rfl
  rcases r with _ | x
  · exact tornDown_within _
  · exact .line <| .ite _ (.line <| .ret _) (tornDown_within _)

/-- A phase of `writeBlock` sends a frame with its CRC, and fails with at most one teardown. -/
theorem writePhaseProg_within (e : ErrKind) (f : List Byte) : Within (2 * f.length + 2296) (writePhaseProg e f) := by
  refine .bind (f.length + 2034) (computeCrcProg_within f).tested (fun c => ?_) (by omega)
  rcases c with _ | c
  · exact (tornDown_within _).mono (by omega)
  · refine .bind 2 (executeProg_withCrc_within f c) (fun r => ?_) le_rfl
    rcases r with _ | x
    · exact tornDown_within _
    · exact .ite _ (.ret _) (tornDown_within _)

theorem writeBlockProg_within (block : Byte) (data : Bytes 16) : Within 4628 (writeBlockProg block data) := by
  refine .line <| .orRaise 2328 (writePhaseProg_within _ (writeFrameBytes block)) (fun _ => ?_) le_rfl
  exact .orRaise 0 (writePhaseProg_within _ data.val) (fun _ => .line <| .ret _) (by rw [data.2])

theorem stopCryptoProg_within : Within 2 stopCryptoProg :=
  .bind 0 (m := 2) (.read _ fun _ => .act _ <| .write _ _ <| .ret _) (fun _ => .line <| .act _ <| .ret _) le_rfl

/-- An operation makes as many transactions as its program. -/
theorem exec_within {i : Instr} {op : HostOp} {p : Prog α} {f : α → Result}
    (hp : program i = some (op, p.bind fun x => .ret (f x))) (hw : Within n p) (h : exec i s = .next t) :
    t.trace.length ≤ s.trace.length + n := by
  obtain ⟨-, rfl⟩ := exec_program_next hp h
  exact Within.bind 0 hw (fun _ => .ret _) le_rfl (begin op s)

/-- Settles O40: the largest is `writeBlock`, whose two phases make at most 2300 and 2328 transactions. -/
theorem cardOperationsAreBounded : Obligations.CardOperationsAreBounded := by
  unfold Obligations.CardOperationsAreBounded
  intro s t i hi h
  suffices ∃ n, n ≤ 4628 ∧ t.trace.length ≤ s.trace.length + n by
    obtain ⟨n, hn, ht⟩ := this
    omega
  rcases hi with rfl | rfl | rfl | rfl | ⟨u, rfl⟩ | ⟨m, b, k, u, rfl⟩ | ⟨b, rfl⟩ | ⟨b, d, rfl⟩ | rfl
  · exact ⟨_, by decide, exec_within rfl resetProg_within h⟩
  · exact ⟨_, by decide, exec_within rfl initProg_within h⟩
  · exact ⟨_, by decide, exec_within rfl requestProg_within h⟩
  · exact ⟨_, by decide, exec_within rfl antiCollisionProg_within h⟩
  · exact ⟨_, by decide, exec_within rfl (selectTagProg_within u) h⟩
  · exact ⟨_, by decide, exec_within rfl (authenticateProg_within m b k u) h⟩
  · exact ⟨_, by decide, exec_within rfl (readBlockProg_within b) h⟩
  · exact ⟨_, by decide, exec_within rfl (writeBlockProg_within b d) h⟩
  · exact ⟨_, by decide, exec_within rfl stopCryptoProg_within h⟩

end Sys2Proof.Safety
end
